-- ==== Sys2Proof/Word.lean ====
section
/-! DEFINITION. The plain types every layer speaks of: 32-bit words, register indices, variables, linear
combinations, rank-1 constraints and signals (spec 00_scope.md R12 to R14, 10_state.md R23). -/

namespace Sys2Proof

/-- R12: `W32`, the 32-bit words; also a 32-bit command word (R70). -/
abbrev Word := BitVec 32

/-- R24: the 6-bit index of a word register. -/
abbrev RIdx := Fin 64

/-- R21: the 7-bit index of a field-element register. -/
abbrev FIdx := Fin 128

/-- R14: a linear combination, a finite map from variables to non-zero coefficients in Fp, as a list of
(variable, coefficient) pairs in one canonical form: variables strictly rising, coefficients in 1..p-1
(`LC.wf` in Machine/Field.lean). Variable 0 is the constant `ONE`. -/
abbrev LC := List (Nat × Nat)

/-- R14: a rank-1 constraint: eval(a) · eval(b) = eval(c). -/
structure Constraint where
  a : LC
  b : LC
  c : LC
  deriving DecidableEq, Repr

/-- R23: a signal. The constant 0 is the empty linear combination and the constant 1 is 1·ONE; every other
signal is a single variable with coefficient 1. -/
inductive Signal where
  | const (b : Bool)
  | var (k : Nat)
  deriving DecidableEq, Repr

/-- R24: a Word32, 32 signals, least significant first. -/
abbrev Word32 := Vector Signal 32

/-- One auxiliary value of an `enforce_lt_p` form (93_implementation_defined.md row 6), as a polynomial over
the form's local variables: 0 is ONE, 1..m are the bits b_0..b_(m-1), and from m+1 on the auxiliary variables
before it. Every function of the bits into Fp is such a polynomial, so no form is shut out. -/
inductive WExpr where
  | const (c : Nat)
  | var (k : Nat)
  | add (x y : WExpr)
  | mul (x y : WExpr)
  deriving DecidableEq, Repr

/-- The open form of `enforce_lt_p` (R101; 93_implementation_defined.md row 6): its auxiliary variables'
honest values and its constraints, over the local variables of `WExpr`. LT_P_VARS is `aux.length` and
LT_P_CONS is `cons.length`. -/
structure LtPForm where
  aux : List WExpr
  cons : List Constraint
  deriving DecidableEq, Repr, Inhabited

end Sys2Proof
end

