-- ==== Sys2Proof/Syntax.lean ====
section
/-! DEFINITION. The commands of CCE-1: one constructor per row of spec/opcode_table.json (30_encoding.md R72,
R74, R76). Operands are the table's fields, each an index of its own file. -/

namespace Sys2Proof

/-- R76: the 14 commands. The operand order is the assembly order of R83, destination first. -/
inductive Instr where
  /-- DEC R<rd>, F<fs> (R102) -/
  | decompose (rd : RIdx) (fs : FIdx)
  /-- REC F<fd>, R<rs> (R105) -/
  | recompose (fd : FIdx) (rs : RIdx)
  /-- MOV R<rd>, R<rs> (R132) -/
  | mov (rd rs : RIdx)
  /-- ADD R<rd>, R<rs1>, R<rs2> (R126) -/
  | add (rd rs1 rs2 : RIdx)
  /-- XOR R<rd>, R<rs1>, R<rs2> (R129) -/
  | xor (rd rs1 rs2 : RIdx)
  /-- ROTL R<rd>, R<rs>, #<n> (R131) -/
  | rotl (rd rs : RIdx) (n : Fin 32)
  /-- QR R<a>, R<b>, R<c>, R<d> (R151) -/
  | qr (a b c d : RIdx)
  /-- DROUND (R167) -/
  | dround
  /-- LAYOUT F<fs> (R163) -/
  | layout (fs : FIdx)
  /-- SNAP (R164) -/
  | snap
  /-- PERM (R168) -/
  | perm
  /-- COMBINE (R170) -/
  | combine
  /-- BLOCK F<fs> (R172) -/
  | block (fs : FIdx)
  /-- STEP F<fs>, F<fx>, F<fd> (R191) -/
  | step (fs fx fd : FIdx)
  deriving DecidableEq, Repr

end Sys2Proof
end

