-- ==== Sys2Proof/WellFormed.lean ====
section
/-! DEFINITION. Which command terms stand for a command word. Index ranges are in the operand types (R75: a
field covers exactly its file), so the one check left is R79: QR's four registers are pairwise distinct. -/

namespace Sys2Proof

/-- R79: the four registers of a quarter-round are pairwise distinct. -/
def distinct4 (a b c d : RIdx) : Bool :=
  a != b && a != c && a != d && b != c && b != d && c != d

/-- A command term that some command word decodes to (R82). -/
def Instr.wellFormed : Instr → Bool
  | .qr a b c d => distinct4 a b c d
  | .decompose _ _ => true
  | .recompose _ _ => true
  | .mov _ _ => true
  | .add _ _ _ => true
  | .xor _ _ _ => true
  | .rotl _ _ _ => true
  | .dround => true
  | .layout _ => true
  | .snap => true
  | .perm => true
  | .combine => true
  | .block _ => true
  | .step _ _ _ => true

end Sys2Proof
end

