-- ==== Sys2Proof/Decode.lean ====
section
/-! DEFINITION. Decoding of the 32-bit command word, total, with every rejection named, and the encoder
(30_encoding.md R70 to R82). -/

namespace Sys2Proof

/-- R82: why a word is ILLEGAL, in the order of the checks. -/
inductive DecodeError where
  /-- R77: the opcode is not assigned. -/
  | reservedOpcode
  /-- R78: a reserved-zero bit of the format is 1. -/
  | reservedBits
  /-- R79: a QR word's registers are not pairwise distinct. -/
  | repeatedRegister
  deriving DecidableEq, Repr

/-- `v[lo+width-1 : lo]`, unsigned (R11, R74). -/
def bitField (w : Word) (lo width : Nat) : Nat := w.toNat / 2 ^ lo % 2 ^ width

/-- R71: OPCODE is bits 31:26. -/
def opcodeField (w : Word) : BitVec 6 := BitVec.ofNat 6 (bitField w 26 6)

/-- R74: a 6-bit field names R[field]. -/
def rField (w : Word) (lo : Nat) : RIdx := Fin.ofNat 64 (bitField w lo 6)

/-- R74: a 7-bit field names F[field]. -/
def fField (w : Word) (lo : Nat) : FIdx := Fin.ofNat 128 (bitField w lo 7)

/-- R74: the 5-bit rotation amount, bits 4:0. -/
def nField (w : Word) : Fin 32 := Fin.ofNat 32 (bitField w 0 5)

/-- R78: accept `i` only if the reserved-zero bits, `width` of them from bit `lo` up, are 0. -/
def ifZero (w : Word) (lo width : Nat) (i : Except DecodeError Instr) : Except DecodeError Instr :=
  if bitField w lo width = 0 then i else .error .reservedBits

/-- R82, the last check: QR's registers are distinct. -/
def checkRegisters (i : Instr) : Except DecodeError Instr :=
  if i.wellFormed then .ok i else .error .repeatedRegister

/-- R82: decoding is total; the checks run opcode, reserved bits, QR registers. Formats are R72's tables. -/
def decode (w : Word) : Except DecodeError Instr :=
  match bitField w 26 6 with
  | 0x01 => ifZero w 0 13 (.ok (.decompose (rField w 20) (fField w 13)))
  | 0x02 => ifZero w 0 13 (.ok (.recompose (fField w 13) (rField w 20)))
  | 0x03 => ifZero w 0 14 (.ok (.mov (rField w 20) (rField w 14)))
  | 0x04 => ifZero w 0 8 (.ok (.add (rField w 20) (rField w 14) (rField w 8)))
  | 0x05 => ifZero w 0 8 (.ok (.xor (rField w 20) (rField w 14) (rField w 8)))
  | 0x06 => ifZero w 5 9 (.ok (.rotl (rField w 20) (rField w 14) (nField w)))
  | 0x08 => ifZero w 0 2 (checkRegisters (.qr (rField w 20) (rField w 14) (rField w 8) (rField w 2)))
  | 0x09 => ifZero w 0 26 (.ok .dround)
  | 0x0A => ifZero w 0 19 (.ok (.layout (fField w 19)))
  | 0x0B => ifZero w 0 26 (.ok .snap)
  | 0x0C => ifZero w 0 26 (.ok .perm)
  | 0x0D => ifZero w 0 26 (.ok .combine)
  | 0x0E => ifZero w 0 19 (.ok (.block (fField w 19)))
  | 0x0F => ifZero w 0 5 (.ok (.step (fField w 19) (fField w 12) (fField w 5)))
  | _ => .error .reservedOpcode

/-- R76: the OPCODE of a command. -/
def Instr.opcode : Instr → BitVec 6
  | .decompose _ _ => 0x01
  | .recompose _ _ => 0x02
  | .mov _ _ => 0x03
  | .add _ _ _ => 0x04
  | .xor _ _ _ => 0x05
  | .rotl _ _ _ => 0x06
  | .qr _ _ _ _ => 0x08
  | .dround => 0x09
  | .layout _ => 0x0A
  | .snap => 0x0B
  | .perm => 0x0C
  | .combine => 0x0D
  | .block _ => 0x0E
  | .step _ _ _ => 0x0F

/-- R72, R74: the operand fields of a command, each at its place; reserved-zero bits are 0. -/
def Instr.operandBits : Instr → Nat
  | .decompose rd fs => rd.val * 2 ^ 20 + fs.val * 2 ^ 13
  | .recompose fd rs => rs.val * 2 ^ 20 + fd.val * 2 ^ 13
  | .mov rd rs => rd.val * 2 ^ 20 + rs.val * 2 ^ 14
  | .add rd rs1 rs2 => rd.val * 2 ^ 20 + rs1.val * 2 ^ 14 + rs2.val * 2 ^ 8
  | .xor rd rs1 rs2 => rd.val * 2 ^ 20 + rs1.val * 2 ^ 14 + rs2.val * 2 ^ 8
  | .rotl rd rs n => rd.val * 2 ^ 20 + rs.val * 2 ^ 14 + n.val
  | .qr a b c d => a.val * 2 ^ 20 + b.val * 2 ^ 14 + c.val * 2 ^ 8 + d.val * 2 ^ 2
  | .dround => 0
  | .layout fs => fs.val * 2 ^ 19
  | .snap => 0
  | .perm => 0
  | .combine => 0
  | .block fs => fs.val * 2 ^ 19
  | .step fs fx fd => fs.val * 2 ^ 19 + fx.val * 2 ^ 12 + fd.val * 2 ^ 5

/-- The command word of a command (R72). -/
def encode (i : Instr) : Word := BitVec.ofNat 32 (i.opcode.toNat * 2 ^ 26 + i.operandBits)

/-- The command the decoder reads from an instruction whose bits are `w`, numbered as spec/opcode_table.json
numbers them; every command is one 32-bit word (R70), bits from `nbits` up are 0. -/
def decodeTableWord (nbits w : Nat) : Option Instr :=
  match decode (BitVec.ofNat 32 (w % 2 ^ nbits)) with
  | .ok i => some i
  | .error _ => none

end Sys2Proof
end

