-- ==== Sys2Proof/Machine/Field.lean ====
section
/-! DEFINITION. Arithmetic in Fp on naturals, linear combinations in their canonical form, bit sequences, and
the evaluation of an `enforce_lt_p` form (00_scope.md R11, R12, R14; 40_word_codec.md R101). -/

namespace Sys2Proof

/-- R14: the canonical form of a linear combination over Fp: variables strictly rising, every coefficient
non-zero and below p. -/
def LC.wf (p : Nat) (L : LC) : Bool :=
  decide (List.Pairwise (fun s t : Nat × Nat => s.1 < t.1) L) && L.all fun t => t.2 != 0 && decide (t.2 < p)

/-- c·x_k as a linear combination. -/
def LC.term (p k c : Nat) : LC := if c % p = 0 then [] else [(k, c % p)]

/-- 1·x_k. -/
def LC.single (k : Nat) : LC := [(k, 1)]

/-- 1·ONE: the constant 1. -/
def LC.one : LC := [(0, 1)]

/-- Add c·x_k to a linear combination, keeping the canonical form. -/
def LC.insert (p k c : Nat) : LC → LC
  | [] => LC.term p k c
  | (j, d) :: L =>
    if k < j then LC.term p k c ++ (j, d) :: L
    else if k = j then LC.term p k (c + d) ++ L
    else (j, d) :: LC.insert p k c L

/-- The sum of two linear combinations. -/
def LC.add (p : Nat) (A B : LC) : LC := A.foldr (fun t L => LC.insert p t.1 t.2 L) B

/-- c times a linear combination. -/
def LC.scale (p c : Nat) (A : LC) : LC := A.flatMap fun t => LC.term p t.1 (c * t.2)

/-- A − B, with −1 as p − 1. -/
def LC.sub (p : Nat) (A B : LC) : LC := LC.add p A (LC.scale p (p - 1) B)

/-- Σ 2^(k+j)·L_j over a list of linear combinations (the weighted sums of R101 and R104). -/
def LC.weighted (p : Nat) : Nat → List LC → LC
  | _, [] => []
  | k, L :: Ls => LC.add p (LC.scale p (2 ^ k) L) (LC.weighted p (k + 1) Ls)

/-- R14: eval(L, z) = Σ c_k·z[k] in Fp, for an assignment given as a list; a variable past its end counts 0. -/
def LC.eval (p : Nat) (z : List Nat) (L : LC) : Nat := (L.map fun t => t.2 * z.getD t.1 0).sum % p

/-- R21, R30: the honest value of a linear combination, absent when a variable of it is ABSENT or unallocated. -/
def LC.honest (p : Nat) (assign : List (Option Nat)) : LC → Option Nat
  | [] => some 0
  | (k, c) :: L =>
    match (assign[k]?).join, LC.honest p assign L with
    | some x, some y => some ((c * x + y) % p)
    | _, _ => none

/-- R30: the constraint holds of the assignment. -/
def Constraint.holds (p : Nat) (z : List Nat) (q : Constraint) : Bool :=
  LC.eval p z q.a * LC.eval p z q.b % p == LC.eval p z q.c

/-- R23: the linear combination a signal is. -/
def Signal.toLC : Signal → LC
  | .const false => []
  | .const true => LC.one
  | .var k => LC.single k

/-- R14, R23: a signal is constant when it has no variable other than ONE. -/
def Signal.isConst : Signal → Bool
  | .const _ => true
  | .var k => k == 0

/-- R211: the value z(s) of a signal under an arbitrary assignment. -/
def Signal.value (z : List Nat) : Signal → Nat
  | .const b => b.toNat
  | .var k => z.getD k 0

/-- R11: the bits of N of weight 2^0 .. 2^(m-1), least significant first. -/
def natBits (m N : Nat) : List Bool := (List.range m).map fun k => N.testBit k

/-- R11: the value Σ b[k]·2^k of a bit sequence. -/
def bitsVal : List Bool → Nat
  | [] => 0
  | b :: bs => b.toNat + 2 * bitsVal bs

/-- R12: low32(x) = val(x) mod 2^32, as a word. -/
def low32 (N : Nat) : Word := BitVec.ofNat 32 N

/-- R9: FIELD_BITS, the least m with p < 2^m. -/
def fieldBits (p : Nat) : Nat := Nat.log2 p + 1

/-- The value in Fp of an auxiliary expression, given the values of the local variables before it. -/
def WExpr.eval (p : Nat) (loc : List Nat) : WExpr → Nat
  | .const c => c % p
  | .var k => loc.getD k 0 % p
  | .add x y => (x.eval p loc + y.eval p loc) % p
  | .mul x y => x.eval p loc * y.eval p loc % p

/-- The honest values of the auxiliary variables, each from ONE, the bits and the auxiliaries before it. -/
def auxValues (p : Nat) : List WExpr → List Nat → List Nat
  | [], _ => []
  | e :: es, loc => e.eval p loc :: auxValues p es (loc ++ [e.eval p loc])

/-- The honest values of a form's local variables for the bits of N: ONE, the bits, the auxiliaries. -/
def LtPForm.locals (p : Nat) (form : LtPForm) (bits : List Bool) : List Nat :=
  let base := 1 :: bits.map Bool.toNat
  base ++ auxValues p form.aux base

/-- R101: a form of `enforce_lt_p` is right for p when its constraints are canonical and over its own local
variables, the honest values of every bit vector of value below p satisfy them, and whatever satisfies them has
a bit vector of value below p. -/
structure LtPForm.Correct (p : Nat) (form : LtPForm) : Prop where
  inRange : ∀ q ∈ form.cons, ∀ L ∈ [q.a, q.b, q.c],
    LC.wf p L = true ∧ ∀ t ∈ L, t.1 < 1 + fieldBits p + form.aux.length
  complete : ∀ N < p, ∀ q ∈ form.cons, q.holds p (form.locals p (natBits (fieldBits p) N)) = true
  sound : ∀ (bits : List Bool) (aux : List Nat), bits.length = fieldBits p → aux.length = form.aux.length →
    (∀ q ∈ form.cons, q.holds p (1 :: bits.map Bool.toNat ++ aux) = true) → bitsVal bits < p

end Sys2Proof
end

