-- ==== Sys2Proof/Machine/Prime.lean ====
section
/-! DEFINITION. A proof that the spec's small test modulus 12884901893 (00_scope.md R10) is a prime, by Lucas's
criterion with repeated squaring. Config needs one legal modulus, for its free constant to have a type with a
member; nothing can tell whether the free constant is that member. -/

namespace Sys2Proof

/-- The power of `a` modulo `m` whose exponent has the listed bits, most significant first. -/
def powMod (a m : Nat) : List Bool → Nat → Nat
  | [], acc => acc
  | b :: bs, acc => powMod a m bs (bif b then acc * acc * a % m else acc * acc % m)

/-- The exponent a list of bits stands for. -/
def expOf : List Bool → Nat → Nat
  | [], e => e
  | b :: bs, e => expOf bs (2 * e + b.toNat)

/-- The `n` low bits of an exponent, most significant first. -/
def bitsMSB (n e : Nat) : List Bool := (List.range n).map fun k => e.testBit (n - 1 - k)

theorem powMod_cast (a m : Nat) : ∀ (bs : List Bool) (acc e : Nat), ((acc : ZMod m) = (a : ZMod m) ^ e) →
    ((powMod a m bs acc : Nat) : ZMod m) = (a : ZMod m) ^ expOf bs e
  | [], acc, e, h => h
  | b :: bs, acc, e, h => by
    apply powMod_cast a m bs
    cases b <;> simp [h, pow_add, pow_mul'] <;> ring

theorem pow_eq_powMod (a m n e r : Nat) (h : expOf (bitsMSB n e) 0 = e) (hr : powMod a m (bitsMSB n e) 1 = r) :
    (a : ZMod m) ^ e = (r : ZMod m) := by
  have hp := powMod_cast a m (bitsMSB n e) 1 0 (by simp)
  rw [h, hr] at hp
  exact hp.symm

theorem natCast_ne_one {m r : Nat} (hr : r < m) (h1 : r ≠ 1) (hm : 1 < m) : (r : ZMod m) ≠ 1 := by
  intro h
  have h' : ((r : Nat) : ZMod m) = ((1 : Nat) : ZMod m) := by simpa using h
  rw [ZMod.natCast_eq_natCast_iff', Nat.mod_eq_of_lt hr, Nat.mod_eq_of_lt hm] at h'
  exact h1 h'

theorem prime_3221225473 : Nat.Prime 3221225473 := by
  apply lucas_primality _ ((5 : Nat) : ZMod 3221225473)
  · exact (pow_eq_powMod 5 3221225473 32 (3221225473 - 1) 1 (by decide) (by decide)).trans (by simp)
  · intro q hq hd
    have h : q ∣ 2 ^ 30 * 3 := hd
    have hq' : q = 2 ∨ q = 3 := by
      rcases (Nat.Prime.dvd_mul hq).1 h with h | h
      · exact .inl ((Nat.prime_dvd_prime_iff_eq hq Nat.prime_two).1 (hq.dvd_of_dvd_pow h))
      · exact .inr ((Nat.prime_dvd_prime_iff_eq hq Nat.prime_three).1 h)
    rcases hq' with rfl | rfl <;> rw [pow_eq_powMod 5 3221225473 32 _ _ (by decide) rfl] <;>
      exact natCast_ne_one (by decide) (by decide) (by decide)

/-- R10: 12884901893 is a prime. -/
theorem prime_12884901893 : Nat.Prime 12884901893 := by
  apply lucas_primality _ ((2 : Nat) : ZMod 12884901893)
  · exact (pow_eq_powMod 2 12884901893 34 (12884901893 - 1) 1 (by decide) (by decide)).trans (by simp)
  · intro q hq hd
    have h : q ∣ 2 ^ 2 * 3221225473 := hd
    have hq' : q = 2 ∨ q = 3221225473 := by
      rcases (Nat.Prime.dvd_mul hq).1 h with h | h
      · exact .inl ((Nat.prime_dvd_prime_iff_eq hq Nat.prime_two).1 (hq.dvd_of_dvd_pow h))
      · exact .inr ((Nat.prime_dvd_prime_iff_eq hq prime_3221225473).1 h)
    rcases hq' with rfl | rfl <;> rw [pow_eq_powMod 2 12884901893 34 _ _ (by decide) rfl] <;>
      exact natCast_ne_one (by decide) (by decide) (by decide)

end Sys2Proof
end

