-- ==== Sys2Proof/Config.lean ====
section
/-! DEFINITION. The open parameters of the engine (00_scope.md R9, 93_implementation_defined.md rows 5 to 7) and
the fixed ones. The open ones are one constant with no body, of a type whose members are the legal choices. -/

namespace Sys2Proof

/-- R9: the open parameters. -/
structure Params where
  /-- FIELD_MODULUS -/
  p : Nat
  /-- DECOMP_CANONICAL -/
  canonical : Bool
  /-- 93_implementation_defined.md row 6: the form of `enforce_lt_p` -/
  ltP : LtPForm
  deriving DecidableEq, Repr

/-- R9: FIELD_BITS, derived. -/
def Params.m (P : Params) : Nat := fieldBits P.p

/-- The numbers of variables and constraints one decomposition appends (R101, 93_implementation_defined.md
row 6). -/
def Params.decVars (P : Params) : Nat := P.m + if P.canonical then P.ltP.aux.length else 0
/-- R101: the constraints of one decomposition. -/
def Params.decCons (P : Params) : Nat := P.m + 1 + if P.canonical then P.ltP.cons.length else 0

/-- R9, D2: the legal parameters: p prime and above 2^33, and, where decomposition enforces canonicity, a right
form of `enforce_lt_p`. -/
structure Params.Valid (P : Params) : Prop where
  prime : P.p.Prime
  large : 2 ^ 33 < P.p
  ltP : P.canonical = true → P.ltP.Correct P.p

/-- R10: the small test modulus, without the canonical check. -/
def Params.small : Params := ⟨12884901893, false, ⟨[], []⟩⟩

theorem Params.small_valid : Params.small.Valid := ⟨prime_12884901893, by decide, nofun⟩

/-- Parameters with the proof that they are legal. -/
structure ValidParams where
  raw : Params := Params.small
  valid : raw.Valid := by exact Params.small_valid
  deriving Inhabited

/-- R9: the open parameters of this engine. A free constant: it has no body, so nothing can be proved of it but
that it is legal (log entry 1). -/
opaque Config.chosen : ValidParams

/-- The parameters State.reset takes. -/
def Config.params : Params := Config.chosen.raw

theorem Config.params_valid : Config.params.Valid := Config.chosen.valid

/-- R9: the fixed sizes. -/
def Config.stateLen : Nat := 28
/-- R9: EXT_LEN. -/
def Config.extLen : Nat := 16
/-- R9: F_SIZE. -/
def Config.fSize : Nat := 128
/-- R9: R_SIZE. -/
def Config.rSize : Nat := 64

end Sys2Proof
end

