-- ==== Sys2Proof/Machine/State.lean ====
section
/-! DEFINITION. The state of the engine (10_state.md), the host's pending operations and the replies it has
received (60_exceptions.md R235), the reasons a step stops, and the state after power-on reset. -/

namespace Sys2Proof.Machine

/-- The model never stops with a fault: every error of R220 is a next state with STATUS written, so the type has
no member (safe: no step is claimed to stop). -/
inductive Fault where
  deriving DecidableEq, Repr

/-- Why the model gives an operation no transition. -/
inductive Refusal where
  /-- Raised by `exec` for a command without a meaning; no arm raises it. Safe: the machine stops. -/
  | notModelled (mnemonic : String)
  /-- R235, R38, D38: H_WRITE_F or H_READ_F with an index above 127. Raised by `hostWriteF`, `hostReadF`. Safe. -/
  | fieldIndexOutOfRange (index : Nat)
  /-- R235, D38: H_READ_R with an index above 63. Raised by `hostReadR`. Safe. -/
  | wordIndexOutOfRange (index : Nat)
  /-- R38, D38: H_READ_ID with an index above 5. Raised by `hostReadId`. Safe. -/
  | idIndexOutOfRange (index : Nat)
  deriving DecidableEq, Repr

/-- R36: the leaf gadgets an error can name. -/
inductive Gadget where
  | none
  | dec
  | recomp
  | mov
  | add
  | xor
  | rotl
  deriving DecidableEq, Repr

/-- R34: the index space an error's INDEX names. -/
inductive Space where
  | r
  | f
  deriving DecidableEq, Repr

/-- R15, R220: the errors of a command. -/
inductive Err where
  /-- R221 -/
  | decomposition (gadget : Gadget) (space : Space) (index : Nat)
  /-- R222 -/
  | shape (base : Nat)
  /-- R223 -/
  | illegal
  /-- R225 -/
  | contextReuse
  deriving DecidableEq, Repr

/-- R21: a field-element register: UNWRITTEN, or WRITTEN(L, v), with v = none for ABSENT. -/
inductive FReg where
  | unwritten
  | written (L : LC) (v : Option Nat)
  deriving DecidableEq, Repr

/-- R24: a word register: UNWRITTEN, or a Word32. -/
inductive RReg where
  | unwritten
  | written (w : Word32)
  deriving DecidableEq, Repr

/-- R28: the constraint context. A value `none` in `assign` is ABSENT. -/
structure Ctx where
  assign : List (Option Nat)
  cons : List Constraint
  nstep : Nat
  deriving DecidableEq, Repr

/-- R42, R251: the fresh context; variable 0 is ONE, with value 1. -/
def Ctx.fresh : Ctx := ⟨[some 1], [], 0⟩

/-- R235: the operations by which the host reaches the engine. -/
inductive HostOp where
  /-- H_OPEN -/
  | openCtx
  /-- H_WRITE_F(i, v); v is an integer, reduced mod p, or none for ABSENT -/
  | writeF (i : Nat) (v : Option Nat)
  /-- H_ISSUE(w) -/
  | issue (w : Word)
  /-- H_READ_F(i) -/
  | readF (i : Nat)
  /-- H_READ_R(j) -/
  | readR (j : Nat)
  /-- H_READ_STATUS -/
  | readStatus
  /-- H_READ_ID(k) -/
  | readId (k : Nat)
  /-- H_READ_CTX -/
  | readCtx
  deriving DecidableEq, Repr

/-- R235: what H_READ_R returns: UNWRITTEN, or the 32 signals as linear combinations, their honest values and
R[j].val. -/
inductive RView where
  | unwritten
  | written (sig : List LC) (bits : List Bool) (val : Word)
  deriving DecidableEq, Repr

/-- R235: what a read operation returns to the host. -/
inductive Reply where
  | field (x : FReg)
  | word (x : RView)
  | status (x : Word)
  | ident (x : Nat)
  /-- H_READ_CTX: the context whole, with NVARS, NCONS and NSTEP (R39) -/
  | context (x : Ctx) (nvars ncons nstep : Nat)
  deriving DecidableEq, Repr

/-- The engine (10_state.md) with its host interface. -/
structure State where
  /-- R9: the open parameters. No step changes them; they stand here because `exec` takes no other argument
  (log entry 1). -/
  params : Params
  /-- R21: F[0..127] -/
  f : Vector FReg 128
  /-- R24: R[0..63] -/
  r : Vector RReg 64
  /-- R28: CTX -/
  ctx : Ctx
  /-- R34: STATUS -/
  status : Word
  /-- R235, R20: the operations the host has yet to perform, first one first (log entry 2) -/
  pending : List HostOp
  /-- R235: what the host's read operations have returned, oldest first (log entry 3) -/
  replies : List Reply
  deriving DecidableEq, Repr

/-- R42: a freshly opened engine with the given parameters, host operations to come and replies given. -/
def State.fresh (P : Params) (pending : List HostOp) (replies : List Reply) : State where
  params := P
  f := Vector.replicate 128 .unwritten
  r := Vector.replicate 64 .unwritten
  ctx := Ctx.fresh
  status := 0#32
  pending := pending
  replies := replies

/-- R42, R250, R252: the engine after power-on reset, waiting for the host. -/
def State.reset : State := State.fresh Config.params [] []

end Sys2Proof.Machine
end

