-- ==== Sys2Proof/Machine/Flags.lean ====
section
/-! DEFINITION. STATUS, the one status register: its fields, codes and encoding (10_state.md R34 to R37,
60_exceptions.md R220, R226), and the identification registers (R38). The engine has no other flag (R33). -/

namespace Sys2Proof.Machine

/-- R36: the GADGET codes. -/
def Gadget.code : Gadget → BitVec 4
  | .none => 0
  | .dec => 1
  | .recomp => 2
  | .mov => 3
  | .add => 4
  | .xor => 5
  | .rotl => 6

/-- R35: the KIND codes. -/
def Err.kind : Err → BitVec 3
  | .decomposition _ _ _ => 1
  | .shape _ => 2
  | .illegal => 3
  | .contextReuse => 4

/-- R220: GADGET is the leaf gadget of a DecompositionFailure, and 0 otherwise. -/
def Err.gadget : Err → BitVec 4
  | .decomposition g _ _ => g.code
  | .shape _ => 0
  | .illegal => 0
  | .contextReuse => 0

/-- R34, R220: SPACE: 0 for R (and where no register is concerned), 1 for F. -/
def Err.space : Err → BitVec 1
  | .decomposition _ .r _ => 0
  | .decomposition _ .f _ => 1
  | .shape _ => 1
  | .illegal => 0
  | .contextReuse => 0

/-- R220: INDEX: the register, the run's base, or 0. -/
def Err.index : Err → BitVec 7
  | .decomposition _ _ i => BitVec.ofNat 7 i
  | .shape base => BitVec.ofNat 7 base
  | .illegal => 0
  | .contextReuse => 0

/-- R226: the STATUS value of an error: 1 | KIND<<1 | GADGET<<4 | OPCODE<<8 | SPACE<<14 | INDEX<<15. -/
def statusWord (op : BitVec 6) (e : Err) : Word :=
  1#32 ||| (e.kind.setWidth 32 <<< 1) ||| (e.gadget.setWidth 32 <<< 4) ||| (op.setWidth 32 <<< 8)
    ||| (e.space.setWidth 32 <<< 14) ||| (e.index.setWidth 32 <<< 15)

/-- STATUS.ERR, bit 0. -/
def State.err (s : State) : Bool := s.status.getLsbD 0
/-- STATUS.KIND, bits 3:1. -/
def State.kind (s : State) : BitVec 3 := s.status.extractLsb' 1 3
/-- STATUS.GADGET, bits 7:4. -/
def State.gadget (s : State) : BitVec 4 := s.status.extractLsb' 4 4
/-- STATUS.OPCODE, bits 13:8. -/
def State.opcode (s : State) : BitVec 6 := s.status.extractLsb' 8 6
/-- STATUS.SPACE, bit 14. -/
def State.space (s : State) : BitVec 1 := s.status.extractLsb' 14 1
/-- STATUS.INDEX, bits 21:15. -/
def State.index (s : State) : BitVec 7 := s.status.extractLsb' 15 7
/-- STATUS bits 31:22, reserved. -/
def State.reservedBits (s : State) : BitVec 10 := s.status.extractLsb' 22 10

/-- R38: the identification registers, constants of the engine; none past 5. -/
def idRegister (P : Params) : Nat → Option Nat
  | 0 => some Config.stateLen
  | 1 => some Config.extLen
  | 2 => some Config.fSize
  | 3 => some Config.rSize
  | 4 => some P.m
  | 5 => some P.canonical.toNat
  | _ => none

/-- R197: `state_len()` is the identification register STATE_LEN. -/
def stateLen (P : Params) : Nat := (idRegister P 0).getD 0

end Sys2Proof.Machine
end

