-- ==== Sys2Proof/Machine/Gates.lean ====
section
/-! DEFINITION. Emission into the constraint context: allocation, constraints, the single-bit gates, and the
word gadgets add32, xor32 and rot (00_scope.md R14; 41_bitwise_arithmetic.md R121 to R130). -/

namespace Sys2Proof.Machine

/-- R14: `alloc(v)`: append a fresh variable with honest value v and return its index. -/
def Ctx.alloc (v : Option Nat) (c : Ctx) : Nat × Ctx :=
  (c.assign.length, { c with assign := c.assign ++ [v] })

/-- R14: `enforce(A, B, C)`. -/
def Ctx.enforce (q : Constraint) (c : Ctx) : Ctx := { c with cons := c.cons ++ [q] }

/-- Allocate one variable per value, in order. -/
def Ctx.allocAll : List (Option Nat) → Ctx → List Nat × Ctx
  | [], c => ([], c)
  | v :: vs, c =>
    let r := Ctx.allocAll vs (c.alloc v).2
    ((c.alloc v).1 :: r.1, r.2)

/-- The honest value of a variable; ABSENT and unallocated variables, which no signal of a reachable state
names, count 0. -/
def Ctx.value (c : Ctx) (k : Nat) : Nat := ((c.assign[k]?).join).getD 0

/-- R23: the honest value of a signal. -/
def Ctx.bit (c : Ctx) : Signal → Bool
  | .const b => b
  | .var k => c.value k == 1

/-- R25: R[j].val, the weighted sum of the word's own 32 signals. -/
def Ctx.wordVal (c : Ctx) (w : Word32) : Word := BitVec.ofNat 32 (bitsVal (w.toList.map c.bit))

/-- The common form of R121 to R123: fold when both inputs are constant, else one variable with the value of the
boolean function and one constraint. -/
def gate (op : Bool → Bool → Bool) (rel : LC → LC → LC → Constraint) (x y : Signal) (c : Ctx) : Signal × Ctx :=
  if x.isConst && y.isConst then (.const (op (c.bit x) (c.bit y)), c)
  else
    let z := c.alloc (some (op (c.bit x) (c.bit y)).toNat)
    (.var z.1, z.2.enforce (rel x.toLC y.toLC (LC.single z.1)))

/-- R121: 2xy = x + y − z. -/
def xorRel (p : Nat) (x y z : LC) : Constraint := ⟨LC.scale p 2 x, y, LC.sub p (LC.add p x y) z⟩

/-- R122: xy = z. -/
def andRel (x y z : LC) : Constraint := ⟨x, y, z⟩

/-- R123: xy = x + y − z. -/
def orRel (p : Nat) (x y z : LC) : Constraint := ⟨x, y, LC.sub p (LC.add p x y) z⟩

/-- R121 -/
def bxor (p : Nat) (x y : Signal) (c : Ctx) : Signal × Ctx := gate Bool.xor (xorRel p) x y c

/-- R122 -/
def band (x y : Signal) (c : Ctx) : Signal × Ctx := gate Bool.and andRel x y c

/-- R123 -/
def bor (p : Nat) (x y : Signal) (c : Ctx) : Signal × Ctx := gate Bool.or (orRel p) x y c

/-- R125: one bit of the ripple-carry adder below bit 31: t, s_k, g, h and the next carry, appended in that
order. Answers (s_k, carry_(k+1)). -/
def fullAdder (p : Nat) (x y carry : Signal) (c : Ctx) : (Signal × Signal) × Ctx :=
  let t := bxor p x y c
  let s := bxor p t.1 carry t.2
  let g := band x y s.2
  let h := band t.1 carry g.2
  let k := bor p g.1 h.1 h.2
  ((s.1, k.1), k.2)

/-- R125: bit 31: t and s_31 only; carry_32 is never formed. -/
def lastAdder (p : Nat) (x y carry : Signal) (c : Ctx) : Signal × Ctx :=
  let t := bxor p x y c
  bxor p t.1 carry t.2

/-- R125: the adder over the pairs of bits, ascending. -/
def addBits (p : Nat) : List (Signal × Signal) → Signal → Ctx → List Signal × Ctx
  | [], _, c => ([], c)
  | [q], carry, c =>
    let s := lastAdder p q.1 q.2 carry c
    ([s.1], s.2)
  | q :: q' :: qs, carry, c =>
    let a := fullAdder p q.1 q.2 carry c
    let r := addBits p (q' :: qs) a.1.2 a.2
    (a.1.1 :: r.1, r.2)

theorem addBits_length (p : Nat) : ∀ (qs : List (Signal × Signal)) (carry : Signal) (c : Ctx),
    (addBits p qs carry c).1.length = qs.length
  | [], _, _ => rfl
  | [_], _, _ => rfl
  | q :: q' :: qs, carry, c => by
    simp only [addBits, List.length_cons]
    rw [addBits_length p (q' :: qs), List.length_cons]

/-- Apply an emitting function to the elements of a list, in ascending order. -/
def mapCtx {α β : Type} (g : α → Ctx → β × Ctx) : List α → Ctx → List β × Ctx
  | [], c => ([], c)
  | x :: xs, c =>
    let y := g x c
    let r := mapCtx g xs y.2
    (y.1 :: r.1, r.2)

theorem mapCtx_length {α β : Type} (g : α → Ctx → β × Ctx) : ∀ (xs : List α) (c : Ctx),
    (mapCtx g xs c).1.length = xs.length
  | [], _ => rfl
  | x :: xs, c => by simp only [mapCtx, List.length_cons, mapCtx_length g xs]

/-- `mapCtx` on a fixed number of elements. -/
def mapVec {α β : Type} {n : Nat} (g : α → Ctx → β × Ctx) (v : Vector α n) (c : Ctx) : Vector β n × Ctx :=
  let r := mapCtx g v.toList c
  (⟨r.1.toArray, by simp [r, mapCtx_length]⟩, r.2)

/-- R125: `add32(a, b)`, with carry_0 = false. -/
def add32 (p : Nat) (a b : Word32) (c : Ctx) : Word32 × Ctx :=
  let r := addBits p (a.zip b).toList (.const false) c
  (⟨r.1.toArray, by simp [r, addBits_length]⟩, r.2)

/-- R128: `xor32(a, b)`. -/
def xor32 (p : Nat) (a b : Word32) (c : Ctx) : Word32 × Ctx :=
  mapVec (fun q : Signal × Signal => bxor p q.1 q.2) (a.zip b) c

/-- R130: `rot(a, n)`: output signal k is input signal (k − n) mod 32. -/
def rot (a : Word32) (n : Fin 32) : Word32 :=
  Vector.ofFn fun k : Fin 32 => a[(k.val + 32 - n.val) % 32]'(Nat.mod_lt _ (by decide))

/-- R161, R23: a constant word: 32 constant signals. -/
def constWord (w : Word) : Word32 := Vector.ofFn fun k : Fin 32 => Signal.const (w.getLsbD k.val)

end Sys2Proof.Machine
end

