-- ==== Sys2Proof/Machine/Operands.lean ====
section
/-! DEFINITION. Operands: reading word and field registers, the checks on them in order, and the runs of F
registers (00_scope.md R15; 60_exceptions.md R221, R222, R229; 20_memory.md R56). -/

namespace Sys2Proof.Machine

/-- The word of a word register; of an unwritten one, which `checkR` never lets through, the constant 0. -/
def RReg.word : RReg → Word32
  | .unwritten => constWord 0
  | .written w => w

/-- R21: the linear combination of a field register; of an unwritten one, which `checkF` never lets through,
the empty one. -/
def FReg.lc : FReg → LC
  | .unwritten => []
  | .written L _ => L

/-- R21: the value of a field register: none when UNWRITTEN or ABSENT. -/
def FReg.val : FReg → Option Nat
  | .unwritten => none
  | .written _ v => v

/-- R[j] -/
def State.word (s : State) (j : RIdx) : Word32 := s.r[j].word

/-- R25: R[j].val, for a written register. -/
def State.rval (s : State) (j : RIdx) : Option Word :=
  match s.r[j] with
  | .unwritten => none
  | .written w => some (s.ctx.wordVal w)

/-- R12: val(F[i]), for a written register with a value. -/
def State.fval (s : State) (i : FIdx) : Option Nat := s.f[i].val

/-- R15: check_R(j, g). -/
def State.checkR (s : State) (j : RIdx) (g : Gadget) : Except Err Unit :=
  match s.r[j] with
  | .unwritten => .error (.decomposition g .r j.val)
  | .written _ => .ok ()

/-- R120, R229: the first unwritten register of a list, in order, is the one reported. -/
def State.checkRs (s : State) : List (RIdx × Gadget) → Except Err Unit
  | [] => .ok ()
  | q :: qs =>
    match s.checkR q.1 q.2 with
    | .error e => .error e
    | .ok _ => s.checkRs qs

/-- R15: check_F(i), answering the register's linear combination and value. -/
def checkF (f : Vector FReg 128) (i : FIdx) : Except Err (LC × Nat) :=
  match f[i] with
  | .unwritten => .error (.decomposition .dec .f i.val)
  | .written _ none => .error (.decomposition .dec .f i.val)
  | .written L (some v) => .ok (L, v)

/-- R56, R222: a run of `len` F registers from `base` ends inside the F space. -/
def checkRun (base : FIdx) (len : Nat) : Except Err Unit :=
  if base.val + len > 128 then .error (.shape base.val) else .ok ()

/-- F[base + k], for a run that `checkRun` let through. -/
def runIdx (base : FIdx) (k : Nat) : FIdx := Fin.ofNat 128 (base.val + k)

/-- R[base + k]. -/
def wordIdx (base k : Nat) : RIdx := Fin.ofNat 64 (base + k)

/-- R26: the 16 words of R[base .. base+15]. -/
def State.words16 (s : State) (base : Nat) : Vector Word32 16 :=
  Vector.ofFn fun i : Fin 16 => s.word (wordIdx base i.val)

end Sys2Proof.Machine
end

