-- ==== Sys2Proof/Machine/Ops.lean ====
section
/-! DEFINITION. The named operations over the register files and the context, and the taking of an error
(60_exceptions.md R224 to R227, R230). The engine has no return from an error but H_OPEN (R231), which stands
beside it. -/

namespace Sys2Proof.Machine

/-- R[j] <- w -/
def State.setR (s : State) (j : RIdx) (w : Word32) : State :=
  { s with r := s.r.set j.val (.written w) j.isLt }

/-- F[i] <- x -/
def State.setF (s : State) (i : FIdx) (x : FReg) : State :=
  { s with f := s.f.set i.val x i.isLt }

/-- CTX <- c -/
def State.setCtx (s : State) (c : Ctx) : State := { s with ctx := c }

/-- R[base .. base+n-1] <- ws -/
def putWords {n : Nat} (base : Nat) (ws : Vector Word32 n) (r : Vector RReg 64) : Vector RReg 64 :=
  Vector.ofFn fun j : Fin 64 =>
    if h : base ≤ j.val ∧ j.val < base + n then .written (ws[j.val - base]'(by omega)) else r[j]

/-- R[base .. base+n-1] <- ws, in the state -/
def State.setWords {n : Nat} (s : State) (base : Nat) (ws : Vector Word32 n) : State :=
  { s with r := putWords base ws s.r }

/-- F[base .. base+n-1] <- xs, for a run that `checkRun` let through -/
def putFields {n : Nat} (base : Nat) (xs : Vector FReg n) (f : Vector FReg 128) : Vector FReg 128 :=
  Vector.ofFn fun i : Fin 128 =>
    if h : base ≤ i.val ∧ i.val < base + n then xs[i.val - base]'(by omega) else f[i]

/-- F[base .. base+n-1] <- xs, in the state -/
def State.setFields {n : Nat} (s : State) (base : Nat) (xs : Vector FReg n) : State :=
  { s with f := putFields base xs s.f }

/-- Taking an error (R226, R227, R230): STATUS gets the error while ERR = 0 and keeps the first one after;
nothing else changes (R224). `op` is bits 31:26 of the failing word. -/
def State.raise (s : State) (op : BitVec 6) (e : Err) : State :=
  if s.err then s else { s with status := statusWord op e }

/-- R251: H_OPEN, the only way on from an error: a fresh context. -/
def State.openCtx (s : State) : State := State.fresh s.params s.pending s.replies

/-- R224, R230: a command ends in its whole result or, when it fails, in the state before it with the error
taken. -/
def finish (op : BitVec 6) (s : State) (r : Except Err State) : Host.Outcome State Fault Refusal :=
  match r with
  | .ok t => .next t
  | .error e => .next (s.raise op e)

end Sys2Proof.Machine
end

