-- ==== Sys2Proof/Machine/Bitwise.lean ====
section
/-! DEFINITION. BitwiseArithmetic: the commands MOV, ADD, XOR and ROTL (41_bitwise_arithmetic.md). -/

namespace Sys2Proof.Machine

/-- The common form of the word commands: the operand checks, then one result word and what it emitted. -/
def wordCommand (op : BitVec 6) (checks : List (RIdx × Gadget)) (rd : RIdx) (result : Word32 × Ctx) (s : State) :
    Host.Outcome State Fault Refusal :=
  finish op s <|
    match s.checkRs checks with
    | .error e => .error e
    | .ok _ => .ok ((s.setCtx result.2).setR rd result.1)

/-- R132: MOV R<rd>, R<rs>. -/
def execMov (rd rs : RIdx) (s : State) : Host.Outcome State Fault Refusal :=
  wordCommand 0x03 [(rs, .mov)] rd (s.word rs, s.ctx) s

/-- R126: ADD R<rd>, R<rs1>, R<rs2>. -/
def execAdd (rd rs1 rs2 : RIdx) (s : State) : Host.Outcome State Fault Refusal :=
  wordCommand 0x04 [(rs1, .add), (rs2, .add)] rd (add32 s.params.p (s.word rs1) (s.word rs2) s.ctx) s

/-- R129: XOR R<rd>, R<rs1>, R<rs2>. -/
def execXor (rd rs1 rs2 : RIdx) (s : State) : Host.Outcome State Fault Refusal :=
  wordCommand 0x05 [(rs1, .xor), (rs2, .xor)] rd (xor32 s.params.p (s.word rs1) (s.word rs2) s.ctx) s

/-- R131: ROTL R<rd>, R<rs>, #<n>. -/
def execRotl (rd rs : RIdx) (n : Fin 32) (s : State) : Host.Outcome State Fault Refusal :=
  wordCommand 0x06 [(rs, .rotl)] rd (rot (s.word rs) n, s.ctx) s

end Sys2Proof.Machine
end

