-- ==== Sys2Proof/Machine/QuarterRound.lean ====
section
/-! DEFINITION. QuarterRound: the gadget qr and the command QR (42_quarter_round.md). -/

namespace Sys2Proof.Machine

/-- R150: one line of qr: x <- add32(x, y); z <- xor32(z, x); z <- rot(z, n). Answers (x, z). -/
def qrLine (p : Nat) (x y z : Word32) (n : Fin 32) (c : Ctx) : (Word32 × Word32) × Ctx :=
  let a := add32 p x y c
  let d := xor32 p z a.1 a.2
  ((a.1, rot d.1 n), d.2)

/-- The four words of a quarter-round. -/
structure Quad (α : Type) where
  a : α
  b : α
  c : α
  d : α
  deriving DecidableEq, Repr

/-- R150: `qr(A, B, C, D)`, the four lines in order. -/
def qrGadget (p : Nat) (w : Quad Word32) (c : Ctx) : Quad Word32 × Ctx :=
  let l1 := qrLine p w.a w.b w.d 16 c
  let l2 := qrLine p w.c l1.1.2 w.b 12 l1.2
  let l3 := qrLine p l1.1.1 l2.1.2 l1.1.2 8 l2.2
  let l4 := qrLine p l2.1.1 l3.1.2 l2.1.2 7 l3.2
  (⟨l3.1.1, l4.1.2, l4.1.1, l3.1.2⟩, l4.2)

/-- R151: QR R<a>, R<b>, R<c>, R<d>. A term with repeated registers, which no word decodes to (R79), is an
IllegalCommand here too. -/
def execQr (a b c d : RIdx) (s : State) : Host.Outcome State Fault Refusal :=
  finish 0x08 s <|
    if distinct4 a b c d then
      match s.checkRs [(a, .add), (b, .add), (c, .add), (d, .xor)] with
      | .error e => .error e
      | .ok _ =>
        let q := qrGadget s.params.p ⟨s.word a, s.word b, s.word c, s.word d⟩ s.ctx
        .ok (((((s.setCtx q.2).setR a q.1.a).setR b q.1.b).setR c q.1.c).setR d q.1.d)
    else .error .illegal

end Sys2Proof.Machine
end

