-- ==== Sys2Proof/Machine/WordCodec.lean ====
section
/-! DEFINITION. The WordCodec: the gadgets decompose and recompose, and the commands DEC and REC
(40_word_codec.md). -/

namespace Sys2Proof.Machine

/-- R101: b·(1 − b) = 0 for the variable k. -/
def booleanity (p k : Nat) : Constraint := ⟨LC.single k, LC.sub p LC.one (LC.single k), []⟩

/-- R101: the loop over k: allocate the bit, then its booleanity constraint. -/
def allocBits (p : Nat) : List Bool → Ctx → List Nat × Ctx
  | [], c => ([], c)
  | b :: bs, c =>
    let k := c.alloc (some b.toNat)
    let r := allocBits p bs (k.2.enforce (booleanity p k.1))
    (k.1 :: r.1, r.2)

/-- A linear combination of a form's local variables, over the context's variables. -/
def renameLC (names : List Nat) (L : LC) : LC := L.map fun t => (names.getD t.1 0, t.2)

/-- A form's constraint over the context's variables. -/
def renameCons (names : List Nat) (q : Constraint) : Constraint :=
  ⟨renameLC names q.a, renameLC names q.b, renameLC names q.c⟩

/-- R101, 93_implementation_defined.md row 6: `enforce_lt_p` over the bits b_0 .. b_(m-1): the auxiliary
variables of the form, then its constraints. -/
def enforceLtP (P : Params) (bits : List Bool) (ks : List Nat) (c : Ctx) : Ctx :=
  let vals := auxValues P.p P.ltP.aux (1 :: bits.map Bool.toNat)
  let r := Ctx.allocAll (vals.map some) c
  { r.2 with cons := r.2.cons ++ P.ltP.cons.map (renameCons (0 :: ks ++ r.1)) }

/-- R101: `decompose` of a register with linear combination L and value N, after check_F: m booleanity
constraints, the weighted sum of all m bits equal to L, then `enforce_lt_p` where DECOMP_CANONICAL = 1. The word
is b_0 .. b_31. -/
def decomposeBits (P : Params) (L : LC) (N : Nat) (c : Ctx) : Word32 × Ctx :=
  let bits := natBits P.m N
  let r := allocBits P.p bits c
  let c1 := r.2.enforce ⟨LC.weighted P.p 0 (r.1.map LC.single), LC.one, L⟩
  let c2 := if P.canonical then enforceLtP P bits r.1 c1 else c1
  (Vector.ofFn fun k : Fin 32 => Signal.var (r.1.getD k.val 0), c2)

/-- R101: `decompose(i)`. -/
def decompose (P : Params) (f : Vector FReg 128) (i : FIdx) (c : Ctx) : Except Err (Word32 × Ctx) :=
  match checkF f i with
  | .error e => .error e
  | .ok (L, N) => .ok (decomposeBits P L N c)

/-- Decompose a list of registers, in order; the first that fails is reported. -/
def decomposeAll (P : Params) (f : Vector FReg 128) : List FIdx → Ctx → Except Err (List Word32 × Ctx)
  | [], c => .ok ([], c)
  | i :: is, c =>
    match decompose P f i c with
    | .error e => .error e
    | .ok (w, c') =>
      match decomposeAll P f is c' with
      | .error e => .error e
      | .ok (ws, c'') => .ok (w :: ws, c'')

/-- R104: `recompose(w)`: the re-weighted sum, with the word's own value; nothing is allocated or enforced. -/
def recompose (P : Params) (c : Ctx) (w : Word32) : FReg :=
  .written (LC.weighted P.p 0 (w.toList.map Signal.toLC)) (some (c.wordVal w).toNat)

/-- R102: DEC R<rd>, F<fs>. -/
def execDec (rd : RIdx) (fs : FIdx) (s : State) : Host.Outcome State Fault Refusal :=
  finish 0x01 s <|
    match decompose s.params s.f fs s.ctx with
    | .error e => .error e
    | .ok (w, c) => .ok ((s.setCtx c).setR rd w)

/-- R105: REC F<fd>, R<rs>. -/
def execRec (fd : FIdx) (rs : RIdx) (s : State) : Host.Outcome State Fault Refusal :=
  finish 0x02 s <|
    match s.checkR rs .recomp with
    | .error e => .error e
    | .ok _ => .ok (s.setF fd (recompose s.params s.ctx (s.word rs)))

end Sys2Proof.Machine
end

