-- ==== Sys2Proof/Machine/Block.lean ====
section
/-! DEFINITION. BlockPermutation: layout, double rounds, combine and the whole block, and the commands LAYOUT,
SNAP, DROUND, PERM, COMBINE and BLOCK (43_block_permutation.md). -/

namespace Sys2Proof.Machine

/-- R161: the layout constants C0 .. C3. -/
def layoutConstants : List Word := [0x61707865#32, 0x3320646e#32, 0x79622d32#32, 0x6b206574#32]

/-- R162: the F registers the layout reads, in ascending layout index: key, counter, nonce. -/
def layoutReads (fs : FIdx) : List FIdx := [0, 1, 2, 3, 4, 5, 6, 7, 11, 8, 9, 10].map (runIdx fs)

/-- The first `n` words of a list, as a vector. -/
def toWords (n : Nat) (ws : List Word32) : Vector Word32 n :=
  Vector.ofFn fun i : Fin n => ws.getD i.val (constWord 0)

/-- R162: `layout(fs)`: the 16 words of the layout. -/
def layoutGadget (P : Params) (f : Vector FReg 128) (fs : FIdx) (c : Ctx) :
    Except Err (Vector Word32 16 × Ctx) :=
  match decomposeAll P f (layoutReads fs) c with
  | .error e => .error e
  | .ok (ws, c') => .ok (toWords 16 (layoutConstants.map constWord ++ ws), c')

/-- R165: the quarter-round groups G0 .. G7: four columns, then four diagonals. -/
def groups : List (Quad (Fin 16)) :=
  [⟨0, 4, 8, 12⟩, ⟨1, 5, 9, 13⟩, ⟨2, 6, 10, 14⟩, ⟨3, 7, 11, 15⟩,
   ⟨0, 5, 10, 15⟩, ⟨1, 6, 11, 12⟩, ⟨2, 7, 8, 13⟩, ⟨3, 4, 9, 14⟩]

/-- R166: one quarter-round on a group of the working state. -/
def qrAt (p : Nat) (g : Quad (Fin 16)) (w : Vector Word32 16) (c : Ctx) : Vector Word32 16 × Ctx :=
  let q := qrGadget p ⟨w[g.a], w[g.b], w[g.c], w[g.d]⟩ c
  ((((w.set g.a q.1.a).set g.b q.1.b).set g.c q.1.c).set g.d q.1.d, q.2)

/-- R166: quarter-rounds on a list of groups, each on the state the one before left. -/
def qrGroups (p : Nat) : List (Quad (Fin 16)) → Vector Word32 16 → Ctx → Vector Word32 16 × Ctx
  | [], w, c => (w, c)
  | g :: gs, w, c =>
    let q := qrAt p g w c
    qrGroups p gs q.1 q.2

/-- R166: `dround()`. -/
def droundGadget (p : Nat) (w : Vector Word32 16) (c : Ctx) : Vector Word32 16 × Ctx := qrGroups p groups w c

/-- R168: n double rounds. -/
def rounds (p : Nat) : Nat → Vector Word32 16 → Ctx → Vector Word32 16 × Ctx
  | 0, w, c => (w, c)
  | n + 1, w, c =>
    let q := droundGadget p w c
    rounds p n q.1 q.2

/-- R168, R9: DOUBLE_ROUNDS = 10. -/
def permGadget (p : Nat) (w : Vector Word32 16) (c : Ctx) : Vector Word32 16 × Ctx := rounds p 10 w c

/-- R169: `combine()`: the original word is the first operand, ascending. -/
def combineGadget (p : Nat) (o w : Vector Word32 16) (c : Ctx) : Vector Word32 16 × Ctx :=
  mapVec (fun q : Word32 × Word32 => add32 p q.1 q.2) (o.zip w) c

/-- R171: what `block(fs)` leaves: the keystream and the layout. -/
structure BlockResult where
  keystream : Vector Word32 16
  layout : Vector Word32 16
  ctx : Ctx

/-- R171: `block(fs)`: layout, the copy of it, 10 double rounds, combine. -/
def blockGadget (P : Params) (f : Vector FReg 128) (fs : FIdx) (c : Ctx) : Except Err BlockResult :=
  match layoutGadget P f fs c with
  | .error e => .error e
  | .ok (o, c1) =>
    let w := permGadget P.p o c1
    let k := combineGadget P.p o w.1 w.2
    .ok ⟨k.1, o, k.2⟩

/-- R167, R229: DROUND and PERM read R[0..15]; registers 12..15 are first read by XOR. -/
def roundChecks : List (RIdx × Gadget) :=
  (List.range 16).map fun i => (wordIdx 0 i, if i < 12 then Gadget.add else Gadget.xor)

/-- R164, R229: SNAP reads R[0..15]. -/
def snapChecks : List (RIdx × Gadget) := (List.range 16).map fun i => (wordIdx 0 i, Gadget.mov)

/-- R170, R229: COMBINE reads R16, R0, R17, R1, .., R31, R15. -/
def combineChecks : List (RIdx × Gadget) :=
  (List.range 16).flatMap fun i => [(wordIdx 16 i, Gadget.add), (wordIdx 0 i, Gadget.add)]

/-- R163: LAYOUT F<fs>. -/
def execLayout (fs : FIdx) (s : State) : Host.Outcome State Fault Refusal :=
  finish 0x0A s <|
    match checkRun fs 12 with
    | .error e => .error e
    | .ok _ =>
      match layoutGadget s.params s.f fs s.ctx with
      | .error e => .error e
      | .ok (w, c) => .ok ((s.setCtx c).setWords 0 w)

/-- R164: SNAP. -/
def execSnap (s : State) : Host.Outcome State Fault Refusal :=
  finish 0x0B s <|
    match s.checkRs snapChecks with
    | .error e => .error e
    | .ok _ => .ok (s.setWords 16 (s.words16 0))

/-- R167: DROUND. -/
def execDround (s : State) : Host.Outcome State Fault Refusal :=
  finish 0x09 s <|
    match s.checkRs roundChecks with
    | .error e => .error e
    | .ok _ =>
      let q := droundGadget s.params.p (s.words16 0) s.ctx
      .ok ((s.setCtx q.2).setWords 0 q.1)

/-- R168: PERM. -/
def execPerm (s : State) : Host.Outcome State Fault Refusal :=
  finish 0x0C s <|
    match s.checkRs roundChecks with
    | .error e => .error e
    | .ok _ =>
      let q := permGadget s.params.p (s.words16 0) s.ctx
      .ok ((s.setCtx q.2).setWords 0 q.1)

/-- R170: COMBINE. -/
def execCombine (s : State) : Host.Outcome State Fault Refusal :=
  finish 0x0D s <|
    match s.checkRs combineChecks with
    | .error e => .error e
    | .ok _ =>
      let q := combineGadget s.params.p (s.words16 16) (s.words16 0) s.ctx
      .ok ((s.setCtx q.2).setWords 0 q.1)

/-- R172: BLOCK F<fs>. -/
def execBlock (fs : FIdx) (s : State) : Host.Outcome State Fault Refusal :=
  finish 0x0E s <|
    match checkRun fs 12 with
    | .error e => .error e
    | .ok _ =>
      match blockGadget s.params s.f fs s.ctx with
      | .error e => .error e
      | .ok b => .ok (((s.setCtx b.ctx).setWords 0 b.keystream).setWords 16 b.layout)

end Sys2Proof.Machine
end

