-- ==== Sys2Proof/Machine/StepFunction.lean ====
section
/-! DEFINITION. StepFunction: the command STEP (44_step_function.md R190 to R195). -/

namespace Sys2Proof.Machine

/-- R191, R194: for each ExternalInput register and keystream word, ascending: decompose, then xor32 of the
decomposed word, first operand, and the keystream word. -/
def cipherWords (P : Params) (f : Vector FReg 128) : List (FIdx × Word32) → Ctx → Except Err (List Word32 × Ctx)
  | [], c => .ok ([], c)
  | q :: qs, c =>
    match decompose P f q.1 c with
    | .error e => .error e
    | .ok (w, c1) =>
      let x := xor32 P.p w q.2 c1
      match cipherWords P f qs x.2 with
      | .error e => .error e
      | .ok (ws, c2) => .ok (x.1 :: ws, c2)

/-- R191: the checks before any emission, in order: the three runs, then one step per context (R225). -/
def stepChecks (fs fx fd : FIdx) (s : State) : Except Err Unit :=
  match checkRun fs 28 with
  | .error e => .error e
  | .ok _ =>
    match checkRun fx 16 with
    | .error e => .error e
    | .ok _ =>
      match checkRun fd 28 with
      | .error e => .error e
      | .ok _ => if s.ctx.nstep ≥ 1 then .error .contextReuse else .ok ()

/-- R193: the next counter: the linear combination plus ONE, the value plus 1 in Fp; nothing is emitted. -/
def nextCounter (p : Nat) (x : FReg) : FReg :=
  match x with
  | .unwritten => .unwritten
  | .written L v => .written (LC.add p L LC.one) (v.map fun n => (n + 1) % p)

/-- R191, R192: the next CipherState: key and nonce passed through, the next counter, the ciphertext words. -/
def nextState (P : Params) (f : Vector FReg 128) (fs : FIdx) (c : Ctx) (cipher : Vector Word32 16) :
    Vector FReg 28 :=
  Vector.ofFn fun k : Fin 28 =>
    if k.val < 11 then f[runIdx fs k.val]
    else if k.val = 11 then nextCounter P.p f[runIdx fs 11]
    else recompose P c (cipher[(k.val - 12) % 16]'(Nat.mod_lt _ (by decide)))

/-- R191: CTX.nstep <- CTX.nstep + 1. -/
def Ctx.countStep (c : Ctx) : Ctx := { c with nstep := c.nstep + 1 }

/-- R191: STEP F<fs>, F<fx>, F<fd>. -/
def execStep (fs fx fd : FIdx) (s : State) : Host.Outcome State Fault Refusal :=
  finish 0x0F s <|
    match stepChecks fs fx fd s with
    | .error e => .error e
    | .ok _ =>
      match blockGadget s.params s.f fs s.ctx with
      | .error e => .error e
      | .ok b =>
        match cipherWords s.params s.f (((List.range 16).map (runIdx fx)).zip b.keystream.toList) b.ctx with
        | .error e => .error e
        | .ok (ws, c) =>
          let cipher := toWords 16 ws
          .ok (((((s.setCtx c.countStep).setWords 0 b.keystream).setWords 16 b.layout).setWords 32 cipher).setFields
            fd.val (nextState s.params s.f fs c cipher))

end Sys2Proof.Machine
end

