-- ==== Sys2Proof/Machine/Dispatch.lean ====
section
/-! DEFINITION. The meaning of each command, one arm per constructor. -/

namespace Sys2Proof.Machine

def exec (i : Instr) (s : State) : Host.Outcome State Fault Refusal :=
  match i with
  | .decompose rd fs => Sys2Proof.Machine.execDec rd fs s
  | .recompose fd rs => Sys2Proof.Machine.execRec fd rs s
  | .mov rd rs => Sys2Proof.Machine.execMov rd rs s
  | .add rd rs1 rs2 => Sys2Proof.Machine.execAdd rd rs1 rs2 s
  | .xor rd rs1 rs2 => Sys2Proof.Machine.execXor rd rs1 rs2 s
  | .rotl rd rs n => Sys2Proof.Machine.execRotl rd rs n s
  | .qr a b c d => Sys2Proof.Machine.execQr a b c d s
  | .dround => Sys2Proof.Machine.execDround s
  | .layout fs => Sys2Proof.Machine.execLayout fs s
  | .snap => Sys2Proof.Machine.execSnap s
  | .perm => Sys2Proof.Machine.execPerm s
  | .combine => Sys2Proof.Machine.execCombine s
  | .block fs => Sys2Proof.Machine.execBlock fs s
  | .step fs fx fd => Sys2Proof.Machine.execStep fs fx fd s

end Sys2Proof.Machine
end

