-- ==== Sys2Proof/Machine/HostInterface.lean ====
section
/-! DEFINITION. The host operations, the host-level call of one step, genesis and threading, and byte packing
(60_exceptions.md R235 to R237; 44_step_function.md R196, R200; 70_reset_and_hazards.md R251 to R255;
20_memory.md R54). -/

namespace Sys2Proof.Machine

/-- R235: H_WRITE_F(i, v): allocate a variable with value v (mod p) or ABSENT and bind F[i] to it; ignored while
ERR = 1; an index past 127 is refused whatever ERR is (log entry 6). -/
def hostWriteF (i : Nat) (v : Option Nat) (s : State) : Host.Outcome State Fault Refusal :=
  if h : i < 128 then
    if s.err then .next s
    else
      let x := v.map fun n => n % s.params.p
      let k := s.ctx.alloc x
      .next ((s.setCtx k.2).setF ⟨i, h⟩ (.written (LC.single k.1) x))
  else .refused (.fieldIndexOutOfRange i)

/-- R235, R227, R223: H_ISSUE(w): ignored while ERR = 1; else decode and execute, or IllegalCommand with the
word's own opcode field. -/
def hostIssue (w : Word) (s : State) : Host.Outcome State Fault Refusal :=
  if s.err then .next s
  else
    match decode w with
    | .ok i => exec i s
    | .error _ => .next (s.raise (opcodeField w) .illegal)

/-- Hand a reply to the host; nothing else changes (R58). -/
def State.reply (s : State) (x : Reply) : State := { s with replies := s.replies ++ [x] }

/-- R235: H_READ_F(i). -/
def hostReadF (i : Nat) (s : State) : Host.Outcome State Fault Refusal :=
  if h : i < 128 then .next (s.reply (.field (s.f[i]'h))) else .refused (.fieldIndexOutOfRange i)

/-- R235: what H_READ_R returns of a register. -/
def wordView (c : Ctx) : RReg → RView
  | .unwritten => .unwritten
  | .written w => .written (w.toList.map Signal.toLC) (w.toList.map c.bit) (c.wordVal w)

/-- R235: H_READ_R(j). -/
def hostReadR (j : Nat) (s : State) : Host.Outcome State Fault Refusal :=
  if h : j < 64 then .next (s.reply (.word (wordView s.ctx (s.r[j]'h)))) else .refused (.wordIndexOutOfRange j)

/-- R38, R235: H_READ_ID(k). -/
def hostReadId (k : Nat) (s : State) : Host.Outcome State Fault Refusal :=
  match idRegister s.params k with
  | some x => .next (s.reply (.ident x))
  | none => .refused (.idIndexOutOfRange k)

/-- R39: NVARS. -/
def Ctx.nvars (c : Ctx) : Nat := c.assign.length

/-- R39: NCONS. -/
def Ctx.ncons (c : Ctx) : Nat := c.cons.length

/-- R235: perform one host operation. -/
def hostOp (op : HostOp) (s : State) : Host.Outcome State Fault Refusal :=
  match op with
  | .openCtx => .next s.openCtx
  | .writeF i v => hostWriteF i v s
  | .issue w => hostIssue w s
  | .readF i => hostReadF i s
  | .readR j => hostReadR j s
  | .readStatus => .next (s.reply (.status s.status))
  | .readId k => hostReadId k s
  | .readCtx => .next (s.reply (.context s.ctx s.ctx.nvars s.ctx.ncons s.ctx.nstep))

/-- R60, R235: the host's next operation, in the order it performs them; with none, the engine waits (R252). -/
def nextOp (s : State) : Host.Outcome State Fault Refusal :=
  match s.pending with
  | [] => .next s
  | op :: ops => hostOp op { s with pending := ops }

/-- The operations of a list, one after another, stopping where one is refused. -/
def runOps : List HostOp → State → Host.Outcome State Fault Refusal
  | [], s => .next s
  | op :: ops, s =>
    match hostOp op s with
    | .next t => runOps ops t
    | .fault r => .fault r
    | .refused r => .refused r

/-- R196, R253: STEP F0, F32, F64. -/
def stepWord : Word := 0x3C020800#32

/-- R196: the writes of a list of values to F[base], F[base+1], .. -/
def writeRun : Nat → List (Option Nat) → List HostOp
  | _, [] => []
  | base, v :: vs => .writeF base v :: writeRun (base + 1) vs

/-- R196, R253: the host operations of one step, up to and with the issue of STEP. -/
def stepCallOps (prior ext : List (Option Nat)) : List HostOp :=
  .openCtx :: writeRun 0 prior ++ writeRun 32 ext ++ [.issue stepWord]

/-- R196: why the host-level call fails: vectors of the wrong length, or the error STATUS carries. -/
inductive CallError where
  | shapeMismatch
  | engine (status : Word)
  deriving DecidableEq, Repr

/-- R196: F[base .. base+n-1], of a run inside the F space. -/
def readRun (s : State) (base : FIdx) (n : Nat) : List FReg := (List.range n).map fun k => s.f[runIdx base k]

/-- R196: `generate_step_constraints(context, step_index, prior, ext)`: the state the engine is left in and the
call's result. `stepIndex` is accepted and ignored. -/
def generateStepConstraints (s : State) (_stepIndex : Nat) (prior ext : List (Option Nat)) :
    State × Except CallError (List FReg) :=
  if prior.length = 28 ∧ ext.length = 16 then
    match runOps (stepCallOps prior ext) s with
    | .next t => (t, if t.err then .error (.engine t.status) else .ok (readRun t 64 28))
    | .fault _ => (s, .error .shapeMismatch)
    | .refused _ => (s, .error .shapeMismatch)
  else (s, .error .shapeMismatch)

/-- R254: the genesis CipherState: key, nonce, initial counter, 16 zeros. -/
def genesis (key nonce : List Nat) (counter : Nat) : List (Option Nat) :=
  (key ++ nonce ++ [counter] ++ List.replicate 16 0).map some

/-- R200, R254: thread the state through one step per ExternalInput, in a fresh context each; the values of the
last state, or the first failing step's error. -/
def threadSteps (s : State) : List (List (Option Nat)) → List (Option Nat) → State × Except CallError (List (Option Nat))
  | [], prior => (s, .ok prior)
  | ext :: exts, prior =>
    match generateStepConstraints s 0 prior ext with
    | (t, .error e) => (t, .error e)
    | (t, .ok next) => threadSteps t exts (next.map FReg.val)

/-- R54: one word of a byte string, little-endian. -/
def packWord (b0 b1 b2 b3 : BitVec 8) : Word :=
  BitVec.ofNat 32 (b0.toNat + b1.toNat * 2 ^ 8 + b2.toNat * 2 ^ 16 + b3.toNat * 2 ^ 24)

/-- R54: the words of a byte string; bytes that fill no word are left out. -/
def packBytes : List (BitVec 8) → List Word
  | b0 :: b1 :: b2 :: b3 :: bs => packWord b0 b1 b2 b3 :: packBytes bs
  | _ => []

/-- The host's operations to come on the present context: those before its next H_OPEN (R251). -/
def State.toCome (s : State) : List HostOp := s.pending.takeWhile (· != .openCtx)

/-- R235: the operation issues a command. -/
def HostOp.isIssue : HostOp → Bool
  | .issue _ => true
  | .openCtx => false
  | .writeF _ _ => false
  | .readF _ => false
  | .readR _ => false
  | .readStatus => false
  | .readId _ => false
  | .readCtx => false

/-- R255: the last command on the present context has completed: one has, and none is to come before the next
H_OPEN. The first command that completes in a context is one that decomposes, since only those need no word register, so
"one has" is read off CTX.cons (log entry 11). -/
def State.lastCommandDone (s : State) : Bool := !s.ctx.cons.isEmpty && !s.toCome.any HostOp.isIssue

/-- R61, R236(c), R255: the context may be handed to folding: its last command has completed, and ERR = 0. -/
def State.foldable (s : State) : Bool := s.lastCommandDone && !s.err

end Sys2Proof.Machine
end

