-- ==== Sys2Proof/Machine/Asm.lean ====
section
/-! DEFINITION. The assembly text of CCE-1: the syntax and the pseudo-commands (30_encoding.md R83, R84). Text is
a list of characters. -/

namespace Sys2Proof.Machine

/-- R83: an operand as written. -/
inductive Operand where
  | r (j : RIdx)
  | f (i : FIdx)
  | imm (n : Fin 32)
  deriving DecidableEq, Repr

/-- R84: the pseudo-commands. -/
inductive Pseudo where
  | rotr (rd rs : RIdx) (n : Fin 32)
  | qrcol (k : Fin 4)
  | qrdiag (k : Fin 4)
  | keystream (fs : FIdx)
  | clr (rd rs : RIdx)
  deriving DecidableEq, Repr

/-- R84: each pseudo-command expands to one command. -/
def Pseudo.expand : Pseudo → Instr
  | .rotr rd rs n => .rotl rd rs (Fin.ofNat 32 (32 - n.val))
  | .qrcol k => .qr (Fin.ofNat 64 k.val) (Fin.ofNat 64 (k.val + 4)) (Fin.ofNat 64 (k.val + 8)) (Fin.ofNat 64 (k.val + 12))
  | .qrdiag 0 => .qr 0 5 10 15
  | .qrdiag 1 => .qr 1 6 11 12
  | .qrdiag 2 => .qr 2 7 8 13
  | .qrdiag 3 => .qr 3 4 9 14
  | .keystream fs => .block fs
  | .clr rd rs => .xor rd rs rs

/-- The value of a digit below `base`, hexadecimal letters in either case. -/
def digitVal (base : Nat) (c : Char) : Option Nat :=
  let n := c.toNat
  let d := if 48 ≤ n ∧ n ≤ 57 then n - 48 else if 97 ≤ n ∧ n ≤ 102 then n - 87 else if 65 ≤ n ∧ n ≤ 70 then n - 55 else 16
  if d < base then some d else none

/-- Read digits after the value so far. -/
def digitsFrom (base : Nat) : Nat → List Char → Option Nat
  | acc, [] => some acc
  | acc, c :: cs =>
    match digitVal base c with
    | some d => digitsFrom base (acc * base + d) cs
    | none => none

/-- Read a number of at least one digit. -/
def number (base : Nat) : List Char → Option Nat
  | [] => none
  | c :: cs => digitsFrom base 0 (c :: cs)

/-- R83: the amount after `#`, decimal or 0x-hexadecimal. -/
def amount : List Char → Option Nat
  | '0' :: 'x' :: cs => number 16 cs
  | cs => number 10 cs

/-- R83: `R<j>`, `F<i>` or `#<n>`, each in its range. -/
def parseOperand : List Char → Option Operand
  | 'R' :: cs => (number 10 cs).bind fun n => if h : n < 64 then some (.r ⟨n, h⟩) else none
  | 'F' :: cs => (number 10 cs).bind fun n => if h : n < 128 then some (.f ⟨n, h⟩) else none
  | '#' :: cs => (amount cs).bind fun n => if h : n < 32 then some (.imm ⟨n, h⟩) else none
  | _ => none

/-- Leave out spaces before and after. -/
def trim (cs : List Char) : List Char := ((cs.dropWhile (· == ' ')).reverse.dropWhile (· == ' ')).reverse

/-- R83: operands are separated by commas. -/
def splitCommas : List Char → List (List Char)
  | [] => [[]]
  | c :: cs =>
    match splitCommas cs with
    | [] => [[c]]
    | g :: gs => if c == ',' then [] :: g :: gs else (c :: g) :: gs

/-- Read every operand of a list. -/
def parseOperands : List (List Char) → Option (List Operand)
  | [] => some []
  | g :: gs =>
    match parseOperand (trim g), parseOperands gs with
    | some x, some xs => some (x :: xs)
    | _, _ => none

/-- R83, R84: the command of a mnemonic and its operands, pseudo-commands expanded. -/
def assemble (name : List Char) (ops : List Operand) : Option Instr :=
  match ops with
  | [] =>
    if name = "DROUND".toList then some .dround
    else if name = "SNAP".toList then some .snap
    else if name = "PERM".toList then some .perm
    else if name = "COMBINE".toList then some .combine
    else none
  | [.f fs] =>
    if name = "LAYOUT".toList then some (.layout fs)
    else if name = "BLOCK".toList then some (.block fs)
    else if name = "KEYSTREAM".toList then some (Pseudo.keystream fs).expand
    else none
  | [.imm n] =>
    if h : n.val < 4 then
      if name = "QRCOL".toList then some (Pseudo.qrcol ⟨n.val, h⟩).expand
      else if name = "QRDIAG".toList then some (Pseudo.qrdiag ⟨n.val, h⟩).expand
      else none
    else none
  | [.r rd, .f fs] => if name = "DEC".toList then some (.decompose rd fs) else none
  | [.f fd, .r rs] => if name = "REC".toList then some (.recompose fd rs) else none
  | [.r rd, .r rs] =>
    if name = "MOV".toList then some (.mov rd rs)
    else if name = "CLR".toList then some (Pseudo.clr rd rs).expand
    else none
  | [.r rd, .r rs1, .r rs2] =>
    if name = "ADD".toList then some (.add rd rs1 rs2)
    else if name = "XOR".toList then some (.xor rd rs1 rs2)
    else none
  | [.r rd, .r rs, .imm n] =>
    if name = "ROTL".toList then some (.rotl rd rs n)
    else if name = "ROTR".toList then some (Pseudo.rotr rd rs n).expand
    else none
  | [.r a, .r b, .r c, .r d] => if name = "QR".toList then some (.qr a b c d) else none
  | [.f fs, .f fx, .f fd] => if name = "STEP".toList then some (.step fs fx fd) else none
  | _ => none

/-- R83: one line: the mnemonic, spaces, comma-separated operands; `;` begins a comment. -/
def parseLine (line : List Char) : Option Instr :=
  let text := trim (line.takeWhile (· != ';'))
  let name := text.takeWhile (· != ' ')
  let rest := trim (text.dropWhile (· != ' '))
  if rest.isEmpty then assemble name []
  else (parseOperands (splitCommas rest)).bind (assemble name)

/-- A number in decimal, below 1000. -/
def decimal (n : Nat) : List Char :=
  let d := fun k => Char.ofNat (48 + k % 10)
  if n < 10 then [d n] else if n < 100 then [d (n / 10), d n] else [d (n / 100), d (n / 10), d n]

/-- R83: an operand as the disassembler prints it. -/
def Operand.print : Operand → List Char
  | .r j => 'R' :: decimal j.val
  | .f i => 'F' :: decimal i.val
  | .imm n => '#' :: decimal n.val

/-- R83: the mnemonic and the operands of a command, in the assembly order. -/
def Instr.parts : Instr → List Char × List Operand
  | .decompose rd fs => (['D', 'E', 'C'], [.r rd, .f fs])
  | .recompose fd rs => (['R', 'E', 'C'], [.f fd, .r rs])
  | .mov rd rs => (['M', 'O', 'V'], [.r rd, .r rs])
  | .add rd rs1 rs2 => (['A', 'D', 'D'], [.r rd, .r rs1, .r rs2])
  | .xor rd rs1 rs2 => (['X', 'O', 'R'], [.r rd, .r rs1, .r rs2])
  | .rotl rd rs n => (['R', 'O', 'T', 'L'], [.r rd, .r rs, .imm n])
  | .qr a b c d => (['Q', 'R'], [.r a, .r b, .r c, .r d])
  | .dround => (['D', 'R', 'O', 'U', 'N', 'D'], [])
  | .layout fs => (['L', 'A', 'Y', 'O', 'U', 'T'], [.f fs])
  | .snap => (['S', 'N', 'A', 'P'], [])
  | .perm => (['P', 'E', 'R', 'M'], [])
  | .combine => (['C', 'O', 'M', 'B', 'I', 'N', 'E'], [])
  | .block fs => (['B', 'L', 'O', 'C', 'K'], [.f fs])
  | .step fs fx fd => (['S', 'T', 'E', 'P'], [.f fs, .f fx, .f fd])

/-- The operands of a line, separated by a comma and a space. -/
def printOperands : List Operand → List Char
  | [] => []
  | [x] => x.print
  | x :: y :: xs => x.print ++ ',' :: ' ' :: printOperands (y :: xs)

/-- R83, R84: the disassembler prints the real command. -/
def disassemble (i : Instr) : List Char :=
  match (Instr.parts i).2 with
  | [] => (Instr.parts i).1
  | x :: xs => (Instr.parts i).1 ++ ' ' :: printOperands (x :: xs)

end Sys2Proof.Machine
end

