-- ==== Sys2Proof/Machine/Oracle.lean ====
section
/-! DEFINITION. The value level (00_scope.md R16): the cipher on 32-bit words and the native oracle, pure
functions that no command calls (44_step_function.md R198; 43_block_permutation.md R160). -/

namespace Sys2Proof.Machine

/-- R130: rotl(x, n). -/
def wordRotl (x : Word) (n : Nat) : Word := x.rotateLeft n

/-- R150, value level: one line: x + y, then (z ⊕ (x + y)) rotated. -/
def wordLine (x y z : Word) (n : Nat) : Word × Word := (x + y, wordRotl (z ^^^ (x + y)) n)

/-- R150, value level: the quarter-round on four words. -/
def wordQr (w : Quad Word) : Quad Word :=
  let l1 := wordLine w.a w.b w.d 16
  let l2 := wordLine w.c l1.2 w.b 12
  let l3 := wordLine l1.1 l2.2 l1.2 8
  let l4 := wordLine l2.1 l3.2 l2.2 7
  ⟨l3.1, l4.2, l4.1, l3.2⟩

/-- R166, value level: a quarter-round on a group of 16 words. -/
def wordQrAt (g : Quad (Fin 16)) (w : Vector Word 16) : Vector Word 16 :=
  let q := wordQr ⟨w[g.a], w[g.b], w[g.c], w[g.d]⟩
  (((w.set g.a q.a).set g.b q.b).set g.c q.c).set g.d q.d

/-- R166, value level: one double round. -/
def wordDround (w : Vector Word 16) : Vector Word 16 := groups.foldl (fun v g => wordQrAt g v) w

/-- R168, value level: n double rounds. -/
def wordRounds : Nat → Vector Word 16 → Vector Word 16
  | 0, w => w
  | n + 1, w => wordRounds n (wordDround w)

/-- R168, value level: the 20-round permutation. -/
def wordPerm (w : Vector Word 16) : Vector Word 16 := wordRounds 10 w

/-- R169, value level. -/
def wordCombine (o w : Vector Word 16) : Vector Word 16 := Vector.ofFn fun i : Fin 16 => o[i] + w[i]

/-- R162, value level: the layout of key, counter and nonce. -/
def wordLayout (key : Vector Word 8) (counter : Word) (nonce : Vector Word 3) : Vector Word 16 :=
  Vector.ofFn fun i : Fin 16 => (layoutConstants ++ key.toList ++ [counter] ++ nonce.toList).getD i.val 0

/-- R160: block(key, counter, nonce) → keystream. -/
def wordBlock (key : Vector Word 8) (counter : Word) (nonce : Vector Word 3) : Vector Word 16 :=
  wordCombine (wordLayout key counter nonce) (wordPerm (wordLayout key counter nonce))

/-- R198: the keystream of a CipherState given as 28 integers. -/
def oracleKeystream (st : Vector Nat 28) : Vector Word 16 :=
  wordBlock (Vector.ofFn fun k : Fin 8 => low32 (st[k.val]'(by omega))) (low32 st[11])
    (Vector.ofFn fun k : Fin 3 => low32 (st[8 + k.val]'(by omega)))

/-- R198: the native oracle, for inputs in 0..p−1 (D31). -/
def nativeStep (p : Nat) (st : Vector Nat 28) (ext : Vector Nat 16) : Vector Nat 28 :=
  Vector.ofFn fun k : Fin 28 =>
    if k.val < 11 then st[k]
    else if k.val = 11 then (st[11] + 1) % p
    else (low32 (ext[(k.val - 12) % 16]'(Nat.mod_lt _ (by decide))) ^^^
      (oracleKeystream st)[(k.val - 12) % 16]'(Nat.mod_lt _ (by decide))).toNat

end Sys2Proof.Machine
end

