-- ==== Sys2Proof/Safety.lean ====
section
/-! DEFINITION. What claims are stated in: growth of the context (R29), satisfying and honest assignments (R30),
the well-formedness of a state (R21, R23, R28, R34 to R37), and what an assignment makes of a word (R211). A run is
safe while no error is latched (R255). -/

namespace Sys2Proof.Machine

/-- R29: `c'` extends `c`: entries of `assign` and `cons` are only appended. -/
def Ctx.Extends (c c' : Ctx) : Prop :=
  (∃ vs, c'.assign = c.assign ++ vs) ∧ ∃ qs, c'.cons = c.cons ++ qs

/-- R30: the assignment z satisfies the context. -/
structure Satisfies (p : Nat) (z : List Nat) (c : Ctx) : Prop where
  length : z.length = c.assign.length
  one : z.getD 0 0 = 1
  below : ∀ x ∈ z, x < p
  holds : ∀ q ∈ c.cons, q.holds p z = true

/-- R30: the honest assignment, defined when no entry is ABSENT. -/
def Ctx.honestAssignment (c : Ctx) : Option (List Nat) :=
  if c.assign.all Option.isSome then some (c.assign.map fun v => v.getD 0) else none

/-- R14: a canonical linear combination over the first n variables. -/
def LC.Within (p n : Nat) (L : LC) : Prop := LC.wf p L = true ∧ ∀ t ∈ L, t.1 < n

/-- R23: a constant, or a variable other than ONE with honest value 0 or 1. -/
def Ctx.SignalOk (c : Ctx) : Signal → Prop
  | .const _ => True
  | .var k => 0 < k ∧ (c.assign[k]? = some (some 0) ∨ c.assign[k]? = some (some 1))

/-- R24: 32 signals of the context. -/
def Ctx.WordOk (c : Ctx) (w : Word32) : Prop := ∀ x ∈ w.toList, c.SignalOk x

/-- R21: UNWRITTEN, or a linear combination over the context's variables with its honest value. -/
def Ctx.FieldOk (p : Nat) (c : Ctx) (x : FReg) : Prop :=
  ∀ L v, x = .written L v → LC.Within p c.assign.length L ∧ v = LC.honest p c.assign L

/-- R28, R12, R14: ONE is 1, values lie in Fp, and constraints are over the context's variables. -/
structure Ctx.Ok (p : Nat) (c : Ctx) : Prop where
  one : c.assign[0]? = some (some 1)
  below : ∀ x, some x ∈ c.assign → x < p
  within : ∀ q ∈ c.cons, LC.Within p c.assign.length q.a ∧ LC.Within p c.assign.length q.b ∧
    LC.Within p c.assign.length q.c

/-- R210: every constraint is over variables that have values, and those values satisfy it. -/
def Ctx.Complete (p : Nat) (c : Ctx) : Prop :=
  ∀ q ∈ c.cons, ∃ a b, LC.honest p c.assign q.a = some a ∧ LC.honest p c.assign q.b = some b ∧
    LC.honest p c.assign q.c = some (a * b % p)

/-- R34 to R37: the form of STATUS: reserved bits 0, no reserved code, and all fields 0 while ERR = 0. -/
structure State.StatusOk (s : State) : Prop where
  reserved : s.reservedBits = 0
  kind : s.kind ≤ 4
  gadget : s.gadget ≤ 6
  clear : s.err = false → s.status = 0

/-- The well-formed states: what every state of a run meets. -/
structure State.Inv (s : State) : Prop where
  params : s.params.Valid
  ctx : s.ctx.Ok s.params.p
  fields : ∀ i : FIdx, s.ctx.FieldOk s.params.p s.f[i]
  words : ∀ (j : RIdx) (w : Word32), s.r[j] = .written w → s.ctx.WordOk w
  nstep : s.ctx.nstep ≤ 1
  status : s.StatusOk

/-- R211: z(w) = Σ z(w.sig[k])·2^k. -/
def zWord (z : List Nat) (w : Word32) : Nat :=
  (w.toList.map (Signal.value z)).foldr (fun b acc => b + 2 * acc) 0

/-- R211: every signal of the word has z-value 0 or 1. -/
def ZBool (z : List Nat) (w : Word32) : Prop := ∀ x ∈ w.toList, Signal.value z x = 0 ∨ Signal.value z x = 1

/-- R211: under every satisfying assignment, every signal of every written word register is 0 or 1. -/
def State.WordsBoolean (s : State) : Prop :=
  ∀ z, Satisfies s.params.p z s.ctx → ∀ (j : RIdx) (w : Word32), s.r[j] = .written w → ZBool z w

/-- The values of a run of word registers at the value level. -/
def State.vals16 (s : State) (base : Nat) : Vector Word 16 :=
  (s.words16 base).map s.ctx.wordVal

/-- The z-values of 16 words. -/
def zVals16 (z : List Nat) (ws : Vector Word32 16) : Vector Word 16 := ws.map fun w => low32 (zWord z w)

/-- R198: the values of a run of F registers, as the oracle's integers; a register without a value counts 0. -/
def State.fvals (s : State) (base : FIdx) (n : Nat) : Vector Nat n :=
  Vector.ofFn fun k : Fin n => (s.fval (runIdx base k.val)).getD 0

/-- R215: the z-values of a run of F registers. -/
def zFields (p : Nat) (z : List Nat) (f : Vector FReg 128) (base : FIdx) (n : Nat) : Vector Nat n :=
  Vector.ofFn fun k : Fin n => LC.eval p z f[runIdx base k.val].lc

/-- Every register of R[base .. base+15] is written. -/
def State.Written16 (s : State) (base : Nat) : Prop := ∀ i < 16, s.r[wordIdx base i] ≠ .unwritten

/-- Every register of a run of n F registers has a value. -/
def State.HasValues (s : State) (base : FIdx) (n : Nat) : Prop := ∀ k < n, s.fval (runIdx base k) ≠ none

/-- All 32 signals are variables (R125, R150: no gate folds). -/
def AllVars (w : Word32) : Prop := ∀ x ∈ w.toList, x.isConst = false

/-! ### The rows of the gadgets, in the order of their appends -/

/-- R121: enforce(2·x, y, x + y − 1·z) -/
def xorRow (p : Nat) (x y : Signal) (z : Nat) : Constraint :=
  ⟨LC.scale p 2 x.toLC, y.toLC, LC.sub p (LC.add p x.toLC y.toLC) (LC.single z)⟩
/-- R122: enforce(x, y, 1·z) -/
def andRow (x y : Signal) (z : Nat) : Constraint := ⟨x.toLC, y.toLC, LC.single z⟩
/-- R123: enforce(x, y, x + y − 1·z) -/
def orRow (p : Nat) (x y : Signal) (z : Nat) : Constraint :=
  ⟨x.toLC, y.toLC, LC.sub p (LC.add p x.toLC y.toLC) (LC.single z)⟩

/-- R125: the rows of bit k of add32 on variable operands, in the order t, s_k, g, h, carry; the five variables of a bit
are consecutive from n + 5k, its carry in is the last one of the bit before, and bit 31 has t and s_31 only. -/
def adderRows (p : Nat) (a b : Word32) (n : Nat) (k : Fin 32) : List Constraint :=
  let t := n + 5 * k.val
  let carry : Signal := if k.val = 0 then .const false else .var (t - 1)
  [xorRow p a[k] b[k] t, xorRow p (.var t) carry (t + 1)] ++
    if k.val < 31 then
      [andRow a[k] b[k] (t + 2), andRow (.var t) carry (t + 3), orRow p (.var (t + 2)) (.var (t + 3)) (t + 4)]
    else []

/-- R101: the booleanity row of the bit variable x: b·(1 − b) = 0. -/
def bitRow (p x : Nat) : Constraint := ⟨[(x, 1)], [(0, 1), (x, p - 1)], []⟩
/-- R101: the sum row over the m bit variables from n on: Σ 2^k·b_k = L. -/
def sumRow (m n : Nat) (L : LC) : Constraint := ⟨(List.range m).map fun k => (n + k, 2 ^ k), [(0, 1)], L⟩

/-! ### What a command leaves unchanged -/

/-- Nothing but the word registers of W and CTX changes; CTX only grows, and the step count stays. -/
structure WordsOnly (s t : State) (W : RIdx → Prop) : Prop where
  params : t.params = s.params
  f : t.f = s.f
  status : t.status = s.status
  pending : t.pending = s.pending
  replies : t.replies = s.replies
  r : ∀ j, ¬ W j → t.r[j] = s.r[j]
  vals : ∀ j, ¬ W j → t.rval j = s.rval j
  ctx : s.ctx.Extends t.ctx
  nstep : t.ctx.nstep = s.ctx.nstep

/-- The context grew by v variables and q constraints (R39). -/
def State.Appended (s t : State) (v q : Nat) : Prop :=
  t.ctx.nvars = s.ctx.nvars + v ∧ t.ctx.ncons = s.ctx.ncons + q

/-! ### The words a layout takes from the field registers (R163, R171) -/

/-- key[k] = low32(F[fs + k]) -/
def State.keyWords (s : State) (fs : FIdx) : Vector Word 8 :=
  Vector.ofFn fun k : Fin 8 => low32 ((s.fval (runIdx fs k.val)).getD 0)
/-- counter = low32(F[fs + 11]) -/
def State.counterWord (s : State) (fs : FIdx) : Word := low32 ((s.fval (runIdx fs 11)).getD 0)
/-- nonce[k] = low32(F[fs + 8 + k]) -/
def State.nonceWords (s : State) (fs : FIdx) : Vector Word 3 :=
  Vector.ofFn fun k : Fin 3 => low32 ((s.fval (runIdx fs (8 + k.val))).getD 0)

/-! ### Operands -/

/-- One operand check: the gadget that reads the register, the register's space and its index. -/
structure OperandCheck where
  gadget : Gadget
  space : Space
  index : Nat
  deriving DecidableEq, Repr

/-- The F registers a block reads, in order (R229). -/
def blockOrder (fs : FIdx) : List OperandCheck :=
  [0, 1, 2, 3, 4, 5, 6, 7, 11, 8, 9, 10].map fun k => ⟨.dec, .f, fs.val + k⟩

/-- R229: the order of every command's operand checks. -/
def operandOrder : Instr → List OperandCheck
  | .decompose _ fs => [⟨.dec, .f, fs.val⟩]
  | .recompose _ rs => [⟨.recomp, .r, rs.val⟩]
  | .mov _ rs => [⟨.mov, .r, rs.val⟩]
  | .add _ rs1 rs2 => [⟨.add, .r, rs1.val⟩, ⟨.add, .r, rs2.val⟩]
  | .xor _ rs1 rs2 => [⟨.xor, .r, rs1.val⟩, ⟨.xor, .r, rs2.val⟩]
  | .rotl _ rs _ => [⟨.rotl, .r, rs.val⟩]
  | .qr a b c d => [⟨.add, .r, a.val⟩, ⟨.add, .r, b.val⟩, ⟨.add, .r, c.val⟩, ⟨.xor, .r, d.val⟩]
  | .dround => (List.range 16).map fun i => ⟨if i < 12 then .add else .xor, .r, i⟩
  | .perm => (List.range 16).map fun i => ⟨if i < 12 then .add else .xor, .r, i⟩
  | .snap => (List.range 16).map fun i => ⟨.mov, .r, i⟩
  | .combine => (List.range 16).flatMap fun i => [⟨.add, .r, 16 + i⟩, ⟨.add, .r, i⟩]
  | .layout fs => blockOrder fs
  | .block fs => blockOrder fs
  | .step fs fx _ => blockOrder fs ++ (List.range 16).map fun i => ⟨.dec, .f, fx.val + i⟩

/-- R221: the operand is there: a written word register, or a field register with a value. -/
def State.Has (s : State) (q : OperandCheck) : Prop :=
  match q.space with
  | .r => s.r[Fin.ofNat 64 q.index] ≠ .unwritten
  | .f => s.fval (Fin.ofNat 128 q.index) ≠ none

/-- R222: every run of F registers of the command ends inside the F space. -/
def RunsFit : Instr → Prop
  | .layout fs => fs.val ≤ 116
  | .block fs => fs.val ≤ 116
  | .step fs fx fd => fs.val ≤ 100 ∧ fx.val ≤ 112 ∧ fd.val ≤ 100
  | _ => True

/-- R225: the context check, for STEP only. -/
def State.ContextFree (s : State) : Instr → Prop
  | .step _ _ _ => s.ctx.nstep = 0
  | _ => True

/-- R36: the codes of the leaf gadgets an error names. -/
def gadgetCodes : List (Gadget × BitVec 4) := [(.dec, 1), (.recomp, 2), (.mov, 3), (.add, 4), (.xor, 5), (.rotl, 6)]

/-- R196, R229: the F registers the host call's STEP F0, F32, F64 reads, in order. -/
def callReads : List Nat := [0, 1, 2, 3, 4, 5, 6, 7, 11, 8, 9, 10] ++ (List.range 16).map (32 + ·)

/-- R196: the value the host call writes to F[i]: prior to F[0..27], ext to F[32..47]. -/
def callValue (prior ext : List (Option Nat)) (i : Nat) : Option Nat :=
  if i < 28 then (prior[i]?).join else (ext[i - 32]?).join

/-- The commands of a list, one after another. -/
def execAll : List Instr → State → Host.Outcome State Fault Refusal
  | [], s => .next s
  | i :: is, s =>
    match exec i s with
    | .next t => execAll is t
    | .fault r => .fault r
    | .refused r => .refused r

/-- R76: the opcode map: OPCODE, match and mask of every command. -/
def opcodeMap : List (BitVec 6 × Word × Word) :=
  [(0x01, 0x04000000, 0xFC001FFF), (0x02, 0x08000000, 0xFC001FFF), (0x03, 0x0C000000, 0xFC003FFF),
   (0x04, 0x10000000, 0xFC0000FF), (0x05, 0x14000000, 0xFC0000FF), (0x06, 0x18000000, 0xFC003FE0),
   (0x08, 0x20000000, 0xFC000003), (0x09, 0x24000000, 0xFFFFFFFF), (0x0A, 0x28000000, 0xFC07FFFF),
   (0x0B, 0x2C000000, 0xFFFFFFFF), (0x0C, 0x30000000, 0xFFFFFFFF), (0x0D, 0x34000000, 0xFFFFFFFF),
   (0x0E, 0x38000000, 0xFC07FFFF), (0x0F, 0x3C000000, 0xFC00001F)]

/-- R79: the four register fields of a QR word are pairwise distinct. -/
def QrFieldsDistinct (w : Word) : Prop :=
  [w.extractLsb' 20 6, w.extractLsb' 14 6, w.extractLsb' 8 6, w.extractLsb' 2 6].Pairwise (· ≠ ·)

end Sys2Proof.Machine
end

