-- ==== Sys2Proof/Certificates/Slice0/Obligations.lean ====
section
/-! DEFINITION. The statements about the engine, one per group of rules of the spec. -/

open Sys2Proof Sys2Proof.Machine

/-! ### Reset, host interface, STATUS -/

/-- R42, R250, R251: after power-on reset every register is UNWRITTEN, CTX is ([1], [], 0) and STATUS is 0; H_OPEN is
performed in every state, ERR = 1 or not, and leaves the same; the identification registers, the host's other operations
to come and its replies stay. -/
def Obligations.ResetAndOpenLeaveEverythingFresh : Prop :=
  (∀ i : FIdx, State.reset.f[i] = .unwritten) ∧ (∀ j : RIdx, State.reset.r[j] = .unwritten) ∧
    State.reset.ctx = ⟨[some 1], [], 0⟩ ∧ State.reset.status = 0#32 ∧
    (∀ k v, (k, v) ∈ [(0, 28), (1, 16), (2, 128), (3, 64), (4, fieldBits Config.params.p),
      (5, Config.params.canonical.toNat)] → idRegister State.reset.params k = some v) ∧
    ∀ s : State, ∃ t, hostOp .openCtx s = .next t ∧ (∀ i : FIdx, t.f[i] = .unwritten) ∧
      (∀ j : RIdx, t.r[j] = .unwritten) ∧ t.ctx.assign = [some 1] ∧ t.ctx.cons = [] ∧ t.ctx.nstep = 0 ∧
      t.status = 0#32 ∧ t.params = s.params ∧ t.pending = s.pending ∧ t.replies = s.replies

/-- R38, R197: the six identification registers and what they hold, `state_len()` among them; any other index is refused
(log entry 6); no operation changes them. -/
def Obligations.IdentificationRegistersAreConstant : Prop :=
  ∀ s : State,
    (∀ k v, (k, v) ∈ [(0, 28), (1, 16), (2, 128), (3, 64), (4, fieldBits s.params.p), (5, s.params.canonical.toNat)] →
      ∃ t, hostOp (.readId k) s = .next t ∧ t.replies = s.replies ++ [.ident v]) ∧
    (∀ k, 5 < k → hostOp (.readId k) s = .refused (.idIndexOutOfRange k)) ∧ stateLen s.params = 28 ∧
    ∀ op t, hostOp op s = .next t → ∀ k, idRegister t.params k = idRegister s.params k

/-- R58, R235, R39: the five read operations, H_READ_F, H_READ_R, H_READ_STATUS, H_READ_ID and H_READ_CTX, return what they
name and change nothing else, ERR = 1 or not; an index outside its file is refused. -/
def Obligations.ReadsReturnAndChangeNothing : Prop :=
  ∀ s : State,
    (∀ i : FIdx, hostOp (.readF i.val) s = .next { s with replies := s.replies ++ [.field s.f[i]] }) ∧
    (∀ j : RIdx, s.r[j] = .unwritten →
      hostOp (.readR j.val) s = .next { s with replies := s.replies ++ [.word .unwritten] }) ∧
    (∀ (j : RIdx) (w : Word32), s.r[j] = .written w → hostOp (.readR j.val) s = .next { s with
      replies := s.replies ++ [.word (.written (w.toList.map Signal.toLC) (w.toList.map s.ctx.bit) (s.ctx.wordVal w))] }) ∧
    hostOp .readStatus s = .next { s with replies := s.replies ++ [.status s.status] } ∧
    hostOp .readCtx s = .next { s with
      replies := s.replies ++ [.context s.ctx s.ctx.assign.length s.ctx.cons.length s.ctx.nstep] } ∧
    (∀ k v, (k, v) ∈ [(0, 28), (1, 16), (2, 128), (3, 64), (4, fieldBits s.params.p), (5, s.params.canonical.toNat)] →
      idRegister s.params k = some v ∧ hostOp (.readId k) s = .next { s with replies := s.replies ++ [.ident v] }) ∧
    (∀ k, 5 < k → hostOp (.readId k) s = .refused (.idIndexOutOfRange k)) ∧
    (∀ i, 127 < i → hostOp (.readF i) s = .refused (.fieldIndexOutOfRange i)) ∧
    ∀ j, 63 < j → hostOp (.readR j) s = .refused (.wordIndexOutOfRange j)

/-- R235: H_WRITE_F while ERR = 0 binds the register to one fresh variable with the value mod p, or ABSENT, and appends no
constraint; nothing else changes. An index above 127 is refused. -/
def Obligations.WriteBindsFreshVariable : Prop :=
  ∀ s : State,
    (∀ (i : FIdx) (v : Option Nat), s.err = false → ∃ t, hostOp (.writeF i.val v) s = .next t ∧
      t.f[i] = .written [(s.ctx.assign.length, 1)] (v.map fun n => n % s.params.p) ∧
      (∀ j : FIdx, j ≠ i → t.f[j] = s.f[j]) ∧ t.ctx.assign = s.ctx.assign ++ [v.map fun n => n % s.params.p] ∧
      t.ctx.cons = s.ctx.cons ∧ t.ctx.nstep = s.ctx.nstep ∧ t.r = s.r ∧ t.status = s.status ∧ t.params = s.params ∧
      t.pending = s.pending ∧ t.replies = s.replies) ∧
    ∀ i v, 127 < i → hostOp (.writeF i v) s = .refused (.fieldIndexOutOfRange i)

/-- R227: while ERR = 1, H_ISSUE and H_WRITE_F do nothing, the reads still work, STATUS keeps the first error, and only
H_OPEN clears it. -/
def Obligations.ErrorIsSticky : Prop :=
  ∀ s : State, s.err = true →
    (∀ w, hostOp (.issue w) s = .next s) ∧ (∀ (i : FIdx) v, hostOp (.writeF i.val v) s = .next s) ∧
    (∀ i : FIdx, ∃ t, hostOp (.readF i.val) s = .next t) ∧ (∀ j : RIdx, ∃ t, hostOp (.readR j.val) s = .next t) ∧
    (∃ t, hostOp .readStatus s = .next t) ∧ (∃ t, hostOp .readCtx s = .next t) ∧
    (∀ k ≤ 5, ∃ t, hostOp (.readId k) s = .next t) ∧
    (∀ op t, hostOp op s = .next t → op ≠ .openCtx → t.status = s.status) ∧
    ∃ t, hostOp .openCtx s = .next t ∧ t.err = false

/-- R34 to R37: every step keeps the form of STATUS, in every state that has it: reserved bits 0, KIND at most 4, GADGET at
most 6, all fields 0 while ERR = 0. -/
def Obligations.StatusFormIsKept : Prop :=
  ∀ s t : State, s.StatusOk → step s = .next t → t.StatusOk

/-! ### Encoding -/

/-- R76, R82: a word decodes exactly when it matches a row of the opcode map and, for QR, its registers are distinct;
decoding gives the row's command. -/
def Obligations.DecodeMatchesOpcodeMap : Prop :=
  ∀ w : Word,
    ((∃ i, decode w = .ok i) ↔ ∃ row ∈ opcodeMap, w &&& row.2.2 = row.2.1 ∧ (row.1 = 0x08 → QrFieldsDistinct w)) ∧
    ∀ i, decode w = .ok i → ∃ m k, (i.opcode, m, k) ∈ opcodeMap ∧ w &&& k = m

/-- R74: every operand field is read as an unsigned integer of its own width, at its place. -/
def Obligations.DecodeReadsOperandFields : Prop :=
  ∀ (w : Word) (i : Instr), decode w = .ok i →
    match i with
    | .decompose rd fs => rd.val = (w.extractLsb' 20 6).toNat ∧ fs.val = (w.extractLsb' 13 7).toNat
    | .recompose fd rs => rs.val = (w.extractLsb' 20 6).toNat ∧ fd.val = (w.extractLsb' 13 7).toNat
    | .mov rd rs => rd.val = (w.extractLsb' 20 6).toNat ∧ rs.val = (w.extractLsb' 14 6).toNat
    | .add rd rs1 rs2 => rd.val = (w.extractLsb' 20 6).toNat ∧ rs1.val = (w.extractLsb' 14 6).toNat ∧
        rs2.val = (w.extractLsb' 8 6).toNat
    | .xor rd rs1 rs2 => rd.val = (w.extractLsb' 20 6).toNat ∧ rs1.val = (w.extractLsb' 14 6).toNat ∧
        rs2.val = (w.extractLsb' 8 6).toNat
    | .rotl rd rs n => rd.val = (w.extractLsb' 20 6).toNat ∧ rs.val = (w.extractLsb' 14 6).toNat ∧
        n.val = (w.extractLsb' 0 5).toNat
    | .qr a b c d => a.val = (w.extractLsb' 20 6).toNat ∧ b.val = (w.extractLsb' 14 6).toNat ∧
        c.val = (w.extractLsb' 8 6).toNat ∧ d.val = (w.extractLsb' 2 6).toNat
    | .dround => True
    | .layout fs => fs.val = (w.extractLsb' 19 7).toNat
    | .snap => True
    | .perm => True
    | .combine => True
    | .block fs => fs.val = (w.extractLsb' 19 7).toNat
    | .step fs fx fd => fs.val = (w.extractLsb' 19 7).toNat ∧ fx.val = (w.extractLsb' 12 7).toNat ∧
        fd.val = (w.extractLsb' 5 7).toNat

/-- R85 and the encodings of 95_test_vectors.md section 7: words that stand for commands. -/
def Obligations.ExampleWordsDecode : Prop :=
  decode 0x1030C300 = .ok (.add 3 3 3) ∧ decode 0x3C020800 = .ok (.step 0 32 64) ∧
    encode (.add 3 3 3) = 0x1030C300 ∧ encode (.step 0 32 64) = 0x3C020800 ∧
    decode 0x06102000 = .ok (.decompose 33 1) ∧ decode 0x08308000 = .ok (.recompose 4 3) ∧
    decode 0x0c204000 = .ok (.mov 2 1) ∧ decode 0x1440c300 = .ok (.xor 4 3 3) ∧
    decode 0x18108019 = .ok (.rotl 1 2 25) ∧ decode 0x20310938 = .ok (.qr 3 4 9 14) ∧
    decode 0x24000000 = .ok .dround ∧ decode 0x2ba80000 = .ok (.layout 117) ∧ decode 0x2c000000 = .ok .snap ∧
    decode 0x30000000 = .ok .perm ∧ decode 0x34000000 = .ok .combine ∧ decode 0x3b200000 = .ok (.block 100)

/-- Decoding the encoding of a command gives the command back, for every well-formed command and every operand. -/
def Obligations.DecodeOfEncodeIsIdentity : Prop :=
  ∀ i : Instr, i.wellFormed = true → decode (encode i) = .ok i

/-- R82: a word decodes to exactly one command: encoding what it decodes to gives the word back. -/
def Obligations.EncodeOfDecodeIsIdentity : Prop :=
  ∀ (w : Word) (i : Instr), decode w = .ok i → i.wellFormed = true ∧ encode i = w

/-- R77: a word with a reserved opcode is illegal; issuing it while ERR = 0 changes STATUS only, to IllegalCommand with
the word's own opcode field; the all-zero word is one. -/
def Obligations.ReservedOpcodeIsIllegal : Prop :=
  (∀ (s : State) (w : Word), s.err = false →
    ((w.extractLsb' 26 6).toNat = 0x00 ∨ (w.extractLsb' 26 6).toNat = 0x07 ∨ 0x10 ≤ (w.extractLsb' 26 6).toNat) →
    decode w = .error .reservedOpcode ∧
    hostOp (.issue w) s = .next { s with status := 7#32 ||| ((w.extractLsb' 26 6).setWidth 32 <<< 8) }) ∧
  decode 0x00000000 = .error .reservedOpcode

/-- R78, R79, R223: a word with an assigned opcode is illegal when a reserved-zero bit is 1, or when it is a QR word with
repeated registers; issuing it while ERR = 0 changes STATUS only, to IllegalCommand. -/
def Obligations.ReservedBitsAndRepeatedRegistersAreIllegal : Prop :=
  ∀ (s : State) (w : Word), s.err = false → ∀ row ∈ opcodeMap, w.extractLsb' 26 6 = row.1 →
    (w &&& row.2.2 ≠ row.2.1 ∨ (row.1 = 0x08 ∧ ¬ QrFieldsDistinct w)) →
    (∃ e, decode w = .error e) ∧
    hostOp (.issue w) s = .next { s with status := 7#32 ||| (row.1.setWidth 32 <<< 8) }

/-- R83, R84: reading what the disassembler prints gives the command back; the pseudo-commands, read from their text, are
the commands they expand to. -/
def Obligations.AssemblyTextIsRead : Prop :=
  (∀ i : Instr, parseLine (disassemble i) = some i) ∧
  (∀ (rd rs : RIdx) (n : Fin 32),
    assemble "ROTR".toList [.r rd, .r rs, .imm n] = some (.rotl rd rs ⟨(32 - n.val) % 32, Nat.mod_lt _ (by decide)⟩)) ∧
  (∀ k : Fin 4, assemble "QRCOL".toList [.imm ⟨k.val, by omega⟩] =
    some (.qr ⟨k.val, by omega⟩ ⟨k.val + 4, by omega⟩ ⟨k.val + 8, by omega⟩ ⟨k.val + 12, by omega⟩)) ∧
  assemble "QRDIAG".toList [.imm 0] = some (.qr 0 5 10 15) ∧ assemble "QRDIAG".toList [.imm 1] = some (.qr 1 6 11 12) ∧
  assemble "QRDIAG".toList [.imm 2] = some (.qr 2 7 8 13) ∧ assemble "QRDIAG".toList [.imm 3] = some (.qr 3 4 9 14) ∧
  (∀ fs : FIdx, assemble "KEYSTREAM".toList [.f fs] = some (.block fs)) ∧
  ∀ rd rs : RIdx, assemble "CLR".toList [.r rd, .r rs] = some (.xor rd rs rs)

/-! ### One step -/

/-- R31, R60, R235: a step performs the host's next operation; an issued word that decodes runs its command, in a state
that differs only in the operation taken off the host's list; with no operation to come the engine waits. -/
def Obligations.StepRunsTheIssuedCommand : Prop :=
  (∀ (s : State) (w : Word) (ops : List HostOp) (i : Instr), s.pending = .issue w :: ops → s.err = false →
    decode w = .ok i → step s = exec i { s with pending := ops }) ∧
  (∀ (s : State) (i : Instr), s.err = false → i.wellFormed = true →
    step (s.withFetchWord 32 (encode i).toNat) = exec i s) ∧
  (∀ s : State, s.pending = [] → step s = .next s) ∧
  ∀ (s : State) (op : HostOp) (ops : List HostOp), s.pending = op :: ops →
    step s = hostOp op { s with pending := ops }

/-- R220, R230: every command answers a next state, in every state: no command faults and none is refused. -/
def Obligations.EveryCommandAnswersNext : Prop :=
  ∀ (i : Instr) (s : State), ∃ t, exec i s = .next t

/-! ### The commands -/

/-- R101, R102, R103: DEC of a register with a value writes the value's low 32 bits, a fresh variable per bit, and appends
the m bits of the value, the m booleanity rows in ascending order, and the sum row; then, where DECOMP_CANONICAL = 1, what
the open `enforce_lt_p` appends. -/
def Obligations.DecTakesLow32 : Prop :=
  ∀ (s : State) (rd : RIdx) (fs : FIdx) (N : Nat), s.Inv → s.fval fs = some N →
    ∃ t, exec (.decompose rd fs) s = .next t ∧ t.rval rd = some (low32 N) ∧ WordsOnly s t (· = rd) ∧
      t.r[rd] = .written (Vector.ofFn fun k : Fin 32 => .var (s.ctx.nvars + k.val)) ∧
      s.Appended t s.params.decVars s.params.decCons ∧
      (s.params.canonical = false → s.params.decVars = s.params.m ∧ s.params.decCons = s.params.m + 1) ∧
      ∃ vs qs, t.ctx.assign = s.ctx.assign ++ (List.range s.params.m).map (fun k => some (N / 2 ^ k % 2)) ++ vs ∧
        t.ctx.cons = s.ctx.cons ++ (List.range s.params.m).map (fun k => bitRow s.params.p (s.ctx.nvars + k)) ++
          [sumRow s.params.m s.ctx.nvars s.f[fs].lc] ++ qs ∧
        (s.params.canonical = false → vs = [] ∧ qs = [])

/-- R104, R105: REC of a written register binds F[fd] to the weighted sum of the word's signals, with the word's value;
nothing else changes, CTX included. -/
def Obligations.RecRebuildsTheWord : Prop :=
  ∀ (s : State) (fd : FIdx) (rs : RIdx) (w : Word32), s.Inv → s.r[rs] = .written w →
    ∃ t L, exec (.recompose fd rs) s = .next t ∧ t.f[fd] = .written L (some (s.ctx.wordVal w).toNat) ∧
      (∀ z, z.getD 0 0 = 1 → LC.eval s.params.p z L = zWord z w % s.params.p) ∧
      (∀ i, i ≠ fd → t.f[i] = s.f[i]) ∧ t.r = s.r ∧ t.ctx = s.ctx ∧ t.status = s.status ∧ t.params = s.params ∧
      t.pending = s.pending ∧ t.replies = s.replies

/-- R132: MOV copies the 32 signals; CTX is unchanged. -/
def Obligations.MovCopiesTheSignals : Prop :=
  ∀ (s : State) (rd rs : RIdx) (w : Word32), s.r[rs] = .written w →
    ∃ t, exec (.mov rd rs) s = .next t ∧ t.r[rd] = .written w ∧ t.rval rd = s.rval rs ∧ t.ctx = s.ctx ∧
      WordsOnly s t (· = rd)

/-- R126, R127, R260: ADD adds modulo 2^32, whatever registers coincide, and overflow changes nothing. -/
def Obligations.AddAddsModulo32 : Prop :=
  ∀ (s : State) (rd rs1 rs2 : RIdx) (x y : Word), s.Inv → s.rval rs1 = some x → s.rval rs2 = some y →
    ∃ t, exec (.add rd rs1 rs2) s = .next t ∧ t.rval rd = some (BitVec.ofNat 32 ((x.toNat + y.toNat) % 2 ^ 32)) ∧
      WordsOnly s t (· = rd)

/-- R129, R260: XOR is the bitwise exclusive or, whatever registers coincide. -/
def Obligations.XorIsExclusiveOr : Prop :=
  ∀ (s : State) (rd rs1 rs2 : RIdx) (x y : Word), s.Inv → s.rval rs1 = some x → s.rval rs2 = some y →
    ∃ t, exec (.xor rd rs1 rs2) s = .next t ∧ t.rval rd = some (x ^^^ y) ∧ WordsOnly s t (· = rd)

/-- R130, R131: ROTL rotates left: output signal k is input signal (k − n) mod 32, the value is
((x·2^n) mod 2^32) + floor(x / 2^(32−n)), and CTX is unchanged. -/
def Obligations.RotlRewiresLeft : Prop :=
  ∀ (s : State) (rd rs : RIdx) (n : Fin 32) (w : Word32), s.r[rs] = .written w →
    ∃ t u, exec (.rotl rd rs n) s = .next t ∧ t.r[rd] = .written u ∧
      (∀ k : Fin 32, u[k] = w[(k.val + 32 - n.val) % 32]'(Nat.mod_lt _ (by decide))) ∧
      (s.ctx.wordVal u).toNat =
        (s.ctx.wordVal w).toNat * 2 ^ n.val % 2 ^ 32 + (s.ctx.wordVal w).toNat / 2 ^ (32 - n.val) ∧
      t.ctx = s.ctx ∧ WordsOnly s t (· = rd)

/-- R150, R151: QR on four distinct registers gives the quarter-round of the four old values, in place. -/
def Obligations.QrIsTheQuarterRound : Prop :=
  ∀ (s : State) (a b c d : RIdx) (x : Quad Word), s.Inv → distinct4 a b c d = true → s.rval a = some x.a →
    s.rval b = some x.b → s.rval c = some x.c → s.rval d = some x.d →
    ∃ t, exec (.qr a b c d) s = .next t ∧ t.rval a = some (wordQr x).a ∧ t.rval b = some (wordQr x).b ∧
      t.rval c = some (wordQr x).c ∧ t.rval d = some (wordQr x).d ∧
      WordsOnly s t fun j => j = a ∨ j = b ∨ j = c ∨ j = d

/-- R162, R163: LAYOUT loads R[0..15] with the constants, as constant signals, and the low 32 bits of key, counter and
nonce, and appends 12 decompositions. -/
def Obligations.LayoutLoadsTheState : Prop :=
  ∀ (s : State) (fs : FIdx), s.Inv → fs.val ≤ 116 → s.HasValues fs 12 →
    ∃ t, exec (.layout fs) s = .next t ∧ t.Written16 0 ∧
      t.vals16 0 = wordLayout (s.keyWords fs) (s.counterWord fs) (s.nonceWords fs) ∧
      (∀ i : Fin 4, t.r[wordIdx 0 i.val] =
        .written (constWord ([0x61707865#32, 0x3320646e#32, 0x79622d32#32, 0x6b206574#32].getD i.val 0))) ∧
      s.Appended t (12 * s.params.decVars) (12 * s.params.decCons) ∧ WordsOnly s t fun j => j.val < 16

/-- R164: SNAP copies the signals of R[0..15] to R[16..31]; CTX is unchanged. -/
def Obligations.SnapCopiesTheWorkingState : Prop :=
  ∀ s : State, s.Written16 0 →
    ∃ t, exec .snap s = .next t ∧ (∀ i < 16, t.r[wordIdx 16 i] = s.r[wordIdx 0 i]) ∧ t.ctx = s.ctx ∧
      WordsOnly s t fun j => 16 ≤ j.val ∧ j.val < 32

/-- R165, R166, R167: DROUND gives R[0..15] the double round of their old values: the column groups, then the diagonal
groups, each quarter-round on what the one before left. -/
def Obligations.DroundIsTheDoubleRound : Prop :=
  (∀ v : Vector Word 16, wordDround v =
    ([(0, 4, 8, 12), (1, 5, 9, 13), (2, 6, 10, 14), (3, 7, 11, 15), (0, 5, 10, 15), (1, 6, 11, 12), (2, 7, 8, 13),
      (3, 4, 9, 14)] : List (Fin 16 × Fin 16 × Fin 16 × Fin 16)).foldl
      (fun u g =>
        let q := wordQr ⟨u[g.1], u[g.2.1], u[g.2.2.1], u[g.2.2.2]⟩
        (((u.set g.1 q.a).set g.2.1 q.b).set g.2.2.1 q.c).set g.2.2.2 q.d) v) ∧
  ∀ s : State, s.Inv → s.Written16 0 →
    ∃ t, exec .dround s = .next t ∧ t.Written16 0 ∧ t.vals16 0 = wordDround (s.vals16 0) ∧
      WordsOnly s t fun j => j.val < 16

/-- R168: PERM gives R[0..15] ten double rounds of their old values, without the final addition. -/
def Obligations.PermIsTenDoubleRounds : Prop :=
  ∀ s : State, s.Inv → s.Written16 0 →
    ∃ t, exec .perm s = .next t ∧ t.Written16 0 ∧ t.vals16 0 = Nat.iterate wordDround 10 (s.vals16 0) ∧
      WordsOnly s t fun j => j.val < 16

/-- R169, R170: COMBINE adds the original state to the working state, word by word modulo 2^32. -/
def Obligations.CombineAddsTheOriginal : Prop :=
  ∀ s : State, s.Inv → s.Written16 0 → s.Written16 16 →
    ∃ t, exec .combine s = .next t ∧ t.Written16 0 ∧
      (∀ i : Fin 16, (t.vals16 0)[i] = (s.vals16 16)[i] + (s.vals16 0)[i]) ∧ WordsOnly s t fun j => j.val < 16

/-- R160, R171, R172: BLOCK leaves the keystream of key, counter and nonce in R[0..15] and the layout in R[16..31]. -/
def Obligations.BlockComputesTheKeystream : Prop :=
  ∀ (s : State) (fs : FIdx), s.Inv → fs.val ≤ 116 → s.HasValues fs 12 →
    ∃ t, exec (.block fs) s = .next t ∧ t.Written16 0 ∧ t.Written16 16 ∧
      t.vals16 0 = wordBlock (s.keyWords fs) (s.counterWord fs) (s.nonceWords fs) ∧
      t.vals16 16 = wordLayout (s.keyWords fs) (s.counterWord fs) (s.nonceWords fs) ∧
      s.Appended t (12 * s.params.decVars + 60480 + 2512) (12 * s.params.decCons + 60480 + 2512) ∧
      WordsOnly s t fun j => j.val < 32

/-- R191, R199: STEP, on runs that fit, in a context without a step, with key, counter, nonce and input there, gives the
next state the native oracle gives of the same integers, element by element. -/
def Obligations.StepEqualsTheNativeOracle : Prop :=
  ∀ (s : State) (fs fx fd : FIdx), s.Inv → fs.val ≤ 100 → fx.val ≤ 112 → fd.val ≤ 100 → s.ctx.nstep = 0 →
    s.HasValues fs 12 → s.HasValues fx 16 →
    ∃ t, exec (.step fs fx fd) s = .next t ∧
      ∀ k : Fin 28, t.fval (runIdx fd k.val) = some (nativeStep s.params.p (s.fvals fs 28) (s.fvals fx 16))[k]

/-- R191, R192, R193, R195: what else a successful STEP does: key and nonce keep linear combination and value, the counter
gets 1·ONE and 1 more in Fp, R[0..15], R[16..31] and R[32..47] hold keystream, layout and ciphertext words, the step is
counted, and nothing else changes. -/
def Obligations.StepEffectsAndFrame : Prop :=
  ∀ (s t : State) (fs fx fd : FIdx), s.Inv → exec (.step fs fx fd) s = .next t → t.status = s.status → s.err = false →
    (∀ k < 11, t.f[runIdx fd k] = s.f[runIdx fs k]) ∧
    (∀ L v, s.f[runIdx fs 11] = .written L (some v) →
      t.f[runIdx fd 11] = .written (LC.add s.params.p L LC.one) (some ((v + 1) % s.params.p))) ∧
    t.Written16 0 ∧ t.Written16 16 ∧ t.Written16 32 ∧
    t.vals16 0 = wordBlock (s.keyWords fs) (s.counterWord fs) (s.nonceWords fs) ∧
    t.vals16 16 = wordLayout (s.keyWords fs) (s.counterWord fs) (s.nonceWords fs) ∧
    (∀ i : Fin 16, (t.vals16 32)[i] = low32 (s.fvals fx 16)[i] ^^^ (t.vals16 0)[i] ∧
      t.fval (runIdx fd (12 + i.val)) = some ((t.vals16 32)[i]).toNat) ∧
    t.ctx.nstep = 1 ∧ s.ctx.Extends t.ctx ∧
    s.Appended t (12 * s.params.decVars + 60480 + 2512 + 16 * s.params.decVars + 512)
      (12 * s.params.decCons + 60480 + 2512 + 16 * s.params.decCons + 512) ∧
    (∀ i : FIdx, i.val < fd.val ∨ fd.val + 28 ≤ i.val → t.f[i] = s.f[i]) ∧
    (∀ j : RIdx, 48 ≤ j.val → t.r[j] = s.r[j] ∧ t.rval j = s.rval j) ∧
    t.params = s.params ∧ t.pending = s.pending ∧ t.replies = s.replies

/-- R125, R128, R150, R166, R168, R169: with variable operands ADD appends 157 variables and constraints, XOR 32, QR 756,
DROUND 6048, PERM 60480 and COMBINE 2512; those of ADD and XOR are the rows of their gates in ascending order of the bits,
and the result's signals are the variables of s_k. -/
def Obligations.GadgetCountsWithVariableOperands : Prop :=
  ∀ s : State, s.Inv →
    (∀ rd a b, s.r[a] ≠ .unwritten → s.r[b] ≠ .unwritten → AllVars (s.word a) → AllVars (s.word b) →
      (∃ t, exec (.add rd a b) s = .next t ∧ s.Appended t 157 157 ∧
        t.ctx.cons = s.ctx.cons ++
          (List.finRange 32).flatMap (adderRows s.params.p (s.word a) (s.word b) s.ctx.nvars) ∧
        t.r[rd] = .written (Vector.ofFn fun k : Fin 32 => .var (s.ctx.nvars + 5 * k.val + 1))) ∧
      ∃ t, exec (.xor rd a b) s = .next t ∧ s.Appended t 32 32 ∧
        t.ctx.cons = s.ctx.cons ++
          (List.finRange 32).map (fun k => xorRow s.params.p (s.word a)[k] (s.word b)[k] (s.ctx.nvars + k.val)) ∧
        t.r[rd] = .written (Vector.ofFn fun k : Fin 32 => .var (s.ctx.nvars + k.val))) ∧
    (∀ a b c d, distinct4 a b c d = true → (∀ j ∈ [a, b, c, d], s.r[j] ≠ .unwritten ∧ AllVars (s.word j)) →
      ∃ t, exec (.qr a b c d) s = .next t ∧ s.Appended t 756 756) ∧
    ((∀ i < 16, s.r[wordIdx 0 i] ≠ .unwritten ∧ AllVars (s.word (wordIdx 0 i))) →
      (∃ t, exec .dround s = .next t ∧ s.Appended t 6048 6048) ∧
      (∃ t, exec .perm s = .next t ∧ s.Appended t 60480 60480) ∧
      (s.Written16 16 → ∃ t, exec .combine s = .next t ∧ s.Appended t 2512 2512))

/-- R121 to R123, R126, R129: on two constant words ADD and XOR append nothing and give a constant word. -/
def Obligations.ConstantWordsFold : Prop :=
  ∀ (s : State) (rd a b : RIdx) (x y : Word), s.r[a] = .written (constWord x) → s.r[b] = .written (constWord y) →
    (∃ t, exec (.add rd a b) s = .next t ∧ t.r[rd] = .written (constWord (x + y)) ∧ t.ctx = s.ctx) ∧
    ∃ t, exec (.xor rd a b) s = .next t ∧ t.r[rd] = .written (constWord (x ^^^ y)) ∧ t.ctx = s.ctx

/-! ### Errors -/

/-- R221, R229, R36: when the shape and context checks pass, the first missing operand in the command's order is reported,
in STATUS alone, which then reads ERR 1, KIND 1, the leaf gadget's code, the command's OPCODE, SPACE 0 for R and 1 for F,
and the register. -/
def Obligations.FirstMissingOperandIsReported : Prop :=
  (∀ (op : BitVec 6) (g : Gadget) (code : BitVec 4) (sp : Space) (b i : Nat), (g, code) ∈ gadgetCodes →
    (sp, b) ∈ [(Space.r, 0), (Space.f, 1)] → i < 128 →
    (statusWord op (.decomposition g sp i)).toNat =
      1 + 1 * 2 + code.toNat * 2 ^ 4 + op.toNat * 2 ^ 8 + b * 2 ^ 14 + i * 2 ^ 15) ∧
  ∀ (s : State) (i : Instr) (pre post : List OperandCheck) (q : OperandCheck), s.err = false → i.wellFormed = true →
    RunsFit i → s.ContextFree i → operandOrder i = pre ++ q :: post → (∀ u ∈ pre, s.Has u) → ¬ s.Has q →
    exec i s = .next { s with status := statusWord i.opcode (.decomposition q.gadget q.space q.index) }

/-- R220, R221, R228: a command raises no error exactly when it is well-formed, its runs fit, its context allows it and
every operand is there. -/
def Obligations.ErrorsHaveNoOtherCause : Prop :=
  ∀ (s : State) (i : Instr), s.err = false →
    ((∃ t, exec i s = .next t ∧ t.status = s.status) ↔
      i.wellFormed = true ∧ RunsFit i ∧ s.ContextFree i ∧ ∀ q ∈ operandOrder i, s.Has q)

/-- R222: a run past F[127] is a ShapeMismatch with the base of the first run that fails, in the order fs, fx, fd; it is
raised before anything is read, in STATUS alone. The host-level call rejects vectors of the wrong length with the engine
untouched. -/
def Obligations.RunPastTheFileIsShapeMismatch : Prop :=
  ∀ (s : State) (fs fx fd : FIdx), s.err = false →
    (116 < fs.val → exec (.layout fs) s = .next { s with status := statusWord 0x0A (.shape fs.val) } ∧
      exec (.block fs) s = .next { s with status := statusWord 0x0E (.shape fs.val) }) ∧
    (100 < fs.val → exec (.step fs fx fd) s = .next { s with status := statusWord 0x0F (.shape fs.val) }) ∧
    (fs.val ≤ 100 → 112 < fx.val → exec (.step fs fx fd) s = .next { s with status := statusWord 0x0F (.shape fx.val) }) ∧
    (fs.val ≤ 100 → fx.val ≤ 112 → 100 < fd.val →
      exec (.step fs fx fd) s = .next { s with status := statusWord 0x0F (.shape fd.val) }) ∧
    (∀ (op : BitVec 6) (b : FIdx), (statusWord op (.shape b.val)).extractLsb' 1 3 = 2 ∧
      (statusWord op (.shape b.val)).extractLsb' 4 4 = 0 ∧ (statusWord op (.shape b.val)).extractLsb' 14 1 = 1 ∧
      (statusWord op (.shape b.val)).extractLsb' 15 7 = BitVec.ofNat 7 b.val) ∧
    ∀ (n : Nat) (prior ext : List (Option Nat)), ¬ (prior.length = 28 ∧ ext.length = 16) →
      generateStepConstraints s n prior ext = (s, .error .shapeMismatch)

/-- R225: a STEP whose runs fit, in a context that holds a completed step, is ContextReuse, whatever its operands; no other
command looks at the step count. -/
def Obligations.SecondStepIsContextReuse : Prop :=
  (∀ (s : State) (fs fx fd : FIdx), s.err = false → fs.val ≤ 100 → fx.val ≤ 112 → fd.val ≤ 100 → 1 ≤ s.ctx.nstep →
    exec (.step fs fx fd) s = .next { s with status := 0x00000F09#32 }) ∧
  ∀ (s t : State) (i : Instr) (n : Nat), (∀ fs fx fd, i ≠ .step fs fx fd) → exec i s = .next t →
    exec i { s with ctx := { s.ctx with nstep := n } } = .next { t with ctx := { t.ctx with nstep := n } }

/-- R224: an issued word that raises an error, a command's own or the decoder's, changes STATUS alone. -/
def Obligations.FailingCommandCommitsNothing : Prop :=
  (∀ (s t : State) (i : Instr), exec i s = .next t → t.status ≠ s.status →
    t.f = s.f ∧ t.r = s.r ∧ t.ctx.assign = s.ctx.assign ∧ t.ctx.cons = s.ctx.cons ∧ t.ctx.nstep = s.ctx.nstep ∧
      t.params = s.params ∧ t.pending = s.pending ∧ t.replies = s.replies) ∧
  ∀ (s t : State) (w : Word), hostOp (.issue w) s = .next t → t.status ≠ s.status → t = { s with status := t.status }

/-- R226: the STATUS an error writes while ERR = 0 packs ERR, KIND, GADGET, OPCODE, SPACE and INDEX, and its OPCODE is
bits 31:26 of the failing word; R35, R36, R220: what KIND, GADGET, SPACE and INDEX are for each of the four errors. -/
def Obligations.ErrorWritesPackedStatus : Prop :=
  (∀ (s : State) (op : BitVec 6) (e : Err), s.err = false →
    (s.raise op e).err = true ∧ (s.raise op e).kind = e.kind ∧ (s.raise op e).gadget = e.gadget ∧
      (s.raise op e).opcode = op ∧ (s.raise op e).space = e.space ∧ (s.raise op e).index = e.index ∧
      (s.raise op e).reservedBits = 0 ∧
      (s.raise op e).status.toNat = 1 + e.kind.toNat * 2 + e.gadget.toNat * 2 ^ 4 + op.toNat * 2 ^ 8 +
        e.space.toNat * 2 ^ 14 + e.index.toNat * 2 ^ 15) ∧
  (∀ (g : Gadget) (code : BitVec 4) (j : RIdx) (i : FIdx), (g, code) ∈ gadgetCodes →
    (Err.decomposition g .r j.val).kind = 1 ∧ (Err.decomposition g .r j.val).gadget = code ∧
      (Err.decomposition g .r j.val).space = 0 ∧ (Err.decomposition g .r j.val).index.toNat = j.val ∧
      (Err.decomposition g .f i.val).kind = 1 ∧ (Err.decomposition g .f i.val).gadget = code ∧
      (Err.decomposition g .f i.val).space = 1 ∧ (Err.decomposition g .f i.val).index.toNat = i.val) ∧
  (∀ i : FIdx, (Err.shape i.val).kind = 2 ∧ (Err.shape i.val).gadget = 0 ∧ (Err.shape i.val).space = 1 ∧
    (Err.shape i.val).index.toNat = i.val) ∧
  (Err.illegal.kind = 3 ∧ Err.illegal.gadget = 0 ∧ Err.illegal.space = 0 ∧ Err.illegal.index = 0) ∧
  (Err.contextReuse.kind = 4 ∧ Err.contextReuse.gadget = 0 ∧ Err.contextReuse.space = 0 ∧ Err.contextReuse.index = 0) ∧
  ∀ (s t : State) (w : Word), s.err = false → hostOp (.issue w) s = .next t → t.status ≠ s.status →
    ∃ e, t = s.raise (w.extractLsb' 26 6) e

/-! ### Whole-machine rules -/

/-- R29: within a context CTX only grows, H_OPEN alone replaces it, with a fresh one, and a command that fails leaves it. -/
def Obligations.ContextOnlyGrows : Prop :=
  (∀ (s t : State) (op : HostOp), op ≠ .openCtx → hostOp op s = .next t →
    s.ctx.Extends t.ctx ∧ s.ctx.nstep ≤ t.ctx.nstep) ∧
  (∀ s t : State, hostOp .openCtx s = .next t → t.ctx = ⟨[some 1], [], 0⟩) ∧
  ∀ (s t : State) (w : Word), hostOp (.issue w) s = .next t → t.status ≠ s.status → t.ctx = s.ctx

/-- R22, R27: F is written by H_WRITE_F, REC and STEP only, R by no host write and by no REC, and both are cleared by
H_OPEN only. -/
def Obligations.RegisterFileWriters : Prop :=
  (∀ (s t : State) (i : Instr), exec i s = .next t → (∀ fd rs, i ≠ .recompose fd rs) → (∀ fs fx fd, i ≠ .step fs fx fd) →
    t.f = s.f) ∧
  (∀ (s t : State) (fd : FIdx) (rs : RIdx), exec (.recompose fd rs) s = .next t → t.r = s.r) ∧
  ∀ (s t : State) (op : HostOp), hostOp op s = .next t → op ≠ .openCtx → (∀ w, op ≠ .issue w) →
    t.r = s.r ∧ ((∀ i v, op ≠ .writeF i v) → t.f = s.f)

/-- Reset meets the invariant. -/
def Obligations.ResetMeetsTheInvariant : Prop := State.reset.Inv

/-- Every step keeps the invariant: canonical constraints and linear combinations over the context's variables, honest
values of the field registers, word signals boolean, one step per context, STATUS in form. -/
def Obligations.StepKeepsTheInvariant : Prop :=
  ∀ s t : State, s.Inv → step s = .next t → t.Inv

/-- R210: every step keeps the context satisfied by its own values. -/
def Obligations.StepKeepsCompleteness : Prop :=
  ∀ s t : State, s.Inv → s.ctx.Complete s.params.p → step s = .next t → t.ctx.Complete t.params.p

/-- R210: from H_OPEN, after any writes with values and any commands, the honest assignment satisfies the context. -/
def Obligations.HonestAssignmentSatisfies : Prop :=
  ∀ (P : Params) (ops : List HostOp) (t : State), P.Valid → (∀ i, HostOp.writeF i none ∉ ops) →
    runOps ops (State.fresh P [] []) = .next t →
    ∃ z, t.ctx.honestAssignment = some z ∧ z.map some = t.ctx.assign ∧ Satisfies P.p z t.ctx

/-- R211: every step keeps the words boolean under every satisfying assignment. -/
def Obligations.StepKeepsWordsBoolean : Prop :=
  ∀ s t : State, s.Inv → s.WordsBoolean → step s = .next t → t.WordsBoolean

/-! ### What a satisfying assignment proves -/

/-- R121, R122, R123: a gate with an input that is not constant appends one variable, with the function's value, and
exactly its row, and one with two constant inputs folds; R124: a satisfied gate with boolean inputs has the boolean
function's value. -/
def Obligations.GatesForceTheirFunction : Prop :=
  (∀ (p : Nat) (c : Ctx) (x y : Signal), (x.isConst = false ∨ y.isConst = false) →
    bxor p x y c = (.var c.nvars,
      ⟨c.assign ++ [some (c.bit x != c.bit y).toNat], c.cons ++ [xorRow p x y c.nvars], c.nstep⟩) ∧
    band x y c = (.var c.nvars,
      ⟨c.assign ++ [some (c.bit x && c.bit y).toNat], c.cons ++ [andRow x y c.nvars], c.nstep⟩) ∧
    bor p x y c = (.var c.nvars,
      ⟨c.assign ++ [some (c.bit x || c.bit y).toNat], c.cons ++ [orRow p x y c.nvars], c.nstep⟩)) ∧
  (∀ (p : Nat) (c : Ctx) (a b : Bool), bxor p (.const a) (.const b) c = (.const (a != b), c) ∧
    band (.const a) (.const b) c = (.const (a && b), c) ∧ bor p (.const a) (.const b) c = (.const (a || b), c)) ∧
  ∀ (p : Nat) (c : Ctx) (x y : Signal) (z : List Nat) (a b : Bool), p.Prime → 2 < p → c.SignalOk x → c.SignalOk y →
    Signal.value z x = a.toNat → Signal.value z y = b.toNat →
    (Satisfies p z (bxor p x y c).2 → Signal.value z (bxor p x y c).1 = (a != b).toNat) ∧
    (Satisfies p z (band x y c).2 → Signal.value z (band x y c).1 = (a && b).toNat) ∧
    (Satisfies p z (bor p x y c).2 → Signal.value z (bor p x y c).1 = (a || b).toNat)

/-- R211: under any satisfying assignment that gives the operands boolean signals, ADD, XOR and ROTL compute their
functions on the z-values. -/
def Obligations.WordGadgetsAreSound : Prop :=
  ∀ (s : State) (rd a b : RIdx) (n : Fin 32), s.Inv → s.r[a] ≠ .unwritten → s.r[b] ≠ .unwritten →
    (∃ t, exec (.add rd a b) s = .next t ∧ ∀ z, Satisfies s.params.p z t.ctx → ZBool z (s.word a) → ZBool z (s.word b) →
      ZBool z (t.word rd) ∧ zWord z (t.word rd) = (zWord z (s.word a) + zWord z (s.word b)) % 2 ^ 32) ∧
    (∃ t, exec (.xor rd a b) s = .next t ∧ ∀ z, Satisfies s.params.p z t.ctx → ZBool z (s.word a) → ZBool z (s.word b) →
      ZBool z (t.word rd) ∧ zWord z (t.word rd) = zWord z (s.word a) ^^^ zWord z (s.word b)) ∧
    ∃ t, exec (.rotl rd a n) s = .next t ∧ ∀ z, Satisfies s.params.p z t.ctx → ZBool z (s.word a) →
      ZBool z (t.word rd) ∧
      zWord z (t.word rd) = zWord z (s.word a) * 2 ^ n.val % 2 ^ 32 + zWord z (s.word a) / 2 ^ (32 - n.val)

/-- R211: the same for QR, DROUND, PERM and COMBINE. -/
def Obligations.RoundGadgetsAreSound : Prop :=
  ∀ s : State, s.Inv →
    (∀ a b c d, distinct4 a b c d = true → (∀ j ∈ [a, b, c, d], s.r[j] ≠ .unwritten) →
      ∃ t, exec (.qr a b c d) s = .next t ∧ ∀ z, Satisfies s.params.p z t.ctx →
        (∀ j ∈ [a, b, c, d], ZBool z (s.word j)) →
        (∀ j ∈ [a, b, c, d], ZBool z (t.word j)) ∧
        (⟨low32 (zWord z (t.word a)), low32 (zWord z (t.word b)), low32 (zWord z (t.word c)),
          low32 (zWord z (t.word d))⟩ : Quad Word) =
        wordQr ⟨low32 (zWord z (s.word a)), low32 (zWord z (s.word b)), low32 (zWord z (s.word c)),
          low32 (zWord z (s.word d))⟩) ∧
    (s.Written16 0 →
      (∃ t, exec .dround s = .next t ∧ ∀ z, Satisfies s.params.p z t.ctx → (∀ i < 16, ZBool z (s.word (wordIdx 0 i))) →
        (∀ i < 16, ZBool z (t.word (wordIdx 0 i))) ∧
        zVals16 z (t.words16 0) = wordDround (zVals16 z (s.words16 0))) ∧
      (∃ t, exec .perm s = .next t ∧ ∀ z, Satisfies s.params.p z t.ctx → (∀ i < 16, ZBool z (s.word (wordIdx 0 i))) →
        (∀ i < 16, ZBool z (t.word (wordIdx 0 i))) ∧
        zVals16 z (t.words16 0) = wordPerm (zVals16 z (s.words16 0))) ∧
      (s.Written16 16 → ∃ t, exec .combine s = .next t ∧ ∀ z, Satisfies s.params.p z t.ctx →
        (∀ i < 16, ZBool z (s.word (wordIdx 0 i)) ∧ ZBool z (s.word (wordIdx 16 i))) →
        (∀ i < 16, ZBool z (t.word (wordIdx 0 i))) ∧
        zVals16 z (t.words16 0) = wordCombine (zVals16 z (s.words16 16)) (zVals16 z (s.words16 0))))

/-- R212, R213: under any satisfying assignment the word DEC returns is low32(x), or low32(x + p) where x + p still has m
bits; with DECOMP_CANONICAL = 1 it is low32(x). -/
def Obligations.DecompositionRelation : Prop :=
  ∀ (s : State) (rd : RIdx) (fs : FIdx), s.Inv → s.fval fs ≠ none →
    ∃ t, exec (.decompose rd fs) s = .next t ∧ ∀ z, Satisfies s.params.p z t.ctx →
      ZBool z (t.word rd) ∧
      (zWord z (t.word rd) = LC.eval s.params.p z s.f[fs].lc % 2 ^ 32 ∨
        (s.params.canonical = false ∧ LC.eval s.params.p z s.f[fs].lc < 2 ^ s.params.m - s.params.p ∧
          zWord z (t.word rd) = (LC.eval s.params.p z s.f[fs].lc + s.params.p) % 2 ^ 32))

/-- R213, R214: with DECOMP_CANONICAL = 0 and a value N with N + p still of m bits, a second assignment satisfies the
context, with the same values of every variable there was before, so the input is still N, and its word is low32(N + p),
which is not low32(N). -/
def Obligations.NonCanonicalWitnessExists : Prop :=
  ∀ (s : State) (rd : RIdx) (fs : FIdx) (N : Nat), s.Inv → s.ctx.Complete s.params.p → none ∉ s.ctx.assign →
    s.params.canonical = false → s.fval fs = some N → N < 2 ^ s.params.m - s.params.p →
    ∃ t z, exec (.decompose rd fs) s = .next t ∧ Satisfies s.params.p z t.ctx ∧
      (∀ k < s.ctx.nvars, s.ctx.assign[k]? = some (some (z.getD k 0))) ∧ LC.eval s.params.p z s.f[fs].lc = N ∧
      zWord z (t.word rd) = (N + s.params.p) % 2 ^ 32 ∧ zWord z (t.word rd) ≠ N % 2 ^ 32

/-- R215: with DECOMP_CANONICAL = 1, under any assignment that satisfies the context after a STEP, the outputs' z-values are
the native oracle of the inputs' z-values. -/
def Obligations.StepIsSound : Prop :=
  ∀ (s t : State) (fs fx fd : FIdx) (z : List Nat), s.Inv → s.params.canonical = true → s.err = false →
    exec (.step fs fx fd) s = .next t → t.status = s.status → Satisfies s.params.p z t.ctx →
    zFields s.params.p z t.f fd 28 =
      nativeStep s.params.p (zFields s.params.p z s.f fs 28) (zFields s.params.p z s.f fx 16)

/-- R215: without DECOMP_CANONICAL, the same with each input read as its canonical integer x, or as x + p where that still
has m bits. -/
def Obligations.StepIsSoundUpToCanonicity : Prop :=
  ∀ (s t : State) (fs fx fd : FIdx) (z : List Nat), s.Inv → s.err = false →
    exec (.step fs fx fd) s = .next t → t.status = s.status → Satisfies s.params.p z t.ctx →
    ∃ (st : Vector Nat 28) (ext : Vector Nat 16),
      (∀ k : Fin 12, st[k.val] = (zFields s.params.p z s.f fs 28)[k.val] ∨
        ((zFields s.params.p z s.f fs 28)[k.val] < 2 ^ s.params.m - s.params.p ∧
          st[k.val] = (zFields s.params.p z s.f fs 28)[k.val] + s.params.p)) ∧
      (∀ i : Fin 16, ext[i] = (zFields s.params.p z s.f fx 16)[i] ∨
        ((zFields s.params.p z s.f fx 16)[i] < 2 ^ s.params.m - s.params.p ∧
          ext[i] = (zFields s.params.p z s.f fx 16)[i] + s.params.p)) ∧
      (∀ k : Fin 11, (zFields s.params.p z t.f fd 28)[k.val] = (zFields s.params.p z s.f fs 28)[k.val]) ∧
      (zFields s.params.p z t.f fd 28)[11] = ((zFields s.params.p z s.f fs 28)[11] + 1) % s.params.p ∧
      ∀ i : Fin 16, (zFields s.params.p z t.f fd 28)[12 + i.val] =
        (low32 ext[i] ^^^ (oracleKeystream st)[i]).toNat

/-! ### Laws over several commands -/

/-- R106: DEC then REC gives low32 of the value, the value itself below 2^32; REC then DEC gives the register's value. -/
def Obligations.WordCodecRoundTrips : Prop :=
  ∀ s : State, s.Inv →
    (∀ (i k : FIdx) (j : RIdx) (N : Nat), s.fval i = some N →
      ∃ t, execAll [.decompose j i, .recompose k j] s = .next t ∧ t.fval k = some (N % 2 ^ 32) ∧
        (N < 2 ^ 32 → t.fval k = some N)) ∧
    ∀ (j l : RIdx) (k : FIdx) (x : Word), s.rval j = some x →
      ∃ t, execAll [.recompose k j, .decompose l k] s = .next t ∧ t.rval l = some x

/-- R130, R133: rotl is left rotation by R130's formula and the value of the gadget rot; the rotation laws of both: by 16
twice, by 0, composition; and the number of one bits. -/
def Obligations.RotationLaws : Prop :=
  (∀ (x : Word) (n : Fin 32),
    (wordRotl x n.val).toNat = x.toNat * 2 ^ n.val % 2 ^ 32 + x.toNat / 2 ^ (32 - n.val)) ∧
  (∀ (c : Ctx) (w : Word32) (n : Fin 32), c.wordVal (rot w n) = wordRotl (c.wordVal w) n.val) ∧
  (∀ w : Word32, rot (rot w 16) 16 = w ∧ rot w 0 = w ∧ ∀ n k : Fin 32, rot (rot w n) k = rot w (n + k)) ∧
  ∀ x : Word, wordRotl (wordRotl x 16) 16 = x ∧ wordRotl x 0 = x ∧
    (∀ n k : Fin 32, wordRotl (wordRotl x n.val) k.val = wordRotl x ((n.val + k.val) % 32)) ∧
    ∀ n : Fin 32, ((List.range 32).filter fun i => (wordRotl x n.val).getLsbD i).length =
      ((List.range 32).filter fun i => x.getLsbD i).length

/-- R173: BLOCK has the effect of LAYOUT, SNAP, PERM and COMBINE, PERM that of ten DROUNDs, and DROUND that of the four
column and the four diagonal quarter-rounds: the same variables and constraints in the same order. So it is of the gadgets
those are made of: QR is the lines of R150, COMBINE the additions of R169, LAYOUT the decompositions of R162 after its
constants, and STEP is BLOCK and then, word by word, the decomposition and XOR of R191, with its block output recomposed. -/
def Obligations.CompositeCommandsAreTheirParts : Prop :=
  ∀ s : State,
    (∀ fs : FIdx, fs.val ≤ 116 → s.HasValues fs 12 →
      ∃ t, exec (.block fs) s = .next t ∧ execAll [.layout fs, .snap, .perm, .combine] s = .next t) ∧
    (s.Written16 0 →
      (∃ t, exec .perm s = .next t ∧ execAll (List.replicate 10 .dround) s = .next t) ∧
      ∃ t, exec .dround s = .next t ∧
        execAll ([.qrcol 0, .qrcol 1, .qrcol 2, .qrcol 3, .qrdiag 0, .qrdiag 1, .qrdiag 2, .qrdiag 3].map Pseudo.expand)
          s = .next t) ∧
    (∀ a b c d, distinct4 a b c d = true → (∀ j ∈ [a, b, c, d], s.r[j] ≠ .unwritten) →
      ∃ t, exec (.qr a b c d) s = .next t ∧
        execAll [.add a a b, .xor d d a, .rotl d d 16, .add c c d, .xor b b c, .rotl b b 12,
          .add a a b, .xor d d a, .rotl d d 8, .add c c d, .xor b b c, .rotl b b 7] s = .next t) ∧
    (s.Written16 0 → s.Written16 16 →
      ∃ t, exec .combine s = .next t ∧
        execAll ((List.range 16).map fun i => .add (wordIdx 0 i) (wordIdx 16 i) (wordIdx 0 i)) s = .next t) ∧
    (∀ fs : FIdx, fs.val ≤ 116 → s.HasValues fs 12 →
      ∃ t, exec (.layout fs) s = .next t ∧
        execAll (([0, 1, 2, 3, 4, 5, 6, 7, 11, 8, 9, 10] : List Nat).zipIdx.map fun q =>
          .decompose (wordIdx 4 q.2) (runIdx fs q.1))
          ((((s.setR 0 (constWord 0x61707865)).setR 1 (constWord 0x3320646e)).setR 2 (constWord 0x79622d32)).setR 3
            (constWord 0x6b206574)) = .next t) ∧
    ∀ fs fx fd : FIdx, fs.val ≤ 100 → fx.val ≤ 112 → fd.val ≤ 100 → s.ctx.nstep = 0 → s.HasValues fs 12 →
      s.HasValues fx 16 →
      ∃ t u, exec (.step fs fx fd) s = .next t ∧
        execAll ([.block fs] ++ (List.range 16).flatMap (fun i =>
            [.decompose (wordIdx 32 i) (runIdx fx i), .xor (wordIdx 32 i) (wordIdx 32 i) (wordIdx 0 i)]) ++
          (List.range 16).map fun i => .recompose (runIdx fd (12 + i)) (wordIdx 32 i)) s = .next u ∧
        t.r = u.r ∧ t.ctx.assign = u.ctx.assign ∧ t.ctx.cons = u.ctx.cons ∧
        ∀ i < 16, t.f[runIdx fd (12 + i)] = u.f[runIdx fd (12 + i)]

/-- R191, D23: STEP never reads the prior block output: with other contents there (and in every other register it does not
name as an input) it gives the same words, context and next state. -/
def Obligations.PriorBlockOutputIsNotRead : Prop :=
  ∀ (s t : State) (fs fx fd : FIdx) (f' : Vector FReg 128), exec (.step fs fx fd) s = .next t → t.status = s.status →
    s.err = false → (∀ k < 12, f'[runIdx fs k] = s.f[runIdx fs k]) → (∀ k < 16, f'[runIdx fx k] = s.f[runIdx fx k]) →
    ∃ t', exec (.step fs fx fd) { s with f := f' } = .next t' ∧ t'.r = t.r ∧ t'.ctx = t.ctx ∧ t'.status = t.status ∧
      ∀ k < 28, t'.f[runIdx fd k] = t.f[runIdx fd k]

/-! ### The host-level call -/

/-- R196: the host-level call rejects vectors of the wrong length and leaves the engine untouched; otherwise, with every
entry that STEP reads present, it returns what the native oracle gives of the values reduced mod p, and with one ABSENT it
returns the STATUS of the engine, the DecompositionFailure of the first one in STEP's order; the step index is ignored. -/
def Obligations.HostCallRunsOneStep : Prop :=
  (∀ (s : State) (n : Nat) (prior ext : List (Option Nat)), ¬ (prior.length = 28 ∧ ext.length = 16) →
    generateStepConstraints s n prior ext = (s, .error .shapeMismatch)) ∧
  (∀ (s : State) (n n' : Nat) (prior ext : List (Option Nat)),
    generateStepConstraints s n prior ext = generateStepConstraints s n' prior ext) ∧
  (∀ (s : State) (n : Nat) (prior ext : List (Option Nat)), s.params.Valid → prior.length = 28 → ext.length = 16 →
    (∀ j ∈ callReads, callValue prior ext j ≠ none) →
    ∃ t out, generateStepConstraints s n prior ext = (t, .ok out) ∧ t.err = false ∧
      out.map FReg.val = (nativeStep s.params.p
        (Vector.ofFn fun k : Fin 28 => (callValue prior ext k.val).getD 0 % s.params.p)
        (Vector.ofFn fun i : Fin 16 => (callValue prior ext (32 + i.val)).getD 0 % s.params.p)).toList.map some) ∧
  ∀ (s : State) (n : Nat) (prior ext : List (Option Nat)) (pre post : List Nat) (i : Nat), prior.length = 28 →
    ext.length = 16 → callReads = pre ++ i :: post → (∀ j ∈ pre, callValue prior ext j ≠ none) →
    callValue prior ext i = none →
    ∃ t, generateStepConstraints s n prior ext = (t, .error (.engine t.status)) ∧ t.err = true ∧
      t.status = BitVec.ofNat 32 (0x00004F13 + i * 2 ^ 15) ∧ t.ctx.cons = [] ∧ t.ctx.nstep = 0

/-- R200: after N steps threaded through fresh contexts the counter is (initial + N) mod p, and key and nonce are
unchanged. -/
def Obligations.ThreadedStepsCount : Prop :=
  ∀ (s : State) (key nonce : List Nat) (counter : Nat) (exts : List (List Nat)), s.params.Valid → key.length = 8 →
    nonce.length = 3 → (∀ x ∈ key ++ nonce ++ [counter], x < s.params.p) → (∀ e ∈ exts, e.length = 16) →
    ∃ t last, threadSteps s (exts.map fun e => e.map some) (genesis key nonce counter) = (t, .ok last) ∧
      last.length = 28 ∧ last.take 11 = (key ++ nonce).map some ∧
      last[11]? = some (some ((counter + exts.length) % s.params.p))

/-! ### Handing the context to folding -/

/-- R61, R255: the context may be handed to folding exactly when its last command has completed and ERR = 0 (that one has
completed is read off CTX.cons: log entry 11): never after reset, H_OPEN or an error, nor in a context without constraints,
writes in it or not, nor while a command is to come before the next H_OPEN; always after a DEC, LAYOUT, BLOCK or STEP, the
first command of its context or not, and after any command in a context with constraints, when no command is to come,
whatever else is. -/
def Obligations.ContextFoldsAfterItsLastCommand : Prop :=
  State.reset.foldable = false ∧
  (∀ s t : State, hostOp .openCtx s = .next t → t.foldable = false) ∧
  (∀ s : State, s.err = true → s.foldable = false) ∧
  (∀ s : State, s.ctx.cons = [] → s.foldable = false) ∧
  (∀ (s t : State) (i : FIdx) (v : Option Nat), s.ctx.cons = [] → hostOp (.writeF i.val v) s = .next t →
    t.foldable = false) ∧
  (∀ (s : State) (pre post : List HostOp) (w : Word), s.pending = pre ++ .issue w :: post → .openCtx ∉ pre →
    s.foldable = false) ∧
  ∀ (s t : State) (i : Instr) (pre : List HostOp), s.Inv → s.err = false → exec i s = .next t → t.status = s.status →
    (s.ctx.cons ≠ [] ∨ (∃ rd fs, i = .decompose rd fs) ∨ (∃ fs, i = .layout fs) ∨ (∃ fs, i = .block fs) ∨
      ∃ fs fx fd, i = .step fs fx fd) →
    (s.pending = pre ∨ ∃ post, s.pending = pre ++ .openCtx :: post) → (∀ w, .issue w ∉ pre) → t.foldable = true
end

