-- ==== Sys2Proof/Laws/Field.lean ====
section
/-! SUPPORT. Linear combinations: the operations keep the canonical form and evaluate as their names say. -/

namespace Sys2Proof

/-! ### Canonical form -/

theorem LC.wf_iff {p : Nat} {L : LC} : LC.wf p L = true ↔
    L.Pairwise (fun s t => s.1 < t.1) ∧ ∀ t ∈ L, t.2 ≠ 0 ∧ t.2 < p := by
  simp only [LC.wf, Bool.and_eq_true, decide_eq_true_eq, List.all_eq_true, bne_iff_ne]

theorem LC.mem_term {p k c : Nat} {t : Nat × Nat} (h : t ∈ LC.term p k c) : t = (k, c % p) ∧ c % p ≠ 0 := by
  unfold LC.term at h
  split at h <;> simp_all

theorem LC.mem_insert {p k c : Nat} {t : Nat × Nat} : ∀ {L : LC}, t ∈ LC.insert p k c L → t.1 = k ∨ t ∈ L
  | [], h => .inl (by rw [(LC.mem_term h).1])
  | (j, d) :: L, h => by
    unfold LC.insert at h
    split at h
    · rcases List.mem_append.1 h with h | h
      · exact .inl (by rw [(LC.mem_term h).1])
      · exact .inr h
    · split at h
      · rcases List.mem_append.1 h with h | h
        · exact .inl (by rw [(LC.mem_term h).1])
        · exact .inr (List.mem_cons_of_mem _ h)
      · rcases List.mem_cons.1 h with rfl | h
        · exact .inr (by simp)
        · rcases LC.mem_insert h with h | h
          · exact .inl h
          · exact .inr (List.mem_cons_of_mem _ h)

theorem LC.wf_term {p k c : Nat} (hp : 0 < p) : LC.wf p (LC.term p k c) = true := by
  rw [LC.wf_iff]
  refine ⟨?_, fun t ht => ?_⟩
  · unfold LC.term; split <;> simp
  · obtain ⟨rfl, h⟩ := LC.mem_term ht
    exact ⟨h, Nat.mod_lt _ hp⟩

theorem LC.wf_cons {p k c : Nat} {L : LC} : LC.wf p ((k, c) :: L) = true ↔
    (∀ t ∈ L, k < t.1) ∧ c ≠ 0 ∧ c < p ∧ LC.wf p L = true := by
  simp only [LC.wf_iff, List.pairwise_cons, List.mem_cons, forall_eq_or_imp]
  tauto

theorem LC.wf_term_append {p k c : Nat} {L : LC} (hp : 0 < p) (hk : ∀ t ∈ L, k < t.1) (h : LC.wf p L = true) :
    LC.wf p (LC.term p k c ++ L) = true := by
  unfold LC.term
  split
  · simpa using h
  · rename_i hc
    exact LC.wf_cons.2 ⟨hk, hc, Nat.mod_lt _ hp, h⟩

theorem LC.wf_insert {p k c : Nat} (hp : 0 < p) : ∀ {L : LC}, LC.wf p L = true → LC.wf p (LC.insert p k c L) = true
  | [], _ => LC.wf_term hp
  | (j, d) :: L, h => by
    obtain ⟨h1, h2, h3, h4⟩ := LC.wf_cons.1 h
    unfold LC.insert
    split
    · rename_i hk
      refine LC.wf_term_append hp (fun t ht => ?_) h
      rcases List.mem_cons.1 ht with rfl | ht
      · exact hk
      · exact hk.trans (h1 t ht)
    · split
      · rename_i hk
        exact LC.wf_term_append hp (by rw [hk]; exact h1) h4
      · refine LC.wf_cons.2 ⟨fun t ht => ?_, h2, h3, LC.wf_insert hp h4⟩
        rcases LC.mem_insert ht with h | h
        · omega
        · exact h1 t h

theorem LC.mem_add {p : Nat} {t : Nat × Nat} {B : LC} : ∀ {A : LC}, t ∈ LC.add p A B →
    (∃ u ∈ A, u.1 = t.1) ∨ t ∈ B
  | [], h => .inr h
  | u :: A, h => by
    rcases LC.mem_insert h with h | h
    · exact .inl ⟨u, by simp, h.symm⟩
    · rcases LC.mem_add h with ⟨v, hv, e⟩ | h
      · exact .inl ⟨v, List.mem_cons_of_mem _ hv, e⟩
      · exact .inr h

theorem LC.wf_add {p : Nat} (hp : 0 < p) {B : LC} (hB : LC.wf p B = true) : ∀ (A : LC), LC.wf p (LC.add p A B) = true
  | [] => hB
  | _ :: A => LC.wf_insert hp (LC.wf_add hp hB A)

theorem LC.mem_scale {p c : Nat} {A : LC} {t : Nat × Nat} (h : t ∈ LC.scale p c A) : ∃ u ∈ A, u.1 = t.1 := by
  obtain ⟨u, hu, ht⟩ := List.mem_flatMap.1 h
  exact ⟨u, hu, by rw [(LC.mem_term ht).1]⟩

theorem LC.wf_scale {p c : Nat} (hp : 0 < p) : ∀ {A : LC}, LC.wf p A = true → LC.wf p (LC.scale p c A) = true
  | [], _ => by simp [LC.scale, LC.wf]
  | (k, d) :: A, h => by
    obtain ⟨h1, _, _, h4⟩ := LC.wf_cons.1 h
    refine LC.wf_term_append hp (fun t ht => ?_) (LC.wf_scale hp h4)
    obtain ⟨u, hu, e⟩ := LC.mem_scale ht
    exact e ▸ h1 u hu

namespace Machine

theorem within_nil {p n : Nat} : LC.Within p n [] := ⟨by simp [LC.wf], by simp⟩

theorem within_single {p n k : Nat} (hp : 1 < p) (hk : k < n) : LC.Within p n (LC.single k) :=
  ⟨LC.wf_iff.2 ⟨by simp [LC.single], by simp [LC.single, hp]⟩, by simp [LC.single, hk]⟩

theorem within_one {p n : Nat} (hp : 1 < p) (hn : 0 < n) : LC.Within p n LC.one := within_single hp hn

theorem within_add {p n : Nat} (hp : 0 < p) {A B : LC} (hA : LC.Within p n A) (hB : LC.Within p n B) :
    LC.Within p n (LC.add p A B) := by
  refine ⟨LC.wf_add hp hB.1 A, fun t ht => ?_⟩
  rcases LC.mem_add ht with ⟨u, hu, e⟩ | h
  · exact e ▸ hA.2 u hu
  · exact hB.2 t h

theorem within_scale {p n c : Nat} (hp : 0 < p) {A : LC} (hA : LC.Within p n A) : LC.Within p n (LC.scale p c A) := by
  refine ⟨LC.wf_scale hp hA.1, fun t ht => ?_⟩
  obtain ⟨u, hu, e⟩ := LC.mem_scale ht
  exact e ▸ hA.2 u hu

theorem within_sub {p n : Nat} (hp : 0 < p) {A B : LC} (hA : LC.Within p n A) (hB : LC.Within p n B) :
    LC.Within p n (LC.sub p A B) := within_add hp hA (within_scale hp hB)

theorem within_weighted {p n : Nat} (hp : 0 < p) : ∀ (k : Nat) (Ls : List LC), (∀ L ∈ Ls, LC.Within p n L) →
    LC.Within p n (LC.weighted p k Ls)
  | _, [], _ => within_nil
  | k, L :: Ls, h => within_add hp (within_scale hp (h L (by simp)))
      (within_weighted hp (k + 1) Ls fun L' hL' => h L' (List.mem_cons_of_mem _ hL'))

theorem Within_mono {p n m : Nat} {L : LC} (h : LC.Within p n L) (hn : n ≤ m) : LC.Within p m L :=
  ⟨h.1, fun t ht => (h.2 t ht).trans_le hn⟩

end Machine

/-! ### Evaluation -/

/-- Σ c_k·z(k) in ZMod p, for an assignment given as a function: the sum the operations are linear in. -/
def LC.ev {p : Nat} (z : Nat → ZMod p) (L : LC) : ZMod p := (L.map fun t => (t.2 : ZMod p) * z t.1).sum

section
variable {p : Nat} (z : Nat → ZMod p)

@[simp] theorem LC.ev_nil : LC.ev z [] = 0 := rfl

@[simp] theorem LC.ev_cons (t : Nat × Nat) (L : LC) : LC.ev z (t :: L) = (t.2 : ZMod p) * z t.1 + LC.ev z L := by
  simp [LC.ev]

theorem LC.ev_append (A B : LC) : LC.ev z (A ++ B) = LC.ev z A + LC.ev z B := by
  simp [LC.ev]

@[simp] theorem LC.ev_term (k c : Nat) : LC.ev z (LC.term p k c) = (c : ZMod p) * z k := by
  unfold LC.term
  split
  · rename_i h
    have : (c : ZMod p) = 0 := by
      rw [ZMod.natCast_eq_zero_iff]; exact Nat.dvd_of_mod_eq_zero h
    simp [this]
  · simp

@[simp] theorem LC.ev_insert (k c : Nat) : ∀ L : LC, LC.ev z (LC.insert p k c L) = (c : ZMod p) * z k + LC.ev z L
  | [] => by simp [LC.insert]
  | (j, d) :: L => by
    unfold LC.insert
    split
    · simp [LC.ev_append]
    · split
      · rename_i h
        simp only [LC.ev_append, LC.ev_term, LC.ev_cons, h, Nat.cast_add]
        ring
      · simp only [LC.ev_cons, LC.ev_insert k c L]
        ring

@[simp] theorem LC.ev_add (B : LC) : ∀ A : LC, LC.ev z (LC.add p A B) = LC.ev z A + LC.ev z B
  | [] => by simp [LC.add]
  | t :: A => by
    have := LC.ev_add B A
    simp only [LC.add, List.foldr_cons] at this ⊢
    rw [LC.ev_insert, this, LC.ev_cons]
    ring

@[simp] theorem LC.ev_scale (c : Nat) : ∀ A : LC, LC.ev z (LC.scale p c A) = (c : ZMod p) * LC.ev z A
  | [] => by simp [LC.scale]
  | t :: A => by
    have := LC.ev_scale c A
    simp only [LC.scale, List.flatMap_cons, LC.ev_append, LC.ev_term, LC.ev_cons, Nat.cast_mul] at this ⊢
    rw [this]
    ring

@[simp] theorem LC.ev_sub (hp : 0 < p) (A B : LC) : LC.ev z (LC.sub p A B) = LC.ev z A - LC.ev z B := by
  simp only [LC.sub, LC.ev_add, LC.ev_scale]
  rw [Nat.cast_sub hp]
  simp
  ring

@[simp] theorem LC.ev_single (k : Nat) : LC.ev z (LC.single k) = z k := by simp [LC.single]

@[simp] theorem LC.ev_one : LC.ev z LC.one = z 0 := by simp [LC.one]

theorem LC.ev_weighted : ∀ (k : Nat) (Ls : List LC), LC.ev z (LC.weighted p k Ls) =
    (2 : ZMod p) ^ k * (Ls.map (LC.ev z)).foldr (fun b acc => b + 2 * acc) 0
  | _, [] => by simp [LC.weighted]
  | k, L :: Ls => by
    simp only [LC.weighted, LC.ev_add, LC.ev_scale, LC.ev_weighted (k + 1) Ls, List.map_cons, List.foldr_cons]
    push_cast
    ring

theorem LC.ev_congr {z z' : Nat → ZMod p} : ∀ {L : LC}, (∀ t ∈ L, z t.1 = z' t.1) → LC.ev z L = LC.ev z' L
  | [], _ => rfl
  | t :: L, h => by
    rw [LC.ev_cons, LC.ev_cons, h t (by simp), LC.ev_congr fun u hu => h u (List.mem_cons_of_mem _ hu)]

end

/-- An assignment list as a function into ZMod p. -/
def zfun (p : Nat) (z : List Nat) : Nat → ZMod p := fun k => (z.getD k 0 : Nat)

theorem LC.eval_cast (p : Nat) (z : List Nat) (L : LC) : (LC.eval p z L : ZMod p) = LC.ev (zfun p z) L := by
  simp [LC.eval, LC.ev, zfun, ZMod.natCast_mod, Nat.cast_list_sum, Function.comp_def]

theorem LC.eval_lt {p : Nat} (hp : 0 < p) (z : List Nat) (L : LC) : LC.eval p z L < p := Nat.mod_lt _ hp

theorem natCast_inj_of_lt {p a b : Nat} (ha : a < p) (hb : b < p) (h : (a : ZMod p) = (b : ZMod p)) : a = b := by
  rw [ZMod.natCast_eq_natCast_iff'] at h
  rwa [Nat.mod_eq_of_lt ha, Nat.mod_eq_of_lt hb] at h

theorem Constraint.holds_iff {p : Nat} (hp : 0 < p) (z : List Nat) (q : Constraint) : q.holds p z = true ↔
    LC.ev (zfun p z) q.a * LC.ev (zfun p z) q.b = LC.ev (zfun p z) q.c := by
  rw [Constraint.holds, beq_iff_eq]
  constructor
  · intro h
    have := congrArg (Nat.cast : Nat → ZMod p) h
    simpa [ZMod.natCast_mod, LC.eval_cast] using this
  · intro h
    refine natCast_inj_of_lt (Nat.mod_lt _ hp) (LC.eval_lt hp _ _) ?_
    simpa [ZMod.natCast_mod, LC.eval_cast] using h

/-! ### Honest values -/

/-- The values of an assignment list with absent ones read as 0. -/
def honestFun (p : Nat) (assign : List (Option Nat)) : Nat → ZMod p := fun k => (((assign[k]?).join).getD 0 : Nat)

theorem LC.honest_some {p : Nat} (hp : 0 < p) {assign : List (Option Nat)} : ∀ {L : LC},
    (∀ t ∈ L, ∃ x, assign[t.1]? = some (some x)) →
    ∃ v, LC.honest p assign L = some v ∧ v < p ∧ (v : ZMod p) = LC.ev (honestFun p assign) L
  | [], _ => ⟨0, rfl, hp, by simp⟩
  | (k, c) :: L, h => by
    obtain ⟨x, hx⟩ := h (k, c) (by simp)
    obtain ⟨y, hy, _, he⟩ := LC.honest_some hp fun t ht => h t (List.mem_cons_of_mem _ ht)
    simp only at hx
    refine ⟨(c * x + y) % p, by simp [LC.honest, hx, hy], Nat.mod_lt _ hp, ?_⟩
    simp [ZMod.natCast_mod, honestFun, hx, he]

theorem LC.honest_vars {p : Nat} {assign : List (Option Nat)} : ∀ {L : LC} {v : Nat},
    LC.honest p assign L = some v → ∀ t ∈ L, ∃ x, assign[t.1]? = some (some x)
  | [], _, _, t, ht => by simp at ht
  | (k, c) :: L, v, h, t, ht => by
    simp only [LC.honest] at h
    split at h
    · rename_i x y hx hy
      rcases List.mem_cons.1 ht with rfl | ht
      · refine ⟨x, ?_⟩
        cases hk : assign[k]? <;> simp_all
      · exact LC.honest_vars hy t ht
    · cases h

/-- The honest value is the evaluation, when every variable has a value. -/
theorem LC.honest_cast {p : Nat} (hp : 0 < p) {assign : List (Option Nat)} {L : LC} {v : Nat}
    (h : LC.honest p assign L = some v) : v < p ∧ (v : ZMod p) = LC.ev (honestFun p assign) L := by
  obtain ⟨w, hw, h1, h2⟩ := LC.honest_some hp (LC.honest_vars h)
  rw [h] at hw
  cases hw
  exact ⟨h1, h2⟩

theorem LC.honest_append {p : Nat} {assign : List (Option Nat)} (vs : List (Option Nat)) : ∀ {L : LC},
    (∀ t ∈ L, t.1 < assign.length) → LC.honest p (assign ++ vs) L = LC.honest p assign L
  | [], _ => rfl
  | (k, c) :: L, h => by
    have hk : k < assign.length := h (k, c) (by simp)
    simp only [LC.honest, List.getElem?_append_left hk,
      LC.honest_append vs fun t ht => h t (List.mem_cons_of_mem _ ht)]

/-! ### Bits -/

theorem bitsVal_natBits (N : Nat) : ∀ m, bitsVal (natBits m N) = N % 2 ^ m := by
  intro m
  induction m generalizing N with
  | zero => simp [natBits, bitsVal, Nat.mod_one]
  | succ m ih =>
    have hcons : natBits (m + 1) N = N.testBit 0 :: natBits m (N / 2) := by
      simp [natBits, List.range_succ_eq_map, Function.comp_def, Nat.testBit_succ]
    rw [hcons, bitsVal, ih]
    have h2 : (N.testBit 0).toNat = N % 2 := by
      rw [Nat.testBit_zero]
      rcases Nat.mod_two_eq_zero_or_one N with h | h <;> simp [h]
    have h3 := Nat.mod_mul (x := N) (a := 2) (b := 2 ^ m)
    rw [h2, pow_succ, Nat.mul_comm (2 ^ m) 2, h3]

theorem natBits_length (m N : Nat) : (natBits m N).length = m := by simp [natBits]

theorem bitsVal_lt : ∀ bs : List Bool, bitsVal bs < 2 ^ bs.length
  | [] => by simp [bitsVal]
  | b :: bs => by
    have h1 := bitsVal_lt bs
    have h2 : b.toNat ≤ 1 := Bool.toNat_le b
    simp only [bitsVal, List.length_cons, pow_succ]
    omega

theorem bitsVal_testBit : ∀ (bs : List Bool) (k : Nat), (bitsVal bs).testBit k = bs.getD k false
  | [], k => by simp [bitsVal]
  | b :: bs, 0 => by
    cases b <;> simp [bitsVal, Nat.testBit_zero, Nat.add_mod]
  | b :: bs, k + 1 => by
    have h : (b.toNat + 2 * bitsVal bs) / 2 = bitsVal bs := by
      have := Bool.toNat_le b
      omega
    rw [bitsVal, Nat.testBit_succ, h, bitsVal_testBit bs k]
    simp

theorem lt_two_pow_fieldBits (p : Nat) : p < 2 ^ fieldBits p := Nat.lt_log2_self

end Sys2Proof
end

