-- ==== Sys2Proof/Laws/State.lean ====
section
/-! SUPPORT. One lemma per field per update of the state, and the reading of a
register file after a write. -/

namespace Sys2Proof.Machine

section
variable (s : State) (j : RIdx) (w : Word32) (i : FIdx) (x : FReg) (c : Ctx) (y : Reply)

@[simp] theorem setR_params : (s.setR j w).params = s.params := rfl
@[simp] theorem setR_f : (s.setR j w).f = s.f := rfl
@[simp] theorem setR_r : (s.setR j w).r = s.r.set j.val (.written w) j.isLt := rfl
@[simp] theorem setR_ctx : (s.setR j w).ctx = s.ctx := rfl
@[simp] theorem setR_status : (s.setR j w).status = s.status := rfl
@[simp] theorem setR_pending : (s.setR j w).pending = s.pending := rfl
@[simp] theorem setR_replies : (s.setR j w).replies = s.replies := rfl

@[simp] theorem setF_params : (s.setF i x).params = s.params := rfl
@[simp] theorem setF_f : (s.setF i x).f = s.f.set i.val x i.isLt := rfl
@[simp] theorem setF_r : (s.setF i x).r = s.r := rfl
@[simp] theorem setF_ctx : (s.setF i x).ctx = s.ctx := rfl
@[simp] theorem setF_status : (s.setF i x).status = s.status := rfl
@[simp] theorem setF_pending : (s.setF i x).pending = s.pending := rfl
@[simp] theorem setF_replies : (s.setF i x).replies = s.replies := rfl

@[simp] theorem setCtx_params : (s.setCtx c).params = s.params := rfl
@[simp] theorem setCtx_f : (s.setCtx c).f = s.f := rfl
@[simp] theorem setCtx_r : (s.setCtx c).r = s.r := rfl
@[simp] theorem setCtx_ctx : (s.setCtx c).ctx = c := rfl
@[simp] theorem setCtx_status : (s.setCtx c).status = s.status := rfl
@[simp] theorem setCtx_pending : (s.setCtx c).pending = s.pending := rfl
@[simp] theorem setCtx_replies : (s.setCtx c).replies = s.replies := rfl

@[simp] theorem reply_params : (s.reply y).params = s.params := rfl
@[simp] theorem reply_f : (s.reply y).f = s.f := rfl
@[simp] theorem reply_r : (s.reply y).r = s.r := rfl
@[simp] theorem reply_ctx : (s.reply y).ctx = s.ctx := rfl
@[simp] theorem reply_status : (s.reply y).status = s.status := rfl
@[simp] theorem reply_pending : (s.reply y).pending = s.pending := rfl
@[simp] theorem reply_replies : (s.reply y).replies = s.replies ++ [y] := rfl

@[simp] theorem openCtx_params : s.openCtx.params = s.params := rfl
@[simp] theorem openCtx_f : s.openCtx.f = Vector.replicate 128 .unwritten := rfl
@[simp] theorem openCtx_r : s.openCtx.r = Vector.replicate 64 .unwritten := rfl
@[simp] theorem openCtx_ctx : s.openCtx.ctx = Ctx.fresh := rfl
@[simp] theorem openCtx_status : s.openCtx.status = 0#32 := rfl
@[simp] theorem openCtx_pending : s.openCtx.pending = s.pending := rfl
@[simp] theorem openCtx_replies : s.openCtx.replies = s.replies := rfl

end

section
variable {n : Nat} (s : State) (base : Nat) (ws : Vector Word32 n) (xs : Vector FReg n)

@[simp] theorem setWords_params : (s.setWords base ws).params = s.params := by dsimp only [State.setWords]
@[simp] theorem setWords_f : (s.setWords base ws).f = s.f := by dsimp only [State.setWords]
@[simp] theorem setWords_r : (s.setWords base ws).r = putWords base ws s.r := by dsimp only [State.setWords]
@[simp] theorem setWords_ctx : (s.setWords base ws).ctx = s.ctx := by dsimp only [State.setWords]
@[simp] theorem setWords_status : (s.setWords base ws).status = s.status := by dsimp only [State.setWords]
@[simp] theorem setWords_pending : (s.setWords base ws).pending = s.pending := by dsimp only [State.setWords]
@[simp] theorem setWords_replies : (s.setWords base ws).replies = s.replies := by dsimp only [State.setWords]

@[simp] theorem setFields_params : (s.setFields base xs).params = s.params := by dsimp only [State.setFields]
@[simp] theorem setFields_f : (s.setFields base xs).f = putFields base xs s.f := by dsimp only [State.setFields]
@[simp] theorem setFields_r : (s.setFields base xs).r = s.r := by dsimp only [State.setFields]
@[simp] theorem setFields_ctx : (s.setFields base xs).ctx = s.ctx := by dsimp only [State.setFields]
@[simp] theorem setFields_status : (s.setFields base xs).status = s.status := by dsimp only [State.setFields]
@[simp] theorem setFields_pending : (s.setFields base xs).pending = s.pending := by dsimp only [State.setFields]
@[simp] theorem setFields_replies : (s.setFields base xs).replies = s.replies := by dsimp only [State.setFields]

/-- A run of word registers after it is written: the new words inside it, the old registers outside. -/
theorem putWords_get (r : Vector RReg 64) (j : RIdx) : (putWords base ws r)[j] =
    if h : base ≤ j.val ∧ j.val < base + n then .written (ws[j.val - base]'(by omega)) else r[j] := by
  simp [putWords]

/-- A run of field registers after it is written. -/
theorem putFields_get (f : Vector FReg 128) (i : FIdx) : (putFields base xs f)[i] =
    if h : base ≤ i.val ∧ i.val < base + n then xs[i.val - base]'(by omega) else f[i] := by
  simp [putFields]

end

/-- R[j] after R[k] is written. -/
theorem setR_get (s : State) (j k : RIdx) (w : Word32) :
    (s.setR k w).r[j] = if k = j then .written w else s.r[j] := by
  simp [State.setR, Vector.getElem_set, Fin.ext_iff]

/-- F[i] after F[k] is written. -/
theorem setF_get (s : State) (i k : FIdx) (x : FReg) : (s.setF k x).f[i] = if k = i then x else s.f[i] := by
  simp [State.setF, Vector.getElem_set, Fin.ext_iff]

/-- Everything taking an error can do (R224, R226): STATUS, and only while ERR = 0. -/
theorem raise_eq (s : State) (op : BitVec 6) (e : Err) :
    s.raise op e = { s with status := if s.err then s.status else statusWord op e } := by
  unfold State.raise; split <;> rfl

@[simp] theorem raise_params (s : State) (op : BitVec 6) (e : Err) : (s.raise op e).params = s.params := by
  rw [raise_eq]
@[simp] theorem raise_f (s : State) (op : BitVec 6) (e : Err) : (s.raise op e).f = s.f := by rw [raise_eq]
@[simp] theorem raise_r (s : State) (op : BitVec 6) (e : Err) : (s.raise op e).r = s.r := by rw [raise_eq]
@[simp] theorem raise_ctx (s : State) (op : BitVec 6) (e : Err) : (s.raise op e).ctx = s.ctx := by rw [raise_eq]
@[simp] theorem raise_pending (s : State) (op : BitVec 6) (e : Err) : (s.raise op e).pending = s.pending := by
  rw [raise_eq]
@[simp] theorem raise_replies (s : State) (op : BitVec 6) (e : Err) : (s.raise op e).replies = s.replies := by
  rw [raise_eq]

/-- Everything the end of a command can do: it answers the command's whole result, or the error taken. -/
theorem finish_cases {op : BitVec 6} {s : State} {r : Except Err State} :
    (∃ t, r = .ok t ∧ finish op s r = .next t) ∨ (∃ e, r = .error e ∧ finish op s r = .next (s.raise op e)) := by
  cases r with
  | ok t => exact .inl ⟨t, rfl, rfl⟩
  | error e => exact .inr ⟨e, rfl, rfl⟩

end Sys2Proof.Machine
end

