-- ==== Sys2Proof/Laws/Gates.lean ====
section
/-! SUPPORT. Growth of the context, and what allocation, constraints and the single-bit gates do: the value they
compute, the well-formedness they keep, and what a satisfying assignment makes of them (R121 to R124). -/

namespace Sys2Proof.Machine

/-! ### Growth -/

theorem Ctx.Extends.refl (c : Ctx) : c.Extends c := ⟨⟨[], by simp⟩, ⟨[], by simp⟩⟩

theorem Ctx.Extends.trans {a b c : Ctx} (h : a.Extends b) (h' : b.Extends c) : a.Extends c := by
  obtain ⟨⟨vs, e1⟩, qs, e2⟩ := h
  obtain ⟨⟨vs', e3⟩, qs', e4⟩ := h'
  exact ⟨⟨vs ++ vs', by rw [e3, e1, List.append_assoc]⟩, qs ++ qs', by rw [e4, e2, List.append_assoc]⟩

theorem Ctx.Extends.length_le {c c' : Ctx} (h : c.Extends c') : c.assign.length ≤ c'.assign.length := by
  obtain ⟨⟨vs, e⟩, _⟩ := h
  simp [e]

theorem Ctx.Extends.getElem? {c c' : Ctx} (h : c.Extends c') {k : Nat} (hk : k < c.assign.length) :
    c'.assign[k]? = c.assign[k]? := by
  obtain ⟨⟨vs, e⟩, _⟩ := h
  rw [e, List.getElem?_append_left hk]

theorem lt_of_getElem? {c : Ctx} {k : Nat} {v : Option Nat} (h : c.assign[k]? = some v) : k < c.assign.length := by
  by_contra hk
  rw [List.getElem?_eq_none (by omega)] at h
  cases h

theorem Ctx.Extends.signal {c c' : Ctx} (h : c.Extends c') {x : Signal} (hx : c.SignalOk x) :
    c'.SignalOk x ∧ c'.bit x = c.bit x := by
  cases x with
  | const b => exact ⟨trivial, rfl⟩
  | var k =>
    have hk : c'.assign[k]? = c.assign[k]? := h.getElem? (by
      rcases hx.2 with e | e <;> exact lt_of_getElem? e)
    refine ⟨⟨hx.1, by rw [hk]; exact hx.2⟩, ?_⟩
    simp [Ctx.bit, Ctx.value, hk]

theorem Ctx.Extends.word {c c' : Ctx} (h : c.Extends c') {w : Word32} (hw : c.WordOk w) :
    c'.WordOk w ∧ c'.wordVal w = c.wordVal w := by
  refine ⟨fun x hx => (h.signal (hw x hx)).1, ?_⟩
  unfold Ctx.wordVal
  rw [List.map_congr_left fun x hx => (h.signal (hw x hx)).2]

theorem Ctx.Extends.field {p : Nat} {c c' : Ctx} (h : c.Extends c') {x : FReg} (hx : c.FieldOk p x) :
    c'.FieldOk p x := by
  intro L v e
  obtain ⟨hL, hv⟩ := hx L v e
  refine ⟨Within_mono hL h.length_le, ?_⟩
  obtain ⟨⟨vs, e⟩, _⟩ := h
  rw [e, LC.honest_append vs hL.2, hv]

/-- A written register is well-formed when its linear combination and value are. -/
theorem fieldOk_written {p : Nat} {c : Ctx} {L : LC} {v : Option Nat} :
    c.FieldOk p (.written L v) ↔ LC.Within p c.assign.length L ∧ v = LC.honest p c.assign L :=
  ⟨fun h => h L v rfl, fun h L' v' e => by cases e; exact h⟩

/-- What an emission does to the context: it grows, stays well-formed, and stays satisfied by its own values. -/
structure Grows (p : Nat) (c c' : Ctx) : Prop where
  ext : c.Extends c'
  ok : c'.Ok p
  complete : c.Complete p → c'.Complete p
  nstep : c'.nstep = c.nstep

theorem Grows.refl {p : Nat} {c : Ctx} (h : c.Ok p) : Grows p c c := ⟨Ctx.Extends.refl c, h, id, rfl⟩

theorem Grows.trans {p : Nat} {a b c : Ctx} (h : Grows p a b) (h' : Grows p b c) : Grows p a c :=
  ⟨h.ext.trans h'.ext, h'.ok, h'.complete ∘ h.complete, h'.nstep.trans h.nstep⟩

theorem Ctx.Ok.length_pos {p : Nat} {c : Ctx} (h : c.Ok p) : 0 < c.assign.length := lt_of_getElem? h.one

theorem honestFun_eq (p : Nat) (c : Ctx) (k : Nat) : honestFun p c.assign k = (c.value k : ZMod p) := rfl

theorem honestFun_zero {p : Nat} {c : Ctx} (h : c.Ok p) : honestFun p c.assign 0 = 1 := by
  simp [honestFun, h.one]

theorem toLC_within {p : Nat} (hp : 1 < p) {c : Ctx} (h : c.Ok p) {x : Signal} (hx : c.SignalOk x) :
    LC.Within p c.assign.length x.toLC := by
  cases x with
  | const b => cases b <;> simp only [Signal.toLC]
               · exact within_nil
               · exact within_one hp (Ctx.Ok.length_pos h)
  | var k => exact within_single hp (by rcases hx.2 with e | e <;> exact lt_of_getElem? e)

theorem toLC_honest {p : Nat} {c : Ctx} (h : c.Ok p) {x : Signal} (hx : c.SignalOk x) :
    LC.ev (honestFun p c.assign) x.toLC = ((c.bit x).toNat : ZMod p) := by
  cases x with
  | const b => cases b <;> simp [Signal.toLC, Ctx.bit, honestFun_zero h]
  | var k => rcases hx.2 with e | e <;> simp [Signal.toLC, Ctx.bit, Ctx.value, honestFun, e]

theorem toLC_vars {p : Nat} {c : Ctx} (h : c.Ok p) {x : Signal} (hx : c.SignalOk x) :
    ∀ t ∈ x.toLC, ∃ v, c.assign[t.1]? = some (some v) := by
  cases x with
  | const b => cases b <;> simp [Signal.toLC, LC.one, h.one]
  | var k => rcases hx.2 with e | e <;> simp [Signal.toLC, LC.single, e]

theorem toLC_value {p : Nat} {z : List Nat} (h : z.getD 0 0 = 1) (x : Signal) :
    LC.ev (zfun p z) x.toLC = (Signal.value z x : ZMod p) := by
  cases x with
  | const b =>
    cases b
    · simp [Signal.toLC, Signal.value]
    · rw [Signal.toLC, LC.ev_one, zfun, h, Signal.value, Bool.toNat_true]
  | var k => simp [Signal.toLC, Signal.value, zfun]

/-- An assignment satisfies at least the context's constraints (its length aside). -/
structure Sat (p : Nat) (z : List Nat) (c : Ctx) : Prop where
  one : z.getD 0 0 = 1
  below : ∀ x ∈ z, x < p
  holds : ∀ q ∈ c.cons, q.holds p z = true

theorem Satisfies.sat {p : Nat} {z : List Nat} {c : Ctx} (h : Satisfies p z c) : Sat p z c :=
  ⟨h.one, h.below, h.holds⟩

theorem Sat.mono {p : Nat} {z : List Nat} {c c' : Ctx} (h : Sat p z c') (he : c.Extends c') : Sat p z c := by
  obtain ⟨_, qs, e⟩ := he
  exact ⟨h.one, h.below, fun q hq => h.holds q (by rw [e]; exact List.mem_append_left _ hq)⟩

theorem value_lt {p : Nat} (hp : 1 < p) {z : List Nat} (h : ∀ x ∈ z, x < p) (x : Signal) : Signal.value z x < p := by
  cases x with
  | const b => cases b <;> simp [Signal.value] <;> omega
  | var k =>
    simp only [Signal.value, List.getD_eq_getElem?_getD]
    cases hk : z[k]? with
    | none => simp; omega
    | some v => exact h v (List.mem_of_getElem? hk)

/-! ### One emission -/

theorem alloc_eq (v : Option Nat) (c : Ctx) :
    c.alloc v = (c.assign.length, { c with assign := c.assign ++ [v] }) := rfl

theorem alloc_extends (v : Option Nat) (c : Ctx) : c.Extends (c.alloc v).2 := ⟨⟨[v], rfl⟩, [], by simp [alloc_eq]⟩

theorem enforce_extends (q : Constraint) (c : Ctx) : c.Extends (c.enforce q) :=
  ⟨⟨[], by simp [Ctx.enforce]⟩, [q], rfl⟩

/-- Allocating a value of Fp, or ABSENT, keeps the context well-formed and satisfied. -/
theorem alloc_grows {p : Nat} {c : Ctx} (h : c.Ok p) {v : Option Nat} (hv : ∀ x, v = some x → x < p) :
    Grows p c (c.alloc v).2 := by
  refine ⟨alloc_extends v c, ⟨?_, ?_, ?_⟩, ?_, rfl⟩
  · exact ((alloc_extends v c).getElem? (Ctx.Ok.length_pos h)).trans h.one
  · intro x hx
    rcases List.mem_append.1 hx with hx | hx
    · exact h.below x hx
    · exact hv x (List.mem_singleton.1 hx).symm
  · intro q hq
    obtain ⟨h1, h2, h3⟩ := h.within q hq
    have hl := (alloc_extends v c).length_le
    exact ⟨Within_mono h1 hl, Within_mono h2 hl, Within_mono h3 hl⟩
  · intro hc q hq
    obtain ⟨a, b, h1, h2, h3⟩ := hc q hq
    obtain ⟨w1, w2, w3⟩ := h.within q hq
    refine ⟨a, b, ?_, ?_, ?_⟩
    · rw [alloc_eq]; rw [LC.honest_append _ w1.2]; exact h1
    · rw [alloc_eq]; rw [LC.honest_append _ w2.2]; exact h2
    · rw [alloc_eq]; rw [LC.honest_append _ w3.2]; exact h3

/-- A constraint over variables with values, true of those values, keeps the context well-formed and satisfied. -/
theorem enforce_grows {p : Nat} (hp : 0 < p) {c : Ctx} (h : c.Ok p) {q : Constraint}
    (hw : LC.Within p c.assign.length q.a ∧ LC.Within p c.assign.length q.b ∧ LC.Within p c.assign.length q.c)
    (hv : ∀ L ∈ [q.a, q.b, q.c], ∀ t ∈ L, ∃ x, c.assign[t.1]? = some (some x))
    (he : LC.ev (honestFun p c.assign) q.a * LC.ev (honestFun p c.assign) q.b =
      LC.ev (honestFun p c.assign) q.c) : Grows p c (c.enforce q) := by
  refine ⟨enforce_extends q c, ⟨h.one, h.below, ?_⟩, ?_, rfl⟩
  · intro q' hq'
    rcases List.mem_append.1 hq' with hq' | hq'
    · exact h.within q' hq'
    · rw [List.mem_singleton.1 hq']; exact hw
  · intro hc q' hq'
    rcases List.mem_append.1 hq' with hq' | hq'
    · exact hc q' hq'
    · rw [List.mem_singleton.1 hq']
      obtain ⟨a, ha, _, ea⟩ := LC.honest_some hp (hv q.a (by simp))
      obtain ⟨b, hb, _, eb⟩ := LC.honest_some hp (hv q.b (by simp))
      obtain ⟨d, hd, ld, ed⟩ := LC.honest_some hp (hv q.c (by simp))
      refine ⟨a, b, ha, hb, ?_⟩
      show LC.honest p c.assign q.c = _
      rw [hd]
      congr 1
      refine natCast_inj_of_lt ld (Nat.mod_lt _ hp) ?_
      rw [ZMod.natCast_mod, Nat.cast_mul, ea, eb, ed, he]

/-! ### Gates -/

/-- What R121 to R123 have in common: the constraint is over its inputs, holds of the boolean function's value,
and forces it. -/
structure GateRel (p : Nat) (op : Bool → Bool → Bool) (rel : LC → LC → LC → Constraint) : Prop where
  within : ∀ {n : Nat} {X Y Z : LC}, LC.Within p n X → LC.Within p n Y → LC.Within p n Z →
    LC.Within p n (rel X Y Z).a ∧ LC.Within p n (rel X Y Z).b ∧ LC.Within p n (rel X Y Z).c
  vars : ∀ {X Y Z L : LC} {t : Nat × Nat}, L ∈ [(rel X Y Z).a, (rel X Y Z).b, (rel X Y Z).c] → t ∈ L →
    ∃ u ∈ X ++ Y ++ Z, u.1 = t.1
  iff : ∀ (f : Nat → ZMod p) {X Y Z : LC} {x y : Bool}, LC.ev f X = (x.toNat : ZMod p) →
    LC.ev f Y = (y.toNat : ZMod p) →
    (LC.ev f (rel X Y Z).a * LC.ev f (rel X Y Z).b = LC.ev f (rel X Y Z).c ↔
      LC.ev f Z = ((op x y).toNat : ZMod p))

theorem vars_add {p : Nat} {A B : LC} {t : Nat × Nat} (h : t ∈ LC.add p A B) : ∃ u ∈ A ++ B, u.1 = t.1 := by
  rcases LC.mem_add h with ⟨u, hu, e⟩ | h
  · exact ⟨u, List.mem_append_left _ hu, e⟩
  · exact ⟨t, List.mem_append_right _ h, rfl⟩

theorem vars_sub {p : Nat} {A B : LC} {t : Nat × Nat} (h : t ∈ LC.sub p A B) : ∃ u ∈ A ++ B, u.1 = t.1 := by
  obtain ⟨u, hu, e⟩ := vars_add h
  rcases List.mem_append.1 hu with hu | hu
  · exact ⟨u, List.mem_append_left _ hu, e⟩
  · obtain ⟨v, hv, e'⟩ := LC.mem_scale hu
    exact ⟨v, List.mem_append_right _ hv, e'.trans e⟩

theorem vars_add_sub {p : Nat} {X Y Z : LC} {t : Nat × Nat} (h : t ∈ LC.sub p (LC.add p X Y) Z) :
    ∃ u ∈ X ++ Y ++ Z, u.1 = t.1 := by
  obtain ⟨u, hu, e⟩ := vars_sub h
  rcases List.mem_append.1 hu with hu | hu
  · obtain ⟨v, hv, e'⟩ := vars_add hu
    exact ⟨v, List.mem_append_left _ hv, e'.trans e⟩
  · exact ⟨u, List.mem_append_right _ hu, e⟩

theorem xorRel_gate {p : Nat} (hp : 1 < p) : GateRel p Bool.xor (xorRel p) where
  within := fun hX hY hZ => ⟨within_scale (by omega) hX, hY, within_sub (by omega) (within_add (by omega) hX hY) hZ⟩
  vars := by
    intro X Y Z L t hL ht
    simp only [xorRel, List.mem_cons, List.not_mem_nil, or_false] at hL
    rcases hL with rfl | rfl | rfl
    · obtain ⟨u, hu, e⟩ := LC.mem_scale ht
      exact ⟨u, by simp [hu], e⟩
    · exact ⟨t, by simp [ht], rfl⟩
    · exact vars_add_sub ht
  iff := by
    intro f X Y Z x y hX hY
    simp only [xorRel, LC.ev_scale, LC.ev_sub f (show 0 < p by omega), LC.ev_add, hX, hY]
    cases x <;> cases y <;> simp [eq_comm] <;> constructor <;> intro h <;> linear_combination -h

theorem andRel_gate {p : Nat} : GateRel p Bool.and andRel where
  within := fun hX hY hZ => ⟨hX, hY, hZ⟩
  vars := by
    intro X Y Z L t hL ht
    simp only [andRel, List.mem_cons, List.not_mem_nil, or_false] at hL
    rcases hL with rfl | rfl | rfl <;> exact ⟨t, by simp [ht], rfl⟩
  iff := by
    intro f X Y Z x y hX hY
    simp only [andRel, hX, hY]
    cases x <;> cases y <;> simp [eq_comm]

theorem orRel_gate {p : Nat} (hp : 1 < p) : GateRel p Bool.or (orRel p) where
  within := fun hX hY hZ => ⟨hX, hY, within_sub (by omega) (within_add (by omega) hX hY) hZ⟩
  vars := by
    intro X Y Z L t hL ht
    simp only [orRel, List.mem_cons, List.not_mem_nil, or_false] at hL
    rcases hL with rfl | rfl | rfl
    · exact ⟨t, by simp [ht], rfl⟩
    · exact ⟨t, by simp [ht], rfl⟩
    · exact vars_add_sub ht
  iff := by
    intro f X Y Z x y hX hY
    simp only [orRel, LC.ev_sub f (show 0 < p by omega), LC.ev_add, hX, hY]
    cases x <;> cases y <;> simp [eq_comm] <;> constructor <;> intro h <;> linear_combination -h

/-- Everything a gate does with well-formed inputs (R121 to R124). -/
theorem gate_ok {p : Nat} (hp : 1 < p) {op : Bool → Bool → Bool} {rel : LC → LC → LC → Constraint}
    (hr : GateRel p op rel) {c : Ctx} (h : c.Ok p) {x y : Signal} (hx : c.SignalOk x) (hy : c.SignalOk y) :
    Grows p c (gate op rel x y c).2 ∧ (gate op rel x y c).2.SignalOk (gate op rel x y c).1 ∧
      (gate op rel x y c).2.bit (gate op rel x y c).1 = op (c.bit x) (c.bit y) := by
  unfold gate
  split
  · exact ⟨Grows.refl h, trivial, rfl⟩
  · have hv : ∀ v, some (op (c.bit x) (c.bit y)).toNat = some v → v < p := by
      intro v hv
      cases hv
      have := Bool.toNat_le (op (c.bit x) (c.bit y))
      omega
    have ha := alloc_grows h hv
    set v := (op (c.bit x) (c.bit y)).toNat with hvd
    have hz : (c.alloc (some v)).2.assign[c.assign.length]? = some (some v) := by simp [alloc_eq]
    have hx' := (ha.ext.signal hx)
    have hy' := (ha.ext.signal hy)
    have hZ : LC.Within p (c.alloc (some v)).2.assign.length (LC.single c.assign.length) :=
      within_single hp (lt_of_getElem? hz)
    have hg : Grows p (c.alloc (some v)).2
        ((c.alloc (some v)).2.enforce (rel x.toLC y.toLC (LC.single c.assign.length))) := by
      refine enforce_grows (by omega) ha.ok (hr.within (toLC_within hp ha.ok hx'.1) (toLC_within hp ha.ok hy'.1) hZ) ?_ ?_
      · intro L hL t ht
        obtain ⟨u, hu, e⟩ := hr.vars hL ht
        rw [← e]
        rcases List.mem_append.1 hu with hu | hu
        · rcases List.mem_append.1 hu with hu | hu
          · exact toLC_vars ha.ok hx'.1 u hu
          · exact toLC_vars ha.ok hy'.1 u hu
        · simp only [LC.single, List.mem_singleton] at hu
          subst hu
          exact ⟨v, hz⟩
      · refine (hr.iff (x := c.bit x) (y := c.bit y) _ ?_ ?_).2 ?_
        · rw [toLC_honest ha.ok hx'.1, hx'.2]
        · rw [toLC_honest ha.ok hy'.1, hy'.2]
        · simp only [LC.ev_single, honestFun, hz]
          simp [hvd]
    refine ⟨ha.trans hg, ⟨Ctx.Ok.length_pos h, ?_⟩, ?_⟩
    · show (c.alloc (some v)).2.assign[c.assign.length]? = _ ∨ (c.alloc (some v)).2.assign[c.assign.length]? = _
      rw [hz, hvd]
      cases op (c.bit x) (c.bit y) <;> simp
    · show ((((c.alloc (some v)).2.assign[c.assign.length]?).join).getD 0 == 1) = _
      rw [hz, hvd]
      cases op (c.bit x) (c.bit y) <;> simp

/-- R124: a satisfying assignment with boolean inputs gives the gate's output the boolean function's value. -/
theorem gate_sound {p : Nat} (hp : 1 < p) {op : Bool → Bool → Bool} {rel : LC → LC → LC → Constraint}
    (hr : GateRel p op rel) {c : Ctx} {x y : Signal} (hx : c.SignalOk x) (hy : c.SignalOk y) {z : List Nat}
    (hz : Sat p z (gate op rel x y c).2) {bx by' : Bool} (vx : Signal.value z x = bx.toNat)
    (vy : Signal.value z y = by'.toNat) : Signal.value z (gate op rel x y c).1 = (op bx by').toNat := by
  unfold gate at hz ⊢
  split
  · rename_i hc
    rw [if_pos hc] at hz
    cases x with
    | var k => simp only [Signal.isConst, Bool.and_eq_true, beq_iff_eq] at hc; have := hx.1; omega
    | const a =>
      cases y with
      | var k => simp only [Signal.isConst, Bool.and_eq_true, beq_iff_eq] at hc; have := hy.1; omega
      | const b =>
        have ha : a = bx := by cases a <;> cases bx <;> simp_all [Signal.value]
        have hb : b = by' := by cases b <;> cases by' <;> simp_all [Signal.value]
        simp [Signal.value, Ctx.bit, ha, hb]
  · rename_i hc
    rw [if_neg hc] at hz
    have hq := hz.holds (rel x.toLC y.toLC (LC.single c.assign.length)) (by simp [Ctx.enforce, alloc_eq])
    rw [Constraint.holds_iff (by omega), hr.iff _ ((toLC_value hz.one x).trans (by rw [vx]))
      ((toLC_value hz.one y).trans (by rw [vy])), LC.ev_single] at hq
    refine natCast_inj_of_lt (value_lt hp hz.below _) ?_ hq
    have := Bool.toNat_le (op bx by')
    omega

/-- A gate with a variable input appends one variable, its output, and one constraint. -/
theorem gate_counts {op : Bool → Bool → Bool} {rel : LC → LC → LC → Constraint} {c : Ctx} {x y : Signal}
    (hc : 0 < c.assign.length) (h : (x.isConst && y.isConst) = false) :
    (gate op rel x y c).1.isConst = false ∧ (gate op rel x y c).2.assign.length = c.assign.length + 1 ∧
      (gate op rel x y c).2.cons.length = c.cons.length + 1 := by
  unfold gate
  rw [h]
  have : c.assign ≠ [] := by rw [← List.length_pos_iff]; exact hc
  simp [Signal.isConst, alloc_eq, Ctx.enforce, this]

end Sys2Proof.Machine
end

