-- ==== Sys2Proof/Laws/Words.lean ====
section
/-! SUPPORT. The word gadgets add32, xor32, rot and the constant words: their values, the well-formedness they
keep, their soundness, and what they append (R125 to R130, R161, R211). -/

namespace Sys2Proof.Machine

section
variable {p : Nat} (hp : 1 < p)
include hp

theorem bxor_ok {c : Ctx} (h : c.Ok p) {x y : Signal} (hx : c.SignalOk x) (hy : c.SignalOk y) :
    Grows p c (bxor p x y c).2 ∧ (bxor p x y c).2.SignalOk (bxor p x y c).1 ∧
      (bxor p x y c).2.bit (bxor p x y c).1 = Bool.xor (c.bit x) (c.bit y) := gate_ok hp (xorRel_gate hp) h hx hy

theorem band_ok {c : Ctx} (h : c.Ok p) {x y : Signal} (hx : c.SignalOk x) (hy : c.SignalOk y) :
    Grows p c (band x y c).2 ∧ (band x y c).2.SignalOk (band x y c).1 ∧
      (band x y c).2.bit (band x y c).1 = (c.bit x && c.bit y) := gate_ok hp andRel_gate h hx hy

theorem bor_ok {c : Ctx} (h : c.Ok p) {x y : Signal} (hx : c.SignalOk x) (hy : c.SignalOk y) :
    Grows p c (bor p x y c).2 ∧ (bor p x y c).2.SignalOk (bor p x y c).1 ∧
      (bor p x y c).2.bit (bor p x y c).1 = (c.bit x || c.bit y) := gate_ok hp (orRel_gate hp) h hx hy

end

/-! ### The adder on booleans -/

/-- R125's formulas on booleans. -/
def addBools : List (Bool × Bool) → Bool → List Bool
  | [], _ => []
  | q :: qs, c => Bool.xor (Bool.xor q.1 q.2) c :: addBools qs ((q.1 && q.2) || (Bool.xor q.1 q.2 && c))

theorem addBools_val : ∀ (qs : List (Bool × Bool)) (c : Bool), bitsVal (addBools qs c) =
    (bitsVal (qs.map Prod.fst) + bitsVal (qs.map Prod.snd) + c.toNat) % 2 ^ qs.length
  | [], c => by simp [addBools, bitsVal, Nat.mod_one]
  | (a, b) :: qs, c => by
    simp only [addBools, bitsVal, addBools_val qs, List.map_cons, List.length_cons, pow_succ]
    generalize bitsVal (qs.map Prod.fst) = A
    generalize bitsVal (qs.map Prod.snd) = B
    generalize 2 ^ qs.length = M
    have key : ∀ r S : Nat, r < 2 → (r + 2 * S) % (M * 2) = r + 2 * (S % M) := by
      intro r S hr
      rw [Nat.mul_comm M 2, Nat.mod_mul]
      congr 1
      · omega
      · congr 2; omega
    rw [← key _ _ (Bool.toNat_lt _)]
    congr 1
    cases a <;> cases b <;> cases c <;> simp <;> ring

theorem addBools_length : ∀ (qs : List (Bool × Bool)) (c : Bool), (addBools qs c).length = qs.length
  | [], _ => rfl
  | _ :: qs, _ => by simp [addBools, addBools_length qs]

/-! ### The adder on signals -/

section
variable {p : Nat} (hp : 1 < p)
include hp

theorem fullAdder_ok {c : Ctx} (h : c.Ok p) {x y k : Signal} (hx : c.SignalOk x) (hy : c.SignalOk y)
    (hk : c.SignalOk k) :
    let r := fullAdder p x y k c
    Grows p c r.2 ∧ (r.2.SignalOk r.1.1 ∧ r.2.SignalOk r.1.2) ∧
      r.2.bit r.1.1 = Bool.xor (Bool.xor (c.bit x) (c.bit y)) (c.bit k) ∧
      r.2.bit r.1.2 = ((c.bit x && c.bit y) || (Bool.xor (c.bit x) (c.bit y) && c.bit k)) := by
  intro r
  obtain ⟨g1, o1, v1⟩ := bxor_ok hp h hx hy
  set t := bxor p x y c
  have k1 := g1.ext.signal hk
  have x1 := g1.ext.signal hx
  have y1 := g1.ext.signal hy
  obtain ⟨g2, o2, v2⟩ := bxor_ok hp g1.ok o1 k1.1
  set s := bxor p t.1 k t.2
  have x2 := g2.ext.signal x1.1
  have y2 := g2.ext.signal y1.1
  obtain ⟨g3, o3, v3⟩ := band_ok hp g2.ok x2.1 y2.1
  set g := band x y s.2
  have t3 := (g2.trans g3).ext.signal o1
  have k3 := (g2.trans g3).ext.signal k1.1
  obtain ⟨g4, o4, v4⟩ := band_ok hp g3.ok t3.1 k3.1
  set m := band t.1 k g.2
  have g4' := g4.ext.signal o3
  obtain ⟨g5, o5, v5⟩ := bor_ok hp g4.ok g4'.1 o4
  have s5 := (g3.trans (g4.trans g5)).ext.signal o2
  refine ⟨g1.trans (g2.trans (g3.trans (g4.trans g5))), ⟨s5.1, o5⟩, ?_, ?_⟩
  · exact s5.2.trans (by rw [v2, v1, k1.2])
  · refine v5.trans ?_
    rw [g4'.2, v3, v4, t3.2, k3.2, k1.2, v1, x2.2, y2.2, x1.2, y1.2]

theorem lastAdder_ok {c : Ctx} (h : c.Ok p) {x y k : Signal} (hx : c.SignalOk x) (hy : c.SignalOk y)
    (hk : c.SignalOk k) :
    let r := lastAdder p x y k c
    Grows p c r.2 ∧ r.2.SignalOk r.1 ∧ r.2.bit r.1 = Bool.xor (Bool.xor (c.bit x) (c.bit y)) (c.bit k) := by
  intro r
  obtain ⟨g1, o1, v1⟩ := bxor_ok hp h hx hy
  have k1 := g1.ext.signal hk
  obtain ⟨g2, o2, v2⟩ := bxor_ok hp g1.ok o1 k1.1
  exact ⟨g1.trans g2, o2, v2.trans (by rw [v1, k1.2])⟩

/-- Everything `addBits` does with well-formed inputs. -/
theorem addBits_ok : ∀ (qs : List (Signal × Signal)) (k : Signal) (c : Ctx), c.Ok p →
    (∀ q ∈ qs, c.SignalOk q.1 ∧ c.SignalOk q.2) → c.SignalOk k →
    Grows p c (addBits p qs k c).2 ∧ (∀ x ∈ (addBits p qs k c).1, (addBits p qs k c).2.SignalOk x) ∧
      (addBits p qs k c).1.map (addBits p qs k c).2.bit =
        addBools (qs.map fun q => (c.bit q.1, c.bit q.2)) (c.bit k)
  | [], k, c, h, _, _ => ⟨Grows.refl h, by simp [addBits], by simp [addBits, addBools]⟩
  | [q], k, c, h, hq, hk => by
    obtain ⟨g, o, v⟩ := lastAdder_ok hp h (hq q (by simp)).1 (hq q (by simp)).2 hk
    simp only [addBits, List.map_cons, List.map_nil, addBools, v]
    exact ⟨g, by simpa using o, trivial⟩
  | q :: q' :: qs, k, c, h, hq, hk => by
    obtain ⟨g, ⟨o1, o2⟩, v1, v2⟩ := fullAdder_ok hp h (hq q (by simp)).1 (hq q (by simp)).2 hk
    set a := fullAdder p q.1 q.2 k c with ha
    have hq' : ∀ u ∈ q' :: qs, (a.2.SignalOk u.1 ∧ a.2.SignalOk u.2) ∧ a.2.bit u.1 = c.bit u.1 ∧
        a.2.bit u.2 = c.bit u.2 := fun u hu =>
      have h1 := g.ext.signal (hq u (List.mem_cons_of_mem _ hu)).1
      have h2 := g.ext.signal (hq u (List.mem_cons_of_mem _ hu)).2
      ⟨⟨h1.1, h2.1⟩, h1.2, h2.2⟩
    obtain ⟨g', o', v'⟩ := addBits_ok (q' :: qs) a.1.2 a.2 g.ok (fun u hu => (hq' u hu).1) o2
    have e : addBits p (q :: q' :: qs) k c =
        (a.1.1 :: (addBits p (q' :: qs) a.1.2 a.2).1, (addBits p (q' :: qs) a.1.2 a.2).2) := by
      simp only [addBits, ← ha]
    rw [e]
    have s' := g'.ext.signal o1
    refine ⟨g.trans g', ?_, ?_⟩
    · intro x hx
      rcases List.mem_cons.1 hx with rfl | hx
      · exact s'.1
      · exact o' x hx
    · rw [List.map_cons, s'.2, v', v1, v2, List.map_cons (l := q' :: qs), addBools]
      congr 2
      exact List.map_congr_left fun u hu => by rw [(hq' u hu).2.1, (hq' u hu).2.2]

end

/-! ### Words -/

theorem mem_zip_toList {a b : Word32} {q : Signal × Signal} (h : q ∈ (a.zip b).toList) :
    q.1 ∈ a.toList ∧ q.2 ∈ b.toList := by
  have e : (a.zip b).toList = a.toList.zip b.toList := by simp
  rw [e] at h
  exact List.of_mem_zip h

theorem zip_map_fst (a b : Word32) : (a.zip b).toList.map Prod.fst = a.toList := by
  have e : (a.zip b).toList = a.toList.zip b.toList := by simp
  rw [e, List.map_fst_zip (by simp)]

theorem zip_map_snd (a b : Word32) : (a.zip b).toList.map Prod.snd = b.toList := by
  have e : (a.zip b).toList = a.toList.zip b.toList := by simp
  rw [e, List.map_snd_zip (by simp)]

theorem add32_toList (p : Nat) (a b : Word32) (c : Ctx) :
    (add32 p a b c).1.toList = (addBits p (a.zip b).toList (.const false) c).1 := by
  simp [add32, Vector.toList]

theorem mapVec_toList {α β : Type} {n : Nat} (g : α → Ctx → β × Ctx) (v : Vector α n) (c : Ctx) :
    (mapVec g v c).1.toList = (mapCtx g v.toList c).1 := by
  simp [mapVec, Vector.toList]

/-- R125, R127: add32 adds modulo 2^32. -/
theorem add32_ok {p : Nat} (hp : 1 < p) {c : Ctx} (h : c.Ok p) {a b : Word32} (ha : c.WordOk a)
    (hb : c.WordOk b) : Grows p c (add32 p a b c).2 ∧ (add32 p a b c).2.WordOk (add32 p a b c).1 ∧
      (add32 p a b c).2.wordVal (add32 p a b c).1 = c.wordVal a + c.wordVal b := by
  obtain ⟨g, o, v⟩ := addBits_ok hp (a.zip b).toList (.const false) c h
    (fun q hq => ⟨ha _ (mem_zip_toList hq).1, hb _ (mem_zip_toList hq).2⟩) trivial
  refine ⟨g, fun x hx => o x (by rwa [add32_toList] at hx), ?_⟩
  unfold Ctx.wordVal
  rw [add32_toList]
  show BitVec.ofNat 32 (bitsVal ((addBits p (a.zip b).toList (.const false) c).1.map
    (addBits p (a.zip b).toList (.const false) c).2.bit)) = _
  rw [v, addBools_val, List.map_map, List.map_map]
  have e1 : List.map (Prod.fst ∘ fun q : Signal × Signal => (c.bit q.1, c.bit q.2)) (a.zip b).toList =
      a.toList.map c.bit := by rw [← zip_map_fst a b, List.map_map]; rfl
  have e2 : List.map (Prod.snd ∘ fun q : Signal × Signal => (c.bit q.1, c.bit q.2)) (a.zip b).toList =
      b.toList.map c.bit := by rw [← zip_map_snd a b, List.map_map]; rfl
  rw [e1, e2]
  apply BitVec.eq_of_toNat_eq
  simp [Ctx.bit]

/-- The values of a `mapCtx` whose function computes `f` and keeps what it is given. -/
theorem mapCtx_ok {α β γ : Type} {p : Nat} {g : α → Ctx → β × Ctx} {P : Ctx → α → Prop} {Q : Ctx → β → Prop}
    {val : Ctx → β → γ} {f : Ctx → α → γ}
    (mono : ∀ {c c' : Ctx} {x : α}, c.Extends c' → P c x → P c' x ∧ f c' x = f c x)
    (monoQ : ∀ {c c' : Ctx} {y : β}, c.Extends c' → Q c y → Q c' y ∧ val c' y = val c y)
    (one : ∀ {c : Ctx} {x : α}, c.Ok p → P c x →
      Grows p c (g x c).2 ∧ Q (g x c).2 (g x c).1 ∧ val (g x c).2 (g x c).1 = f c x) :
    ∀ (xs : List α) (c : Ctx), c.Ok p → (∀ x ∈ xs, P c x) →
      Grows p c (mapCtx g xs c).2 ∧ (∀ y ∈ (mapCtx g xs c).1, Q (mapCtx g xs c).2 y) ∧
        (mapCtx g xs c).1.map (val (mapCtx g xs c).2) = xs.map (f c)
  | [], c, h, _ => ⟨Grows.refl h, by simp [mapCtx], by simp [mapCtx]⟩
  | x :: xs, c, h, hx => by
    obtain ⟨g1, q1, v1⟩ := one h (hx x (by simp))
    have hxs : ∀ y ∈ xs, P (g x c).2 y := fun y hy => (mono g1.ext (hx y (List.mem_cons_of_mem x hy))).1
    obtain ⟨g2, q2, v2⟩ := mapCtx_ok (g := g) (P := P) (Q := Q) (val := val) (f := f) mono monoQ one xs (g x c).2 g1.ok hxs
    have q1' := monoQ g2.ext q1
    simp only [mapCtx]
    refine ⟨g1.trans g2, ?_, ?_⟩
    · intro y hy
      rcases List.mem_cons.1 hy with rfl | hy
      · exact q1'.1
      · exact q2 y hy
    · rw [List.map_cons, List.map_cons, q1'.2, v1, v2]
      congr 1
      exact List.map_congr_left fun y hy => (mono g1.ext (hx y (List.mem_cons_of_mem _ hy))).2

theorem bitsVal_xor : ∀ qs : List (Bool × Bool), bitsVal (qs.map fun q => Bool.xor q.1 q.2) =
    bitsVal (qs.map Prod.fst) ^^^ bitsVal (qs.map Prod.snd) := by
  intro qs
  apply Nat.eq_of_testBit_eq
  intro k
  rw [Nat.testBit_xor, bitsVal_testBit, bitsVal_testBit, bitsVal_testBit]
  simp only [List.getD_eq_getElem?_getD, List.getElem?_map]
  cases qs[k]? <;> simp

/-- R128: xor32 is the exclusive or. -/
theorem xor32_ok {p : Nat} (hp : 1 < p) {c : Ctx} (h : c.Ok p) {a b : Word32} (ha : c.WordOk a)
    (hb : c.WordOk b) : Grows p c (xor32 p a b c).2 ∧ (xor32 p a b c).2.WordOk (xor32 p a b c).1 ∧
      (xor32 p a b c).2.wordVal (xor32 p a b c).1 = c.wordVal a ^^^ c.wordVal b := by
  obtain ⟨g, o, v⟩ := mapCtx_ok (p := p) (g := fun q : Signal × Signal => bxor p q.1 q.2)
    (P := fun c q => c.SignalOk q.1 ∧ c.SignalOk q.2) (Q := fun c x => c.SignalOk x) (val := fun c x => c.bit x)
    (f := fun c q => Bool.xor (c.bit q.1) (c.bit q.2))
    (fun he hq => ⟨⟨(he.signal hq.1).1, (he.signal hq.2).1⟩, by rw [(he.signal hq.1).2, (he.signal hq.2).2]⟩)
    (fun he hx => he.signal hx) (fun h hq => bxor_ok hp h hq.1 hq.2) (a.zip b).toList c h
    (fun q hq => ⟨ha _ (mem_zip_toList hq).1, hb _ (mem_zip_toList hq).2⟩)
  refine ⟨g, fun x hx => o x (by rwa [xor32, mapVec_toList] at hx), ?_⟩
  unfold Ctx.wordVal
  rw [xor32, mapVec_toList]
  show BitVec.ofNat 32 (bitsVal (List.map (mapCtx _ (a.zip b).toList c).2.bit _)) = _
  rw [v]
  have e := bitsVal_xor ((a.zip b).toList.map fun q => (c.bit q.1, c.bit q.2))
  simp only [List.map_map, Function.comp_def] at e
  rw [e]
  have e1 : List.map (fun q : Signal × Signal => c.bit q.1) (a.zip b).toList = a.toList.map c.bit := by
    rw [← zip_map_fst a b, List.map_map]; rfl
  have e2 : List.map (fun q : Signal × Signal => c.bit q.2) (a.zip b).toList = b.toList.map c.bit := by
    rw [← zip_map_snd a b, List.map_map]; rfl
  rw [e1, e2]
  apply BitVec.eq_of_toNat_eq
  simp

theorem wordVal_getLsbD (c : Ctx) (w : Word32) (k : Nat) (hk : k < 32) :
    (c.wordVal w).getLsbD k = c.bit w[k] := by
  unfold Ctx.wordVal
  rw [BitVec.getLsbD_ofNat, bitsVal_testBit]
  simp [hk, List.getD_eq_getElem?_getD]

theorem rot_get (a : Word32) (n : Fin 32) (k : Nat) (hk : k < 32) :
    (rot a n)[k] = a[(k + 32 - n.val) % 32]'(Nat.mod_lt _ (by decide)) := by
  simp [rot]

theorem mem_word {w : Word32} {x : Signal} : x ∈ w.toList ↔ ∃ (k : Nat) (hk : k < 32), w[k] = x := by
  rw [List.mem_iff_getElem]
  simp

theorem rot_mem {a : Word32} {n : Fin 32} {x : Signal} (h : x ∈ (rot a n).toList) : x ∈ a.toList := by
  obtain ⟨k, hk, rfl⟩ := mem_word.1 h
  rw [rot_get a n k hk]
  exact mem_word.2 ⟨_, _, rfl⟩

/-- R130: rot rotates left. -/
theorem rot_val (c : Ctx) (a : Word32) (n : Fin 32) : c.wordVal (rot a n) = wordRotl (c.wordVal a) n.val := by
  apply BitVec.eq_of_getLsbD_eq
  intro k hk
  rw [wordVal_getLsbD c _ k hk, rot_get a n k hk, wordRotl, BitVec.getLsbD_rotateLeft]
  have hn := n.isLt
  rw [Nat.mod_eq_of_lt hn]
  by_cases h : k < n.val
  · simp only [h, decide_true, cond_true]
    rw [wordVal_getLsbD c a _ (by omega)]
    congr 2
    omega
  · simp only [h, decide_false, cond_false, hk, decide_true, Bool.true_and]
    rw [wordVal_getLsbD c a _ (by omega)]
    congr 2
    omega

theorem constWord_ok (c : Ctx) (w : Word) : c.WordOk (constWord w) ∧ c.wordVal (constWord w) = w := by
  constructor
  · intro x hx
    obtain ⟨k, hk, rfl⟩ := mem_word.1 hx
    simp [constWord, Ctx.SignalOk]
  · apply BitVec.eq_of_getLsbD_eq
    intro k hk
    rw [wordVal_getLsbD c _ k hk]
    simp [constWord, Ctx.bit, BitVec.getLsbD_eq_getElem hk]

end Sys2Proof.Machine
end

