-- ==== Sys2Proof/Laws/Sound.lean ====
section
/-! SUPPORT. Soundness of the word gadgets (R124, R211), and for each word gadget ONE lemma that says everything:
growth, the value on honest values, and the value under any satisfying assignment. -/

namespace Sys2Proof.Machine

/-- The signal has z-value 0 or 1. -/
def ZB (z : List Nat) (x : Signal) : Prop := Signal.value z x = 0 ∨ Signal.value z x = 1

/-- The boolean a signal's z-value stands for. -/
def zbit (z : List Nat) (x : Signal) : Bool := Signal.value z x == 1

theorem ZB.eq {z : List Nat} {x : Signal} (h : ZB z x) : Signal.value z x = (zbit z x).toNat := by
  rcases h with h | h <;> simp [zbit, h]

theorem ZB.of_eq {z : List Nat} {x : Signal} {b : Bool} (h : Signal.value z x = b.toNat) :
    ZB z x ∧ zbit z x = b := by
  cases b <;> simp [ZB, zbit, h]

section
variable {p : Nat} (hp : 1 < p)
include hp

theorem gate_zbit {op : Bool → Bool → Bool} {rel : LC → LC → LC → Constraint} (hr : GateRel p op rel) {c : Ctx}
    {x y : Signal} (hx : c.SignalOk x) (hy : c.SignalOk y) {z : List Nat} (hz : Sat p z (gate op rel x y c).2)
    (zx : ZB z x) (zy : ZB z y) : ZB z (gate op rel x y c).1 ∧
      zbit z (gate op rel x y c).1 = op (zbit z x) (zbit z y) :=
  ZB.of_eq (gate_sound hp hr hx hy hz zx.eq zy.eq)

theorem bxor_sound {c : Ctx} {x y : Signal} (hx : c.SignalOk x) (hy : c.SignalOk y) {z : List Nat}
    (hz : Sat p z (bxor p x y c).2) (zx : ZB z x) (zy : ZB z y) :
    ZB z (bxor p x y c).1 ∧ zbit z (bxor p x y c).1 = Bool.xor (zbit z x) (zbit z y) :=
  gate_zbit hp (xorRel_gate hp) hx hy hz zx zy

theorem band_sound {c : Ctx} {x y : Signal} (hx : c.SignalOk x) (hy : c.SignalOk y) {z : List Nat}
    (hz : Sat p z (band x y c).2) (zx : ZB z x) (zy : ZB z y) :
    ZB z (band x y c).1 ∧ zbit z (band x y c).1 = (zbit z x && zbit z y) :=
  gate_zbit hp andRel_gate hx hy hz zx zy

theorem bor_sound {c : Ctx} {x y : Signal} (hx : c.SignalOk x) (hy : c.SignalOk y) {z : List Nat}
    (hz : Sat p z (bor p x y c).2) (zx : ZB z x) (zy : ZB z y) :
    ZB z (bor p x y c).1 ∧ zbit z (bor p x y c).1 = (zbit z x || zbit z y) :=
  gate_zbit hp (orRel_gate hp) hx hy hz zx zy

theorem fullAdder_sound {c : Ctx} (h : c.Ok p) {x y k : Signal} (hx : c.SignalOk x) (hy : c.SignalOk y)
    (hk : c.SignalOk k) {z : List Nat} (hz : Sat p z (fullAdder p x y k c).2) (zx : ZB z x) (zy : ZB z y)
    (zk : ZB z k) : (ZB z (fullAdder p x y k c).1.1 ∧ ZB z (fullAdder p x y k c).1.2) ∧
      zbit z (fullAdder p x y k c).1.1 = Bool.xor (Bool.xor (zbit z x) (zbit z y)) (zbit z k) ∧
      zbit z (fullAdder p x y k c).1.2 =
        ((zbit z x && zbit z y) || (Bool.xor (zbit z x) (zbit z y) && zbit z k)) := by
  obtain ⟨g1, o1, v1⟩ := bxor_ok hp h hx hy
  have k1 := g1.ext.signal hk
  have x1 := g1.ext.signal hx
  have y1 := g1.ext.signal hy
  obtain ⟨g2, o2, v2⟩ := bxor_ok hp g1.ok o1 k1.1
  have x2 := g2.ext.signal x1.1
  have y2 := g2.ext.signal y1.1
  obtain ⟨g3, o3, v3⟩ := band_ok hp g2.ok x2.1 y2.1
  have t3 := (g2.trans g3).ext.signal o1
  have k3 := (g2.trans g3).ext.signal k1.1
  obtain ⟨g4, o4, v4⟩ := band_ok hp g3.ok t3.1 k3.1
  have g4' := g4.ext.signal o3
  obtain ⟨g5, _, _⟩ := bor_ok hp g4.ok g4'.1 o4
  obtain ⟨zt, et⟩ := bxor_sound hp hx hy
    (hz.mono (g2.trans (g3.trans (g4.trans g5))).ext) zx zy
  obtain ⟨zs, es⟩ := bxor_sound hp o1 k1.1 (hz.mono (g3.trans (g4.trans g5)).ext) zt zk
  obtain ⟨zg, eg⟩ := band_sound hp x2.1 y2.1 (hz.mono (g4.trans g5).ext) zx zy
  obtain ⟨zh, eh⟩ := band_sound hp t3.1 k3.1 (hz.mono g5.ext) zt zk
  obtain ⟨zc, ec⟩ := bor_sound hp g4'.1 o4 hz zg zh
  exact ⟨⟨zs, zc⟩, es.trans (by rw [et]), ec.trans (by rw [eg, eh, et])⟩

theorem lastAdder_sound {c : Ctx} (h : c.Ok p) {x y k : Signal} (hx : c.SignalOk x) (hy : c.SignalOk y)
    (hk : c.SignalOk k) {z : List Nat} (hz : Sat p z (lastAdder p x y k c).2) (zx : ZB z x) (zy : ZB z y)
    (zk : ZB z k) : ZB z (lastAdder p x y k c).1 ∧
      zbit z (lastAdder p x y k c).1 = Bool.xor (Bool.xor (zbit z x) (zbit z y)) (zbit z k) := by
  obtain ⟨g1, o1, v1⟩ := bxor_ok hp h hx hy
  have k1 := g1.ext.signal hk
  obtain ⟨g2, _, _⟩ := bxor_ok hp g1.ok o1 k1.1
  obtain ⟨zt, et⟩ := bxor_sound hp hx hy (hz.mono g2.ext) zx zy
  obtain ⟨zs, es⟩ := bxor_sound hp o1 k1.1 hz zt zk
  exact ⟨zs, es.trans (by rw [et])⟩

theorem addBits_sound {z : List Nat} : ∀ (qs : List (Signal × Signal)) (k : Signal) (c : Ctx), c.Ok p →
    (∀ q ∈ qs, c.SignalOk q.1 ∧ c.SignalOk q.2) → c.SignalOk k → Sat p z (addBits p qs k c).2 →
    (∀ q ∈ qs, ZB z q.1 ∧ ZB z q.2) → ZB z k →
    (∀ x ∈ (addBits p qs k c).1, ZB z x) ∧
      (addBits p qs k c).1.map (zbit z) = addBools (qs.map fun q => (zbit z q.1, zbit z q.2)) (zbit z k)
  | [], k, c, _, _, _, _, _, _ => ⟨by simp [addBits], by simp [addBits, addBools]⟩
  | [q], k, c, h, hq, hk, hz, zq, zk => by
    obtain ⟨zs, es⟩ := lastAdder_sound hp h (hq q (by simp)).1 (hq q (by simp)).2 hk hz (zq q (by simp)).1
      (zq q (by simp)).2 zk
    simp only [addBits, List.map_cons, List.map_nil, addBools, es]
    exact ⟨by simpa using zs, trivial⟩
  | q :: q' :: qs, k, c, h, hq, hk, hz, zq, zk => by
    obtain ⟨g, ⟨o1, o2⟩, _⟩ := fullAdder_ok hp h (hq q (by simp)).1 (hq q (by simp)).2 hk
    have hq' : ∀ u ∈ q' :: qs, (fullAdder p q.1 q.2 k c).2.SignalOk u.1 ∧
        (fullAdder p q.1 q.2 k c).2.SignalOk u.2 := fun u hu =>
      ⟨(g.ext.signal (hq u (List.mem_cons_of_mem _ hu)).1).1, (g.ext.signal (hq u (List.mem_cons_of_mem _ hu)).2).1⟩
    obtain ⟨g', _⟩ := addBits_ok hp (q' :: qs) _ _ g.ok hq' o2
    obtain ⟨⟨zs, zc⟩, es, ec⟩ := fullAdder_sound hp h (hq q (by simp)).1 (hq q (by simp)).2 hk (hz.mono g'.ext)
      (zq q (by simp)).1 (zq q (by simp)).2 zk
    obtain ⟨zr, er⟩ := addBits_sound (q' :: qs) _ _ g.ok hq' o2 hz
      (fun u hu => zq u (List.mem_cons_of_mem _ hu)) zc
    have e : addBits p (q :: q' :: qs) k c = ((fullAdder p q.1 q.2 k c).1.1 ::
        (addBits p (q' :: qs) (fullAdder p q.1 q.2 k c).1.2 (fullAdder p q.1 q.2 k c).2).1,
        (addBits p (q' :: qs) (fullAdder p q.1 q.2 k c).1.2 (fullAdder p q.1 q.2 k c).2).2) := rfl
    rw [e]
    refine ⟨fun x hx => ?_, ?_⟩
    · rcases List.mem_cons.1 hx with rfl | hx
      · exact zs
      · exact zr x hx
    · rw [List.map_cons, er, es, ec, List.map_cons (l := q' :: qs), addBools]

end

/-! ### Words under an assignment -/

theorem zWord_eq {z : List Nat} : ∀ {l : List Signal}, (∀ x ∈ l, ZB z x) →
    (l.map (Signal.value z)).foldr (fun b acc => b + 2 * acc) 0 = bitsVal (l.map (zbit z))
  | [], _ => rfl
  | x :: l, h => by
    simp only [List.map_cons, List.foldr_cons, bitsVal]
    rw [zWord_eq fun y hy => h y (List.mem_cons_of_mem _ hy), (h x (by simp)).eq]

/-- A word register's word, with its value on honest values. -/
def Ctx.Holds (c : Ctx) (w : Word32) (v : Word) : Prop := c.WordOk w ∧ c.wordVal w = v

/-- A word that is boolean under an assignment, with its value there. -/
def ZHolds (z : List Nat) (w : Word32) (v : Word) : Prop := ZBool z w ∧ low32 (zWord z w) = v

theorem Ctx.Extends.holds {c c' : Ctx} (h : c.Extends c') {w : Word32} {v : Word} (hw : c.Holds w v) :
    c'.Holds w v := ⟨(h.word hw.1).1, (h.word hw.1).2.trans hw.2⟩

theorem zval_word {z : List Nat} {w : Word32} (h : ZBool z w) :
    low32 (zWord z w) = BitVec.ofNat 32 (bitsVal (w.toList.map (zbit z))) := by
  rw [low32, zWord, zWord_eq h]

/-- R125, R127, R211. -/
theorem add32_spec {p : Nat} (hp : 1 < p) {c : Ctx} (h : c.Ok p) {a b : Word32} {x y : Word} (ha : c.Holds a x)
    (hb : c.Holds b y) : Grows p c (add32 p a b c).2 ∧ (add32 p a b c).2.Holds (add32 p a b c).1 (x + y) ∧
      ∀ z, Sat p z (add32 p a b c).2 → ∀ x' y', ZHolds z a x' → ZHolds z b y' →
        ZHolds z (add32 p a b c).1 (x' + y') := by
  obtain ⟨g, o, v⟩ := add32_ok hp h ha.1 hb.1
  refine ⟨g, ⟨o, by rw [v, ha.2, hb.2]⟩, fun z hz x' y' hx hy => ?_⟩
  obtain ⟨zs, ev⟩ := addBits_sound hp (a.zip b).toList (.const false) c h
    (fun q hq => ⟨ha.1 _ (mem_zip_toList hq).1, hb.1 _ (mem_zip_toList hq).2⟩) trivial hz
    (fun q hq => ⟨hx.1 _ (mem_zip_toList hq).1, hy.1 _ (mem_zip_toList hq).2⟩) (.inl rfl)
  have zb : ZBool z (add32 p a b c).1 := fun u hu => zs u (by rwa [add32_toList] at hu)
  refine ⟨zb, ?_⟩
  rw [zval_word zb, add32_toList, ev, ← hx.2, ← hy.2, zval_word hx.1, zval_word hy.1, addBools_val, List.map_map,
    List.map_map]
  have e1 : List.map (Prod.fst ∘ fun q : Signal × Signal => (zbit z q.1, zbit z q.2)) (a.zip b).toList =
      a.toList.map (zbit z) := by rw [← zip_map_fst a b, List.map_map]; rfl
  have e2 : List.map (Prod.snd ∘ fun q : Signal × Signal => (zbit z q.1, zbit z q.2)) (a.zip b).toList =
      b.toList.map (zbit z) := by rw [← zip_map_snd a b, List.map_map]; rfl
  rw [e1, e2]
  apply BitVec.eq_of_toNat_eq
  simp [zbit, Signal.value]

/-- What a satisfying assignment makes of a `mapCtx`. -/
theorem mapCtx_sound {α β γ : Type} {p : Nat} {z : List Nat} {g : α → Ctx → β × Ctx} {P : Ctx → α → Prop}
    {A : α → Prop} {B : β → Prop} {val : β → γ} {f : α → γ}
    (mono : ∀ {c c' : Ctx} {x : α}, c.Extends c' → P c x → P c' x)
    (grow : ∀ {c : Ctx} {x : α}, c.Ok p → P c x → Grows p c (g x c).2)
    (one : ∀ {c : Ctx} {x : α}, c.Ok p → P c x → Sat p z (g x c).2 → A x →
      B (g x c).1 ∧ val (g x c).1 = f x) :
    ∀ (xs : List α) (c : Ctx), c.Ok p → (∀ x ∈ xs, P c x) → (∀ x ∈ xs, A x) →
      Grows p c (mapCtx g xs c).2 ∧ (Sat p z (mapCtx g xs c).2 →
        (∀ y ∈ (mapCtx g xs c).1, B y) ∧ (mapCtx g xs c).1.map val = xs.map f)
  | [], c, h, _, _ => ⟨Grows.refl h, fun _ => ⟨by simp [mapCtx], by simp [mapCtx]⟩⟩
  | x :: xs, c, h, hP, hA => by
    have g1 := grow h (hP x (by simp))
    have hP' : ∀ y ∈ xs, P (g x c).2 y := fun y hy => mono g1.ext (hP y (List.mem_cons_of_mem x hy))
    obtain ⟨g2, s2⟩ := mapCtx_sound (z := z) (g := g) (P := P) (A := A) (B := B) (val := val) (f := f) mono grow one xs
      (g x c).2 g1.ok hP' fun y hy => hA y (List.mem_cons_of_mem x hy)
    refine ⟨g1.trans g2, fun hz => ?_⟩
    obtain ⟨b2, e2⟩ := s2 hz
    obtain ⟨b1, e1⟩ := one h (hP x (by simp)) (hz.mono g2.ext) (hA x (by simp))
    simp only [mapCtx]
    refine ⟨fun y hy => ?_, by rw [List.map_cons, List.map_cons, e1, e2]⟩
    rcases List.mem_cons.1 hy with rfl | hy
    · exact b1
    · exact b2 y hy

/-- R128, R211. -/
theorem xor32_spec {p : Nat} (hp : 1 < p) {c : Ctx} (h : c.Ok p) {a b : Word32} {x y : Word} (ha : c.Holds a x)
    (hb : c.Holds b y) : Grows p c (xor32 p a b c).2 ∧ (xor32 p a b c).2.Holds (xor32 p a b c).1 (x ^^^ y) ∧
      ∀ z, Sat p z (xor32 p a b c).2 → ∀ x' y', ZHolds z a x' → ZHolds z b y' →
        ZHolds z (xor32 p a b c).1 (x' ^^^ y') := by
  obtain ⟨g, o, v⟩ := xor32_ok hp h ha.1 hb.1
  refine ⟨g, ⟨o, by rw [v, ha.2, hb.2]⟩, fun z hz x' y' hx hy => ?_⟩
  obtain ⟨_, hs⟩ := mapCtx_sound (p := p) (z := z) (g := fun q : Signal × Signal => bxor p q.1 q.2)
    (P := fun c q => c.SignalOk q.1 ∧ c.SignalOk q.2) (A := fun q => ZB z q.1 ∧ ZB z q.2) (B := ZB z)
    (val := zbit z) (f := fun q => Bool.xor (zbit z q.1) (zbit z q.2))
    (fun he hq => ⟨(he.signal hq.1).1, (he.signal hq.2).1⟩) (fun h hq => (bxor_ok hp h hq.1 hq.2).1)
    (fun h hq hz hA => bxor_sound hp hq.1 hq.2 hz hA.1 hA.2) (a.zip b).toList c h
    (fun q hq => ⟨ha.1 _ (mem_zip_toList hq).1, hb.1 _ (mem_zip_toList hq).2⟩)
    (fun q hq => ⟨hx.1 _ (mem_zip_toList hq).1, hy.1 _ (mem_zip_toList hq).2⟩)
  obtain ⟨zs, ev⟩ := hs hz
  have zb : ZBool z (xor32 p a b c).1 := fun u hu => zs u (by rwa [xor32, mapVec_toList] at hu)
  refine ⟨zb, ?_⟩
  rw [zval_word zb, xor32, mapVec_toList, ev, ← hx.2, ← hy.2, zval_word hx.1, zval_word hy.1]
  have e := bitsVal_xor ((a.zip b).toList.map fun q => (zbit z q.1, zbit z q.2))
  simp only [List.map_map, Function.comp_def] at e
  rw [e]
  have e1 : List.map (fun q : Signal × Signal => zbit z q.1) (a.zip b).toList = a.toList.map (zbit z) := by
    rw [← zip_map_fst a b, List.map_map]; rfl
  have e2 : List.map (fun q : Signal × Signal => zbit z q.2) (a.zip b).toList = b.toList.map (zbit z) := by
    rw [← zip_map_snd a b, List.map_map]; rfl
  rw [e1, e2]
  apply BitVec.eq_of_toNat_eq
  simp

theorem zval_getLsbD {z : List Nat} {w : Word32} (h : ZBool z w) (k : Nat) (hk : k < 32) :
    (low32 (zWord z w)).getLsbD k = zbit z w[k] := by
  rw [zval_word h, BitVec.getLsbD_ofNat, bitsVal_testBit]
  simp [hk, List.getD_eq_getElem?_getD]

/-- R130, R211: rotation is rewiring. -/
theorem rot_spec {c : Ctx} {a : Word32} {x : Word} (ha : c.Holds a x) (n : Fin 32) :
    c.Holds (rot a n) (wordRotl x n.val) ∧ ∀ z x', ZHolds z a x' → ZHolds z (rot a n) (wordRotl x' n.val) := by
  refine ⟨⟨fun u hu => ha.1 u (rot_mem hu), by rw [rot_val, ha.2]⟩, fun z x' hx => ?_⟩
  have zb : ZBool z (rot a n) := fun u hu => hx.1 u (rot_mem hu)
  refine ⟨zb, ?_⟩
  apply BitVec.eq_of_getLsbD_eq
  intro k hk
  rw [zval_getLsbD zb k hk, rot_get a n k hk, ← hx.2, wordRotl, BitVec.getLsbD_rotateLeft, Nat.mod_eq_of_lt n.isLt]
  have hn := n.isLt
  by_cases hkn : k < n.val
  · simp only [hkn, decide_true, cond_true]
    rw [zval_getLsbD hx.1 _ (by omega)]
    congr 2
    omega
  · simp only [hkn, decide_false, cond_false, hk, decide_true, Bool.true_and]
    rw [zval_getLsbD hx.1 _ (by omega)]
    congr 2
    omega

/-- R161: a constant word has its value under every assignment. -/
theorem constWord_spec (c : Ctx) (w : Word) : c.Holds (constWord w) w ∧ ∀ z, ZHolds z (constWord w) w := by
  refine ⟨constWord_ok c w, fun z => ?_⟩
  have zb : ZBool z (constWord w) := fun u hu => by
    obtain ⟨k, hk, rfl⟩ := mem_word.1 hu
    cases hb : w.getLsbD k <;> simp [constWord, Signal.value, hb]
  refine ⟨zb, ?_⟩
  apply BitVec.eq_of_getLsbD_eq
  intro k hk
  rw [zval_getLsbD zb k hk]
  cases hb : w[k] <;> simp [constWord, zbit, Signal.value, BitVec.getLsbD_eq_getElem hk, hb]

end Sys2Proof.Machine
end

