-- ==== Sys2Proof/Laws/Codec.lean ====
section
/-! SUPPORT. The WordCodec: what decompose appends, its value, and what any satisfying assignment makes of it
(R101, R212, R213); recompose (R104). -/

namespace Sys2Proof.Machine

/-! ### Runs of allocations -/

theorem allocAll_eq : ∀ (vs : List (Option Nat)) (c : Ctx), Ctx.allocAll vs c =
    (List.range' c.assign.length vs.length, { c with assign := c.assign ++ vs })
  | [], c => by simp [Ctx.allocAll]
  | v :: vs, c => by
    rw [Ctx.allocAll, allocAll_eq vs]
    simp [alloc_eq, List.range'_succ]

theorem allocAll_grows {p : Nat} : ∀ (vs : List (Option Nat)) {c : Ctx}, c.Ok p →
    (∀ v ∈ vs, ∀ x, v = some x → x < p) → Grows p c (Ctx.allocAll vs c).2
  | [], _, h, _ => Grows.refl h
  | v :: vs, c, h, hv => by
    have g1 := alloc_grows (v := v) h (hv v (by simp))
    exact g1.trans (allocAll_grows vs g1.ok fun u hu => hv u (List.mem_cons_of_mem _ hu))

theorem enforceAll_grows {p : Nat} (hp : 0 < p) : ∀ (qs : List Constraint) {c : Ctx}, c.Ok p →
    (∀ q ∈ qs, (LC.Within p c.assign.length q.a ∧ LC.Within p c.assign.length q.b ∧
        LC.Within p c.assign.length q.c) ∧
      (∀ L ∈ [q.a, q.b, q.c], ∀ t ∈ L, ∃ x, c.assign[t.1]? = some (some x)) ∧
      LC.ev (honestFun p c.assign) q.a * LC.ev (honestFun p c.assign) q.b = LC.ev (honestFun p c.assign) q.c) →
    Grows p c { c with cons := c.cons ++ qs }
  | [], c, h, _ => by simpa using Grows.refl h
  | q :: qs, c, h, hq => by
    obtain ⟨w, v, e⟩ := hq q (by simp)
    have g1 := enforce_grows hp h w v e
    have g2 := enforceAll_grows hp qs (c := c.enforce q) g1.ok fun u hu => hq u (List.mem_cons_of_mem _ hu)
    simpa [Ctx.enforce] using g1.trans g2

/-! ### Booleanity -/

theorem booleanity_iff {p : Nat} (hp : 0 < p) (f : Nat → ZMod p) (k : Nat) :
    LC.ev f (booleanity p k).a * LC.ev f (booleanity p k).b = LC.ev f (booleanity p k).c ↔
      f k * (f 0 - f k) = 0 := by
  simp [booleanity, LC.ev_sub f hp]

/-- The context after the bits of a decomposition are allocated: the assignment's new tail. -/
theorem allocBits_assign (p : Nat) : ∀ (bs : List Bool) (c : Ctx),
    (allocBits p bs c).1 = List.range' c.assign.length bs.length ∧
      (allocBits p bs c).2.assign = c.assign ++ bs.map fun b => some b.toNat
  | [], c => by simp [allocBits]
  | b :: bs, c => by
    obtain ⟨h1, h2⟩ := allocBits_assign p bs ((c.alloc (some b.toNat)).2.enforce (booleanity p c.assign.length))
    simp only [allocBits, alloc_eq] at h1 h2 ⊢
    rw [h1, h2]
    simp [Ctx.enforce, List.range'_succ]

theorem allocBits_grows {p : Nat} (hp : 1 < p) : ∀ (bs : List Bool) {c : Ctx}, c.Ok p →
    Grows p c (allocBits p bs c).2
  | [], _, h => Grows.refl h
  | b :: bs, c, h => by
    have hb : ∀ x, some b.toNat = some x → x < p := fun x hx => by
      cases hx; have := Bool.toNat_le b; omega
    have g1 := alloc_grows h hb
    have hz : (c.alloc (some b.toNat)).2.assign[c.assign.length]? = some (some b.toNat) := by simp [alloc_eq]
    have hk := lt_of_getElem? hz
    have h1 : LC.Within p (c.alloc (some b.toNat)).2.assign.length LC.one :=
      within_one hp (Ctx.Ok.length_pos g1.ok)
    have hs : LC.Within p (c.alloc (some b.toNat)).2.assign.length (LC.single c.assign.length) :=
      within_single hp hk
    have g2 : Grows p (c.alloc (some b.toNat)).2 ((c.alloc (some b.toNat)).2.enforce (booleanity p c.assign.length)) := by
      refine enforce_grows (by omega) g1.ok ⟨hs, within_sub (by omega) h1 hs, within_nil⟩ ?_ ?_
      · intro L hL t ht
        have hcase : t.1 = 0 ∨ t.1 = c.assign.length := by
          simp only [booleanity, List.mem_cons, List.not_mem_nil, or_false] at hL
          rcases hL with rfl | rfl | rfl
          · simp only [LC.single, List.mem_singleton] at ht
            exact .inr (by rw [ht])
          · obtain ⟨u, hu, e⟩ := vars_sub ht
            simp only [LC.one, LC.single, List.cons_append, List.nil_append, List.mem_cons, List.not_mem_nil,
              or_false] at hu
            rcases hu with rfl | rfl
            · exact .inl e.symm
            · exact .inr e.symm
          · cases ht
        rcases hcase with e | e <;> rw [e]
        · exact ⟨1, g1.ok.one⟩
        · exact ⟨_, hz⟩
      · rw [booleanity_iff (by omega), honestFun_zero g1.ok, honestFun, hz]
        cases b <;> simp
    exact (g1.trans g2).trans (allocBits_grows hp bs g2.ok)

theorem allocBits_sat {p : Nat} (hp : p.Prime) {z : List Nat} : ∀ (bs : List Bool) {c : Ctx},
    Sat p z (allocBits p bs c).2 → ∀ k ∈ (allocBits p bs c).1, ZB z (.var k)
  | [], _, _, k, hk => by simp [allocBits] at hk
  | b :: bs, c, hz, k, hk => by
    have hf : Fact p.Prime := ⟨hp⟩
    simp only [allocBits] at hz hk
    rcases List.mem_cons.1 hk with rfl | hk
    · have hext : ∀ (bs : List Bool) (c : Ctx), c.Extends (allocBits p bs c).2 := by
        intro bs
        induction bs with
        | nil => exact fun c => Ctx.Extends.refl c
        | cons b bs ih =>
          intro c
          exact ((alloc_extends _ c).trans (enforce_extends _ _)).trans (ih _)
      have hz' := hz.mono (hext _ _)
      have hq := hz'.holds (booleanity p c.assign.length) (by simp [Ctx.enforce, alloc_eq])
      rw [Constraint.holds_iff hp.pos, booleanity_iff hp.pos] at hq
      have h0 : zfun p z 0 = 1 := by rw [zfun, hz.one]; simp
      have hlt := value_lt hp.one_lt hz.below (.var c.assign.length)
      rw [h0] at hq
      simp only [Signal.value, alloc_eq] at hlt ⊢
      simp only [zfun] at hq
      rcases mul_eq_zero.1 hq with h | h
      · exact .inl (natCast_inj_of_lt hlt hp.pos (h.trans Nat.cast_zero.symm))
      · refine .inr (natCast_inj_of_lt hlt hp.one_lt ?_)
        rw [Nat.cast_one]
        exact (sub_eq_zero.1 h).symm
    · exact allocBits_sat hp bs hz k hk

/-! ### Auxiliary constraints -/

theorem WExpr.eval_lt {p : Nat} (hp : 0 < p) (loc : List Nat) : ∀ e : WExpr, e.eval p loc < p
  | .const _ => Nat.mod_lt _ hp
  | .var _ => Nat.mod_lt _ hp
  | .add _ _ => Nat.mod_lt _ hp
  | .mul _ _ => Nat.mod_lt _ hp

theorem auxValues_lt {p : Nat} (hp : 0 < p) : ∀ (es : List WExpr) (loc : List Nat), ∀ x ∈ auxValues p es loc, x < p
  | [], _, x, h => by simp [auxValues] at h
  | e :: es, loc, x, h => by
    simp only [auxValues] at h
    rcases List.mem_cons.1 h with rfl | h
    · exact WExpr.eval_lt hp _ _
    · exact auxValues_lt hp es _ x h

theorem auxValues_length (p : Nat) : ∀ (es : List WExpr) (loc : List Nat), (auxValues p es loc).length = es.length
  | [], _ => rfl
  | _ :: es, _ => by simp [auxValues, auxValues_length p es]

theorem ev_renameLC {p : Nat} (f : Nat → ZMod p) (names : List Nat) : ∀ L : LC,
    LC.ev f (renameLC names L) = LC.ev (fun k => f (names.getD k 0)) L
  | [] => rfl
  | t :: L => by
    have := ev_renameLC f names L
    simp only [renameLC, List.map_cons, LC.ev_cons] at this ⊢
    rw [this]

/-- A renamed constraint holds of an assignment when the original holds of the renamed variables' values. -/
theorem rename_iff {p : Nat} (f : Nat → ZMod p) (names loc : List Nat) {q : Constraint}
    (hq : ∀ L ∈ [q.a, q.b, q.c], ∀ t ∈ L, t.1 < names.length)
    (hf : ∀ k < names.length, f (names.getD k 0) = ((loc.getD k 0 : Nat) : ZMod p)) (hp : 0 < p) :
    (LC.ev f (renameCons names q).a * LC.ev f (renameCons names q).b = LC.ev f (renameCons names q).c) ↔
      q.holds p loc = true := by
  rw [Constraint.holds_iff hp]
  simp only [renameCons, ev_renameLC]
  have e : ∀ L ∈ [q.a, q.b, q.c], LC.ev (fun k => f (names.getD k 0)) L = LC.ev (zfun p loc) L := fun L hL =>
    LC.ev_congr fun t ht => hf t.1 (hq L hL t ht)
  rw [e q.a (by simp), e q.b (by simp), e q.c (by simp)]

theorem renameLC_within {p n : Nat} {names : List Nat} {L : LC} (hL : LC.wf p L = true)
    (hv : ∀ t ∈ L, t.1 < names.length) (hmono : names.Pairwise (· < ·)) (hn : ∀ k ∈ names, k < n) :
    LC.Within p n (renameLC names L) := by
  rw [LC.wf_iff] at hL
  refine ⟨LC.wf_iff.2 ⟨?_, ?_⟩, ?_⟩
  · rw [renameLC, List.pairwise_map]
    refine List.Pairwise.imp_of_mem ?_ hL.1
    intro s t hs ht hst
    have h1 := hv s hs
    have h2 := hv t ht
    simp only [List.getD_eq_getElem _ _ h1, List.getD_eq_getElem _ _ h2]
    exact List.pairwise_iff_getElem.1 hmono _ _ h1 h2 hst
  · intro t ht
    obtain ⟨u, hu, rfl⟩ := List.mem_map.1 ht
    exact hL.2 u hu
  · intro t ht
    obtain ⟨u, hu, rfl⟩ := List.mem_map.1 ht
    have h1 := hv u hu
    simp only [List.getD_eq_getElem _ _ h1]
    exact hn _ (List.getElem_mem h1)

/-! ### The local variables of an `enforce_lt_p` form in the context -/

/-- The context's names of a form's local variables: ONE, the bits, the auxiliaries, in rising order. -/
theorem names_eq (n m a : Nat) : (0 :: List.range' n m ++ List.range' (n + m) a) = 0 :: List.range' n (m + a) := by
  simp

theorem names_get {n l k : Nat} (hk : k < l + 1) : (0 :: List.range' n l).getD k 0 = if k = 0 then 0 else n + (k - 1) := by
  cases k with
  | zero => simp
  | succ k =>
    have : k < l := by omega
    simp [List.getD_eq_getElem?_getD, this]

theorem names_pairwise {n l : Nat} (hn : 0 < n) : (0 :: List.range' n l).Pairwise (· < ·) := by
  refine List.pairwise_cons.2 ⟨fun k hk => ?_, List.pairwise_lt_range' (s := n)⟩
  have := List.mem_range'_1.1 hk
  omega

/-- Everything `enforceLtP` does after the bits stand at the end of the assignment. -/
theorem enforceLtP_grows {P : Params} (hP : P.ltP.Correct P.p) (hp : 1 < P.p) {c : Ctx} (h : c.Ok P.p) {N n : Nat}
    (hN : N < P.p) (hn : 0 < n) (ha : ∃ pre, pre.length = n ∧
      c.assign = pre ++ (natBits P.m N).map fun b => some b.toNat) :
    Grows P.p c (enforceLtP P (natBits P.m N) (List.range' n P.m) c) := by
  obtain ⟨pre, hpre, hc⟩ := ha
  set vals := auxValues P.p P.ltP.aux (1 :: (natBits P.m N).map Bool.toNat) with hvals
  have hlen : c.assign.length = n + P.m := by simp [hc, hpre, natBits_length]
  have g1 : Grows P.p c (Ctx.allocAll (vals.map some) c).2 := by
    refine allocAll_grows _ h fun v hv x hx => ?_
    obtain ⟨y, hy, rfl⟩ := List.mem_map.1 hv
    cases hx
    exact auxValues_lt (by omega) _ _ _ hy
  have hvl : vals.length = P.ltP.aux.length := by simp [hvals, auxValues_length]
  have hnames : (0 :: List.range' n P.m ++ (Ctx.allocAll (vals.map some) c).1) =
      0 :: List.range' n (P.m + P.ltP.aux.length) := by
    rw [allocAll_eq, hlen, List.length_map, hvl]
    exact names_eq n P.m _
  have hassign : (Ctx.allocAll (vals.map some) c).2.assign = c.assign ++ vals.map some := by rw [allocAll_eq]
  unfold enforceLtP
  simp only [← hvals, hnames]
  have hlocal : ∀ k < (0 :: List.range' n (P.m + P.ltP.aux.length)).length,
      (Ctx.allocAll (vals.map some) c).2.assign[(0 :: List.range' n (P.m + P.ltP.aux.length)).getD k 0]? =
        some (some ((P.ltP.locals P.p (natBits P.m N)).getD k 0)) := by
    intro k hk
    simp only [List.length_cons, List.length_range'] at hk
    rw [names_get hk]
    split
    · rename_i h0
      rw [h0, g1.ok.one]
      simp [LtPForm.locals]
    · rename_i h0
      have hl : (P.ltP.locals P.p (natBits P.m N)) = 1 :: ((natBits P.m N).map Bool.toNat ++ vals) := by
        simp [LtPForm.locals, hvals]
      obtain ⟨k, rfl⟩ := Nat.exists_eq_succ_of_ne_zero h0
      rw [hl, hassign, hc]
      have hk' : k < P.m + vals.length := by omega
      have e : (pre ++ (natBits P.m N).map (fun b => some b.toNat)) ++ vals.map some =
          pre ++ ((natBits P.m N).map Bool.toNat ++ vals).map some := by simp
      rw [e, List.getElem?_append_right (by omega)]
      have e2 : n + (k.succ - 1) - pre.length = k := by omega
      have hk2 : k < ((natBits P.m N).map Bool.toNat ++ vals).length := by
        simp [natBits_length]; omega
      rw [e2, List.getElem?_map]
      simp only [List.getD_eq_getElem?_getD, Nat.succ_eq_add_one, List.getElem?_cons_succ]
      rw [List.getElem?_eq_getElem hk2]
      rfl
  have hmem : ∀ k ∈ (0 :: List.range' n (P.m + P.ltP.aux.length)),
      k < (Ctx.allocAll (vals.map some) c).2.assign.length := by
    intro k hk
    rw [hassign, List.length_append, hlen, List.length_map, hvl]
    rcases List.mem_cons.1 hk with rfl | hk
    · omega
    · have := List.mem_range'_1.1 hk; omega
  have g2 : Grows P.p (Ctx.allocAll (vals.map some) c).2 { (Ctx.allocAll (vals.map some) c).2 with
      cons := (Ctx.allocAll (vals.map some) c).2.cons ++
        P.ltP.cons.map (renameCons (0 :: List.range' n (P.m + P.ltP.aux.length))) } := by
    refine enforceAll_grows (by omega) _ g1.ok fun q' hq' => ?_
    obtain ⟨q, hq, rfl⟩ := List.mem_map.1 hq'
    have hr := hP.inRange q hq
    have hlt : ∀ L ∈ [q.a, q.b, q.c], ∀ t ∈ L, t.1 < (0 :: List.range' n (P.m + P.ltP.aux.length)).length := by
      intro L hL t ht
      have := (hr L hL).2 t ht
      simp only [List.length_cons, List.length_range']
      have hm : fieldBits P.p = P.m := rfl
      omega
    refine ⟨⟨?_, ?_, ?_⟩, ?_, ?_⟩
    · exact renameLC_within (hr q.a (by simp)).1 (hlt q.a (by simp)) (names_pairwise hn) hmem
    · exact renameLC_within (hr q.b (by simp)).1 (hlt q.b (by simp)) (names_pairwise hn) hmem
    · exact renameLC_within (hr q.c (by simp)).1 (hlt q.c (by simp)) (names_pairwise hn) hmem
    · intro L hL t ht
      have : ∃ L' ∈ [q.a, q.b, q.c], L = renameLC (0 :: List.range' n (P.m + P.ltP.aux.length)) L' := by
        simp only [renameCons, List.mem_cons, List.not_mem_nil, or_false] at hL
        rcases hL with rfl | rfl | rfl
        · exact ⟨q.a, by simp, rfl⟩
        · exact ⟨q.b, by simp, rfl⟩
        · exact ⟨q.c, by simp, rfl⟩
      obtain ⟨L', hL', rfl⟩ := this
      obtain ⟨u, hu, rfl⟩ := List.mem_map.1 ht
      exact ⟨_, hlocal u.1 (hlt L' hL' u hu)⟩
    · rw [rename_iff _ _ (P.ltP.locals P.p (natBits P.m N)) hlt ?_ (by omega)]
      · exact hP.complete N hN q hq
      · intro k hk
        rw [honestFun, hlocal k hk]
        rfl
  exact g1.trans g2

end Sys2Proof.Machine
end

