-- ==== Sys2Proof/Laws/Decompose.lean ====
section
/-! SUPPORT. One lemma for decompose that says everything (R101, R212, R213), one for a run of decompositions, and
recompose (R104). -/

namespace Sys2Proof.Machine

theorem Params.Valid.m_ge {P : Params} (h : P.Valid) : 34 ≤ P.m := by
  have h1 : 33 ≤ Nat.log2 P.p := (Nat.le_log2 (by have := h.large; omega)).2 h.large.le
  unfold Params.m fieldBits
  omega

theorem Params.Valid.one_lt {P : Params} (h : P.Valid) : 1 < P.p := h.prime.one_lt

/-- A weighted sum of variables with boolean values is the integer of the bits. -/
theorem ev_weighted_bits {p : Nat} (f : Nat → ZMod p) : ∀ (Ls : List LC) (bs : List Bool),
    List.Forall₂ (fun L b => LC.ev f L = ((b.toNat : Nat) : ZMod p)) Ls bs →
    LC.ev f (LC.weighted p 0 Ls) = (bitsVal bs : ZMod p) := by
  intro Ls bs h
  rw [LC.ev_weighted]
  simp only [pow_zero, one_mul]
  induction h with
  | nil => simp [bitsVal]
  | cons h1 _ ih =>
    simp only [List.map_cons, List.foldr_cons, bitsVal, h1, ih]
    push_cast
    ring

theorem forall₂_map_same {α β γ : Type} {R : β → γ → Prop} {f : α → β} {g : α → γ} {l : List α}
    (h : ∀ x ∈ l, R (f x) (g x)) : List.Forall₂ R (l.map f) (l.map g) := by
  induction l with
  | nil => exact .nil
  | cons x l ih =>
    exact .cons (h x (by simp)) (ih fun y hy => h y (List.mem_cons_of_mem _ hy))

theorem decomposeBits_word (P : Params) (L : LC) (N : Nat) (c : Ctx) (k : Nat) (hk : k < 32) (hm : 34 ≤ P.m) :
    (decomposeBits P L N c).1[k] = .var (c.assign.length + k) := by
  simp only [decomposeBits, (allocBits_assign P.p (natBits P.m N) c).1, Vector.getElem_ofFn]
  have : k < P.m := by omega
  simp [List.getD_eq_getElem?_getD, natBits_length, this]

/-- Everything a decomposition does to a register with a value: the context grows, the word is the value's low 32
bits, and any satisfying assignment gives the bits of an integer congruent to the register, below p where
DECOMP_CANONICAL = 1. -/
theorem decomposeBits_spec {P : Params} (hP : P.Valid) {c : Ctx} (h : c.Ok P.p) {L : LC} {N : Nat}
    (hF : c.FieldOk P.p (.written L (some N))) :
    Grows P.p c (decomposeBits P L N c).2 ∧ (decomposeBits P L N c).2.Holds (decomposeBits P L N c).1 (low32 N) ∧
      ∀ z, Sat P.p z (decomposeBits P L N c).2 → ∃ M : Nat, M < 2 ^ P.m ∧ (M : ZMod P.p) = LC.ev (zfun P.p z) L ∧
        ZHolds z (decomposeBits P L N c).1 (low32 M) ∧ (P.canonical = true → M < P.p) := by
  have hp := Params.Valid.one_lt hP
  have hm := Params.Valid.m_ge hP
  obtain ⟨hL, hv⟩ := fieldOk_written.1 hF
  obtain ⟨hN, hNe⟩ := LC.honest_cast (by omega) hv.symm
  obtain ⟨hidx, hasg⟩ := allocBits_assign P.p (natBits P.m N) c
  rw [natBits_length] at hidx
  have g1 := allocBits_grows hp (natBits P.m N) h
  set n := c.assign.length with hn
  have hlen : (allocBits P.p (natBits P.m N) c).2.assign.length = n + P.m := by
    rw [hasg]; simp [natBits_length, hn]
  have hbit : ∀ k < P.m, (allocBits P.p (natBits P.m N) c).2.assign[n + k]? = some (some (N.testBit k).toNat) := by
    intro k hk
    rw [hasg, List.getElem?_append_right (by omega)]
    simp [natBits, hn, hk]
  -- the weighted sum
  have hsum : LC.ev (honestFun P.p (allocBits P.p (natBits P.m N) c).2.assign)
      (LC.weighted P.p 0 ((List.range' n P.m).map LC.single)) = (N : ZMod P.p) := by
    have e : N = bitsVal ((List.range' n P.m).map fun k => N.testBit (k - n)) := by
      have hlt : N < 2 ^ P.m := hN.trans (lt_two_pow_fieldBits P.p)
      have h1 := bitsVal_natBits N P.m
      rw [Nat.mod_eq_of_lt hlt] at h1
      have e2 : (List.range' n P.m).map (fun k => N.testBit (k - n)) = natBits P.m N := by
        rw [List.range'_eq_map_range, List.map_map]
        apply List.map_congr_left
        intro k hk
        simp
      rw [e2, h1]
    conv_rhs => rw [e]
    refine ev_weighted_bits _ _ _ (forall₂_map_same fun k hk => ?_)
    obtain ⟨k, rfl⟩ := Nat.exists_eq_add_of_le (List.mem_range'_1.1 hk).1
    have hk' : k < P.m := by have := (List.mem_range'_1.1 hk).2; omega
    rw [LC.ev_single, honestFun, hbit k hk']
    simp
  have hLold : LC.ev (honestFun P.p (allocBits P.p (natBits P.m N) c).2.assign) L = (N : ZMod P.p) := by
    rw [hNe]
    refine LC.ev_congr fun t ht => ?_
    rw [honestFun, honestFun, g1.ext.getElem? (hL.2 t ht)]
  have hmemidx : ∀ k ∈ List.range' n P.m, k < n + P.m := fun k hk => (List.mem_range'_1.1 hk).2
  have g2 : Grows P.p (allocBits P.p (natBits P.m N) c).2 ((allocBits P.p (natBits P.m N) c).2.enforce
      ⟨LC.weighted P.p 0 ((List.range' n P.m).map LC.single), LC.one, L⟩) := by
    refine enforce_grows (by omega) g1.ok ⟨?_, within_one hp (Ctx.Ok.length_pos g1.ok),
      Within_mono hL (by rw [hlen]; omega)⟩ ?_ ?_
    · refine within_weighted (by omega) 0 _ fun L' hL' => ?_
      obtain ⟨k, hk, rfl⟩ := List.mem_map.1 hL'
      exact within_single hp (by rw [hlen]; exact hmemidx k hk)
    · have hweights : ∀ (j : Nat) (Ls : List LC) (t : Nat × Nat), t ∈ LC.weighted P.p j Ls →
          ∃ L' ∈ Ls, ∃ u ∈ L', u.1 = t.1 := by
        intro j Ls
        induction Ls generalizing j with
        | nil => intro t ht; cases ht
        | cons L' Ls ih =>
          intro t ht
          rcases LC.mem_add ht with ⟨u, hu, e⟩ | ht
          · obtain ⟨v, hv, e'⟩ := LC.mem_scale hu
            exact ⟨L', by simp, v, hv, e'.trans e⟩
          · obtain ⟨L'', hL'', u, hu, e⟩ := ih (j + 1) t ht
            exact ⟨L'', List.mem_cons_of_mem _ hL'', u, hu, e⟩
      intro L' hL' t ht
      simp only [List.mem_cons, List.not_mem_nil, or_false] at hL'
      rcases hL' with rfl | rfl | rfl
      · obtain ⟨L'', hL'', u, hu, e⟩ := hweights 0 _ t ht
        obtain ⟨k, hk, rfl⟩ := List.mem_map.1 hL''
        simp only [LC.single, List.mem_singleton] at hu
        subst hu
        obtain ⟨k, rfl⟩ := Nat.exists_eq_add_of_le (List.mem_range'_1.1 hk).1
        have hk' : k < P.m := by have := (List.mem_range'_1.1 hk).2; omega
        exact ⟨_, by rw [← e]; exact hbit k hk'⟩
      · simp only [LC.one, List.mem_singleton] at ht
        subst ht
        exact ⟨1, g1.ok.one⟩
      · obtain ⟨x, hx⟩ := LC.honest_vars hv.symm t ht
        exact ⟨x, by rw [g1.ext.getElem? (hL.2 t ht)]; exact hx⟩
    · rw [hsum, LC.ev_one, honestFun_zero g1.ok, hLold, mul_one]
  -- the canonicity constraints
  have g3 : Grows P.p ((allocBits P.p (natBits P.m N) c).2.enforce
      ⟨LC.weighted P.p 0 ((List.range' n P.m).map LC.single), LC.one, L⟩) (decomposeBits P L N c).2 := by
    simp only [decomposeBits, hidx]
    split
    · rename_i hc
      exact enforceLtP_grows (hP.ltP hc) hp g2.ok hN (Ctx.Ok.length_pos h) ⟨c.assign, rfl, by simpa [Ctx.enforce] using hasg⟩
    · exact Grows.refl g2.ok
  have hword : ∀ k (hk : k < 32), (decomposeBits P L N c).1[k] = .var (n + k) := fun k hk =>
    decomposeBits_word P L N c k hk hm
  have hG := (g1.trans g2).trans g3
  have hbit' : ∀ k < P.m, (decomposeBits P L N c).2.assign[n + k]? = some (some (N.testBit k).toNat) := by
    intro k hk
    rw [(g2.trans g3).ext.getElem? (by rw [hlen]; omega), hbit k hk]
  have hok : (decomposeBits P L N c).2.WordOk (decomposeBits P L N c).1 := by
    intro x hx
    obtain ⟨k, hk, rfl⟩ := mem_word.1 hx
    rw [hword k hk]
    refine ⟨by have := Ctx.Ok.length_pos h; omega, ?_⟩
    rw [hbit' k (by omega)]
    cases N.testBit k <;> simp
  refine ⟨hG, ⟨hok, ?_⟩, fun z hz => ?_⟩
  · apply BitVec.eq_of_getLsbD_eq
    intro k hk
    rw [wordVal_getLsbD _ _ k hk, hword k hk, Ctx.bit, Ctx.value, hbit' k (by omega), low32, BitVec.getLsbD_ofNat]
    cases hb : N.testBit k <;> simp [hk]
  · have hz2 := hz.mono g3.ext
    have hz1 := hz2.mono g2.ext
    have hZB : ∀ k ∈ List.range' n P.m, ZB z (.var k) := fun k hk =>
      allocBits_sat hP.prime _ hz1 k (by rw [hidx]; exact hk)
    set bits := (List.range' n P.m).map fun k => zbit z (.var k) with hbits
    have hbl : bits.length = P.m := by simp [hbits]
    refine ⟨bitsVal bits, by rw [← hbl]; exact bitsVal_lt bits, ?_, ?_, fun hc => ?_⟩
    · have hq := hz2.holds ⟨LC.weighted P.p 0 ((List.range' n P.m).map LC.single), LC.one, L⟩
        (by simp [Ctx.enforce])
      rw [Constraint.holds_iff (by omega)] at hq
      simp only at hq
      have h0 : zfun P.p z 0 = 1 := by rw [zfun, hz.one]; simp
      rw [LC.ev_one, h0, mul_one] at hq
      rw [← hq, hbits]
      refine (ev_weighted_bits _ _ _ (forall₂_map_same fun k hk => ?_)).symm
      rw [LC.ev_single, zfun, ← (hZB k hk).eq]
      rfl
    · have zb : ZBool z (decomposeBits P L N c).1 := by
        intro x hx
        obtain ⟨k, hk, rfl⟩ := mem_word.1 hx
        rw [hword k hk]
        exact hZB _ (List.mem_range'_1.2 ⟨by omega, by omega⟩)
      refine ⟨zb, ?_⟩
      apply BitVec.eq_of_getLsbD_eq
      intro k hk
      rw [zval_getLsbD zb k hk, hword k hk, low32, BitVec.getLsbD_ofNat, bitsVal_testBit]
      have hk' : k < P.m := by omega
      simp [hbits, hk, hk', List.getD_eq_getElem?_getD]
    · have hcor := hP.ltP hc
      set a := P.ltP.aux.length with haux
      refine hcor.sound bits ((List.range' (n + P.m) a).map fun k => z.getD k 0) hbl (by simp [haux]) fun q hq => ?_
      have hlt : ∀ L' ∈ [q.a, q.b, q.c], ∀ t ∈ L', t.1 < (0 :: List.range' n (P.m + a)).length := by
        intro L' hL' t ht
        have := (hcor.inRange q hq L' hL').2 t ht
        have hmm : fieldBits P.p = P.m := rfl
        simp only [List.length_cons, List.length_range']
        omega
      have hmem : renameCons (0 :: List.range' n (P.m + a)) q ∈ (decomposeBits P L N c).2.cons := by
        simp only [decomposeBits, hidx, hc, if_true, enforceLtP, allocAll_eq, List.length_map, auxValues_length,
          ← haux]
        have hl2 : ((allocBits P.p (natBits P.m N) c).2.enforce
            ⟨LC.weighted P.p 0 ((List.range' n P.m).map LC.single), LC.one, L⟩).assign.length = n + P.m := hlen
        rw [hl2, names_eq n P.m a]
        exact List.mem_append_right _ (List.mem_map_of_mem hq)
      have hh := hz.holds _ hmem
      rw [Constraint.holds_iff (by omega)] at hh
      refine (rename_iff (zfun P.p z) (0 :: List.range' n (P.m + a)) _ hlt (fun k hk => ?_) (by omega)).1 hh
      simp only [List.length_cons, List.length_range'] at hk
      rw [names_get hk, zfun]
      split
      · rename_i h0
        rw [h0, hz.one]
        simp
      · rename_i h0
        obtain ⟨k, rfl⟩ := Nat.exists_eq_succ_of_ne_zero h0
        congr 1
        have hk2 : k < P.m + a := by omega
        have e : bits.map Bool.toNat ++ (List.range' (n + P.m) a).map (fun k => z.getD k 0) =
            (List.range' n (P.m + a)).map fun k => z.getD k 0 := by
          have e1 : bits.map Bool.toNat = (List.range' n P.m).map fun k => z.getD k 0 := by
            rw [hbits, List.map_map]
            apply List.map_congr_left
            intro j hj
            rw [Function.comp_apply, ← (hZB j hj).eq]
            rfl
          rw [e1, ← List.map_append, ← List.range'_append_1]
        rw [List.cons_append, e]
        simp [List.getD_eq_getElem?_getD, hk2]

/-- R104: recompose gives a canonical linear combination with the word's value, below 2^32. -/
theorem recompose_ok {P : Params} (hP : P.Valid) {c : Ctx} (h : c.Ok P.p) {w : Word32} {v : Word}
    (hw : c.Holds w v) : c.FieldOk P.p (recompose P c w) ∧ (recompose P c w).val = some v.toNat ∧
      ∀ z, z.getD 0 0 = 1 → ∀ v', ZHolds z w v' → LC.eval P.p z (recompose P c w).lc = v'.toNat := by
  have hp := Params.Valid.one_lt hP
  have hl : 2 ^ 32 < P.p := lt_trans (by decide) hP.large
  have key : ∀ (f : Nat → ZMod P.p) (g : Signal → Bool), (∀ x ∈ w.toList, LC.ev f x.toLC = ((g x).toNat : ZMod P.p)) →
      LC.ev f (recompose P c w).lc = (bitsVal (w.toList.map g) : ZMod P.p) := fun f g hg =>
    ev_weighted_bits _ _ _ (forall₂_map_same hg)
  have hlt : ∀ g : Signal → Bool, bitsVal (w.toList.map g) < 2 ^ 32 := fun g => by
    have := bitsVal_lt (w.toList.map g)
    simpa using this
  have hwithin : LC.Within P.p c.assign.length (recompose P c w).lc := by
    refine within_weighted (by omega) 0 _ fun L hL => ?_
    obtain ⟨x, hx, rfl⟩ := List.mem_map.1 hL
    exact toLC_within hp h (hw.1 x hx)
  have hval : v.toNat = bitsVal (w.toList.map c.bit) := by
    rw [← hw.2, Ctx.wordVal, BitVec.toNat_ofNat, Nat.mod_eq_of_lt (hlt _)]
  refine ⟨fieldOk_written.2 ⟨hwithin, ?_⟩, by rw [recompose, FReg.val, hw.2], fun z h1 v' hz => ?_⟩
  · have hvars : ∀ (j : Nat) (xs : List Signal), (∀ x ∈ xs, c.SignalOk x) →
        ∀ t ∈ LC.weighted P.p j (xs.map Signal.toLC), ∃ x, c.assign[t.1]? = some (some x) := by
      intro j xs
      induction xs generalizing j with
      | nil => intro _ t ht; cases ht
      | cons x xs ih =>
        intro hx t ht
        rcases LC.mem_add ht with ⟨u, hu, e⟩ | ht
        · obtain ⟨u', hu', e'⟩ := LC.mem_scale hu
          rw [← e, ← e']
          exact toLC_vars h (hx x (by simp)) u' hu'
        · exact ih (j + 1) (fun y hy => hx y (List.mem_cons_of_mem _ hy)) t ht
    obtain ⟨y, hy, ly, ey⟩ := LC.honest_some (p := P.p) (by omega) (hvars 0 w.toList hw.1)
    show some (c.wordVal w).toNat = LC.honest P.p c.assign (LC.weighted P.p 0 (w.toList.map Signal.toLC))
    rw [hy]
    congr 1
    rw [hw.2, hval]
    refine natCast_inj_of_lt ((hlt _).trans hl) ly ?_
    rw [ey]
    exact (key _ _ fun x hx => toLC_honest h (hw.1 x hx)).symm
  · have e : v'.toNat = bitsVal (w.toList.map (zbit z)) := by
      rw [← hz.2, zval_word hz.1, BitVec.toNat_ofNat, Nat.mod_eq_of_lt (hlt _)]
    rw [e]
    refine natCast_inj_of_lt (LC.eval_lt (by omega) _ _) ((hlt _).trans hl) ?_
    rw [LC.eval_cast]
    refine key _ _ fun x hx => ?_
    rw [toLC_value h1, ZB.eq (hz.1 x hx)]

end Sys2Proof.Machine
end

