-- ==== Sys2Proof/Laws/Permutation.lean ====
section
/-! SUPPORT. The quarter-round, the double round, the permutation and the combine: growth, the value level, and
what any satisfying assignment makes of them (R150, R166, R168, R169, R211). -/

namespace Sys2Proof.Machine

/-- Each word of a vector has the value beside it on honest values. -/
def Ctx.HoldsV {n : Nat} (c : Ctx) (ws : Vector Word32 n) (vs : Vector Word n) : Prop :=
  ∀ (i : Nat) (h : i < n), c.Holds ws[i] vs[i]

/-- Each word of a vector is boolean under the assignment, with the value beside it. -/
def ZHoldsV {n : Nat} (z : List Nat) (ws : Vector Word32 n) (vs : Vector Word n) : Prop :=
  ∀ (i : Nat) (h : i < n), ZHolds z ws[i] vs[i]

theorem Ctx.Extends.holdsV {n : Nat} {c c' : Ctx} (h : c.Extends c') {ws : Vector Word32 n} {vs : Vector Word n}
    (hw : c.HoldsV ws vs) : c'.HoldsV ws vs := fun i hi => h.holds (hw i hi)

/-- The word values are what the words hold. -/
theorem Ctx.HoldsV.map_eq {n : Nat} {c : Ctx} {ws : Vector Word32 n} {vs : Vector Word n} (h : c.HoldsV ws vs) :
    ws.map c.wordVal = vs := by
  ext i hi
  simp [(h i hi).2]

/-- The z-values are what the words hold under z. -/
theorem ZHoldsV.map_eq {n : Nat} {z : List Nat} {ws : Vector Word32 n} {vs : Vector Word n} (h : ZHoldsV z ws vs) :
    (ws.map fun w => low32 (zWord z w)) = vs := by
  ext i hi
  simp [(h i hi).2]

/-! ### The quarter-round -/

section
variable {p : Nat} (hp : 1 < p)
include hp

/-- One line of the quarter-round. -/
theorem qrLine_spec {c : Ctx} (h : c.Ok p) {a b d : Word32} {x y u : Word} (ha : c.Holds a x) (hb : c.Holds b y)
    (hd : c.Holds d u) (n : Fin 32) :
    let r := qrLine p a b d n c
    Grows p c r.2 ∧ (r.2.Holds r.1.1 (wordLine x y u n.val).1 ∧ r.2.Holds r.1.2 (wordLine x y u n.val).2) ∧
      ∀ z, Sat p z r.2 → ∀ x' y' u', ZHolds z a x' → ZHolds z b y' → ZHolds z d u' →
        ZHolds z r.1.1 (wordLine x' y' u' n.val).1 ∧ ZHolds z r.1.2 (wordLine x' y' u' n.val).2 := by
  intro r
  obtain ⟨g1, h1, s1⟩ := add32_spec hp h ha hb
  obtain ⟨g2, h2, s2⟩ := xor32_spec hp g1.ok (g1.ext.holds hd) h1
  refine ⟨g1.trans g2, ⟨g2.ext.holds h1, (rot_spec h2 n).1⟩, fun z hz x' y' u' hx hy hu => ?_⟩
  have z1 := s1 z (hz.mono g2.ext) x' y' hx hy
  have z2 := s2 z hz u' (x' + y') hu z1
  exact ⟨z1, (rot_spec h2 n).2 z _ z2⟩

/-- Each component of a quad of words holds. -/
def Ctx.HoldsQ (c : Ctx) (w : Quad Word32) (v : Quad Word) : Prop :=
  c.Holds w.a v.a ∧ c.Holds w.b v.b ∧ c.Holds w.c v.c ∧ c.Holds w.d v.d

/-- Each component of a quad of words holds under the assignment. -/
def ZHoldsQ (z : List Nat) (w : Quad Word32) (v : Quad Word) : Prop :=
  ZHolds z w.a v.a ∧ ZHolds z w.b v.b ∧ ZHolds z w.c v.c ∧ ZHolds z w.d v.d

/-- R150, R211: the quarter-round. -/
theorem qrGadget_spec {c : Ctx} (h : c.Ok p) {w : Quad Word32} {v : Quad Word} (hw : c.HoldsQ w v) :
    let r := qrGadget p w c
    Grows p c r.2 ∧ r.2.HoldsQ r.1 (wordQr v) ∧
      ∀ z, Sat p z r.2 → ∀ v', ZHoldsQ z w v' → ZHoldsQ z r.1 (wordQr v') := by
  intro r
  obtain ⟨ha, hb, hc, hd⟩ := hw
  obtain ⟨g1, ⟨a1, d1⟩, s1⟩ := qrLine_spec hp h ha hb hd 16
  obtain ⟨g2, ⟨c2, b2⟩, s2⟩ := qrLine_spec hp g1.ok (g1.ext.holds hc) d1 (g1.ext.holds hb) 12
  obtain ⟨g3, ⟨a3, d3⟩, s3⟩ := qrLine_spec hp g2.ok (g2.ext.holds a1) b2 (g2.ext.holds d1) 8
  obtain ⟨g4, ⟨c4, b4⟩, s4⟩ := qrLine_spec hp g3.ok (g3.ext.holds c2) d3 (g3.ext.holds b2) 7
  refine ⟨g1.trans (g2.trans (g3.trans g4)), ⟨g4.ext.holds a3, b4, c4, g4.ext.holds d3⟩, fun z hz v' hv => ?_⟩
  obtain ⟨za, zb, zc, zd⟩ := hv
  obtain ⟨za1, zd1⟩ := s1 z (hz.mono (g2.trans (g3.trans g4)).ext) _ _ _ za zb zd
  obtain ⟨zc2, zb2⟩ := s2 z (hz.mono (g3.trans g4).ext) _ _ _ zc zd1 zb
  obtain ⟨za3, zd3⟩ := s3 z (hz.mono g4.ext) _ _ _ za1 zb2 zd1
  obtain ⟨zc4, zb4⟩ := s4 z hz _ _ _ zc2 zd3 zb2
  exact ⟨za3, zb4, zc4, zd3⟩

end

/-! ### Functions on vectors of words -/

/-- An emitting function on words computes `f`, on honest values and under every satisfying assignment. -/
structure Computes (p : Nat) {n m : Nat} (g : Vector Word32 n → Ctx → Vector Word32 m × Ctx)
    (f : Vector Word n → Vector Word m) : Prop where
  spec : ∀ {c : Ctx} {ws : Vector Word32 n} {vs : Vector Word n}, c.Ok p → c.HoldsV ws vs →
    Grows p c (g ws c).2 ∧ (g ws c).2.HoldsV (g ws c).1 (f vs) ∧
      ∀ z, Sat p z (g ws c).2 → ∀ vs', ZHoldsV z ws vs' → ZHoldsV z (g ws c).1 (f vs')

theorem Computes.id (p n : Nat) : Computes p (fun (ws : Vector Word32 n) c => (ws, c)) (fun vs => vs) :=
  ⟨fun h hw => ⟨Grows.refl h, hw, fun _ _ _ hv => hv⟩⟩

theorem Computes.comp {p n m k : Nat} {g : Vector Word32 n → Ctx → Vector Word32 m × Ctx}
    {g' : Vector Word32 m → Ctx → Vector Word32 k × Ctx} {f : Vector Word n → Vector Word m}
    {f' : Vector Word m → Vector Word k} (hg : Computes p g f) (hg' : Computes p g' f') :
    Computes p (fun ws c => g' (g ws c).1 (g ws c).2) (fun vs => f' (f vs)) := by
  refine ⟨fun {c ws vs} h hw => ?_⟩
  obtain ⟨g1, h1, s1⟩ := hg.spec h hw
  obtain ⟨g2, h2, s2⟩ := hg'.spec g1.ok h1
  exact ⟨g1.trans g2, h2, fun z hz vs' hv => s2 z hz _ (s1 z (hz.mono g2.ext) _ hv)⟩

theorem forall_set {α β : Type} {n : Nat} {R : α → β → Prop} {ws : Vector α n} {vs : Vector β n}
    (h : ∀ (i : Nat) (hi : i < n), R ws[i] vs[i]) {k : Fin n} {w : α} {v : β} (hk : R w v) :
    ∀ (i : Nat) (hi : i < n), R (ws.set k w)[i] (vs.set k v)[i] := by
  intro i hi
  rw [Vector.getElem_set, Vector.getElem_set]
  split
  · exact hk
  · exact h i hi

section
variable {p : Nat} (hp : 1 < p)
include hp

/-- R166: one quarter-round on a group. -/
theorem qrAt_computes (g : Quad (Fin 16)) : Computes p (qrAt p g) (wordQrAt g) := by
  refine ⟨fun {c ws vs} h hw => ?_⟩
  obtain ⟨g1, ⟨ha, hb, hc, hd⟩, s1⟩ := qrGadget_spec hp (w := ⟨ws[g.a], ws[g.b], ws[g.c], ws[g.d]⟩)
    (v := ⟨vs[g.a], vs[g.b], vs[g.c], vs[g.d]⟩) h ⟨hw _ _, hw _ _, hw _ _, hw _ _⟩
  refine ⟨g1, ?_, fun z hz vs' hv => ?_⟩
  · exact forall_set (forall_set (forall_set (forall_set (fun i hi => g1.ext.holds (hw i hi)) ha) hb) hc) hd
  · obtain ⟨za, zb, zc, zd⟩ := s1 z hz ⟨vs'[g.a], vs'[g.b], vs'[g.c], vs'[g.d]⟩ ⟨hv _ _, hv _ _, hv _ _, hv _ _⟩
    exact forall_set (forall_set (forall_set (forall_set hv za) zb) zc) zd

omit hp in
theorem rounds_succ (p n : Nat) (w : Vector Word32 16) (c : Ctx) :
    rounds p (n + 1) w c = rounds p n (droundGadget p w c).1 (droundGadget p w c).2 := by
  rw [rounds]

omit hp in
theorem wordRounds_succ (n : Nat) (w : Vector Word 16) : wordRounds (n + 1) w = wordRounds n (wordDround w) := by
  rw [wordRounds]

/-- R166: quarter-rounds on a list of groups. -/
theorem qrGroups_computes : ∀ gs : List (Quad (Fin 16)),
    Computes p (qrGroups p gs) (fun w => gs.foldl (fun v g => wordQrAt g v) w)
  | [] => Computes.id p 16
  | g :: gs => Computes.comp (qrAt_computes hp g) (qrGroups_computes gs)

/-- R166: one double round. -/
theorem dround_computes : Computes p (droundGadget p) wordDround := qrGroups_computes hp groups

/-- R168: n double rounds. -/
theorem rounds_computes (n : Nat) : Computes p (rounds p n) (wordRounds n) := by
  induction n with
  | zero => exact ⟨fun h hw => (Computes.id p 16).spec h hw⟩
  | succ n ih =>
    refine ⟨fun {c ws vs} h hw => ?_⟩
    rw [rounds_succ, wordRounds_succ]
    simp only [wordRounds_succ]
    exact (Computes.comp (dround_computes hp) ih).spec h hw

/-- R168: the permutation. -/
theorem perm_computes : Computes p (permGadget p) wordPerm := rounds_computes hp 10

/-- A list of additions, in order. -/
theorem mapAdd_spec : ∀ (qs : List (Word32 × Word32)) (vs : List (Word × Word)) {c : Ctx}, c.Ok p →
    List.Forall₂ (fun (q : Word32 × Word32) (v : Word × Word) => c.Holds q.1 v.1 ∧ c.Holds q.2 v.2) qs vs →
    Grows p c (mapCtx (fun q : Word32 × Word32 => add32 p q.1 q.2) qs c).2 ∧
      List.Forall₂ (mapCtx (fun q : Word32 × Word32 => add32 p q.1 q.2) qs c).2.Holds
        (mapCtx (fun q : Word32 × Word32 => add32 p q.1 q.2) qs c).1 (vs.map fun v => v.1 + v.2) ∧
      ∀ z, Sat p z (mapCtx (fun q : Word32 × Word32 => add32 p q.1 q.2) qs c).2 → ∀ vs' : List (Word × Word),
        List.Forall₂ (fun (q : Word32 × Word32) (v : Word × Word) => ZHolds z q.1 v.1 ∧ ZHolds z q.2 v.2) qs vs' →
        List.Forall₂ (ZHolds z) (mapCtx (fun q : Word32 × Word32 => add32 p q.1 q.2) qs c).1
          (vs'.map fun v => v.1 + v.2)
  | [], _, c, h, hq => by
    cases hq
    refine ⟨Grows.refl h, .nil, fun z _ vs' hv => ?_⟩
    cases hv
    exact .nil
  | q :: qs, _, c, h, hq => by
    obtain _ | ⟨h1, h2⟩ := hq
    rename_i v vs
    obtain ⟨g1, a1, s1⟩ := add32_spec hp h h1.1 h1.2
    obtain ⟨g2, a2, s2⟩ := mapAdd_spec qs vs g1.ok (h2.imp fun q v hq => ⟨g1.ext.holds hq.1, g1.ext.holds hq.2⟩)
    refine ⟨g1.trans g2, .cons (g2.ext.holds a1) a2, fun z hz vs' hv => ?_⟩
    obtain _ | ⟨hv1, hv2⟩ := hv
    exact .cons (s1 z (hz.mono g2.ext) _ _ hv1.1 hv1.2) (s2 z hz _ hv2)

end

theorem forall₂_get {α β : Type} {n : Nat} {R : α → β → Prop} {ws : Vector α n} {vs : Vector β n} :
    List.Forall₂ R ws.toList vs.toList ↔ ∀ (i : Nat) (h : i < n), R ws[i] vs[i] := by
  rw [List.forall₂_iff_get]
  simp

theorem forall₂_zip {α β : Type} {n : Nat} {R : α → β → Prop} {a b : Vector α n} {x y : Vector β n}
    (ha : ∀ (i : Nat) (h : i < n), R a[i] x[i]) (hb : ∀ (i : Nat) (h : i < n), R b[i] y[i]) :
    List.Forall₂ (fun (q : α × α) (v : β × β) => R q.1 v.1 ∧ R q.2 v.2) (a.zip b).toList (x.zip y).toList := by
  rw [List.forall₂_iff_get]
  refine ⟨by simp, fun i h1 h2 => ?_⟩
  have hi : i < n := by simpa using h1
  simpa using ⟨ha i hi, hb i hi⟩

theorem combine_toList (x y : Vector Word 16) :
    (x.zip y).toList.map (fun v => v.1 + v.2) = (wordCombine x y).toList := by
  apply List.ext_getElem
  · simp
  · intro i h1 h2
    have hi : i < 16 := by simpa using h1
    simp [wordCombine]

/-- R169: combine. -/
theorem combine_spec {p : Nat} (hp : 1 < p) {c : Ctx} (h : c.Ok p) {o w : Vector Word32 16} {x y : Vector Word 16}
    (ho : c.HoldsV o x) (hw : c.HoldsV w y) :
    Grows p c (combineGadget p o w c).2 ∧ (combineGadget p o w c).2.HoldsV (combineGadget p o w c).1 (wordCombine x y) ∧
      ∀ z, Sat p z (combineGadget p o w c).2 → ∀ x' y', ZHoldsV z o x' → ZHoldsV z w y' →
        ZHoldsV z (combineGadget p o w c).1 (wordCombine x' y') := by
  obtain ⟨g, a, s⟩ := mapAdd_spec hp (o.zip w).toList (x.zip y).toList h (forall₂_zip ho hw)
  refine ⟨g, ?_, fun z hz x' y' hx hy => ?_⟩
  · rw [combine_toList, ← mapVec_toList] at a
    exact forall₂_get.1 a
  · have := s z hz _ (forall₂_zip hx hy)
    rw [combine_toList, ← mapVec_toList] at this
    exact forall₂_get.1 this

end Sys2Proof.Machine
end

