-- ==== Sys2Proof/Laws/Runs.lean ====
section
/-! SUPPORT. Decomposing runs of field registers: when a run succeeds or fails, and everything it does; the layout,
the whole block and the ciphertext words (R162, R171, R191, R212, R213). -/

namespace Sys2Proof.Machine

/-- Every field register is well-formed over the context. -/
def Ctx.FieldsOk (p : Nat) (c : Ctx) (f : Vector FReg 128) : Prop := ∀ i : FIdx, c.FieldOk p f[i]

theorem Ctx.Extends.fieldsOk {p : Nat} {c c' : Ctx} (h : c.Extends c') {f : Vector FReg 128} (hf : c.FieldsOk p f) :
    c'.FieldsOk p f := fun i => h.field (hf i)

/-- R212, R213: the word v that an assignment may give a decomposition of a register with linear combination L:
the low 32 bits of an m-bit integer congruent to it, below p where DECOMP_CANONICAL = 1. -/
def ZDec (P : Params) (z : List Nat) (L : LC) (v : Word) : Prop :=
  ∃ M : Nat, M < 2 ^ P.m ∧ (M : ZMod P.p) = LC.ev (zfun P.p z) L ∧ v = low32 M ∧ (P.canonical = true → M < P.p)

/-- Everything check_F can answer. -/
theorem checkF_cases (f : Vector FReg 128) (i : FIdx) :
    (∃ L N, f[i] = .written L (some N) ∧ checkF f i = .ok (L, N)) ∨
      (f[i].val = none ∧ checkF f i = .error (.decomposition .dec .f i.val)) := by
  unfold checkF
  cases h : f[i] with
  | unwritten => exact .inr ⟨rfl, rfl⟩
  | written L v =>
    cases v with
    | none => exact .inr ⟨rfl, rfl⟩
    | some N => exact .inl ⟨L, N, rfl, rfl⟩

theorem decompose_some (P : Params) {f : Vector FReg 128} {i : FIdx} {L : LC} {N : Nat}
    (h : f[i] = .written L (some N)) (c : Ctx) : decompose P f i c = .ok (decomposeBits P L N c) := by
  simp only [decompose, checkF, h]

theorem decompose_none (P : Params) {f : Vector FReg 128} {i : FIdx} (h : f[i].val = none) (c : Ctx) :
    decompose P f i c = .error (.decomposition .dec .f i.val) := by
  rcases checkF_cases f i with ⟨L, N, e, _⟩ | ⟨_, e⟩
  · rw [e] at h; cases h
  · simp only [decompose, e]

/-- Everything a successful decomposition does. -/
theorem decompose_spec {P : Params} (hP : P.Valid) {f : Vector FReg 128} {i : FIdx} {c c' : Ctx} {w : Word32}
    (h : c.Ok P.p) (hf : c.FieldsOk P.p f) (hd : decompose P f i c = .ok (w, c')) :
    ∃ N, f[i].val = some N ∧ Grows P.p c c' ∧ c'.Holds w (low32 N) ∧
      ∀ z, Sat P.p z c' → ∃ v, ZDec P z f[i].lc v ∧ ZHolds z w v := by
  rcases checkF_cases f i with ⟨L, N, e, _⟩ | ⟨e, _⟩
  · rw [decompose_some P e] at hd
    have hfi := hf i
    rw [e] at hfi
    obtain ⟨g, a, s⟩ := decomposeBits_spec hP h hfi
    rw [Except.ok.inj hd] at g a s
    refine ⟨N, by rw [e]; rfl, g, a, fun z hz => ?_⟩
    obtain ⟨M, h1, h2, h3, h4⟩ := s z hz
    exact ⟨low32 M, ⟨M, h1, by rw [e]; exact h2, rfl, h4⟩, h3⟩
  · rw [decompose_none P e] at hd
    cases hd

/-- A run of registers with values decomposes. -/
theorem decomposeAll_some (P : Params) {f : Vector FReg 128} : ∀ (is : List FIdx) (c : Ctx),
    (∀ i ∈ is, f[i].val ≠ none) → ∃ ws c', decomposeAll P f is c = .ok (ws, c')
  | [], c, _ => ⟨[], c, rfl⟩
  | i :: is, c, h => by
    rcases checkF_cases f i with ⟨L, N, e, _⟩ | ⟨e, _⟩
    · obtain ⟨ws, c', h'⟩ := decomposeAll_some P is (decomposeBits P L N c).2 fun j hj => h j (List.mem_cons_of_mem _ hj)
      exact ⟨_, _, by simp only [decomposeAll, decompose_some P e, h']; rfl⟩
    · exact absurd e (h i (by simp))

/-- R229: the first register of a run without a value is the one reported. -/
theorem decomposeAll_none (P : Params) {f : Vector FReg 128} : ∀ (pre : List FIdx) (i : FIdx) (post : List FIdx)
    (c : Ctx), (∀ j ∈ pre, f[j].val ≠ none) → f[i].val = none →
    decomposeAll P f (pre ++ i :: post) c = .error (.decomposition .dec .f i.val)
  | [], i, post, c, _, h => by simp only [List.nil_append, decomposeAll, decompose_none P h]
  | j :: pre, i, post, c, hp, h => by
    rcases checkF_cases f j with ⟨L, N, e, _⟩ | ⟨e, _⟩
    · have := decomposeAll_none P pre i post (decomposeBits P L N c).2 (fun k hk => hp k (List.mem_cons_of_mem _ hk)) h
      simp only [List.cons_append, decomposeAll, decompose_some P e, this]
    · exact absurd e (hp j (by simp))

/-- Everything a successful run of decompositions does. -/
theorem decomposeAll_spec {P : Params} (hP : P.Valid) {f : Vector FReg 128} : ∀ (is : List FIdx) {c c' : Ctx}
    {ws : List Word32}, c.Ok P.p → c.FieldsOk P.p f → decomposeAll P f is c = .ok (ws, c') →
    ∃ Ns : List Nat, List.Forall₂ (fun i N => f[i].val = some N) is Ns ∧ Grows P.p c c' ∧
      List.Forall₂ c'.Holds ws (Ns.map low32) ∧
      ∀ z, Sat P.p z c' → ∃ vs, List.Forall₂ (fun (i : FIdx) v => ZDec P z f[i].lc v) is vs ∧
        List.Forall₂ (ZHolds z) ws vs
  | [], c, _, _, h, _, hd => by
    cases hd
    exact ⟨[], .nil, Grows.refl h, .nil, fun _ _ => ⟨[], .nil, .nil⟩⟩
  | i :: is, c, c', ws, h, hf, hd => by
    simp only [decomposeAll] at hd
    cases e1 : decompose P f i c with
    | error e => rw [e1] at hd; cases hd
    | ok r =>
      obtain ⟨w, c1⟩ := r
      rw [e1] at hd
      simp only at hd
      cases e2 : decomposeAll P f is c1 with
      | error e => rw [e2] at hd; cases hd
      | ok r2 =>
        obtain ⟨ws2, c2⟩ := r2
        rw [e2] at hd
        cases hd
        obtain ⟨N, hN, g1, a1, s1⟩ := decompose_spec hP h hf e1
        obtain ⟨Ns, hNs, g2, a2, s2⟩ := decomposeAll_spec hP is g1.ok (g1.ext.fieldsOk hf) e2
        refine ⟨N :: Ns, .cons hN hNs, g1.trans g2, .cons (g2.ext.holds a1) a2, fun z hz => ?_⟩
        obtain ⟨v, hv, zv⟩ := s1 z (hz.mono g2.ext)
        obtain ⟨vs, hvs, zvs⟩ := s2 z hz
        exact ⟨v :: vs, .cons hv hvs, .cons zv zvs⟩

/-! ### The layout -/

theorem toWords_get {n : Nat} {ws : List Word32} (i : Nat) (h : i < n) (hl : i < ws.length) :
    (toWords n ws)[i] = ws[i] := by
  simp [toWords, List.getD_eq_getElem?_getD, hl]

/-- The layout of the words that a run's decompositions gave, in the order they were read. -/
def layoutOf (vs : List Word) : Vector Word 16 := Vector.ofFn fun i : Fin 16 => (layoutConstants ++ vs).getD i.val 0

theorem layoutOf_get {vs : List Word} (i : Nat) (h : i < 16) (hl : i < (layoutConstants ++ vs).length) :
    (layoutOf vs)[i] = (layoutConstants ++ vs)[i] := by
  simp only [layoutOf, Vector.getElem_ofFn, List.getD_eq_getElem?_getD, List.getElem?_eq_getElem hl, Option.getD_some]

theorem toWords_layout {R : Word32 → Word → Prop} (hc : ∀ w, R (constWord w) w) {ws : List Word32} {vs : List Word}
    (h : List.Forall₂ R ws vs) (hl : ws.length = 12) (i : Nat) (hi : i < 16) :
    R (toWords 16 (layoutConstants.map constWord ++ ws))[i] (layoutOf vs)[i] := by
  have h4 : layoutConstants.length = 4 := rfl
  have hall : List.Forall₂ R (layoutConstants.map constWord ++ ws) (layoutConstants ++ vs) := by
    refine List.rel_append ?_ h
    have : List.Forall₂ R (layoutConstants.map constWord) (layoutConstants.map fun w => w) :=
      forall₂_map_same fun w _ => hc w
    simpa using this
  have hlen := hall.length_eq
  have hi1 : i < (layoutConstants.map constWord ++ ws).length := by simp [h4, hl]; omega
  rw [toWords_get i hi hi1, layoutOf_get i hi (by omega)]
  have := (List.forall₂_iff_get.1 hall).2 i hi1 (by omega)
  simpa using this

theorem layoutReads_length (fs : FIdx) : (layoutReads fs).length = 12 := rfl

/-- A layout succeeds when the registers it reads have values. -/
theorem layoutGadget_some (P : Params) {f : Vector FReg 128} {fs : FIdx} (h : ∀ i ∈ layoutReads fs, f[i].val ≠ none)
    (c : Ctx) : ∃ w c', layoutGadget P f fs c = .ok (w, c') := by
  obtain ⟨ws, c', e⟩ := decomposeAll_some P (layoutReads fs) c h
  exact ⟨_, c', by simp only [layoutGadget, e]; rfl⟩

theorem layoutGadget_none (P : Params) {f : Vector FReg 128} {fs i : FIdx} {pre post : List FIdx}
    (e : layoutReads fs = pre ++ i :: post) (hp : ∀ j ∈ pre, f[j].val ≠ none) (h : f[i].val = none) (c : Ctx) :
    layoutGadget P f fs c = .error (.decomposition .dec .f i.val) := by
  simp only [layoutGadget, e, decomposeAll_none P pre i post c hp h]

/-- R162, R212: everything a successful layout does. -/
theorem layoutGadget_spec {P : Params} (hP : P.Valid) {f : Vector FReg 128} {fs : FIdx} {c c' : Ctx}
    {w : Vector Word32 16} (h : c.Ok P.p) (hf : c.FieldsOk P.p f) (hl : layoutGadget P f fs c = .ok (w, c')) :
    ∃ Ns : List Nat, List.Forall₂ (fun i N => f[i].val = some N) (layoutReads fs) Ns ∧ Grows P.p c c' ∧
      c'.HoldsV w (layoutOf (Ns.map low32)) ∧
      ∀ z, Sat P.p z c' → ∃ vs, List.Forall₂ (fun (i : FIdx) v => ZDec P z f[i].lc v) (layoutReads fs) vs ∧
        ZHoldsV z w (layoutOf vs) := by
  simp only [layoutGadget] at hl
  cases e : decomposeAll P f (layoutReads fs) c with
  | error e' => rw [e] at hl; cases hl
  | ok r =>
    obtain ⟨ws, c1⟩ := r
    rw [e] at hl
    cases hl
    obtain ⟨Ns, hNs, g, a, s⟩ := decomposeAll_spec hP _ h hf e
    have hlen : ws.length = 12 := by
      rw [a.length_eq, List.length_map, ← hNs.length_eq, layoutReads_length]
    refine ⟨Ns, hNs, g, fun i hi => toWords_layout (fun w => (constWord_spec _ w).1) a hlen i hi, fun z hz => ?_⟩
    obtain ⟨vs, hvs, zvs⟩ := s z hz
    exact ⟨vs, hvs, fun i hi => toWords_layout (fun w => (constWord_spec c w).2 z) zvs hlen i hi⟩

/-! ### The whole block -/

/-- R160, value level, from the words in read order. -/
def blockOf (vs : List Word) : Vector Word 16 := wordCombine (layoutOf vs) (wordPerm (layoutOf vs))

/-- Everything `block` can answer. -/
theorem blockGadget_eq (P : Params) (f : Vector FReg 128) (fs : FIdx) (c : Ctx) : blockGadget P f fs c =
    match layoutGadget P f fs c with
    | .error e => .error e
    | .ok (o, c1) => .ok ⟨(combineGadget P.p o (permGadget P.p o c1).1 (permGadget P.p o c1).2).1, o,
        (combineGadget P.p o (permGadget P.p o c1).1 (permGadget P.p o c1).2).2⟩ := by
  unfold blockGadget
  cases layoutGadget P f fs c <;> rfl

/-- R171, R211: everything a successful block does. -/
theorem blockGadget_spec {P : Params} (hP : P.Valid) {f : Vector FReg 128} {fs : FIdx} {c : Ctx} {b : BlockResult}
    (h : c.Ok P.p) (hf : c.FieldsOk P.p f) (hb : blockGadget P f fs c = .ok b) :
    ∃ Ns : List Nat, List.Forall₂ (fun i N => f[i].val = some N) (layoutReads fs) Ns ∧ Grows P.p c b.ctx ∧
      b.ctx.HoldsV b.layout (layoutOf (Ns.map low32)) ∧ b.ctx.HoldsV b.keystream (blockOf (Ns.map low32)) ∧
      ∀ z, Sat P.p z b.ctx → ∃ vs, List.Forall₂ (fun (i : FIdx) v => ZDec P z f[i].lc v) (layoutReads fs) vs ∧
        ZHoldsV z b.layout (layoutOf vs) ∧ ZHoldsV z b.keystream (blockOf vs) := by
  rw [blockGadget_eq] at hb
  cases e : layoutGadget P f fs c with
  | error e' => rw [e] at hb; cases hb
  | ok r =>
    obtain ⟨o, c1⟩ := r
    rw [e] at hb
    cases hb
    have hp := Params.Valid.one_lt hP
    obtain ⟨Ns, hNs, g1, a1, s1⟩ := layoutGadget_spec hP h hf e
    obtain ⟨g2, a2, s2⟩ := (perm_computes hp).spec g1.ok a1
    obtain ⟨g3, a3, s3⟩ := combine_spec hp g2.ok (g2.ext.holdsV a1) a2
    refine ⟨Ns, hNs, g1.trans (g2.trans g3), (g2.trans g3).ext.holdsV a1, a3, fun z hz => ?_⟩
    obtain ⟨vs, hvs, zvs⟩ := s1 z (hz.mono (g2.trans g3).ext)
    exact ⟨vs, hvs, zvs, s3 z hz _ _ zvs (s2 z (hz.mono g3.ext) _ zvs)⟩

/-! ### The ciphertext words -/

/-- The ciphertext words come out when the registers they read have values. -/
theorem cipherWords_some (P : Params) {f : Vector FReg 128} : ∀ (qs : List (FIdx × Word32)) (c : Ctx),
    (∀ q ∈ qs, f[q.1].val ≠ none) → ∃ ws c', cipherWords P f qs c = .ok (ws, c')
  | [], c, _ => ⟨[], c, rfl⟩
  | q :: qs, c, h => by
    rcases checkF_cases f q.1 with ⟨L, N, e, _⟩ | ⟨e, _⟩
    · obtain ⟨ws, c', h'⟩ := cipherWords_some P qs
        (xor32 P.p (decomposeBits P L N c).1 q.2 (decomposeBits P L N c).2).2 fun j hj => h j (List.mem_cons_of_mem _ hj)
      exact ⟨_, _, by simp only [cipherWords, decompose_some P e, h']; rfl⟩
    · exact absurd e (h q (by simp))

/-- R229: the first register without a value is the one reported. -/
theorem cipherWords_none (P : Params) {f : Vector FReg 128} : ∀ (pre : List (FIdx × Word32)) (q : FIdx × Word32)
    (post : List (FIdx × Word32)) (c : Ctx), (∀ j ∈ pre, f[j.1].val ≠ none) → f[q.1].val = none →
    cipherWords P f (pre ++ q :: post) c = .error (.decomposition .dec .f q.1.val)
  | [], q, post, c, _, h => by simp only [List.nil_append, cipherWords, decompose_none P h]
  | j :: pre, q, post, c, hp, h => by
    rcases checkF_cases f j.1 with ⟨L, N, e, _⟩ | ⟨e, _⟩
    · have := cipherWords_none P pre q post
        (xor32 P.p (decomposeBits P L N c).1 j.2 (decomposeBits P L N c).2).2
        (fun k hk => hp k (List.mem_cons_of_mem _ hk)) h
      simp only [List.cons_append, cipherWords, decompose_some P e, this]
    · exact absurd e (hp j (by simp))

/-- R191, R194, R211: everything the ciphertext words do. -/
theorem cipherWords_spec {P : Params} (hP : P.Valid) {f : Vector FReg 128} : ∀ (qs : List (FIdx × Word32))
    (ks : List Word) {c c' : Ctx} {ws : List Word32}, c.Ok P.p → c.FieldsOk P.p f →
    List.Forall₂ (fun (q : FIdx × Word32) k => c.Holds q.2 k) qs ks → cipherWords P f qs c = .ok (ws, c') →
    ∃ Ns : List Nat, List.Forall₂ (fun (q : FIdx × Word32) N => f[q.1].val = some N) qs Ns ∧ Grows P.p c c' ∧
      List.Forall₂ c'.Holds ws (List.zipWith (fun N k => low32 N ^^^ k) Ns ks) ∧
      ∀ z, Sat P.p z c' → ∃ vs, List.Forall₂ (fun (q : FIdx × Word32) v => ZDec P z f[q.1].lc v) qs vs ∧
        ∀ ks', List.Forall₂ (fun (q : FIdx × Word32) k => ZHolds z q.2 k) qs ks' →
          List.Forall₂ (ZHolds z) ws (List.zipWith (fun v k => v ^^^ k) vs ks')
  | [], _, c, _, _, h, _, hk, hd => by
    cases hd
    cases hk
    exact ⟨[], .nil, Grows.refl h, .nil, fun _ _ => ⟨[], .nil, fun _ hk => by cases hk; exact .nil⟩⟩
  | q :: qs, _, c, c', ws, h, hf, hk, hd => by
    obtain _ | ⟨k1, k2⟩ := hk
    rename_i k ks
    simp only [cipherWords] at hd
    cases e1 : decompose P f q.1 c with
    | error e => rw [e1] at hd; cases hd
    | ok r =>
      obtain ⟨w, c1⟩ := r
      rw [e1] at hd
      simp only at hd
      cases e2 : cipherWords P f qs (xor32 P.p w q.2 c1).2 with
      | error e => rw [e2] at hd; cases hd
      | ok r2 =>
        obtain ⟨ws2, c2⟩ := r2
        rw [e2] at hd
        cases hd
        have hp := Params.Valid.one_lt hP
        obtain ⟨N, hN, g1, a1, s1⟩ := decompose_spec hP h hf e1
        obtain ⟨gx, ax, sx⟩ := xor32_spec hp g1.ok a1 (g1.ext.holds k1)
        have gg := g1.trans gx
        obtain ⟨Ns, hNs, g2, a2, s2⟩ := cipherWords_spec hP qs ks gg.ok (gg.ext.fieldsOk hf)
          (k2.imp fun q k hq => gg.ext.holds hq) e2
        refine ⟨N :: Ns, .cons hN hNs, gg.trans g2, .cons (g2.ext.holds ax) a2, fun z hz => ?_⟩
        obtain ⟨v, hv, zv⟩ := s1 z (hz.mono (gx.trans g2).ext)
        obtain ⟨vs, hvs, zvs⟩ := s2 z hz
        refine ⟨v :: vs, .cons hv hvs, fun ks' hk' => ?_⟩
        obtain _ | ⟨kk1, kk2⟩ := hk'
        exact .cons (sx z (hz.mono g2.ext) _ _ zv kk1) (zvs _ kk2)

end Sys2Proof.Machine
end

