-- ==== Sys2Proof/Laws/Status.lean ====
section
/-! SUPPORT. STATUS: the fields of the value an error writes (R226), and what taking an error does to them. -/

namespace Sys2Proof.Machine

/-- The fields packed as R226 packs them, and read back. -/
theorem packed_fields (k : BitVec 3) (g : BitVec 4) (o : BitVec 6) (sp : BitVec 1) (ix : BitVec 7) :
    let w : Word := 1#32 ||| (k.setWidth 32 <<< 1) ||| (g.setWidth 32 <<< 4) ||| (o.setWidth 32 <<< 8)
      ||| (sp.setWidth 32 <<< 14) ||| (ix.setWidth 32 <<< 15)
    w.getLsbD 0 = true ∧ w.extractLsb' 1 3 = k ∧ w.extractLsb' 4 4 = g ∧ w.extractLsb' 8 6 = o ∧
      w.extractLsb' 14 1 = sp ∧ w.extractLsb' 15 7 = ix ∧ w.extractLsb' 22 10 = 0 := by
  intro w
  have hb : ∀ j, w.getLsbD j = (decide (j = 0) || (decide (1 ≤ j ∧ j < 32) && k.getLsbD (j - 1)) ||
      (decide (4 ≤ j ∧ j < 32) && g.getLsbD (j - 4)) || (decide (8 ≤ j ∧ j < 32) && o.getLsbD (j - 8)) ||
      (decide (14 ≤ j ∧ j < 32) && sp.getLsbD (j - 14)) || (decide (15 ≤ j ∧ j < 32) && ix.getLsbD (j - 15))) := by
    intro j
    by_cases hj : j < 32
    · simp only [w, BitVec.getLsbD_or, BitVec.getLsbD_shiftLeft, BitVec.getLsbD_setWidth, BitVec.getLsbD_one, hj,
        decide_true, Bool.true_and, and_true]
      congr 1
      congr 1
      congr 1
      congr 1
      congr 1
      · by_cases h : j < 1
        · have : j = 0 := by omega
          subst this; simp
        · simp [h, show 1 ≤ j by omega, show j - 1 < 32 by omega]
      · by_cases h : j < 4
        · simp [h]
        · simp [h, show 4 ≤ j by omega, show j - 4 < 32 by omega]
      · by_cases h : j < 8
        · simp [h]
        · simp [h, show 8 ≤ j by omega, show j - 8 < 32 by omega]
      · by_cases h : j < 14
        · simp [h]
        · simp [h, show 14 ≤ j by omega, show j - 14 < 32 by omega]
      · by_cases h : j < 15
        · simp [h]
        · simp [h, show 15 ≤ j by omega, show j - 15 < 32 by omega]
    · have : w.getLsbD j = false := BitVec.getLsbD_of_ge _ _ (by omega)
      rw [this]
      simp [show ¬ j < 32 from hj]
      omega
  have zk : ∀ j, 3 ≤ j → k.getLsbD j = false := fun j h => BitVec.getLsbD_of_ge _ _ h
  have zg : ∀ j, 4 ≤ j → g.getLsbD j = false := fun j h => BitVec.getLsbD_of_ge _ _ h
  have zo : ∀ j, 6 ≤ j → o.getLsbD j = false := fun j h => BitVec.getLsbD_of_ge _ _ h
  have zs : ∀ j, 1 ≤ j → sp.getLsbD j = false := fun j h => BitVec.getLsbD_of_ge _ _ h
  have zi : ∀ j, 7 ≤ j → ix.getLsbD j = false := fun j h => BitVec.getLsbD_of_ge _ _ h
  refine ⟨by rw [hb]; rfl, ?_, ?_, ?_, ?_, ?_, ?_⟩
  · apply BitVec.eq_of_getLsbD_eq
    intro i hi
    rw [BitVec.getLsbD_extractLsb', hb]
    simp [hi, show 1 + i < 32 by omega, show ¬ 4 ≤ 1 + i by omega, show ¬ 8 ≤ 1 + i by omega,
      show ¬ 14 ≤ 1 + i by omega, show ¬ 15 ≤ 1 + i by omega]
  · apply BitVec.eq_of_getLsbD_eq
    intro i hi
    rw [BitVec.getLsbD_extractLsb', hb]
    simp [hi, show 4 + i < 32 by omega, show ¬ 8 ≤ 4 + i by omega,
      show ¬ 14 ≤ 4 + i by omega, show ¬ 15 ≤ 4 + i by omega, show 1 ≤ 4 + i by omega]
  · apply BitVec.eq_of_getLsbD_eq
    intro i hi
    rw [BitVec.getLsbD_extractLsb', hb]
    simp [hi, show 8 + i < 32 by omega, show 4 ≤ 8 + i by omega,
      show ¬ 14 ≤ 8 + i by omega, show ¬ 15 ≤ 8 + i by omega, zk (7 + i) (by omega), zg (8 + i - 4) (by omega)]
  · apply BitVec.eq_of_getLsbD_eq
    intro i hi
    rw [BitVec.getLsbD_extractLsb', hb]
    simp [hi, show 14 + i < 32 by omega, show 4 ≤ 14 + i by omega, show 8 ≤ 14 + i by omega,
      show ¬ 15 ≤ 14 + i by omega, zk (13 + i) (by omega), zg (14 + i - 4) (by omega), zo (14 + i - 8) (by omega)]
  · apply BitVec.eq_of_getLsbD_eq
    intro i hi
    rw [BitVec.getLsbD_extractLsb', hb]
    simp [hi, show 15 + i < 32 by omega, show 4 ≤ 15 + i by omega, show 8 ≤ 15 + i by omega, show 14 ≤ 15 + i by omega,
      zk (14 + i) (by omega), zg (15 + i - 4) (by omega), zo (15 + i - 8) (by omega), zs (15 + i - 14) (by omega)]
  · apply BitVec.eq_of_getLsbD_eq
    intro i hi
    rw [BitVec.getLsbD_extractLsb', hb]
    simp [hi, zk (21 + i) (by omega), zg (22 + i - 4) (by omega), zo (22 + i - 8) (by omega),
      zs (22 + i - 14) (by omega), zi (22 + i - 15) (by omega)]

/-- R226: the fields of the value an error writes. -/
theorem statusWord_fields (op : BitVec 6) (e : Err) : (statusWord op e).getLsbD 0 = true ∧
    (statusWord op e).extractLsb' 1 3 = e.kind ∧ (statusWord op e).extractLsb' 4 4 = e.gadget ∧
    (statusWord op e).extractLsb' 8 6 = op ∧ (statusWord op e).extractLsb' 14 1 = e.space ∧
    (statusWord op e).extractLsb' 15 7 = e.index ∧ (statusWord op e).extractLsb' 22 10 = 0 :=
  packed_fields e.kind e.gadget op e.space e.index

/-- Taking an error keeps the form of STATUS. -/
theorem raise_statusOk {s : State} (h : s.StatusOk) (op : BitVec 6) (e : Err) : (s.raise op e).StatusOk := by
  unfold State.raise
  split
  · exact h
  · obtain ⟨h0, h1, h2, _, _, _, h6⟩ := statusWord_fields op e
    refine ⟨h6, ?_, ?_, ?_⟩
    · show (statusWord op e).extractLsb' 1 3 ≤ 4
      rw [h1]
      cases e <;> simp [Err.kind]
    · show (statusWord op e).extractLsb' 4 4 ≤ 6
      rw [h2]
      cases e with
      | decomposition g _ _ => cases g <;> simp [Err.gadget, Gadget.code]
      | _ => simp [Err.gadget]
    · intro hf
      have : (statusWord op e).getLsbD 0 = false := hf
      rw [h0] at this
      cases this

/-- R227: once an error is taken, ERR stays 1 and STATUS keeps the first error. -/
theorem raise_err (s : State) (op : BitVec 6) (e : Err) : (s.raise op e).err = true := by
  unfold State.raise
  split
  · assumption
  · exact (statusWord_fields op e).1

end Sys2Proof.Machine
end

