-- ==== Sys2Proof/Laws/Checks.lean ====
section
/-! SUPPORT. The operand checks: when they pass, and which register they report (R120, R221, R229); the well-formed
registers of a state as the gadgets' lemmas want them. -/

namespace Sys2Proof.Machine

/-- Everything check_R can answer. -/
theorem checkR_cases (s : State) (j : RIdx) (g : Gadget) :
    ((∃ w, s.r[j] = .written w) ∧ s.checkR j g = .ok ()) ∨
      (s.r[j] = .unwritten ∧ s.checkR j g = .error (.decomposition g .r j.val)) := by
  unfold State.checkR
  cases h : s.r[j] with
  | unwritten => exact .inr ⟨rfl, rfl⟩
  | written w => exact .inl ⟨⟨w, rfl⟩, rfl⟩

/-- A list of checks passes when every register is written. -/
theorem checkRs_ok {s : State} : ∀ {qs : List (RIdx × Gadget)}, s.checkRs qs = .ok () ↔
    ∀ q ∈ qs, s.r[q.1] ≠ .unwritten
  | [] => by simp [State.checkRs]
  | q :: qs => by
    rcases checkR_cases s q.1 q.2 with ⟨⟨w, hw⟩, e⟩ | ⟨hw, e⟩
    · simp only [State.checkRs, e, checkRs_ok (qs := qs), List.mem_cons, forall_eq_or_imp]
      simp [hw]
    · simp only [State.checkRs, e, List.mem_cons, forall_eq_or_imp]
      simp [hw]

/-- R229: the first unwritten register of a list of checks is the one reported. -/
theorem checkRs_first {s : State} : ∀ {pre : List (RIdx × Gadget)} {q : RIdx × Gadget} {post : List (RIdx × Gadget)},
    (∀ u ∈ pre, s.r[u.1] ≠ .unwritten) → s.r[q.1] = .unwritten →
    s.checkRs (pre ++ q :: post) = .error (.decomposition q.2 .r q.1.val)
  | [], q, post, _, h => by
    rcases checkR_cases s q.1 q.2 with ⟨⟨w, hw⟩, _⟩ | ⟨_, e⟩
    · rw [hw] at h; cases h
    · simp only [List.nil_append, State.checkRs, e]
  | u :: pre, q, post, hp, h => by
    rcases checkR_cases s u.1 u.2 with ⟨_, e⟩ | ⟨hw, _⟩
    · simp only [List.cons_append, State.checkRs, e]
      exact checkRs_first (fun v hv => hp v (List.mem_cons_of_mem _ hv)) h
    · exact absurd hw (hp u (by simp))

/-- A list of checks either passes or reports an error. -/
theorem checkRs_cases (s : State) (qs : List (RIdx × Gadget)) :
    s.checkRs qs = .ok () ∨ ∃ e, s.checkRs qs = .error e := by
  cases h : s.checkRs qs with
  | ok u => exact .inl rfl
  | error e => exact .inr ⟨e, rfl⟩

/-- A written register of a well-formed state holds its value. -/
theorem State.Inv.holds {s : State} (h : s.Inv) {j : RIdx} (hw : s.r[j] ≠ .unwritten) :
    s.ctx.Holds (s.word j) (s.ctx.wordVal (s.word j)) ∧ s.rval j = some (s.ctx.wordVal (s.word j)) := by
  unfold State.word State.rval
  cases hj : s.r[j] with
  | unwritten => exact absurd hj hw
  | written w => exact ⟨⟨h.words j w hj, rfl⟩, rfl⟩

theorem word_mem {s : State} {j : RIdx} (hw : s.r[j] ≠ .unwritten) : s.r[j] = .written (s.word j) := by
  unfold State.word
  cases hj : s.r[j] with
  | unwritten => exact absurd hj hw
  | written w => rfl

theorem State.Inv.fieldsOk {s : State} (h : s.Inv) : s.ctx.FieldsOk s.params.p s.f := h.fields

theorem State.Inv.one_lt {s : State} (h : s.Inv) : 1 < s.params.p := Params.Valid.one_lt h.params

/-- A run of written registers holds its values. -/
theorem State.Inv.holdsV {s : State} (h : s.Inv) {base : Nat} (hw : s.Written16 base) :
    s.ctx.HoldsV (s.words16 base) (s.vals16 base) := by
  intro i hi
  have := (h.holds (hw i hi)).1
  simpa [State.words16, State.vals16] using this

/-- The registers named by the fixed-register commands' checks. -/
theorem roundChecks_iff {s : State} : s.checkRs roundChecks = .ok () ↔ s.Written16 0 := by
  rw [checkRs_ok]
  simp [roundChecks, State.Written16]

theorem snapChecks_iff {s : State} : s.checkRs snapChecks = .ok () ↔ s.Written16 0 := by
  rw [checkRs_ok]
  simp [snapChecks, State.Written16]

theorem combineChecks_iff {s : State} : s.checkRs combineChecks = .ok () ↔ s.Written16 16 ∧ s.Written16 0 := by
  rw [checkRs_ok]
  simp only [combineChecks, List.mem_flatMap, List.mem_range, List.mem_cons, List.not_mem_nil, or_false, State.Written16]
  constructor
  · intro h
    exact ⟨fun i hi => h _ ⟨i, hi, .inl rfl⟩, fun i hi => h _ ⟨i, hi, .inr rfl⟩⟩
  · rintro ⟨h1, h2⟩ q ⟨i, hi, rfl | rfl⟩
    · exact h1 i hi
    · exact h2 i hi

theorem layoutReads_get (fs : FIdx) : ∀ i ∈ layoutReads fs, ∃ k < 12, i = runIdx fs k := by
  intro i hi
  simp only [layoutReads, List.mem_map, List.mem_cons, List.not_mem_nil, or_false] at hi
  obtain ⟨k, hk, rfl⟩ := hi
  exact ⟨k, by omega, rfl⟩

/-- The layout's registers have values when the whole run of 12 has. -/
theorem layoutReads_values {s : State} {fs : FIdx} (h : s.HasValues fs 12) : ∀ i ∈ layoutReads fs, s.f[i].val ≠ none := by
  intro i hi
  obtain ⟨k, hk, rfl⟩ := layoutReads_get fs i hi
  exact h k hk

theorem checkRun_ok {base : FIdx} {len : Nat} (h : base.val + len ≤ 128) : checkRun base len = .ok () := by
  simp [checkRun, Nat.not_lt.2 h]

theorem checkRun_error {base : FIdx} {len : Nat} (h : 128 < base.val + len) :
    checkRun base len = .error (.shape base.val) := by
  simp [checkRun, h]

end Sys2Proof.Machine
end

