-- ==== Sys2Proof/Laws/Counts.lean ====
section
/-! SUPPORT. How many variables and constraints each gadget appends (R39, R101, R125, R128, R150, R166, R168, R169,
R171, R191). -/

namespace Sys2Proof.Machine

/-- The context got v more variables and q more constraints. -/
def Delta (c c' : Ctx) (v q : Nat) : Prop :=
  c'.assign.length = c.assign.length + v ∧ c'.cons.length = c.cons.length + q

theorem Delta.refl (c : Ctx) : Delta c c 0 0 := ⟨rfl, rfl⟩

theorem Delta.trans {a b c : Ctx} {v q v' q' : Nat} (h : Delta a b v q) (h' : Delta b c v' q') :
    Delta a c (v + v') (q + q') := ⟨by rw [h'.1, h.1]; omega, by rw [h'.2, h.2]; omega⟩

theorem Delta.pos {a b : Ctx} {v q : Nat} (h : Delta a b v q) (ha : 0 < a.assign.length) : 0 < b.assign.length := by
  rw [h.1]; omega

/-! ### Gates and adders -/

theorem gate_delta {op : Bool → Bool → Bool} {rel : LC → LC → LC → Constraint} {c : Ctx} {x y : Signal}
    (hc : 0 < c.assign.length) (h : x.isConst = false ∨ y.isConst = false) :
    (gate op rel x y c).1.isConst = false ∧ Delta c (gate op rel x y c).2 1 1 :=
  gate_counts hc (by rcases h with h | h <;> simp [h])

theorem fullAdder_delta (p : Nat) {c : Ctx} {x y k : Signal} (hc : 0 < c.assign.length)
    (h : x.isConst = false ∨ y.isConst = false) :
    (fullAdder p x y k c).1.1.isConst = false ∧ Delta c (fullAdder p x y k c).2 5 5 := by
  obtain ⟨t, d1⟩ := gate_delta (op := Bool.xor) (rel := xorRel p) hc h
  obtain ⟨s, d2⟩ := gate_delta (op := Bool.xor) (rel := xorRel p) (x := (bxor p x y c).1) (y := k) (d1.pos hc) (.inl t)
  obtain ⟨g, d3⟩ := gate_delta (op := Bool.and) (rel := andRel) (d2.pos (d1.pos hc)) h
  obtain ⟨m, d4⟩ := gate_delta (op := Bool.and) (rel := andRel) (x := (bxor p x y c).1) (y := k)
    (d3.pos (d2.pos (d1.pos hc))) (.inl t)
  obtain ⟨r, d5⟩ := gate_delta (op := Bool.or) (rel := orRel p) (d4.pos (d3.pos (d2.pos (d1.pos hc)))) (.inr m)
  exact ⟨s, d1.trans (d2.trans (d3.trans (d4.trans d5)))⟩

theorem lastAdder_delta (p : Nat) {c : Ctx} {x y k : Signal} (hc : 0 < c.assign.length)
    (h : x.isConst = false ∨ y.isConst = false) :
    (lastAdder p x y k c).1.isConst = false ∧ Delta c (lastAdder p x y k c).2 2 2 := by
  obtain ⟨t, d1⟩ := gate_delta (op := Bool.xor) (rel := xorRel p) hc h
  obtain ⟨s, d2⟩ := gate_delta (op := Bool.xor) (rel := xorRel p) (x := (bxor p x y c).1) (y := k) (d1.pos hc) (.inl t)
  exact ⟨s, d1.trans d2⟩

theorem addBits_delta (p : Nat) : ∀ (qs : List (Signal × Signal)) (k : Signal) (c : Ctx), 0 < c.assign.length →
    (∀ q ∈ qs, q.1.isConst = false ∨ q.2.isConst = false) →
    (∀ x ∈ (addBits p qs k c).1, x.isConst = false) ∧
      Delta c (addBits p qs k c).2 (5 * qs.length - 3) (5 * qs.length - 3)
  | [], _, c, _, _ => ⟨by simp [addBits], Delta.refl c⟩
  | [q], k, c, hc, h => by
    obtain ⟨s, d⟩ := lastAdder_delta p (k := k) hc (h q (by simp))
    exact ⟨by simpa [addBits] using s, d⟩
  | q :: q' :: qs, k, c, hc, h => by
    obtain ⟨s, d⟩ := fullAdder_delta p (k := k) hc (h q (by simp))
    obtain ⟨s', d'⟩ := addBits_delta p (q' :: qs) (fullAdder p q.1 q.2 k c).1.2 (fullAdder p q.1 q.2 k c).2 (d.pos hc)
      fun u hu => h u (List.mem_cons_of_mem _ hu)
    have dd := d.trans d'
    have e : 5 + (5 * (q' :: qs).length - 3) = 5 * (q :: q' :: qs).length - 3 := by simp only [List.length_cons]; omega
    rw [e] at dd
    refine ⟨fun x hx => ?_, dd⟩
    simp only [addBits] at hx
    rcases List.mem_cons.1 hx with rfl | hx
    · exact s
    · exact s' x hx

theorem mapCtx_delta {α β : Type} {g : α → Ctx → β × Ctx} {A : α → Prop} {B : β → Prop} {v q : Nat}
    (h : ∀ {x : α} {c : Ctx}, A x → 0 < c.assign.length → B (g x c).1 ∧ Delta c (g x c).2 v q) :
    ∀ (xs : List α) (c : Ctx), 0 < c.assign.length → (∀ x ∈ xs, A x) →
      (∀ y ∈ (mapCtx g xs c).1, B y) ∧ Delta c (mapCtx g xs c).2 (xs.length * v) (xs.length * q)
  | [], c, _, _ => ⟨by simp [mapCtx], by simpa [mapCtx] using Delta.refl c⟩
  | x :: xs, c, hc, hx => by
    obtain ⟨b, d⟩ := h (hx x (by simp)) hc
    obtain ⟨b', d'⟩ := mapCtx_delta h xs (g x c).2 (d.pos hc) fun y hy => hx y (List.mem_cons_of_mem _ hy)
    have dd := d.trans d'
    have e1 : ∀ u : Nat, u + xs.length * u = (x :: xs).length * u := fun u => by
      rw [List.length_cons, Nat.add_mul, Nat.one_mul]; omega
    rw [e1, e1] at dd
    refine ⟨fun y hy => ?_, dd⟩
    simp only [mapCtx] at hy
    rcases List.mem_cons.1 hy with rfl | hy
    · exact b
    · exact b' y hy

/-! ### Words -/

/-- One of the two words has only variables. -/
def OneVars (a b : Word32) : Prop := AllVars a ∨ AllVars b

theorem OneVars.zip {a b : Word32} (h : OneVars a b) : ∀ q ∈ (a.zip b).toList, q.1.isConst = false ∨ q.2.isConst = false := by
  intro q hq
  rcases h with h | h
  · exact .inl (h _ (mem_zip_toList hq).1)
  · exact .inr (h _ (mem_zip_toList hq).2)

/-- R125: add32 appends 157 variables and 157 constraints when an operand has only variables. -/
theorem add32_delta (p : Nat) {a b : Word32} {c : Ctx} (hc : 0 < c.assign.length) (h : OneVars a b) :
    AllVars (add32 p a b c).1 ∧ Delta c (add32 p a b c).2 157 157 := by
  obtain ⟨s, d⟩ := addBits_delta p (a.zip b).toList (.const false) c hc h.zip
  refine ⟨fun x hx => s x (by rwa [add32_toList] at hx), ?_⟩
  have e : 5 * (a.zip b).toList.length - 3 = 157 := by simp
  rw [e] at d
  exact d

/-- R128: xor32 appends 32 variables and 32 constraints when an operand has only variables. -/
theorem xor32_delta (p : Nat) {a b : Word32} {c : Ctx} (hc : 0 < c.assign.length) (h : OneVars a b) :
    AllVars (xor32 p a b c).1 ∧ Delta c (xor32 p a b c).2 32 32 := by
  obtain ⟨s, d⟩ := mapCtx_delta (g := fun q : Signal × Signal => bxor p q.1 q.2)
    (A := fun q => q.1.isConst = false ∨ q.2.isConst = false) (B := fun x => x.isConst = false) (v := 1) (q := 1)
    (fun hq hc => gate_delta hc hq) (a.zip b).toList c hc h.zip
  refine ⟨fun x hx => s x (by rwa [xor32, mapVec_toList] at hx), ?_⟩
  have e : (a.zip b).toList.length * 1 = 32 := by simp
  rw [e] at d
  exact d

theorem rot_allVars {a : Word32} (h : AllVars a) (n : Fin 32) : AllVars (rot a n) := fun x hx => h x (rot_mem hx)

theorem qrLine_delta (p : Nat) {a b d : Word32} {c : Ctx} (hc : 0 < c.assign.length) (h : OneVars a b) (n : Fin 32) :
    (AllVars (qrLine p a b d n c).1.1 ∧ AllVars (qrLine p a b d n c).1.2) ∧ Delta c (qrLine p a b d n c).2 189 189 := by
  obtain ⟨s1, d1⟩ := add32_delta p hc h
  obtain ⟨s2, d2⟩ := xor32_delta p (a := d) (d1.pos hc) (.inr s1)
  exact ⟨⟨s1, rot_allVars s2 n⟩, d1.trans d2⟩

/-- R150: qr appends 756 variables and 756 constraints when one of its first two words has only variables. -/
theorem qrGadget_delta (p : Nat) {w : Quad Word32} {c : Ctx} (hc : 0 < c.assign.length) (h : OneVars w.a w.b) :
    (AllVars (qrGadget p w c).1.a ∧ AllVars (qrGadget p w c).1.b ∧ AllVars (qrGadget p w c).1.c ∧
      AllVars (qrGadget p w c).1.d) ∧ Delta c (qrGadget p w c).2 756 756 := by
  obtain ⟨⟨a1, d1⟩, e1⟩ := qrLine_delta p (d := w.d) hc h 16
  obtain ⟨⟨c2, b2⟩, e2⟩ := qrLine_delta p (a := w.c) (d := w.b) (e1.pos hc) (.inr d1) 12
  obtain ⟨⟨a3, d3⟩, e3⟩ := qrLine_delta p (d := (qrLine p w.a w.b w.d 16 c).1.2) (e2.pos (e1.pos hc)) (.inl a1 : OneVars _ (qrLine p w.c (qrLine p w.a w.b w.d 16 c).1.2 w.b 12 (qrLine p w.a w.b w.d 16 c).2).1.2) 8
  obtain ⟨⟨c4, b4⟩, e4⟩ := qrLine_delta p (d := (qrLine p w.c (qrLine p w.a w.b w.d 16 c).1.2 w.b 12 (qrLine p w.a w.b w.d 16 c).2).1.2) (e3.pos (e2.pos (e1.pos hc))) (.inl c2 : OneVars _ (qrLine p (qrLine p w.a w.b w.d 16 c).1.1
    (qrLine p w.c (qrLine p w.a w.b w.d 16 c).1.2 w.b 12 (qrLine p w.a w.b w.d 16 c).2).1.2
    (qrLine p w.a w.b w.d 16 c).1.2 8
    (qrLine p w.c (qrLine p w.a w.b w.d 16 c).1.2 w.b 12 (qrLine p w.a w.b w.d 16 c).2).2).1.2) 7
  exact ⟨⟨a3, b4, c4, d3⟩, e1.trans (e2.trans (e3.trans e4))⟩

/-! ### The working state -/

/-- Every word of a group after its quarter-round has only variables. -/
theorem qrAt_delta (p : Nat) (g : Quad (Fin 16)) {w : Vector Word32 16} {c : Ctx} (hc : 0 < c.assign.length)
    (h : OneVars w[g.a] w[g.b]) :
    (∀ i : Fin 16, (i = g.a ∨ i = g.b ∨ i = g.c ∨ i = g.d) ∨ AllVars w[i] → AllVars (qrAt p g w c).1[i]) ∧
      Delta c (qrAt p g w c).2 756 756 := by
  obtain ⟨⟨a, b, c', d⟩, e⟩ := qrGadget_delta p (w := ⟨w[g.a], w[g.b], w[g.c], w[g.d]⟩) hc h
  refine ⟨fun i hi => ?_, e⟩
  simp only [qrAt, Fin.getElem_fin, Vector.getElem_set]
  split
  · exact d
  split
  · exact c'
  split
  · exact b
  split
  · exact a
  · rcases hi with hi | hi
    · exfalso
      rcases hi with rfl | rfl | rfl | rfl <;> simp_all
    · exact hi

/-- Which words of the working state have only variables, before each group: enough for every group's first two. -/
def varsAfter : List (Quad (Fin 16)) → (Fin 16 → Bool) → Bool
  | [], v => (List.finRange 16).all v
  | g :: gs, v => (v g.a || v g.b) && varsAfter gs fun i => v i || i == g.a || i == g.b || i == g.c || i == g.d

theorem qrGroups_delta (p : Nat) : ∀ (gs : List (Quad (Fin 16))) (v : Fin 16 → Bool) (w : Vector Word32 16) (c : Ctx),
    0 < c.assign.length → (∀ i : Fin 16, v i = true → AllVars w[i]) → varsAfter gs v = true →
    (∀ i : Fin 16, AllVars (qrGroups p gs w c).1[i]) ∧ Delta c (qrGroups p gs w c).2 (gs.length * 756) (gs.length * 756)
  | [], v, w, c, _, hv, hg => by
    simp only [varsAfter, List.all_eq_true, List.mem_finRange, true_implies] at hg
    exact ⟨fun i => hv i (hg i), by simpa [qrGroups] using Delta.refl c⟩
  | g :: gs, v, w, c, hc, hv, hg => by
    simp only [varsAfter, Bool.and_eq_true, Bool.or_eq_true] at hg
    obtain ⟨s, d⟩ := qrAt_delta p g (w := w) hc (hg.1.imp (hv _) (hv _))
    have hv' : ∀ i : Fin 16, (v i || i == g.a || i == g.b || i == g.c || i == g.d) = true → AllVars (qrAt p g w c).1[i] := by
      intro i hi
      refine s i ?_
      simp only [Bool.or_eq_true, beq_iff_eq] at hi
      tauto
    obtain ⟨s', d'⟩ := qrGroups_delta p gs _ (qrAt p g w c).1 (qrAt p g w c).2 (d.pos hc) hv' hg.2
    have dd := d.trans d'
    have e : 756 + gs.length * 756 = (g :: gs).length * 756 := by rw [List.length_cons]; omega
    rw [e] at dd
    exact ⟨s', dd⟩

/-- R166: a double round appends 6048 of each when words 4 to 7 have only variables. -/
theorem dround_delta (p : Nat) {w : Vector Word32 16} {c : Ctx} (hc : 0 < c.assign.length)
    (h : ∀ i : Fin 16, 4 ≤ i.val → AllVars w[i]) :
    (∀ i : Fin 16, AllVars (droundGadget p w c).1[i]) ∧ Delta c (droundGadget p w c).2 6048 6048 :=
  qrGroups_delta p groups (fun i => decide (4 ≤ i.val)) w c hc (fun i hi => h i (by simpa using hi)) (by decide)

theorem rounds_delta (p : Nat) (n : Nat) : ∀ {w : Vector Word32 16} {c : Ctx}, 0 < c.assign.length →
    (∀ i : Fin 16, 4 ≤ i.val → AllVars w[i]) →
    (0 < n → ∀ i : Fin 16, AllVars (rounds p n w c).1[i]) ∧ Delta c (rounds p n w c).2 (n * 6048) (n * 6048) := by
  induction n with
  | zero => intro w c hc h; exact ⟨fun h => absurd h (by omega), by simpa [rounds] using Delta.refl c⟩
  | succ n ih =>
    intro w c hc h
    obtain ⟨s, d⟩ := dround_delta p hc h
    obtain ⟨s', d'⟩ := ih (d.pos hc) fun i _ => s i
    rw [rounds_succ]
    have dd := d.trans d'
    have e : 6048 + n * 6048 = (n + 1) * 6048 := by omega
    rw [e] at dd
    refine ⟨fun _ => ?_, dd⟩
    cases n with
    | zero => intro i; rw [rounds]; exact s i
    | succ n => exact s' (by omega)

/-- R168: the permutation appends 60480 of each. -/
theorem perm_delta (p : Nat) {w : Vector Word32 16} {c : Ctx} (hc : 0 < c.assign.length)
    (h : ∀ i : Fin 16, 4 ≤ i.val → AllVars w[i]) :
    (∀ i : Fin 16, AllVars (permGadget p w c).1[i]) ∧ Delta c (permGadget p w c).2 60480 60480 := by
  obtain ⟨s, d⟩ := rounds_delta p 10 hc h
  exact ⟨s (by omega), d⟩

/-- R169: combine appends 2512 of each when each pair has a word of only variables. -/
theorem combine_delta (p : Nat) {o w : Vector Word32 16} {c : Ctx} (hc : 0 < c.assign.length)
    (h : ∀ i : Fin 16, OneVars o[i] w[i]) :
    (∀ i : Fin 16, AllVars (combineGadget p o w c).1[i]) ∧ Delta c (combineGadget p o w c).2 2512 2512 := by
  obtain ⟨s, d⟩ := mapCtx_delta (g := fun q : Word32 × Word32 => add32 p q.1 q.2)
    (A := fun q => OneVars q.1 q.2) (B := AllVars) (v := 157) (q := 157)
    (fun hq hc => add32_delta p hc hq) (o.zip w).toList c hc (fun q hq => by
      obtain ⟨i, hi, rfl⟩ := List.mem_iff_getElem.1 hq
      have hi' : i < 16 := by simpa using hi
      simpa using h ⟨i, hi'⟩)
  have e : (o.zip w).toList.length * 157 = 2512 := by simp
  rw [e] at d
  refine ⟨fun i => s _ ?_, d⟩
  rw [← mapVec_toList]
  exact List.mem_iff_getElem.2 ⟨i.val, by simp, by simp [combineGadget]⟩

/-! ### Decompositions -/

theorem allocBits_delta (p : Nat) : ∀ (bs : List Bool) (c : Ctx), Delta c (allocBits p bs c).2 bs.length bs.length
  | [], c => Delta.refl c
  | b :: bs, c => by
    have d := allocBits_delta p bs ((c.alloc (some b.toNat)).2.enforce (booleanity p c.assign.length))
    have d1 : Delta c ((c.alloc (some b.toNat)).2.enforce (booleanity p c.assign.length)) 1 1 := by
      simp [Delta, Ctx.enforce, alloc_eq]
    have dd := d1.trans d
    rw [Nat.add_comm] at dd
    exact dd

/-- R101: what one decomposition appends. -/
theorem decomposeBits_delta (P : Params) (L : LC) (N : Nat) {c : Ctx} (hc : 0 < c.assign.length) (hm : 34 ≤ P.m) :
    AllVars (decomposeBits P L N c).1 ∧ Delta c (decomposeBits P L N c).2 P.decVars P.decCons := by
  constructor
  · intro x hx
    obtain ⟨k, hk, rfl⟩ := mem_word.1 hx
    rw [decomposeBits_word P L N c k hk hm]
    simp only [Signal.isConst, beq_eq_false_iff_ne]
    omega
  · have d := allocBits_delta P.p (natBits P.m N) c
    rw [natBits_length] at d
    unfold decomposeBits Params.decVars Params.decCons
    cases hcan : P.canonical with
    | false =>
      have da := d.1
      have dc := d.2
      simp only [Delta, Bool.false_eq_true, if_false, Ctx.enforce, List.length_append, List.length_cons, List.length_nil]
      omega
    | true =>
      have da := d.1
      have dc := d.2
      simp only [Delta, if_true, enforceLtP, allocAll_eq, Ctx.enforce, List.length_append, List.length_map, auxValues_length,
        List.length_cons, List.length_nil]
      omega

/-- What a run of decompositions appends. -/
theorem decomposeAll_delta (P : Params) (hm : 34 ≤ P.m) {f : Vector FReg 128} : ∀ (is : List FIdx) {c c' : Ctx}
    {ws : List Word32}, 0 < c.assign.length → decomposeAll P f is c = .ok (ws, c') →
    (∀ w ∈ ws, AllVars w) ∧ ws.length = is.length ∧ Delta c c' (is.length * P.decVars) (is.length * P.decCons)
  | [], c, _, _, _, hd => by cases hd; exact ⟨by simp, rfl, by simpa using Delta.refl c⟩
  | i :: is, c, c', ws, hc, hd => by
    rcases checkF_cases f i with ⟨L, N, e, _⟩ | ⟨e, _⟩
    · simp only [decomposeAll, decompose_some P e] at hd
      cases e2 : decomposeAll P f is (decomposeBits P L N c).2 with
      | error e => rw [e2] at hd; cases hd
      | ok r =>
        obtain ⟨ws2, c2⟩ := r
        simp only [e2, Except.ok.injEq, Prod.mk.injEq] at hd
        obtain ⟨rfl, rfl⟩ := hd
        obtain ⟨s, d⟩ := decomposeBits_delta P L N hc hm
        obtain ⟨s', hl, d'⟩ := decomposeAll_delta P hm is (d.pos hc) e2
        have dd := d.trans d'
        have e1 : ∀ u : Nat, u + is.length * u = (i :: is).length * u := fun u => by
          rw [List.length_cons, Nat.add_mul, Nat.one_mul]; omega
        rw [e1, e1] at dd
        refine ⟨fun w hw => ?_, by simp [hl], dd⟩
        rcases List.mem_cons.1 hw with rfl | hw
        · exact s
        · exact s' w hw
    · simp only [decomposeAll, decompose_none P e] at hd
      cases hd

/-- R162: what a layout appends; words 4 to 15 have only variables. -/
theorem layout_delta (P : Params) (hm : 34 ≤ P.m) {f : Vector FReg 128} {fs : FIdx} {c c' : Ctx}
    {w : Vector Word32 16} (hc : 0 < c.assign.length) (h : layoutGadget P f fs c = .ok (w, c')) :
    (∀ i : Fin 16, 4 ≤ i.val → AllVars w[i]) ∧ Delta c c' (12 * P.decVars) (12 * P.decCons) := by
  simp only [layoutGadget] at h
  cases e : decomposeAll P f (layoutReads fs) c with
  | error e' => rw [e] at h; cases h
  | ok r =>
    obtain ⟨ws, c1⟩ := r
    rw [e] at h
    cases h
    obtain ⟨s, hl, d⟩ := decomposeAll_delta P hm _ hc e
    refine ⟨fun i hi => ?_, d⟩
    have hl' : ws.length = 12 := hl
    have h4 : layoutConstants.length = 4 := rfl
    have hi2 := i.isLt
    simp only [Fin.getElem_fin]
    rw [toWords_get i.val hi2 (by simp only [List.length_append, List.length_map]; omega),
      List.getElem_append_right (by simp only [List.length_map]; omega)]
    exact s _ (List.getElem_mem _)

/-- R171: what a block appends. -/
theorem block_delta (P : Params) (hm : 34 ≤ P.m) {f : Vector FReg 128} {fs : FIdx} {c : Ctx} {b : BlockResult}
    (hc : 0 < c.assign.length) (h : blockGadget P f fs c = .ok b) :
    (∀ i : Fin 16, AllVars b.keystream[i]) ∧
      Delta c b.ctx (12 * P.decVars + 60480 + 2512) (12 * P.decCons + 60480 + 2512) := by
  rw [blockGadget_eq] at h
  cases e : layoutGadget P f fs c with
  | error e' => rw [e] at h; cases h
  | ok r =>
    obtain ⟨o, c1⟩ := r
    rw [e] at h
    cases h
    obtain ⟨s1, d1⟩ := layout_delta P hm hc e
    obtain ⟨s2, d2⟩ := perm_delta P.p (d1.pos hc) s1
    obtain ⟨s3, d3⟩ := combine_delta P.p (o := o) (d2.pos (d1.pos hc)) fun i => .inr (s2 i)
    exact ⟨s3, (d1.trans d2).trans d3⟩

/-- R191: what the ciphertext words append. -/
theorem cipher_delta (P : Params) (hm : 34 ≤ P.m) {f : Vector FReg 128} : ∀ (qs : List (FIdx × Word32)) {c c' : Ctx}
    {ws : List Word32}, 0 < c.assign.length → cipherWords P f qs c = .ok (ws, c') →
    Delta c c' (qs.length * (P.decVars + 32)) (qs.length * (P.decCons + 32))
  | [], c, _, _, _, hd => by cases hd; simpa using Delta.refl c
  | q :: qs, c, c', ws, hc, hd => by
    rcases checkF_cases f q.1 with ⟨L, N, e, _⟩ | ⟨e, _⟩
    · simp only [cipherWords, decompose_some P e] at hd
      cases e2 : cipherWords P f qs (xor32 P.p (decomposeBits P L N c).1 q.2 (decomposeBits P L N c).2).2 with
      | error e => rw [e2] at hd; cases hd
      | ok r =>
        obtain ⟨ws2, c2⟩ := r
        simp only [e2, Except.ok.injEq, Prod.mk.injEq] at hd
        obtain ⟨rfl, rfl⟩ := hd
        obtain ⟨s, d⟩ := decomposeBits_delta P L N hc hm
        obtain ⟨_, dx⟩ := xor32_delta P.p (b := q.2) (d.pos hc) (.inl s)
        have dd := (d.trans dx).trans (cipher_delta P hm qs (dx.pos (d.pos hc)) e2)
        have e1 : ∀ u : Nat, u + qs.length * u = (q :: qs).length * u := fun u => by
          rw [List.length_cons, Nat.add_mul, Nat.one_mul]; omega
        rw [e1, e1] at dd
        exact dd
    · simp only [cipherWords, decompose_none P e] at hd
      cases hd

end Sys2Proof.Machine
end

