-- ==== Sys2Proof/Laws/Decode.lean ====
section
/-! SUPPORT. Bit fields of a command word: the arithmetic that decoding and encoding are inverse by. -/

namespace Sys2Proof

/-- A field of a word given as a number. -/
theorem bitField_ofNat {n : Nat} (h : n < 2 ^ 32) (lo width : Nat) :
    bitField (BitVec.ofNat 32 n) lo width = n / 2 ^ lo % 2 ^ width := by
  rw [bitField, BitVec.toNat_ofNat, Nat.mod_eq_of_lt h]

theorem opcode_lt (i : Instr) : i.opcode.toNat < 2 ^ 6 := i.opcode.isLt

/-- The operand fields fill bits 25:0 at most. -/
theorem operandBits_lt (i : Instr) : i.operandBits < 2 ^ 26 := by
  cases i <;> simp only [Instr.operandBits] <;> omega

theorem encode_lt (i : Instr) : i.opcode.toNat * 2 ^ 26 + i.operandBits < 2 ^ 32 := by
  have h1 := opcode_lt i
  have h2 := operandBits_lt i
  omega

/-- The encoded word as a number. -/
theorem encode_toNat (i : Instr) : (encode i).toNat = i.opcode.toNat * 2 ^ 26 + i.operandBits := by
  rw [encode, BitVec.toNat_ofNat, Nat.mod_eq_of_lt (encode_lt i)]

/-- A field of the encoded word below the opcode. -/
theorem bitField_encode (i : Instr) (lo width : Nat) :
    bitField (encode i) lo width = (i.opcode.toNat * 2 ^ 26 + i.operandBits) / 2 ^ lo % 2 ^ width := by
  rw [bitField, encode_toNat]

/-- R71: the opcode field of the encoded word. -/
theorem bitField_encode_opcode (i : Instr) : bitField (encode i) 26 6 = i.opcode.toNat := by
  rw [bitField_encode]
  have h1 := opcode_lt i
  have h2 := operandBits_lt i
  omega

/-- A 6-bit field that holds a register index names that register. -/
theorem rField_eq {w : Word} {lo : Nat} {j : RIdx} (h : bitField w lo 6 = j.val) : rField w lo = j := by
  apply Fin.ext
  simp [rField, h, Fin.ofNat]

/-- A 7-bit field that holds a register index names that register. -/
theorem fField_eq {w : Word} {lo : Nat} {i : FIdx} (h : bitField w lo 7 = i.val) : fField w lo = i := by
  apply Fin.ext
  simp [fField, h, Fin.ofNat]

/-- A 5-bit field that holds an amount is that amount. -/
theorem nField_eq {w : Word} {n : Fin 32} (h : bitField w 0 5 = n.val) : nField w = n := by
  apply Fin.ext
  simp [nField, h, Fin.ofNat]

/-! ### The rows of the decoder (R76) -/

section
variable {w : Word}

theorem decode_decompose (h : bitField w 26 6 = 1) : decode w =
    ifZero w 0 13 (.ok (.decompose (rField w 20) (fField w 13))) := by
  unfold decode; simp only [h]
theorem decode_recompose (h : bitField w 26 6 = 2) : decode w =
    ifZero w 0 13 (.ok (.recompose (fField w 13) (rField w 20))) := by
  unfold decode; simp only [h]
theorem decode_mov (h : bitField w 26 6 = 3) : decode w =
    ifZero w 0 14 (.ok (.mov (rField w 20) (rField w 14))) := by
  unfold decode; simp only [h]
theorem decode_add (h : bitField w 26 6 = 4) : decode w =
    ifZero w 0 8 (.ok (.add (rField w 20) (rField w 14) (rField w 8))) := by
  unfold decode; simp only [h]
theorem decode_xor (h : bitField w 26 6 = 5) : decode w =
    ifZero w 0 8 (.ok (.xor (rField w 20) (rField w 14) (rField w 8))) := by
  unfold decode; simp only [h]
theorem decode_rotl (h : bitField w 26 6 = 6) : decode w =
    ifZero w 5 9 (.ok (.rotl (rField w 20) (rField w 14) (nField w))) := by
  unfold decode; simp only [h]
theorem decode_qr (h : bitField w 26 6 = 8) : decode w =
    ifZero w 0 2 (checkRegisters (.qr (rField w 20) (rField w 14) (rField w 8) (rField w 2))) := by
  unfold decode; simp only [h]
theorem decode_dround (h : bitField w 26 6 = 9) : decode w =
    ifZero w 0 26 (.ok .dround) := by
  unfold decode; simp only [h]
theorem decode_layout (h : bitField w 26 6 = 10) : decode w =
    ifZero w 0 19 (.ok (.layout (fField w 19))) := by
  unfold decode; simp only [h]
theorem decode_snap (h : bitField w 26 6 = 11) : decode w =
    ifZero w 0 26 (.ok .snap) := by
  unfold decode; simp only [h]
theorem decode_perm (h : bitField w 26 6 = 12) : decode w =
    ifZero w 0 26 (.ok .perm) := by
  unfold decode; simp only [h]
theorem decode_combine (h : bitField w 26 6 = 13) : decode w =
    ifZero w 0 26 (.ok .combine) := by
  unfold decode; simp only [h]
theorem decode_block (h : bitField w 26 6 = 14) : decode w =
    ifZero w 0 19 (.ok (.block (fField w 19))) := by
  unfold decode; simp only [h]
theorem decode_step (h : bitField w 26 6 = 15) : decode w =
    ifZero w 0 5 (.ok (.step (fField w 19) (fField w 12) (fField w 5))) := by
  unfold decode; simp only [h]

/-- R77: every other opcode is reserved. -/
theorem decode_reserved (h : bitField w 26 6 = 0 ∨ bitField w 26 6 = 7 ∨ 16 ≤ bitField w 26 6) :
    decode w = .error .reservedOpcode := by
  unfold decode
  split <;> first | rfl | omega

end

/-- R71: the opcode field as a slice of the word. -/
theorem opcodeField_eq (w : Word) : opcodeField w = w.extractLsb' 26 6 := by
  apply BitVec.eq_of_toNat_eq
  simp [opcodeField, bitField, Nat.shiftRight_eq_div_pow]

/-- R76: a word that decodes has its command's OPCODE. -/
theorem decode_opcode {w : Word} {i : Instr} (h : decode w = .ok i) : i.opcode = opcodeField w := by
  have hb : bitField w 26 6 < 64 := Nat.mod_lt _ (by decide)
  have key : bitField w 26 6 = i.opcode.toNat := by
    unfold decode at h
    split at h <;> (try simp only [ifZero, checkRegisters] at h) <;> (try split at h) <;> (try split at h) <;>
      cases h <;> simpa [Instr.opcode]
  apply BitVec.eq_of_toNat_eq
  simp [opcodeField, key]

end Sys2Proof
end

