-- ==== Sys2Proof/Laws/Emission.lean ====
section
/-! SUPPORT. What every emitting function has in common, in every context, well-formed or not: it only appends, keeps the
step count, and does not look at it (R14, R29). -/

namespace Sys2Proof.Machine

/-- The same context with another step count. -/
def Ctx.atStep (c : Ctx) (n : Nat) : Ctx := { c with nstep := n }

@[simp] theorem Ctx.atStep_assign (c : Ctx) (n : Nat) : (c.atStep n).assign = c.assign := rfl
@[simp] theorem Ctx.atStep_cons (c : Ctx) (n : Nat) : (c.atStep n).cons = c.cons := rfl
@[simp] theorem Ctx.atStep_nstep (c : Ctx) (n : Nat) : (c.atStep n).nstep = n := rfl
@[simp] theorem Ctx.atStep_self (c : Ctx) : c.atStep c.nstep = c := rfl
@[simp] theorem Ctx.atStep_atStep (c : Ctx) (n k : Nat) : (c.atStep n).atStep k = c.atStep k := rfl
theorem Ctx.atStep_bit (c : Ctx) (n : Nat) : (c.atStep n).bit = c.bit := by
  funext x; cases x <;> rfl
theorem Ctx.atStep_wordVal (c : Ctx) (n : Nat) (w : Word32) : (c.atStep n).wordVal w = c.wordVal w := by
  unfold Ctx.wordVal; rw [Ctx.atStep_bit]

/-- No variable of the context is ABSENT. -/
def Ctx.Present (c : Ctx) : Prop := none ∉ c.assign

/-- An emitting function: it appends, gives every variable a value, keeps the step count, and is the same whatever the
step count is. -/
structure Emits {α : Type} (g : Ctx → α × Ctx) : Prop where
  ext : ∀ c : Ctx, c.Extends (g c).2
  nstep : ∀ c : Ctx, (g c).2.nstep = c.nstep
  present : ∀ c : Ctx, c.Present → (g c).2.Present
  steady : ∀ (c : Ctx) (n : Nat), g (c.atStep n) = ((g c).1, (g c).2.atStep n)

theorem Emits.pure {α : Type} (a : α) : Emits fun c => (a, c) :=
  ⟨fun c => Ctx.Extends.refl c, fun _ => rfl, fun _ h => h, fun _ _ => rfl⟩

theorem Emits.bind {α β : Type} {g : Ctx → α × Ctx} {h : α → Ctx → β × Ctx} (hg : Emits g) (hh : ∀ a, Emits (h a)) :
    Emits fun c => h (g c).1 (g c).2 :=
  ⟨fun c => (hg.ext c).trans ((hh _).ext _), fun c => ((hh _).nstep _).trans (hg.nstep c),
    fun c hc => (hh _).present _ (hg.present c hc), fun c n => by simp only [hg.steady, (hh _).steady]⟩

theorem Emits.map {α β : Type} {g : Ctx → α × Ctx} (f : α → β) (hg : Emits g) : Emits fun c => (f (g c).1, (g c).2) :=
  hg.bind fun a => Emits.pure (f a)

theorem alloc_emits (v : Nat) : Emits (Ctx.alloc (some v)) :=
  ⟨fun c => ⟨⟨[some v], rfl⟩, [], by simp [Ctx.alloc]⟩, fun _ => rfl, fun c hc => by
    simpa [Ctx.Present, Ctx.alloc] using hc, fun _ _ => rfl⟩

theorem enforce_emits {α : Type} (a : α) (q : Constraint) : Emits fun c => (a, c.enforce q) :=
  ⟨fun c => ⟨⟨[], by simp [Ctx.enforce]⟩, [q], rfl⟩, fun _ => rfl, fun _ h => h, fun _ _ => rfl⟩

/-! ### Gates and words -/

theorem gate_emits (op : Bool → Bool → Bool) (rel : LC → LC → LC → Constraint) (x y : Signal) :
    Emits (gate op rel x y) := by
  refine ⟨fun c => ?_, fun c => ?_, fun c hc => ?_, fun c n => ?_⟩
  · unfold gate
    split
    · exact Ctx.Extends.refl c
    · exact ((alloc_emits _).ext c).trans ((enforce_emits () _).ext _)
  · unfold gate
    split <;> rfl
  · unfold gate
    split
    · exact hc
    · exact (alloc_emits _).present c hc
  · unfold gate
    rw [Ctx.atStep_bit]
    split <;> rfl

theorem fullAdder_emits (p : Nat) (x y k : Signal) : Emits (fullAdder p x y k) :=
  (gate_emits _ _ x y).bind fun t => (gate_emits _ _ t k).bind fun s => (gate_emits _ _ x y).bind fun g =>
    (gate_emits _ _ t k).bind fun h => (gate_emits _ _ g h).map fun c => (s, c)

theorem lastAdder_emits (p : Nat) (x y k : Signal) : Emits (lastAdder p x y k) :=
  (gate_emits _ _ x y).bind fun t => gate_emits _ _ t k

theorem addBits_emits (p : Nat) : ∀ (qs : List (Signal × Signal)) (k : Signal), Emits (addBits p qs k)
  | [], _ => Emits.pure []
  | [q], k => (lastAdder_emits p q.1 q.2 k).map fun s => [s]
  | q :: q' :: qs, k => (fullAdder_emits p q.1 q.2 k).bind fun a => (addBits_emits p (q' :: qs) a.2).map fun r => a.1 :: r

theorem mapCtx_emits {α β : Type} {g : α → Ctx → β × Ctx} (h : ∀ x, Emits (g x)) : ∀ xs : List α, Emits (mapCtx g xs)
  | [] => Emits.pure []
  | x :: xs => (h x).bind fun y => (mapCtx_emits h xs).map fun r => y :: r

/-- Emission of a vector, given as that of its list. -/
theorem Emits.ofList {α : Type} {n : Nat} {g : Ctx → Vector α n × Ctx} {l : Ctx → List α × Ctx} (hl : Emits l)
    (h : ∀ c, (g c).1.toList = (l c).1 ∧ (g c).2 = (l c).2) : Emits g := by
  refine ⟨fun c => ?_, fun c => ?_, fun c hc => ?_, fun c k => ?_⟩
  · rw [(h c).2]; exact hl.ext c
  · rw [(h c).2]; exact hl.nstep c
  · rw [(h c).2]; exact hl.present c hc
  · refine Prod.ext ?_ ?_
    · apply Vector.toList_inj.1
      show (g (c.atStep k)).1.toList = (g c).1.toList
      rw [(h _).1, (h _).1, hl.steady]
    · show (g (c.atStep k)).2 = (g c).2.atStep k
      rw [(h _).2, (h _).2, hl.steady]

theorem add32_emits (p : Nat) (a b : Word32) : Emits (add32 p a b) :=
  (addBits_emits p (a.zip b).toList (.const false)).ofList fun c => ⟨add32_toList p a b c, rfl⟩

theorem mapVec_emits {α β : Type} {n : Nat} {g : α → Ctx → β × Ctx} (h : ∀ x, Emits (g x)) (v : Vector α n) :
    Emits (mapVec g v) :=
  (mapCtx_emits h v.toList).ofList fun _ => ⟨mapVec_toList .., rfl⟩

theorem xor32_emits (p : Nat) (a b : Word32) : Emits (xor32 p a b) :=
  mapVec_emits (fun q : Signal × Signal => gate_emits _ _ q.1 q.2) _

/-! ### Rounds -/

theorem qrLine_emits (p : Nat) (x y z : Word32) (n : Fin 32) : Emits (qrLine p x y z n) :=
  (add32_emits p x y).bind fun a => (xor32_emits p z a).map fun d => (a, rot d n)

theorem qrGadget_emits (p : Nat) (w : Quad Word32) : Emits (qrGadget p w) := by
  refine ⟨fun c => ?_, fun c => ?_, fun c hc => ?_, fun c n => ?_⟩
  · exact ((qrLine_emits p _ _ _ 16).ext c).trans (((qrLine_emits p _ _ _ 12).ext _).trans
      (((qrLine_emits p _ _ _ 8).ext _).trans ((qrLine_emits p _ _ _ 7).ext _)))
  · exact ((qrLine_emits p _ _ _ 7).nstep _).trans (((qrLine_emits p _ _ _ 8).nstep _).trans
      (((qrLine_emits p _ _ _ 12).nstep _).trans ((qrLine_emits p _ _ _ 16).nstep c)))
  · exact (qrLine_emits p _ _ _ 7).present _ ((qrLine_emits p _ _ _ 8).present _
      ((qrLine_emits p _ _ _ 12).present _ ((qrLine_emits p _ _ _ 16).present c hc)))
  · simp only [qrGadget, (qrLine_emits p _ _ _ _).steady]

theorem qrAt_emits (p : Nat) (g : Quad (Fin 16)) (w : Vector Word32 16) : Emits (qrAt p g w) :=
  ⟨fun c => (qrGadget_emits p _).ext c, fun c => (qrGadget_emits p _).nstep c,
    fun c hc => (qrGadget_emits p _).present c hc, fun c n => by simp only [qrAt, (qrGadget_emits p _).steady]⟩

theorem qrGroups_emits (p : Nat) : ∀ (gs : List (Quad (Fin 16))) (w : Vector Word32 16), Emits (qrGroups p gs w)
  | [], w => Emits.pure w
  | g :: gs, w => (qrAt_emits p g w).bind fun v => qrGroups_emits p gs v

theorem rounds_emits (p : Nat) (n : Nat) : ∀ w : Vector Word32 16, Emits (rounds p n w) := by
  induction n with
  | zero => intro w; exact Emits.pure w
  | succ n ih => exact fun w => (qrGroups_emits p groups w).bind fun v => ih v

theorem permGadget_emits (p : Nat) (w : Vector Word32 16) : Emits (permGadget p w) := rounds_emits p 10 w

theorem combineGadget_emits (p : Nat) (o w : Vector Word32 16) : Emits (combineGadget p o w) :=
  mapVec_emits (fun q : Word32 × Word32 => add32_emits p q.1 q.2) _

/-! ### Decompositions -/

theorem allocBits_emits (p : Nat) : ∀ bs : List Bool, Emits (allocBits p bs)
  | [] => Emits.pure []
  | b :: bs => (alloc_emits b.toNat).bind fun k => (enforce_emits () (booleanity p k)).bind fun _ =>
    (allocBits_emits p bs).map fun r => k :: r

theorem allocAll_emits : ∀ vs : List Nat, Emits (Ctx.allocAll (vs.map some))
  | [] => Emits.pure []
  | v :: vs => (alloc_emits v).bind fun k => (allocAll_emits vs).map fun r => k :: r

theorem enforceAll_emits {α : Type} (a : α) (qs : List Constraint) :
    Emits fun c => (a, { c with cons := c.cons ++ qs }) :=
  ⟨fun c => ⟨⟨[], by simp⟩, qs, rfl⟩, fun _ => rfl, fun _ h => h, fun _ _ => rfl⟩

theorem enforceLtP_emits {α : Type} (a : α) (P : Params) (bits : List Bool) (ks : List Nat) :
    Emits fun c => (a, enforceLtP P bits ks c) :=
  (allocAll_emits (auxValues P.p P.ltP.aux (1 :: bits.map Bool.toNat))).bind fun r =>
    enforceAll_emits a (P.ltP.cons.map (renameCons (0 :: ks ++ r)))

theorem decomposeBits_emits (P : Params) (L : LC) (N : Nat) : Emits (decomposeBits P L N) := by
  unfold decomposeBits
  refine (allocBits_emits P.p (natBits P.m N)).bind fun ks =>
    (enforce_emits () ⟨LC.weighted P.p 0 (ks.map LC.single), LC.one, L⟩).bind (h := fun _ c =>
      (Vector.ofFn fun k : Fin 32 => Signal.var (ks.getD k.val 0),
        if P.canonical then enforceLtP P (natBits P.m N) ks c else c)) fun _ => ?_
  cases P.canonical with
  | false => exact Emits.pure _
  | true => exact enforceLtP_emits _ P _ ks

/-- An emitting function that may fail. -/
structure EmitsE {α : Type} (g : Ctx → Except Err (α × Ctx)) : Prop where
  ok : ∀ {c : Ctx} {r : α × Ctx}, g c = .ok r →
    c.Extends r.2 ∧ r.2.nstep = c.nstep ∧ (c.Present → r.2.Present) ∧ ∀ n : Nat, g (c.atStep n) = .ok (r.1, r.2.atStep n)
  error : ∀ {c : Ctx} {e : Err}, g c = .error e → ∀ n : Nat, g (c.atStep n) = .error e

theorem Emits.toE {α : Type} {g : Ctx → α × Ctx} (h : Emits g) : EmitsE fun c => .ok (g c) where
  ok := by
    intro c r e
    cases e
    exact ⟨h.ext c, h.nstep c, h.present c, fun n => congrArg Except.ok (h.steady c n)⟩
  error := by
    intro c e' e
    cases e

/-- One emitting function that may fail after another. -/
def andThen {α β : Type} (g : Ctx → Except Err (α × Ctx)) (h : α → Ctx → Except Err (β × Ctx)) (c : Ctx) :
    Except Err (β × Ctx) :=
  match g c with
  | .error e => .error e
  | .ok r => h r.1 r.2

theorem EmitsE.bind {α β : Type} {g : Ctx → Except Err (α × Ctx)} {h : α → Ctx → Except Err (β × Ctx)} (hg : EmitsE g)
    (hh : ∀ a, EmitsE (h a)) : EmitsE (andThen g h) where
  ok := by
    intro c r e
    unfold andThen at e ⊢
    cases e1 : g c with
    | error e' => rw [e1] at e; cases e
    | ok r1 =>
      rw [e1] at e
      obtain ⟨x1, n1, p1, s1⟩ := hg.ok e1
      obtain ⟨x2, n2, p2, s2⟩ := (hh _).ok e
      exact ⟨x1.trans x2, n2.trans n1, fun hc => p2 (p1 hc), fun n => by rw [s1]; exact s2 n⟩
  error := by
    intro c e' e n
    unfold andThen at e ⊢
    cases e1 : g c with
    | error e'' =>
      rw [e1] at e
      rw [hg.error e1]
      exact e
    | ok r1 =>
      rw [e1] at e
      obtain ⟨_, _, _, s1⟩ := hg.ok e1
      rw [s1]
      exact (hh _).error e n

theorem decompose_emits (P : Params) (f : Vector FReg 128) (i : FIdx) : EmitsE (decompose P f i) := by
  have e : decompose P f i = fun c => match checkF f i with
    | .error e => .error e
    | .ok (L, N) => .ok (decomposeBits P L N c) := rfl
  rw [e]
  cases checkF f i with
  | error e => exact ⟨fun h => (nomatch h), fun h _ => h⟩
  | ok r => exact (decomposeBits_emits P r.1 r.2).toE

theorem decomposeAll_emits (P : Params) (f : Vector FReg 128) : ∀ is : List FIdx, EmitsE (decomposeAll P f is)
  | [] => by
    have e : decomposeAll P f [] = fun c => .ok ([], c) := by funext c; rw [decomposeAll]
    rw [e]
    exact (Emits.pure []).toE
  | i :: is => by
    have e : decomposeAll P f (i :: is) = andThen (decompose P f i) fun w => andThen (decomposeAll P f is)
        fun ws c => .ok (w :: ws, c) := by
      funext c
      rw [decomposeAll, andThen]
      cases decompose P f i c with
      | error e => rfl
      | ok r => simp only [andThen]; cases decomposeAll P f is r.2 <;> rfl
    rw [e]
    exact (decompose_emits P f i).bind fun w => (decomposeAll_emits P f is).bind fun ws => (Emits.pure (w :: ws)).toE

theorem layoutGadget_emits (P : Params) (f : Vector FReg 128) (fs : FIdx) : EmitsE (layoutGadget P f fs) := by
  have e : layoutGadget P f fs = andThen (decomposeAll P f (layoutReads fs))
      fun ws c => .ok (toWords 16 (layoutConstants.map constWord ++ ws), c) := by
    funext c
    rw [layoutGadget, andThen]
    cases decomposeAll P f (layoutReads fs) c <;> rfl
  rw [e]
  exact (decomposeAll_emits P f (layoutReads fs)).bind fun ws =>
    (Emits.pure (toWords 16 (layoutConstants.map constWord ++ ws))).toE

/-- What a block leaves, with its context beside it. -/
def blockPair (P : Params) (f : Vector FReg 128) (fs : FIdx) (c : Ctx) :
    Except Err ((Vector Word32 16 × Vector Word32 16) × Ctx) :=
  match blockGadget P f fs c with
  | .error e => .error e
  | .ok b => .ok ((b.keystream, b.layout), b.ctx)

theorem permCombine_emits (p : Nat) (o : Vector Word32 16) : Emits fun c =>
    (((combineGadget p o (permGadget p o c).1 (permGadget p o c).2).1, o),
      (combineGadget p o (permGadget p o c).1 (permGadget p o c).2).2) where
  ext := fun c => ((permGadget_emits p o).ext c).trans ((combineGadget_emits p o _).ext _)
  nstep := fun c => ((combineGadget_emits p o _).nstep _).trans ((permGadget_emits p o).nstep c)
  present := fun c hc => (combineGadget_emits p o _).present _ ((permGadget_emits p o).present c hc)
  steady := fun c n => by rw [(permGadget_emits p o).steady, (combineGadget_emits p o _).steady]

theorem blockPair_emits (P : Params) (f : Vector FReg 128) (fs : FIdx) : EmitsE (blockPair P f fs) := by
  have e : blockPair P f fs = andThen (layoutGadget P f fs) fun o c =>
      .ok (((combineGadget P.p o (permGadget P.p o c).1 (permGadget P.p o c).2).1, o),
        (combineGadget P.p o (permGadget P.p o c).1 (permGadget P.p o c).2).2) := by
    funext c
    rw [blockPair, blockGadget_eq, andThen]
    cases layoutGadget P f fs c <;> rfl
  rw [e]
  exact (layoutGadget_emits P f fs).bind fun o => (permCombine_emits P.p o).toE

theorem cipherWords_emits (P : Params) (f : Vector FReg 128) : ∀ qs : List (FIdx × Word32), EmitsE (cipherWords P f qs)
  | [] => by
    have e : cipherWords P f [] = fun c => .ok ([], c) := by funext c; rw [cipherWords]
    rw [e]
    exact (Emits.pure []).toE
  | q :: qs => by
    have e : cipherWords P f (q :: qs) = andThen (decompose P f q.1) fun w => andThen (fun c => .ok (xor32 P.p w q.2 c))
        fun x => andThen (cipherWords P f qs) fun ws c => .ok (x :: ws, c) := by
      funext c
      rw [cipherWords, andThen]
      cases decompose P f q.1 c with
      | error e => rfl
      | ok r => simp only [andThen]; cases cipherWords P f qs (xor32 P.p r.1 q.2 r.2).2 <;> rfl
    rw [e]
    exact (decompose_emits P f q.1).bind fun w => (xor32_emits P.p w q.2).toE.bind fun x =>
      (cipherWords_emits P f qs).bind fun ws => (Emits.pure (x :: ws)).toE

end Sys2Proof.Machine
end

