-- ==== Sys2Proof/Laws/Progress.lean ====
section
/-! SUPPORT. What every command that succeeds does to a well-formed state, said once: the context grows, registers stay
well-formed, words stay boolean under every satisfying assignment, and nothing else changes. -/

namespace Sys2Proof.Machine

/-- Every written word register of the state is boolean under the assignment. -/
def State.ZBoolAll (s : State) (z : List Nat) : Prop := ∀ (j : RIdx) (w : Word32), s.r[j] = .written w → ZBool z w

/-- What a successful command leaves. -/
structure Progress (s t : State) : Prop where
  params : t.params = s.params
  status : t.status = s.status
  pending : t.pending = s.pending
  replies : t.replies = s.replies
  ext : s.ctx.Extends t.ctx
  ok : t.ctx.Ok s.params.p
  complete : s.ctx.Complete s.params.p → t.ctx.Complete s.params.p
  nstep : t.ctx.nstep = s.ctx.nstep ∨ (s.ctx.nstep = 0 ∧ t.ctx.nstep = 1)
  fields : ∀ i : FIdx, t.ctx.FieldOk s.params.p t.f[i]
  words : ∀ (j : RIdx) (w : Word32), t.r[j] = .written w → t.ctx.WordOk w
  zwords : ∀ z, Sat s.params.p z t.ctx → s.ZBoolAll z → t.ZBoolAll z

/-- A word that a command may put in a register. -/
def NewWord (s : State) (c : Ctx) (w : Word32) : Prop :=
  c.WordOk w ∧ ∀ z, Sat s.params.p z c → s.ZBoolAll z → ZBool z w

theorem NewWord.old {s : State} (h : s.Inv) {c : Ctx} (he : s.ctx.Extends c) {j : RIdx} {w : Word32}
    (hw : s.r[j] = .written w) : NewWord s c w := ⟨(he.word (h.words j w hw)).1, fun _ _ hz => hz j w hw⟩

/-- A command that grows the context and writes word registers only. -/
theorem progress_words {s : State} (h : s.Inv) {c : Ctx} (g : Grows s.params.p s.ctx c) (r : Vector RReg 64)
    (hr : ∀ (j : RIdx) (w : Word32), r[j] = .written w → s.r[j] = .written w ∨ NewWord s c w) :
    Progress s { s with ctx := c, r := r } := by
  have hnew : ∀ (j : RIdx) (w : Word32), r[j] = .written w → NewWord s c w := fun j w hw =>
    (hr j w hw).elim (fun ho => NewWord.old h g.ext ho) id
  exact {
    params := rfl, status := rfl, pending := rfl, replies := rfl, ext := g.ext, ok := g.ok, complete := g.complete
    nstep := .inl g.nstep
    fields := fun i => g.ext.field (h.fields i)
    words := fun j w hw => (hnew j w hw).1
    zwords := fun z hz hs j w hw => (hnew j w hw).2 z hz hs }

/-- R[k] <- w -/
theorem set_written {r : Vector RReg 64} {k j : RIdx} {w w' : Word32}
    (h : (r.set k.val (.written w) k.isLt)[j] = .written w') : w' = w ∨ r[j] = .written w' := by
  simp only [Fin.getElem_fin, Vector.getElem_set] at h
  split at h
  · cases h; exact .inl rfl
  · exact .inr h

theorem putWords_written {n base : Nat} {ws : Vector Word32 n} {r : Vector RReg 64} {j : RIdx} {w : Word32}
    (h : (putWords base ws r)[j] = .written w) : (∃ (i : Nat) (hi : i < n), w = ws[i]) ∨ r[j] = .written w := by
  rw [putWords_get] at h
  split at h
  · cases h; exact .inl ⟨_, _, rfl⟩
  · exact .inr h

theorem setCtx_setR_eq (s : State) (c : Ctx) (k : RIdx) (w : Word32) :
    (s.setCtx c).setR k w = { s with ctx := c, r := s.r.set k.val (.written w) k.isLt } := rfl

/-- R127, R211: any gadget's word is new when it holds a value and is boolean. -/
theorem NewWord.of {s : State} {c : Ctx} {w : Word32} {v : Word} (h : c.Holds w v)
    (hz : ∀ z, Sat s.params.p z c → s.ZBoolAll z → ZBool z w) : NewWord s c w := ⟨h.1, hz⟩

theorem zholds_self {z : List Nat} {w : Word32} (h : ZBool z w) : ZHolds z w (low32 (zWord z w)) := ⟨h, rfl⟩

theorem dec_progress {s : State} (h : s.Inv) {rd : RIdx} {fs : FIdx} {w : Word32} {c : Ctx}
    (e : decompose s.params s.f fs s.ctx = .ok (w, c)) : Progress s ((s.setCtx c).setR rd w) := by
  obtain ⟨N, _, g, a, sd⟩ := decompose_spec h.params h.ctx h.fieldsOk e
  rw [setCtx_setR_eq]
  refine progress_words h g _ fun j w' hw' => ?_
  rcases set_written hw' with rfl | ho
  · exact .inr (.of a fun z hz _ => by obtain ⟨v, _, hv⟩ := sd z hz; exact hv.1)
  · exact .inl ho

theorem rec_progress {s : State} (h : s.Inv) {fd : FIdx} {rs : RIdx} (hw : s.r[rs] ≠ .unwritten) :
    Progress s (s.setF fd (recompose s.params s.ctx (s.word rs))) := by
  obtain ⟨hr, _, _⟩ := recompose_ok h.params h.ctx (h.holds hw).1
  exact {
    params := rfl, status := rfl, pending := rfl, replies := rfl, ext := Ctx.Extends.refl _, ok := h.ctx
    complete := fun hc => hc
    nstep := .inl rfl
    fields := fun i => by
      show s.ctx.FieldOk s.params.p (s.setF fd _).f[i]
      rw [setF_get]
      split
      · exact hr
      · exact h.fields i
    words := h.words
    zwords := fun _ _ hs => hs }

/-- The word commands: MOV, ADD, XOR and ROTL. -/
theorem word_progress {s : State} (h : s.Inv) {rd : RIdx} {w : Word32} {c : Ctx} (g : Grows s.params.p s.ctx c)
    (hw : NewWord s c w) : Progress s ((s.setCtx c).setR rd w) := by
  rw [setCtx_setR_eq]
  refine progress_words h g _ fun j w' hw' => ?_
  rcases set_written hw' with rfl | ho
  · exact .inr hw
  · exact .inl ho

theorem zbool_word {s : State} {z : List Nat} (hz : s.ZBoolAll z) {j : RIdx} (hw : s.r[j] ≠ .unwritten) :
    ZBool z (s.word j) := hz j _ (word_mem hw)

theorem add_new {s : State} (h : s.Inv) {a b : RIdx} (ha : s.r[a] ≠ .unwritten) (hb : s.r[b] ≠ .unwritten) :
    Grows s.params.p s.ctx (add32 s.params.p (s.word a) (s.word b) s.ctx).2 ∧
      NewWord s (add32 s.params.p (s.word a) (s.word b) s.ctx).2 (add32 s.params.p (s.word a) (s.word b) s.ctx).1 := by
  obtain ⟨g, ho, sd⟩ := add32_spec h.one_lt h.ctx (h.holds ha).1 (h.holds hb).1
  exact ⟨g, .of ho fun z hz hs => (sd z hz _ _ (zholds_self (zbool_word hs ha)) (zholds_self (zbool_word hs hb))).1⟩

theorem xor_new {s : State} (h : s.Inv) {a b : RIdx} (ha : s.r[a] ≠ .unwritten) (hb : s.r[b] ≠ .unwritten) :
    Grows s.params.p s.ctx (xor32 s.params.p (s.word a) (s.word b) s.ctx).2 ∧
      NewWord s (xor32 s.params.p (s.word a) (s.word b) s.ctx).2 (xor32 s.params.p (s.word a) (s.word b) s.ctx).1 := by
  obtain ⟨g, ho, sd⟩ := xor32_spec h.one_lt h.ctx (h.holds ha).1 (h.holds hb).1
  exact ⟨g, .of ho fun z hz hs => (sd z hz _ _ (zholds_self (zbool_word hs ha)) (zholds_self (zbool_word hs hb))).1⟩

theorem rot_new {s : State} (h : s.Inv) {a : RIdx} (ha : s.r[a] ≠ .unwritten) (n : Fin 32) :
    NewWord s s.ctx (rot (s.word a) n) := by
  obtain ⟨ho, sd⟩ := rot_spec (h.holds ha).1 n
  exact .of ho fun z _ hs => (sd z _ (zholds_self (zbool_word hs ha))).1

theorem qr_progress {s : State} (h : s.Inv) {a b c d : RIdx} (ha : s.r[a] ≠ .unwritten) (hb : s.r[b] ≠ .unwritten)
    (hc : s.r[c] ≠ .unwritten) (hd : s.r[d] ≠ .unwritten) :
    let q := qrGadget s.params.p ⟨s.word a, s.word b, s.word c, s.word d⟩ s.ctx
    Progress s (((((s.setCtx q.2).setR a q.1.a).setR b q.1.b).setR c q.1.c).setR d q.1.d) := by
  intro q
  obtain ⟨g, ho, sd⟩ := qrGadget_spec h.one_lt (w := ⟨s.word a, s.word b, s.word c, s.word d⟩)
    (v := ⟨_, _, _, _⟩) h.ctx ⟨(h.holds ha).1, (h.holds hb).1, (h.holds hc).1, (h.holds hd).1⟩
  have hz : ∀ z, Sat s.params.p z q.2 → s.ZBoolAll z → ZBool z q.1.a ∧ ZBool z q.1.b ∧ ZBool z q.1.c ∧ ZBool z q.1.d := by
    intro z hz hs
    obtain ⟨h1, h2, h3, h4⟩ := sd z hz ⟨_, _, _, _⟩ ⟨zholds_self (zbool_word hs ha), zholds_self (zbool_word hs hb),
      zholds_self (zbool_word hs hc), zholds_self (zbool_word hs hd)⟩
    exact ⟨h1.1, h2.1, h3.1, h4.1⟩
  refine progress_words h g ((((s.r.set a.val (.written q.1.a) a.isLt).set b.val (.written q.1.b) b.isLt).set c.val
    (.written q.1.c) c.isLt).set d.val (.written q.1.d) d.isLt) fun j w hw => ?_
  rcases set_written hw with rfl | hw
  · exact .inr (.of ho.2.2.2 fun z h1 h2 => (hz z h1 h2).2.2.2)
  rcases set_written hw with rfl | hw
  · exact .inr (.of ho.2.2.1 fun z h1 h2 => (hz z h1 h2).2.2.1)
  rcases set_written hw with rfl | hw
  · exact .inr (.of ho.2.1 fun z h1 h2 => (hz z h1 h2).2.1)
  rcases set_written hw with rfl | hw
  · exact .inr (.of ho.1 fun z h1 h2 => (hz z h1 h2).1)
  · exact .inl hw

/-- A vector of words that a command may put in registers. -/
def NewWords {n : Nat} (s : State) (c : Ctx) (ws : Vector Word32 n) : Prop := ∀ (i : Nat) (h : i < n), NewWord s c ws[i]

theorem NewWords.of {n : Nat} {s : State} {c : Ctx} {ws : Vector Word32 n} {vs : Vector Word n} (h : c.HoldsV ws vs)
    (hz : ∀ z, Sat s.params.p z c → s.ZBoolAll z → ∃ vs', ZHoldsV z ws vs') : NewWords s c ws := fun i hi =>
  .of (h i hi) fun z h1 h2 => by obtain ⟨_, hv⟩ := hz z h1 h2; exact (hv i hi).1

theorem setWords_eq {n : Nat} (s : State) (base : Nat) (ws : Vector Word32 n) :
    s.setWords base ws = { s with r := putWords base ws s.r } := by rw [State.setWords]

theorem run_progress {n : Nat} {s : State} (h : s.Inv) {base : Nat} {ws : Vector Word32 n} {c : Ctx}
    (g : Grows s.params.p s.ctx c) (hw : NewWords s c ws) : Progress s ((s.setCtx c).setWords base ws) := by
  rw [setWords_eq]
  refine progress_words h g _ fun j w hj => ?_
  rcases putWords_written hj with ⟨i, hi, rfl⟩ | ho
  · exact .inr (hw i hi)
  · exact .inl ho

theorem zholds_words16 {s : State} {z : List Nat} (hz : s.ZBoolAll z) {base : Nat} (hw : s.Written16 base) :
    ZHoldsV z (s.words16 base) (zVals16 z (s.words16 base)) := by
  intro i hi
  have : (s.words16 base)[i] = s.word (wordIdx base i) := by simp [State.words16]
  simp only [zVals16, Vector.getElem_map, this]
  exact zholds_self (zbool_word hz (hw i hi))

/-- A round command on the working state. -/
theorem computes_new {s : State} (h : s.Inv) (hw : s.Written16 0)
    {g : Vector Word32 16 → Ctx → Vector Word32 16 × Ctx} {f : Vector Word 16 → Vector Word 16}
    (hg : Computes s.params.p g f) : Grows s.params.p s.ctx (g (s.words16 0) s.ctx).2 ∧
      NewWords s (g (s.words16 0) s.ctx).2 (g (s.words16 0) s.ctx).1 := by
  obtain ⟨gr, ho, sd⟩ := hg.spec h.ctx (h.holdsV hw)
  exact ⟨gr, .of ho fun z hz hs => ⟨_, sd z hz _ (zholds_words16 hs hw)⟩⟩

theorem combine_new {s : State} (h : s.Inv) (h16 : s.Written16 16) (h0 : s.Written16 0) :
    let q := combineGadget s.params.p (s.words16 16) (s.words16 0) s.ctx
    Grows s.params.p s.ctx q.2 ∧ NewWords s q.2 q.1 := by
  obtain ⟨gr, ho, sd⟩ := combine_spec h.one_lt h.ctx (h.holdsV h16) (h.holdsV h0)
  exact ⟨gr, .of ho fun z hz hs => ⟨_, sd z hz _ _ (zholds_words16 hs h16) (zholds_words16 hs h0)⟩⟩

theorem snap_progress {s : State} (h : s.Inv) (hw : s.Written16 0) : Progress s (s.setWords 16 (s.words16 0)) := by
  have hn : NewWords s s.ctx (s.words16 0) := fun i hi => by
    have : (s.words16 0)[i] = s.word (wordIdx 0 i) := by simp [State.words16]
    rw [this]
    exact NewWord.old h (Ctx.Extends.refl _) (word_mem (hw i hi))
  exact run_progress (c := s.ctx) h (Grows.refl h.ctx) hn

theorem layout_progress {s : State} (h : s.Inv) {fs : FIdx} {w : Vector Word32 16} {c : Ctx}
    (e : layoutGadget s.params s.f fs s.ctx = .ok (w, c)) : Progress s ((s.setCtx c).setWords 0 w) := by
  obtain ⟨Ns, _, g, ho, sd⟩ := layoutGadget_spec h.params h.ctx h.fieldsOk e
  exact run_progress h g (.of ho fun z hz _ => by obtain ⟨vs, _, hv⟩ := sd z hz; exact ⟨_, hv⟩)

/-- BLOCK's two runs of registers. -/
theorem block_progress {s : State} (h : s.Inv) {fs : FIdx} {b : BlockResult}
    (e : blockGadget s.params s.f fs s.ctx = .ok b) :
    Progress s (((s.setCtx b.ctx).setWords 0 b.keystream).setWords 16 b.layout) := by
  obtain ⟨Ns, _, g, hl, hk, sd⟩ := blockGadget_spec h.params h.ctx h.fieldsOk e
  have nl : NewWords s b.ctx b.layout := .of hl fun z hz _ => by obtain ⟨vs, _, hv, _⟩ := sd z hz; exact ⟨_, hv⟩
  have nk : NewWords s b.ctx b.keystream := .of hk fun z hz _ => by obtain ⟨vs, _, _, hv⟩ := sd z hz; exact ⟨_, hv⟩
  rw [setWords_eq, setWords_eq]
  refine progress_words h g _ fun j w hj => ?_
  rcases putWords_written hj with ⟨i, hi, rfl⟩ | hj
  · exact .inr (nl i hi)
  rcases putWords_written hj with ⟨i, hi, rfl⟩ | ho
  · exact .inr (nk i hi)
  · exact .inl ho

end Sys2Proof.Machine
end

