-- ==== Sys2Proof/Laws/StepRun.lean ====
section
/-! SUPPORT. The inside of a step: the ciphertext words as vectors, the next counter, the next state, and the oracle's
view of the words a block reads (R191 to R194, R198, R215). -/

namespace Sys2Proof.Machine

/-! ### What a block reads, as the oracle takes it -/

theorem forall₂_some {α : Type} {g : α → Option Nat} : ∀ {is : List α} {Ns : List Nat},
    List.Forall₂ (fun i N => g i = some N) is Ns → Ns = is.map fun i => (g i).getD 0
  | _, _, .nil => rfl
  | _, _, .cons h t => by rw [List.map_cons, h, Option.getD_some, ← forall₂_some t]

/-- The block of the words in read order is the oracle's keystream of the state they stand in. -/
theorem blockOf_oracle (st : Vector Nat 28) :
    blockOf (([0, 1, 2, 3, 4, 5, 6, 7, 11, 8, 9, 10] : List (Fin 28)).map fun k => low32 st[k]) = oracleKeystream st := by
  have e : layoutOf (([0, 1, 2, 3, 4, 5, 6, 7, 11, 8, 9, 10] : List (Fin 28)).map fun k => low32 st[k]) =
      wordLayout (Vector.ofFn fun k : Fin 8 => low32 (st[k.val]'(by omega))) (low32 st[11])
        (Vector.ofFn fun k : Fin 3 => low32 (st[8 + k.val]'(by omega))) := by
    unfold layoutOf wordLayout
    congr 1
  rw [blockOf, e]
  rfl

/-- The same, for a state's registers. -/
theorem blockOf_fvals (s : State) (fs : FIdx) :
    blockOf (((layoutReads fs).map fun i => (s.f[i].val).getD 0).map low32) = oracleKeystream (s.fvals fs 28) := by
  rw [← blockOf_oracle]
  exact congrArg blockOf (by simp [layoutReads, State.fvals, State.fval])

/-! ### The ciphertext words -/

theorem forall₂_range {α : Type} {R : FIdx → α → Prop} {base : FIdx} {n : Nat} {l : List α}
    (h : List.Forall₂ (fun i a => R i a) ((List.range n).map (runIdx base)) l) :
    ∃ v : Vector α n, v.toList = l ∧ ∀ (i : Nat) (hi : i < n), R (runIdx base i) v[i] := by
  have hl : l.length = n := by rw [← h.length_eq]; simp
  refine ⟨⟨l.toArray, by simpa using hl⟩, by simp [Vector.toList], fun i hi => ?_⟩
  have := (List.forall₂_iff_get.1 h).2 i (by simpa using hi) (by omega)
  simpa using this

theorem forall₂_zip_left {α β γ : Type} {R : α → γ → Prop} : ∀ {as : List α} {bs : List β} {cs : List γ},
    as.length = bs.length → List.Forall₂ (fun (q : α × β) c => R q.1 c) (as.zip bs) cs →
    List.Forall₂ R as cs
  | [], [], _, _, h => by simpa using h
  | a :: as, b :: bs, _, hl, h => by
    obtain _ | ⟨h1, h2⟩ := h
    exact .cons h1 (forall₂_zip_left (by simpa using hl) h2)

theorem forall₂_zip_right {α β γ : Type} {R : β → γ → Prop} : ∀ {as : List α} {bs : List β} {cs : List γ},
    as.length = bs.length → List.Forall₂ R bs cs → List.Forall₂ (fun (q : α × β) c => R q.2 c) (as.zip bs) cs
  | [], [], _, _, h => by simpa using h
  | a :: as, b :: bs, _, hl, h => by
    obtain _ | ⟨h1, h2⟩ := h
    exact .cons h1 (forall₂_zip_right (by simpa using hl) h2)

theorem zipWith_toWords {R : Word32 → Word → Prop} {ws : List Word32} {a b : Vector Word 16}
    (h : List.Forall₂ R ws (List.zipWith (fun v k => v ^^^ k) a.toList b.toList)) (i : Nat) (hi : i < 16) :
    R (toWords 16 ws)[i] (a[i] ^^^ b[i]) := by
  have hl : ws.length = 16 := by rw [h.length_eq]; simp
  rw [toWords_get i hi (by omega)]
  have := (List.forall₂_iff_get.1 h).2 i (by omega) (by simpa using hi)
  simpa using this

/-- R191, R194, R211: the 16 ciphertext words of a step. -/
theorem cipher_spec {P : Params} (hP : P.Valid) {f : Vector FReg 128} {fx : FIdx} {ks : Vector Word32 16}
    {kv : Vector Word 16} {c c' : Ctx} {ws : List Word32} (h : c.Ok P.p) (hf : c.FieldsOk P.p f) (hk : c.HoldsV ks kv)
    (e : cipherWords P f (((List.range 16).map (runIdx fx)).zip ks.toList) c = .ok (ws, c')) :
    ∃ Ns : Vector Nat 16, (∀ (i : Nat) (hi : i < 16), f[runIdx fx i].val = some Ns[i]) ∧ Grows P.p c c' ∧
      (∀ (i : Nat) (hi : i < 16), c'.Holds (toWords 16 ws)[i] (low32 Ns[i] ^^^ kv[i])) ∧
      ∀ z, Sat P.p z c' → ∃ vs : Vector Word 16, (∀ (i : Nat) (hi : i < 16), ZDec P z f[runIdx fx i].lc vs[i]) ∧
        ∀ kv' : Vector Word 16, ZHoldsV z ks kv' → ∀ (i : Nat) (hi : i < 16),
          ZHolds z (toWords 16 ws)[i] (vs[i] ^^^ kv'[i]) := by
  have hlen : ((List.range 16).map (runIdx fx)).length = ks.toList.length := by simp
  obtain ⟨Ns, hNs, g, a, sd⟩ := cipherWords_spec hP _ kv.toList h hf
    (forall₂_zip_right hlen (forall₂_get.2 hk)) e
  obtain ⟨N, hN, hN'⟩ := forall₂_range (R := fun i N => f[i].val = some N)
    (forall₂_zip_left (R := fun (i : FIdx) N => f[i].val = some N) hlen hNs)
  refine ⟨N, hN', g, fun i hi => ?_, fun z hz => ?_⟩
  · have e2 : List.zipWith (fun N k => low32 N ^^^ k) Ns kv.toList =
        List.zipWith (fun v k => v ^^^ k) (N.map low32).toList kv.toList := by
      rw [← hN, Vector.toList_map, List.zipWith_map_left]
    rw [e2] at a
    have := zipWith_toWords a i hi
    simpa using this
  · obtain ⟨vs, hvs, zvs⟩ := sd z hz
    obtain ⟨V, hV, hV'⟩ := forall₂_range (R := fun i v => ZDec P z f[i].lc v)
      (forall₂_zip_left (R := fun (i : FIdx) v => ZDec P z f[i].lc v) hlen hvs)
    refine ⟨V, hV', fun kv' hk' i hi => ?_⟩
    have := zvs kv'.toList (forall₂_zip_right hlen (forall₂_get.2 hk'))
    rw [← hV] at this
    exact zipWith_toWords this i hi

/-- The ciphertext words of registers with values come out. -/
theorem cipher_some (P : Params) {f : Vector FReg 128} {fx : FIdx} (ks : Vector Word32 16) (c : Ctx)
    (h : ∀ k < 16, f[runIdx fx k].val ≠ none) :
    ∃ ws c', cipherWords P f (((List.range 16).map (runIdx fx)).zip ks.toList) c = .ok (ws, c') := by
  refine cipherWords_some P _ c fun ⟨i, w⟩ hq => ?_
  have := (List.of_mem_zip hq).1
  simp only [List.mem_map, List.mem_range] at this
  obtain ⟨k, hk, rfl⟩ := this
  exact h k hk

/-! ### The next state's field registers -/

/-- R193: the next counter. -/
theorem nextCounter_ok {P : Params} (hP : P.Valid) {c : Ctx} (h : c.Ok P.p) {x : FReg} {N : Nat} (hf : c.FieldOk P.p x)
    (hx : x.val = some N) : c.FieldOk P.p (nextCounter P.p x) ∧ (nextCounter P.p x).val = some ((N + 1) % P.p) ∧
      ∀ z, z.getD 0 0 = 1 → LC.eval P.p z (nextCounter P.p x).lc = (LC.eval P.p z x.lc + 1) % P.p := by
  have hp := Params.Valid.one_lt hP
  cases x with
  | unwritten => cases hx
  | written L v =>
    obtain ⟨hL, hv⟩ := fieldOk_written.1 hf
    have hx' : v = some N := hx
    subst hx'
    obtain ⟨_, he⟩ := LC.honest_cast (by omega) hv.symm
    have hvars : ∀ t ∈ LC.add P.p L LC.one, ∃ x, c.assign[t.1]? = some (some x) := by
      intro t ht
      rcases LC.mem_add ht with ⟨u, hu, e⟩ | ht
      · rw [← e]; exact LC.honest_vars hv.symm u hu
      · simp only [LC.one, List.mem_singleton] at ht
        subst ht
        exact ⟨1, h.one⟩
    obtain ⟨y, hy, ly, ey⟩ := LC.honest_some (p := P.p) (by omega) hvars
    refine ⟨fieldOk_written.2 ⟨within_add (by omega) hL (within_one hp (Ctx.Ok.length_pos h)), ?_⟩, rfl, fun z h1 => ?_⟩
    · show some ((N + 1) % P.p) = LC.honest P.p c.assign (LC.add P.p L LC.one)
      rw [hy]
      congr 1
      refine natCast_inj_of_lt (Nat.mod_lt _ (by omega)) ly ?_
      rw [ey, ZMod.natCast_mod, LC.ev_add, LC.ev_one, honestFun_zero h, ← he]
      push_cast
      rfl
    · refine natCast_inj_of_lt (LC.eval_lt (by omega) _ _) (Nat.mod_lt _ (by omega)) ?_
      show ((LC.eval P.p z (LC.add P.p L LC.one) : Nat) : ZMod P.p) = (((LC.eval P.p z L + 1) % P.p : Nat) : ZMod P.p)
      rw [ZMod.natCast_mod, LC.eval_cast, LC.ev_add, LC.ev_one, Nat.cast_add, LC.eval_cast, zfun, h1]

/-- R191, R192: the next state's registers. -/
theorem nextState_get (P : Params) (f : Vector FReg 128) (fs : FIdx) (c : Ctx) (w : Vector Word32 16) (k : Nat) (hk : k < 28) :
    (nextState P f fs c w)[k] = if k < 11 then f[runIdx fs k] else if k = 11 then nextCounter P.p f[runIdx fs 11]
      else recompose P c (w[(k - 12) % 16]'(Nat.mod_lt _ (by decide))) := by
  simp [nextState]

end Sys2Proof.Machine
end

