-- ==== Sys2Proof/Laws/Exec.lean ====
section
/-! SUPPORT. What each command answers when its operands are in order, and everything any command can do to a
well-formed state (R224, R226). -/

namespace Sys2Proof.Machine

/-! ### STEP -/

/-- The state a successful STEP leaves. -/
def stepResult (s : State) (fs fd : FIdx) (b : BlockResult) (cipher : Vector Word32 16) (c : Ctx) : State :=
  ((((s.setCtx c.countStep).setWords 0 b.keystream).setWords 16 b.layout).setWords 32 cipher).setFields fd.val
    (nextState s.params s.f fs c cipher)

theorem setFields_eq {n : Nat} (s : State) (base : Nat) (xs : Vector FReg n) :
    s.setFields base xs = { s with f := putFields base xs s.f } := by rw [State.setFields]

theorem stepResult_eq (s : State) (fs fd : FIdx) (b : BlockResult) (cipher : Vector Word32 16) (c : Ctx) :
    stepResult s fs fd b cipher c =
      { s with
        ctx := c.countStep
        r := putWords 32 cipher (putWords 16 b.layout (putWords 0 b.keystream s.r))
        f := putFields fd.val (nextState s.params s.f fs c cipher) s.f } := by
  unfold stepResult
  rw [setFields_eq, setWords_eq, setWords_eq, setWords_eq]
  rfl

/-- STEP past its checks. -/
theorem execStep_eq {s : State} {fs fx fd : FIdx} {b : BlockResult} {ws : List Word32} {c : Ctx}
    (hc : stepChecks fs fx fd s = .ok ()) (hb : blockGadget s.params s.f fs s.ctx = .ok b)
    (hw : cipherWords s.params s.f (((List.range 16).map (runIdx fx)).zip b.keystream.toList) b.ctx = .ok (ws, c)) :
    execStep fs fx fd s = .next (stepResult s fs fd b (toWords 16 ws) c) := by
  simp only [execStep, hc, hb, hw, finish, stepResult]

theorem stepChecks_ok {fs fx fd : FIdx} {s : State} : stepChecks fs fx fd s = .ok () ↔
    fs.val ≤ 100 ∧ fx.val ≤ 112 ∧ fd.val ≤ 100 ∧ s.ctx.nstep = 0 := by
  unfold stepChecks
  by_cases h1 : 128 < fs.val + 28
  · rw [checkRun_error h1]; simp; omega
  rw [checkRun_ok (by omega)]
  by_cases h2 : 128 < fx.val + 16
  · simp only [checkRun_error h2]; simp; omega
  simp only [checkRun_ok (show fx.val + 16 ≤ 128 by omega)]
  by_cases h3 : 128 < fd.val + 28
  · simp only [checkRun_error h3]; simp; omega
  simp only [checkRun_ok (show fd.val + 28 ≤ 128 by omega)]
  by_cases h4 : s.ctx.nstep ≥ 1
  · simp [h4]; omega
  · simp [h4]; omega

/-- A block of registers with values comes out. -/
theorem blockGadget_some {s : State} {fs : FIdx} (h : s.HasValues fs 12) :
    ∃ b, blockGadget s.params s.f fs s.ctx = .ok b := by
  obtain ⟨o, c1, e⟩ := layoutGadget_some s.params (layoutReads_values h) s.ctx
  rw [blockGadget_eq, e]
  exact ⟨_, rfl⟩

theorem nextState_fieldOk {s : State} (h : s.Inv) {fs : FIdx} {Nc : Nat} (hc : s.f[runIdx fs 11].val = some Nc) {c : Ctx}
    (g : Grows s.params.p s.ctx c) {cipher : Vector Word32 16} {vs : Vector Word 16} (hw : c.HoldsV cipher vs) :
    ∀ (k : Nat) (hk : k < 28), c.FieldOk s.params.p (nextState s.params s.f fs c cipher)[k] := by
  intro k hk
  rw [nextState_get]
  split
  · exact (g.ext.fieldsOk h.fieldsOk) _
  · split
    · exact (nextCounter_ok h.params g.ok ((g.ext.fieldsOk h.fieldsOk) _) hc).1
    · exact (recompose_ok h.params g.ok (hw _ _)).1

theorem putFields_ok {n base : Nat} {xs : Vector FReg n} {f : Vector FReg 128} {Q : FReg → Prop}
    (hx : ∀ (k : Nat) (hk : k < n), Q xs[k]) (hf : ∀ i : FIdx, Q f[i]) (i : FIdx) : Q (putFields base xs f)[i] := by
  rw [putFields_get]
  split
  · exact hx _ _
  · exact hf i

theorem fvals_get (s : State) (base : FIdx) (n i : Nat) (hi : i < n) :
    (s.fvals base n)[i] = (s.f[runIdx base i].val).getD 0 := by
  simp [State.fvals, State.fval]

/-- Counting the step and writing field registers after progress. -/
theorem progress_count {s t : State} (h : Progress s t) (hs : s.ctx.nstep = 0) (ht : t.ctx.nstep = 0)
    {f : Vector FReg 128} (hf : ∀ i : FIdx, t.ctx.FieldOk s.params.p f[i]) :
    Progress s { t with ctx := t.ctx.countStep, f := f } where
  params := h.params
  status := h.status
  pending := h.pending
  replies := h.replies
  ext := h.ext
  ok := ⟨h.ok.one, h.ok.below, h.ok.within⟩
  complete := h.complete
  nstep := .inr ⟨hs, by show t.ctx.nstep + 1 = 1; rw [ht]⟩
  fields := hf
  words := h.words
  zwords := fun z hz hb => h.zwords z ⟨hz.one, hz.below, hz.holds⟩ hb

/-- Everything inside a successful step of a well-formed state. -/
theorem step_spec {s : State} (h : s.Inv) {fs fx : FIdx} {b : BlockResult} {ws : List Word32} {c : Ctx}
    (hb : blockGadget s.params s.f fs s.ctx = .ok b)
    (hw : cipherWords s.params s.f (((List.range 16).map (runIdx fx)).zip b.keystream.toList) b.ctx = .ok (ws, c)) :
    Grows s.params.p s.ctx c ∧ (∀ i ∈ layoutReads fs, s.f[i].val ≠ none) ∧ (∀ k < 16, s.f[runIdx fx k].val ≠ none) ∧
      c.HoldsV b.layout (layoutOf (((layoutReads fs).map fun i => (s.f[i].val).getD 0).map low32)) ∧
      c.HoldsV b.keystream (oracleKeystream (s.fvals fs 28)) ∧
      (∀ (i : Nat) (hi : i < 16), c.Holds (toWords 16 ws)[i]
        (low32 (s.fvals fx 16)[i] ^^^ (oracleKeystream (s.fvals fs 28))[i])) ∧
      ∀ z, Sat s.params.p z c → ∃ (vs : List Word) (us : Vector Word 16),
        List.Forall₂ (fun (i : FIdx) v => ZDec s.params z s.f[i].lc v) (layoutReads fs) vs ∧
        (∀ (i : Nat) (hi : i < 16), ZDec s.params z s.f[runIdx fx i].lc us[i]) ∧
        ZHoldsV z b.layout (layoutOf vs) ∧ ZHoldsV z b.keystream (blockOf vs) ∧
        ∀ (i : Nat) (hi : i < 16), ZHolds z (toWords 16 ws)[i] (us[i] ^^^ (blockOf vs)[i]) := by
  obtain ⟨Ns, hNs, g1, al, ak, sd1⟩ := blockGadget_spec h.params h.ctx h.fieldsOk hb
  obtain ⟨Xs, hXs, g2, ax, sd2⟩ := cipher_spec h.params g1.ok (g1.ext.fieldsOk h.fieldsOk) ak hw
  have eN := forall₂_some hNs
  have ek : blockOf (Ns.map low32) = oracleKeystream (s.fvals fs 28) := by rw [eN, blockOf_fvals]
  have eX : ∀ (i : Nat) (hi : i < 16), (s.fvals fx 16)[i] = Xs[i] := fun i hi => by
    rw [fvals_get, hXs i hi]
    rfl
  refine ⟨g1.trans g2, fun i hi => ?_, fun k hk => by rw [hXs k hk]; simp, ?_, ?_, ?_, fun z hz => ?_⟩
  · obtain ⟨k, hk, e⟩ := List.mem_iff_getElem.1 hi
    have h1 := (List.forall₂_iff_get.1 hNs).2 k hk (by rw [← hNs.length_eq]; exact hk)
    simp only [List.get_eq_getElem] at h1
    subst e
    rw [h1]
    simp
  · rw [← eN]
    exact g2.ext.holdsV al
  · rw [← ek]
    exact g2.ext.holdsV ak
  · intro i hi
    rw [eX, ← ek]
    exact ax i hi
  · obtain ⟨us, hus, zus⟩ := sd2 z hz
    obtain ⟨vs, hvs, zl, zk⟩ := sd1 z (hz.mono g2.ext)
    exact ⟨vs, us, hvs, hus, zl, zk, zus _ zk⟩

theorem step_progress {s : State} (h : s.Inv) {fs fx fd : FIdx} {b : BlockResult} {ws : List Word32} {c : Ctx}
    (hn : s.ctx.nstep = 0) (hb : blockGadget s.params s.f fs s.ctx = .ok b)
    (hw : cipherWords s.params s.f (((List.range 16).map (runIdx fx)).zip b.keystream.toList) b.ctx = .ok (ws, c)) :
    Progress s (stepResult s fs fd b (toWords 16 ws) c) := by
  obtain ⟨g, hr, _, hl, hk, hx, sd⟩ := step_spec h hb hw
  have hxV : c.HoldsV (toWords 16 ws) (Vector.ofFn fun i : Fin 16 =>
      low32 (s.fvals fx 16)[i] ^^^ (oracleKeystream (s.fvals fs 28))[i]) := fun i hi => by simpa using hx i hi
  have nl : NewWords s c b.layout := .of hl fun z hz _ => by obtain ⟨vs, us, _, _, hv, _⟩ := sd z hz; exact ⟨_, hv⟩
  have nk : NewWords s c b.keystream := .of hk fun z hz _ => by obtain ⟨vs, us, _, _, _, hv, _⟩ := sd z hz; exact ⟨_, hv⟩
  have nx : NewWords s c (toWords 16 ws) := fun i hi => .of (hx i hi) fun z hz _ => by
    obtain ⟨vs, us, _, _, _, _, hv⟩ := sd z hz
    exact (hv i hi).1
  obtain ⟨Nc, hNc⟩ := Option.ne_none_iff_exists'.1 (hr (runIdx fs 11) (by simp [layoutReads]))
  have hf := nextState_fieldOk h hNc g hxV
  have hwords : ∀ (j : RIdx) (w : Word32),
      (putWords 32 (toWords 16 ws) (putWords 16 b.layout (putWords 0 b.keystream s.r)))[j] = .written w →
      s.r[j] = .written w ∨ NewWord s c w := by
    intro j w hj
    rcases putWords_written hj with ⟨i, hi, rfl⟩ | hj
    · exact .inr (nx i hi)
    rcases putWords_written hj with ⟨i, hi, rfl⟩ | hj
    · exact .inr (nl i hi)
    rcases putWords_written hj with ⟨i, hi, rfl⟩ | ho
    · exact .inr (nk i hi)
    · exact .inl ho
  rw [stepResult_eq]
  exact progress_count (progress_words h g _ hwords) hn (g.nstep.trans hn)
    (putFields_ok (Q := fun x => c.FieldOk s.params.p x) hf (g.ext.fieldsOk h.fieldsOk))

/-! ### Every command -/

/-- A command ends in its error taken, or in progress. -/
theorem finish_progress {op : BitVec 6} {s t : State} {r : Except Err State} (hr : ∀ u, r = .ok u → Progress s u)
    (h : finish op s r = .next t) : (∃ e, t = s.raise op e) ∨ Progress s t := by
  cases r with
  | ok u => cases h; exact .inr (hr _ rfl)
  | error e => cases h; exact .inl ⟨e, rfl⟩

theorem checkRs_written {s : State} {qs : List (RIdx × Gadget)} (h : s.checkRs qs = .ok ()) {j : RIdx} {g : Gadget}
    (hj : (j, g) ∈ qs) : s.r[j] ≠ .unwritten := checkRs_ok.1 h _ hj

/-- The form of a command that checks word registers first. -/
theorem checked_progress {op : BitVec 6} {s t u : State} {qs : List (RIdx × Gadget)}
    (hu : s.checkRs qs = .ok () → Progress s u)
    (h : finish op s (match s.checkRs qs with | .error e => .error e | .ok _ => .ok u) = .next t) :
    (∃ e, t = s.raise op e) ∨ Progress s t := by
  refine finish_progress (fun v hv => ?_) h
  rcases checkRs_cases s qs with e | ⟨e', e⟩
  · rw [e] at hv; cases hv; exact hu e
  · rw [e] at hv; cases hv

/-- Everything a command can do to a well-formed state: its error taken, or progress. -/
theorem exec_cases {s t : State} (h : s.Inv) (i : Instr) (he : exec i s = .next t) :
    (∃ e, t = s.raise i.opcode e) ∨ Progress s t := by
  cases i with
  | decompose rd fs =>
    refine finish_progress (fun u hu => ?_) he
    cases e : decompose s.params s.f fs s.ctx with
    | error e' => rw [e] at hu; cases hu
    | ok r => rw [e] at hu; cases hu; exact dec_progress h e
  | recompose fd rs =>
    refine finish_progress (fun u hu => ?_) he
    rcases checkR_cases s rs .recomp with ⟨⟨w, hw⟩, e⟩ | ⟨_, e⟩
    · rw [e] at hu; cases hu
      exact rec_progress h (by rw [hw]; simp)
    · rw [e] at hu; cases hu
  | mov rd rs =>
    exact checked_progress (fun hc => word_progress h (Grows.refl h.ctx)
      (NewWord.old h (Ctx.Extends.refl _) (word_mem (checkRs_written hc (by simp; rfl))))) he
  | add rd a b =>
    refine checked_progress (fun hc => ?_) he
    obtain ⟨g, hn⟩ := add_new h (checkRs_written hc (j := a) (g := .add) (by simp))
      (checkRs_written hc (j := b) (g := .add) (by simp))
    exact word_progress h g hn
  | xor rd a b =>
    refine checked_progress (fun hc => ?_) he
    obtain ⟨g, hn⟩ := xor_new h (checkRs_written hc (j := a) (g := .xor) (by simp))
      (checkRs_written hc (j := b) (g := .xor) (by simp))
    exact word_progress h g hn
  | rotl rd rs n =>
    exact checked_progress (fun hc => word_progress h (Grows.refl h.ctx)
      (rot_new h (checkRs_written hc (j := rs) (g := .rotl) (by simp)) n)) he
  | qr a b c d =>
    refine finish_progress (fun u hu => ?_) he
    cases hd : distinct4 a b c d with
    | false => rw [hd] at hu; cases hu
    | true =>
      rw [hd, if_pos rfl] at hu
      rcases checkRs_cases s [(a, .add), (b, .add), (c, .add), (d, .xor)] with e | ⟨e', e⟩
      · rw [e] at hu; cases hu
        exact qr_progress h (checkRs_written e (j := a) (g := .add) (by simp))
          (checkRs_written e (j := b) (g := .add) (by simp)) (checkRs_written e (j := c) (g := .add) (by simp))
          (checkRs_written e (j := d) (g := .xor) (by simp))
      · rw [e] at hu; cases hu
  | dround =>
    refine checked_progress (fun hc => ?_) he
    obtain ⟨g, hn⟩ := computes_new h (roundChecks_iff.1 hc) (dround_computes h.one_lt)
    exact run_progress h g hn
  | layout fs =>
    refine finish_progress (fun u hu => ?_) he
    cases e1 : checkRun fs 12 with
    | error e' => rw [e1] at hu; cases hu
    | ok _ =>
      rw [e1] at hu
      cases e : layoutGadget s.params s.f fs s.ctx with
      | error e' => simp only [e] at hu; cases hu
      | ok r =>
        simp only [e, Except.ok.injEq] at hu
        rw [← hu]
        exact layout_progress h e
  | snap => exact checked_progress (fun hc => snap_progress h (snapChecks_iff.1 hc)) he
  | perm =>
    refine checked_progress (fun hc => ?_) he
    obtain ⟨g, hn⟩ := computes_new h (roundChecks_iff.1 hc) (perm_computes h.one_lt)
    exact run_progress h g hn
  | combine =>
    refine checked_progress (fun hc => ?_) he
    obtain ⟨g, hn⟩ := combine_new h (combineChecks_iff.1 hc).1 (combineChecks_iff.1 hc).2
    exact run_progress h g hn
  | block fs =>
    refine finish_progress (fun u hu => ?_) he
    cases e1 : checkRun fs 12 with
    | error e' => rw [e1] at hu; cases hu
    | ok _ =>
      rw [e1] at hu
      cases e : blockGadget s.params s.f fs s.ctx with
      | error e' => simp only [e] at hu; cases hu
      | ok r =>
        simp only [e, Except.ok.injEq] at hu
        rw [← hu]
        exact block_progress h e
  | step fs fx fd =>
    refine finish_progress (fun u hu => ?_) he
    cases e1 : stepChecks fs fx fd s with
    | error e' => rw [e1] at hu; cases hu
    | ok _ =>
      rw [e1] at hu
      cases e : blockGadget s.params s.f fs s.ctx with
      | error e' => simp only [e] at hu; cases hu
      | ok b =>
        cases e2 : cipherWords s.params s.f (((List.range 16).map (runIdx fx)).zip b.keystream.toList) b.ctx with
        | error e' => simp only [e, e2] at hu; cases hu
        | ok r =>
          simp only [e, e2, Except.ok.injEq] at hu
          rw [← hu]
          exact step_progress h (stepChecks_ok.1 e1).2.2.2 e e2

end Sys2Proof.Machine
end

