-- ==== Sys2Proof/Laws/Frame.lean ====
section
/-! SUPPORT. What every command can do to any state, well-formed or not: its error taken, or an effect within its frame
(R22, R27, R29, R224); and that no command but STEP looks at the step count (R225). -/

namespace Sys2Proof.Machine

/-- What a command that raises no error may change. -/
structure Effect (i : Instr) (s t : State) : Prop where
  params : t.params = s.params
  status : t.status = s.status
  pending : t.pending = s.pending
  replies : t.replies = s.replies
  ext : s.ctx.Extends t.ctx
  present : s.ctx.Present → t.ctx.Present
  nstep : t.ctx.nstep = s.ctx.nstep ∨ (∃ fs fx fd, i = .step fs fx fd) ∧ s.ctx.nstep = 0 ∧ t.ctx.nstep = 1
  f : (∀ fd rs, i ≠ .recompose fd rs) → (∀ fs fx fd, i ≠ .step fs fx fd) → t.f = s.f
  r : (∃ fd rs, i = .recompose fd rs) → t.r = s.r

/-- A command that emits and writes word registers. -/
theorem effect_words {i : Instr} {s : State} {c : Ctx} (hc : s.ctx.Extends c) (hn : c.nstep = s.ctx.nstep)
    (hp : s.ctx.Present → c.Present) (r : Vector RReg 64) (hi : ∀ fd rs, i ≠ .recompose fd rs) : Effect i s { s with ctx := c, r := r } where
  params := rfl
  status := rfl
  pending := rfl
  replies := rfl
  ext := hc
  present := hp
  nstep := .inl hn
  f := fun _ _ => rfl
  r := fun ⟨fd, rs, e⟩ => absurd e (hi fd rs)

theorem finish_effect {i : Instr} {s t : State} {r : Except Err State} (hr : ∀ u, r = .ok u → Effect i s u)
    (h : finish i.opcode s r = .next t) : (∃ e, t = s.raise i.opcode e) ∨ Effect i s t := by
  cases r with
  | ok u => cases h; exact .inr (hr _ rfl)
  | error e => cases h; exact .inl ⟨e, rfl⟩

theorem checked_effect {i : Instr} {s t u : State} {qs : List (RIdx × Gadget)} (hu : Effect i s u)
    (h : finish i.opcode s (match s.checkRs qs with | .error e => .error e | .ok _ => .ok u) = .next t) :
    (∃ e, t = s.raise i.opcode e) ∨ Effect i s t := by
  refine finish_effect (fun v hv => ?_) h
  rcases checkRs_cases s qs with e | ⟨e', e⟩
  · rw [e] at hv; cases hv; exact hu
  · rw [e] at hv; cases hv

theorem emit_words {α : Type} {i : Instr} {s : State} {g : Ctx → α × Ctx} (hg : Emits g) (r : Vector RReg 64)
    (hi : ∀ fd rs, i ≠ .recompose fd rs) : Effect i s { s with ctx := (g s.ctx).2, r := r } :=
  effect_words (hg.ext _) (hg.nstep _) (hg.present _) r hi

/-- Everything a command can do to any state. -/
theorem exec_frame {s t : State} (i : Instr) (he : exec i s = .next t) :
    (∃ e, t = s.raise i.opcode e) ∨ Effect i s t := by
  cases i with
  | decompose rd fs =>
    refine finish_effect (fun u hu => ?_) he
    cases e : decompose s.params s.f fs s.ctx with
    | error e' => rw [e] at hu; cases hu
    | ok r =>
      rw [e] at hu
      cases hu
      obtain ⟨h1, h2, hp, _⟩ := (decompose_emits s.params s.f fs).ok e
      exact effect_words h1 h2 hp (s.r.set rd.val (.written r.1) rd.isLt) (by simp)
  | recompose fd rs =>
    refine finish_effect (fun u hu => ?_) he
    rcases checkR_cases s rs .recomp with ⟨_, e⟩ | ⟨_, e⟩
    · rw [e] at hu
      cases hu
      exact ⟨rfl, rfl, rfl, rfl, Ctx.Extends.refl _, id, .inl rfl, fun h => absurd rfl (h fd rs), fun _ => rfl⟩
    · rw [e] at hu; cases hu
  | mov rd rs => exact checked_effect (effect_words (Ctx.Extends.refl _) rfl id (s.r.set rd.val _ rd.isLt) (by simp)) he
  | add rd a b =>
    exact checked_effect (emit_words (add32_emits s.params.p (s.word a) (s.word b)) (s.r.set rd.val _ rd.isLt) (by simp)) he
  | xor rd a b =>
    exact checked_effect (emit_words (xor32_emits s.params.p (s.word a) (s.word b)) (s.r.set rd.val _ rd.isLt) (by simp)) he
  | rotl rd a n => exact checked_effect (effect_words (Ctx.Extends.refl _) rfl id (s.r.set rd.val _ rd.isLt) (by simp)) he
  | qr a b c d =>
    refine finish_effect (fun u hu => ?_) he
    split at hu
    · rcases checkRs_cases s [(a, .add), (b, .add), (c, .add), (d, .xor)] with e | ⟨e', e⟩
      · rw [e] at hu
        cases hu
        exact emit_words (qrGadget_emits s.params.p ⟨s.word a, s.word b, s.word c, s.word d⟩)
          ((((s.r.set a.val _ a.isLt).set b.val _ b.isLt).set c.val _ c.isLt).set d.val _ d.isLt) (by simp)
      · rw [e] at hu; cases hu
    · cases hu
  | dround =>
    refine checked_effect ?_ he
    rw [setWords_eq]
    exact emit_words (qrGroups_emits s.params.p groups (s.words16 0)) _ (by simp)
  | layout fs =>
    refine finish_effect (fun u hu => ?_) he
    cases e1 : checkRun fs 12 with
    | error e' => rw [e1] at hu; cases hu
    | ok _ =>
      rw [e1] at hu
      cases e : layoutGadget s.params s.f fs s.ctx with
      | error e' => simp only [e] at hu; cases hu
      | ok r =>
        simp only [e, Except.ok.injEq] at hu
        rw [← hu, setWords_eq]
        obtain ⟨h1, h2, hp, _⟩ := (layoutGadget_emits s.params s.f fs).ok e
        exact effect_words h1 h2 hp _ (by simp)
  | snap =>
    refine checked_effect ?_ he
    rw [setWords_eq]
    exact effect_words (Ctx.Extends.refl _) rfl id _ (by simp)
  | perm =>
    refine checked_effect ?_ he
    rw [setWords_eq]
    exact emit_words (permGadget_emits s.params.p (s.words16 0)) _ (by simp)
  | combine =>
    refine checked_effect ?_ he
    rw [setWords_eq]
    exact emit_words (combineGadget_emits s.params.p (s.words16 16) (s.words16 0)) _ (by simp)
  | block fs =>
    refine finish_effect (fun u hu => ?_) he
    cases e1 : checkRun fs 12 with
    | error e' => rw [e1] at hu; cases hu
    | ok _ =>
      rw [e1] at hu
      cases e : blockGadget s.params s.f fs s.ctx with
      | error e' => simp only [e] at hu; cases hu
      | ok b =>
        simp only [e, Except.ok.injEq] at hu
        rw [← hu, setWords_eq, setWords_eq]
        obtain ⟨h1, h2, hp, _⟩ := (blockPair_emits s.params s.f fs).ok (by rw [blockPair, e])
        exact effect_words h1 h2 hp _ (by simp)
  | step fs fx fd =>
    refine finish_effect (fun u hu => ?_) he
    cases e1 : stepChecks fs fx fd s with
    | error e' => rw [e1] at hu; cases hu
    | ok _ =>
      rw [e1] at hu
      cases e : blockGadget s.params s.f fs s.ctx with
      | error e' => simp only [e] at hu; cases hu
      | ok b =>
        cases e2 : cipherWords s.params s.f (((List.range 16).map (runIdx fx)).zip b.keystream.toList) b.ctx with
        | error e' => simp only [e, e2] at hu; cases hu
        | ok r =>
          simp only [e, e2, Except.ok.injEq] at hu
          rw [← hu]
          show Effect _ s (stepResult s fs fd b (toWords 16 r.1) r.2)
          rw [stepResult_eq]
          obtain ⟨h1, h2, hp, _⟩ := (blockPair_emits s.params s.f fs).ok (by rw [blockPair, e])
          obtain ⟨h3, h4, hp', _⟩ := (cipherWords_emits s.params s.f _).ok e2
          have h0 := (stepChecks_ok.1 e1).2.2.2
          have h5 : r.2.nstep = 0 := h4.trans (h2.trans h0)
          exact {
            params := rfl, status := rfl, pending := rfl, replies := rfl
            ext := h1.trans h3
            present := fun hc => hp' (hp hc)
            nstep := .inr ⟨⟨fs, fx, fd, rfl⟩, h0, by show r.2.nstep + 1 = 1; rw [h5]⟩
            f := fun _ h => absurd rfl (h fs fx fd)
            r := fun ⟨_, _, e⟩ => nomatch e }

/-! ### The step count -/

/-- The same state with another step count. -/
def State.atStep (s : State) (n : Nat) : State := { s with ctx := s.ctx.atStep n }

@[simp] theorem atStep_err (s : State) (n : Nat) : (s.atStep n).err = s.err := rfl

theorem raise_atStep (s : State) (n : Nat) (op : BitVec 6) (e : Err) :
    (s.atStep n).raise op e = (s.raise op e).atStep n := by
  rw [raise_eq, raise_eq]; rfl

theorem checkRs_atStep (s : State) (n : Nat) : ∀ qs : List (RIdx × Gadget), (s.atStep n).checkRs qs = s.checkRs qs
  | [] => rfl
  | q :: qs => by
    have h : (s.atStep n).checkR q.1 q.2 = s.checkR q.1 q.2 := rfl
    rw [State.checkRs, State.checkRs, h, checkRs_atStep s n qs]

theorem finish_atStep {op : BitVec 6} {s t : State} {r r' : Except Err State} (n : Nat) (h : finish op s r = .next t)
    (hr : r' = r.map fun u => u.atStep n) : finish op (s.atStep n) r' = .next (t.atStep n) := by
  subst hr
  cases r with
  | ok u => cases h; rfl
  | error e => cases h; exact congrArg _ (raise_atStep s n op e)

theorem checked_atStep {op : BitVec 6} {s t u u' : State} {qs : List (RIdx × Gadget)} (n : Nat)
    (h : finish op s (match s.checkRs qs with | .error e => .error e | .ok _ => .ok u) = .next t) (hu : u' = u.atStep n) :
    finish op (s.atStep n) (match (s.atStep n).checkRs qs with | .error e => .error e | .ok _ => .ok u') =
      .next (t.atStep n) := by
  refine finish_atStep n h ?_
  rw [checkRs_atStep, hu]
  cases s.checkRs qs <;> rfl

theorem setWords_atStep {k : Nat} (s : State) (n base : Nat) (ws : Vector Word32 k) :
    (s.atStep n).setWords base ws = (s.setWords base ws).atStep n := by
  rw [setWords_eq, setWords_eq]; rfl

theorem words16_atStep (s : State) (n base : Nat) : (s.atStep n).words16 base = s.words16 base := rfl

/-- R225: no command but STEP looks at the step count. -/
theorem exec_atStep {s t : State} {i : Instr} (n : Nat) (hi : ∀ fs fx fd, i ≠ .step fs fx fd) (he : exec i s = .next t) :
    exec i (s.atStep n) = .next (t.atStep n) := by
  cases i with
  | decompose rd fs =>
    refine finish_atStep n he ?_
    show (match decompose s.params s.f fs (s.ctx.atStep n) with | .error e => _ | .ok (w, c) => _) = _
    cases e : decompose s.params s.f fs s.ctx with
    | error e' => rw [(decompose_emits _ _ _).error e]; rfl
    | ok r => rw [((decompose_emits _ _ _).ok e).2.2.2]; rfl
  | recompose fd rs =>
    refine finish_atStep n he ?_
    show (match s.checkR rs .recomp with | .error e => _ | .ok _ => _) = _
    have e : recompose (s.atStep n).params (s.atStep n).ctx (s.atStep n |>.word rs) = recompose s.params s.ctx (s.word rs) := by
      show FReg.written _ (some ((s.ctx.atStep n).wordVal (s.word rs)).toNat) = _
      rw [Ctx.atStep_wordVal]; rfl
    rw [e]
    cases s.checkR rs .recomp <;> rfl
  | mov rd rs => exact checked_atStep n he rfl
  | add rd a b =>
    refine checked_atStep n he ?_
    show ((s.atStep n).setCtx (add32 s.params.p (s.word a) (s.word b) (s.ctx.atStep n)).2).setR rd
      (add32 s.params.p (s.word a) (s.word b) (s.ctx.atStep n)).1 = _
    rw [(add32_emits _ _ _).steady]
    rfl
  | xor rd a b =>
    refine checked_atStep n he ?_
    show ((s.atStep n).setCtx (xor32 s.params.p (s.word a) (s.word b) (s.ctx.atStep n)).2).setR rd
      (xor32 s.params.p (s.word a) (s.word b) (s.ctx.atStep n)).1 = _
    rw [(xor32_emits _ _ _).steady]
    rfl
  | rotl rd a k => exact checked_atStep n he rfl
  | qr a b c d =>
    refine finish_atStep n he ?_
    cases distinct4 a b c d with
    | false => rfl
    | true =>
      simp only [if_true]
      rw [checkRs_atStep]
      cases s.checkRs [(a, .add), (b, .add), (c, .add), (d, .xor)] with
      | error e => rfl
      | ok _ =>
        show (fun q : Quad Word32 × Ctx => Except.ok (ε := Err) ((((((s.atStep n).setCtx q.2).setR a q.1.a).setR b q.1.b).setR
          c q.1.c).setR d q.1.d)) (qrGadget s.params.p ⟨s.word a, s.word b, s.word c, s.word d⟩ (s.ctx.atStep n)) = _
        rw [(qrGadget_emits _ _).steady]
        rfl
  | dround =>
    refine checked_atStep n he ?_
    show ((s.atStep n).setCtx (droundGadget s.params.p (s.words16 0) (s.ctx.atStep n)).2).setWords 0
      (droundGadget s.params.p (s.words16 0) (s.ctx.atStep n)).1 = _
    rw [droundGadget, (qrGroups_emits _ _ _).steady, ← setWords_atStep]
    rfl
  | layout fs =>
    refine finish_atStep n he ?_
    cases checkRun fs 12 with
    | error e' => rfl
    | ok _ =>
      show (match layoutGadget s.params s.f fs (s.ctx.atStep n) with | .error e => _ | .ok (w, c) => _) = _
      cases e : layoutGadget s.params s.f fs s.ctx with
      | error e' => simp only [(layoutGadget_emits _ _ _).error e]; rfl
      | ok r =>
        simp only [((layoutGadget_emits _ _ _).ok e).2.2.2, Except.map]
        rw [← setWords_atStep]
        rfl
  | snap =>
    refine checked_atStep n he ?_
    rw [setWords_atStep, words16_atStep]
  | perm =>
    refine checked_atStep n he ?_
    show ((s.atStep n).setCtx (permGadget s.params.p (s.words16 0) (s.ctx.atStep n)).2).setWords 0
      (permGadget s.params.p (s.words16 0) (s.ctx.atStep n)).1 = _
    rw [(permGadget_emits _ _).steady, ← setWords_atStep]
    rfl
  | combine =>
    refine checked_atStep n he ?_
    show ((s.atStep n).setCtx (combineGadget s.params.p (s.words16 16) (s.words16 0) (s.ctx.atStep n)).2).setWords 0
      (combineGadget s.params.p (s.words16 16) (s.words16 0) (s.ctx.atStep n)).1 = _
    rw [(combineGadget_emits _ _ _).steady, ← setWords_atStep]
    rfl
  | block fs =>
    refine finish_atStep n he ?_
    cases checkRun fs 12 with
    | error e' => rfl
    | ok _ =>
      show (match blockGadget s.params s.f fs (s.ctx.atStep n) with | .error e => _ | .ok b => _) = _
      cases e : blockGadget s.params s.f fs s.ctx with
      | error e' =>
        have h := (blockPair_emits s.params s.f fs).error (by rw [blockPair, e]) n
        cases e2 : blockGadget s.params s.f fs (s.ctx.atStep n) with
        | error e'' => rw [blockPair, e2] at h; cases h; rfl
        | ok b => rw [blockPair, e2] at h; cases h
      | ok b =>
        have h := ((blockPair_emits s.params s.f fs).ok (by rw [blockPair, e])).2.2.2 n
        cases e2 : blockGadget s.params s.f fs (s.ctx.atStep n) with
        | error e'' => rw [blockPair, e2] at h; cases h
        | ok b' =>
          rw [blockPair, e2] at h
          simp only [Except.ok.injEq, Prod.mk.injEq] at h
          obtain ⟨⟨h1, h2⟩, h3⟩ := h
          simp only [Except.map]
          rw [h1, h2, h3, ← setWords_atStep, ← setWords_atStep]
          rfl
  | step fs fx fd => exact absurd rfl (hi fs fx fd)

end Sys2Proof.Machine
end

