-- ==== Sys2Proof/Laws/Host.lean ====
section
/-! SUPPORT. Everything a host operation and a step can do, said once (R235, R60, R227). -/

namespace Sys2Proof.Machine

/-- The state H_WRITE_F(i, v) leaves while ERR = 0. -/
def State.bound (s : State) (i : FIdx) (x : Option Nat) : State :=
  (s.setCtx (s.ctx.alloc x).2).setF i (.written (LC.single s.ctx.assign.length) x)

theorem hostWriteF_eq (s : State) (i : FIdx) (v : Option Nat) (he : s.err = false) :
    hostOp (.writeF i.val v) s = .next (s.bound i (v.map fun n => n % s.params.p)) := by
  simp only [hostOp, hostWriteF, i.isLt, he, dif_pos, Bool.false_eq_true, if_false]
  rfl

/-- Everything a host operation can do when it is not refused. -/
inductive OpResult (s : State) : HostOp → State → Prop where
  | opened : OpResult s .openCtx s.openCtx
  | ignoredWrite {i : Nat} {v : Option Nat} (he : s.err = true) : OpResult s (.writeF i v) s
  | bound (i : FIdx) {v : Option Nat} (he : s.err = false) :
      OpResult s (.writeF i.val v) (s.bound i (v.map fun n => n % s.params.p))
  | ignoredIssue {w : Word} (he : s.err = true) : OpResult s (.issue w) s
  | illegal {w : Word} {e : DecodeError} (he : s.err = false) (hd : decode w = .error e) :
      OpResult s (.issue w) (s.raise (opcodeField w) .illegal)
  | executed {w : Word} {i : Instr} {t : State} (he : s.err = false) (hd : decode w = .ok i)
      (hx : exec i s = .next t) : OpResult s (.issue w) t
  | replied {op : HostOp} {y : Reply} (ho : op ≠ .openCtx) (hw : ∀ i v, op ≠ .writeF i v) (hi : ∀ w, op ≠ .issue w) :
      OpResult s op (s.reply y)

theorem hostOp_cases {s t : State} {op : HostOp} (h : hostOp op s = .next t) : OpResult s op t := by
  cases op with
  | openCtx => cases h; exact .opened
  | writeF i v =>
    by_cases hi : i < 128
    · cases he : s.err with
      | true =>
        simp only [hostOp, hostWriteF, hi, he, dif_pos, if_true] at h
        cases h
        exact .ignoredWrite he
      | false =>
        have e := hostWriteF_eq s ⟨i, hi⟩ v he
        rw [show hostOp (.writeF i v) s = _ from e] at h
        cases h
        exact .bound ⟨i, hi⟩ he
    · simp only [hostOp, hostWriteF, hi, dif_neg, not_false_eq_true] at h
      cases h
  | issue w =>
    simp only [hostOp, hostIssue] at h
    cases he : s.err with
    | true => rw [he] at h; cases h; exact .ignoredIssue he
    | false =>
      rw [he] at h
      cases hd : decode w with
      | ok i => rw [hd] at h; exact .executed he hd h
      | error e => rw [hd] at h; cases h; exact .illegal he hd
  | readF i => simp only [hostOp, hostReadF] at h; split at h <;> cases h; exact .replied nofun nofun nofun
  | readR i => simp only [hostOp, hostReadR] at h; split at h <;> cases h; exact .replied nofun nofun nofun
  | readStatus => cases h; exact .replied nofun nofun nofun
  | readId k => simp only [hostOp, hostReadId] at h; split at h <;> cases h; exact .replied nofun nofun nofun
  | readCtx => cases h; exact .replied nofun nofun nofun

/-- Everything a step can do when it is not refused: nothing, or the host's next operation. -/
theorem step_cases {s t : State} (h : step s = .next t) :
    (s.pending = [] ∧ t = s) ∨
      ∃ op ops, s.pending = op :: ops ∧ OpResult { s with pending := ops } op t := by
  unfold step nextOp at h
  split at h
  · rename_i e; cases h; exact .inl ⟨e, rfl⟩
  · rename_i op ops e; exact .inr ⟨op, ops, e, hostOp_cases h⟩

section
variable (s : State) (i : FIdx) (x : Option Nat)

@[simp] theorem bound_params : (s.bound i x).params = s.params := rfl
@[simp] theorem bound_r : (s.bound i x).r = s.r := rfl
@[simp] theorem bound_status : (s.bound i x).status = s.status := rfl
@[simp] theorem bound_pending : (s.bound i x).pending = s.pending := rfl
@[simp] theorem bound_replies : (s.bound i x).replies = s.replies := rfl
@[simp] theorem bound_assign : (s.bound i x).ctx.assign = s.ctx.assign ++ [x] := rfl
@[simp] theorem bound_cons : (s.bound i x).ctx.cons = s.ctx.cons := rfl
@[simp] theorem bound_nstep : (s.bound i x).ctx.nstep = s.ctx.nstep := rfl
theorem bound_get (j : FIdx) :
    (s.bound i x).f[j] = if i = j then .written (LC.single s.ctx.assign.length) x else s.f[j] := setF_get _ j i _
theorem bound_ext : s.ctx.Extends (s.bound i x).ctx := ⟨⟨[x], rfl⟩, [], by simp⟩

end

/-- Taking an error leaves everything but STATUS. -/
theorem raise_congr {s : State} {op : BitVec 6} {e : Err} (he : s.err = false) :
    s.raise op e = { s with status := statusWord op e } := by simp [raise_eq, he]

/-- Two states with the same STATUS are both in form or neither is. -/
theorem statusOk_congr {s t : State} (e : t.status = s.status) (h : s.StatusOk) : t.StatusOk where
  reserved := by simpa [State.reservedBits, e] using h.reserved
  kind := by simpa [State.kind, e] using h.kind
  gadget := by simpa [State.gadget, e] using h.gadget
  clear := by simpa [State.err, e] using h.clear

theorem fresh_statusOk (P : Params) (ops : List HostOp) (rs : List Reply) : (State.fresh P ops rs).StatusOk := by
  constructor <;> simp [State.reservedBits, State.kind, State.gadget, State.fresh]

theorem fresh_err (P : Params) (ops : List HostOp) (rs : List Reply) : (State.fresh P ops rs).err = false := by
  simp [State.err, State.fresh]

end Sys2Proof.Machine
end

