-- ==== Sys2Proof/Laws/Results.lean ====
section
/-! SUPPORT. The pieces a command's result and frame are read from: registers after a write, values under a grown context,
and what a decomposition of a register with a value gives. -/

namespace Sys2Proof.Machine

/-! ### Registers after a write -/

theorem set_other {r : Vector RReg 64} {k j : RIdx} {x : RReg} (h : ¬ j = k) : (r.set k.val x k.isLt)[j] = r[j] := by
  simp only [Fin.getElem_fin, Vector.getElem_set]
  rw [if_neg fun e => h (Fin.ext e.symm)]

theorem set_same {r : Vector RReg 64} {k : RIdx} {x : RReg} : (r.set k.val x k.isLt)[k] = x := by simp

theorem putWords_in {n base : Nat} {ws : Vector Word32 n} {r : Vector RReg 64} {i : Nat} (hi : i < n) (hb : base + n ≤ 64) :
    (putWords base ws r)[wordIdx base i] = .written ws[i] := by
  have hv : (wordIdx base i).val = base + i := by
    show (base + i) % 64 = base + i
    exact Nat.mod_eq_of_lt (by omega)
  rw [putWords_get, dif_pos (by omega)]
  congr 2
  omega

theorem putWords_out {n base : Nat} {ws : Vector Word32 n} {r : Vector RReg 64} {j : RIdx}
    (h : ¬ (base ≤ j.val ∧ j.val < base + n)) : (putWords base ws r)[j] = r[j] := by
  rw [putWords_get, dif_neg h]

theorem putFields_in {n : Nat} {base : FIdx} {xs : Vector FReg n} {f : Vector FReg 128} {i : Nat} (hi : i < n)
    (hb : base.val + n ≤ 128) : (putFields base.val xs f)[runIdx base i] = xs[i] := by
  have hv : (runIdx base i).val = base.val + i := by
    show (base.val + i) % 128 = base.val + i
    exact Nat.mod_eq_of_lt (by omega)
  rw [putFields_get, dif_pos (by omega)]
  congr 1
  omega

theorem putFields_out {n base : Nat} {xs : Vector FReg n} {f : Vector FReg 128} {i : FIdx}
    (h : ¬ (base ≤ i.val ∧ i.val < base + n)) : (putFields base xs f)[i] = f[i] := by
  rw [putFields_get, dif_neg h]

theorem runIdx_val {base : FIdx} {k : Nat} (h : base.val + k < 128) : (runIdx base k).val = base.val + k := by
  show (base.val + k) % 128 = base.val + k
  exact Nat.mod_eq_of_lt h

theorem wordIdx_val {base k : Nat} (h : base + k < 64) : (wordIdx base k).val = base + k := by
  show (base + k) % 64 = base + k
  exact Nat.mod_eq_of_lt h

/-! ### Values -/

/-- A register with a value is written, and the value is its word's. -/
theorem written_of_rval {s : State} {j : RIdx} {x : Word} (h : s.rval j = some x) :
    s.r[j] ≠ .unwritten ∧ s.ctx.wordVal (s.word j) = x := by
  unfold State.rval at h
  unfold State.word
  cases e : s.r[j] with
  | unwritten => rw [e] at h; cases h
  | written w => rw [e] at h; cases h; exact ⟨by simp, rfl⟩

/-- The value of a written register. -/
theorem rval_of {t : State} {j : RIdx} {w : Word32} {x : Word} (hj : t.r[j] = .written w) (hw : t.ctx.Holds w x) :
    t.rval j = some x := by
  unfold State.rval
  rw [hj]
  exact congrArg some hw.2

theorem rval_setR (s : State) {c : Ctx} {w : Word32} {k : RIdx} {x : Word} (hw : c.Holds w x) :
    ((s.setCtx c).setR k w).rval k = some x := rval_of (by rw [setR_get, if_pos rfl]) hw

theorem word_of {t : State} {j : RIdx} {w : Word32} (h : t.r[j] = .written w) : t.word j = w := by
  unfold State.word; rw [h]; rfl

/-- A run of 16 word registers that hold 16 words. -/
theorem run_of {t : State} {base : Nat} {ws : Vector Word32 16}
    (hr : ∀ (i : Nat) (hi : i < 16), t.r[wordIdx base i] = .written ws[i]) :
    t.Written16 base ∧ t.words16 base = ws := by
  refine ⟨fun i hi => by rw [hr i hi]; nofun, ?_⟩
  ext1 i hi
  rw [State.words16, Vector.getElem_ofFn]
  exact word_of (hr i hi)

theorem vals_of {t : State} {base : Nat} {ws : Vector Word32 16} {vs : Vector Word 16}
    (hr : ∀ (i : Nat) (hi : i < 16), t.r[wordIdx base i] = .written ws[i]) (ho : t.ctx.HoldsV ws vs) :
    t.Written16 base ∧ t.vals16 base = vs := by
  obtain ⟨h1, h2⟩ := run_of hr
  exact ⟨h1, by rw [State.vals16, h2]; exact Ctx.HoldsV.map_eq ho⟩

/-- The layout of a run's values, as the spec names them (R162). -/
theorem layoutOf_values (s : State) (fs : FIdx) :
    layoutOf (((layoutReads fs).map fun i => (s.f[i].val).getD 0).map low32) =
      wordLayout (s.keyWords fs) (s.counterWord fs) (s.nonceWords fs) := by
  unfold layoutOf wordLayout
  congr 1

/-- A field register with a value. -/
theorem fval_written {s : State} {i : FIdx} {N : Nat} (h : s.fval i = some N) : ∃ L, s.f[i] = .written L (some N) := by
  unfold State.fval at h
  cases e : s.f[i] with
  | unwritten => rw [e] at h; cases h
  | written L v => rw [e] at h; cases h; exact ⟨L, rfl⟩

/-- The frame of a command that emits and writes the word registers of W, in a well-formed state. -/
theorem wordsOnly_of {s : State} (h : s.Inv) {c : Ctx} (g : s.ctx.Extends c) (hn : c.nstep = s.ctx.nstep)
    {W : RIdx → Prop} {r : Vector RReg 64} (hr : ∀ j, ¬ W j → r[j] = s.r[j]) :
    WordsOnly s { s with ctx := c, r := r } W where
  params := rfl
  f := rfl
  status := rfl
  pending := rfl
  replies := rfl
  r := hr
  vals := fun j hj => by
    cases e : s.r[j] with
    | unwritten =>
      have e' : r[j] = .unwritten := (hr j hj).trans e
      unfold State.rval
      simp only [e, e']
    | written w =>
      rw [rval_of e ⟨h.words j w e, rfl⟩]
      exact rval_of ((hr j hj).trans e) ⟨(g.word (h.words j w e)).1, (g.word (h.words j w e)).2⟩
  ctx := g
  nstep := hn

/-- The frame of a command that emits nothing and writes the word registers of W, in any state. -/
theorem wordsOnly_same {s : State} {W : RIdx → Prop} {r : Vector RReg 64} (hr : ∀ j, ¬ W j → r[j] = s.r[j]) :
    WordsOnly s { s with r := r } W where
  params := rfl
  f := rfl
  status := rfl
  pending := rfl
  replies := rfl
  r := hr
  vals := fun j hj => by
    unfold State.rval
    simp only [hr j hj]
  ctx := Ctx.Extends.refl _
  nstep := rfl

/-- Everything DEC's decomposition gives for a register with a value. -/
theorem decompose_of_value {s : State} (h : s.Inv) {fs : FIdx} {N : Nat} (hv : s.fval fs = some N) :
    ∃ w c, decompose s.params s.f fs s.ctx = .ok (w, c) ∧ Grows s.params.p s.ctx c ∧ c.Holds w (low32 N) ∧
      w = Vector.ofFn (fun k : Fin 32 => Signal.var (s.ctx.assign.length + k.val)) ∧
      Delta s.ctx c s.params.decVars s.params.decCons ∧
      ∀ z, Sat s.params.p z c → ∃ v, ZDec s.params z s.f[fs].lc v ∧ ZHolds z w v := by
  obtain ⟨L, e1⟩ := fval_written hv
  have e := decompose_some s.params e1 s.ctx
  have hm := Params.Valid.m_ge h.params
  have hd := decomposeBits_delta s.params L N (Ctx.Ok.length_pos h.ctx) hm
  have hw := fun k hk => decomposeBits_word s.params L N s.ctx k hk hm
  generalize decomposeBits s.params L N s.ctx = r at e hd hw
  obtain ⟨w, c⟩ := r
  obtain ⟨N2, hN, g, ho, sd⟩ := decompose_spec h.params h.ctx h.fieldsOk e
  rw [e1] at hN
  cases hN
  refine ⟨w, c, e, g, ho, ?_, hd.2, sd⟩
  ext k hk
  rw [Vector.getElem_ofFn]
  exact hw k hk

/-! ### What each command answers when its operands are in order -/

section
variable {s : State}

theorem exec_dec {fs : FIdx} {w : Word32} {c : Ctx} (rd : RIdx) (e : decompose s.params s.f fs s.ctx = .ok (w, c)) :
    exec (.decompose rd fs) s = .next ((s.setCtx c).setR rd w) := by simp only [exec, execDec, e, finish]

theorem exec_rec {rs : RIdx} (fd : FIdx) (h : s.r[rs] ≠ .unwritten) :
    exec (.recompose fd rs) s = .next (s.setF fd (recompose s.params s.ctx (s.word rs))) := by
  have e : s.checkR rs .recomp = .ok () := by rw [State.checkR, word_mem h]
  simp only [exec, execRec, e, finish]

theorem exec_word {op : BitVec 6} {checks : List (RIdx × Gadget)} (rd : RIdx) (x : Word32 × Ctx)
    (h : ∀ q ∈ checks, s.r[q.1] ≠ .unwritten) :
    wordCommand op checks rd x s = .next ((s.setCtx x.2).setR rd x.1) := by
  simp only [wordCommand, checkRs_ok.2 h, finish]

theorem exec_mov {rs : RIdx} (rd : RIdx) (h : s.r[rs] ≠ .unwritten) :
    exec (.mov rd rs) s = .next (s.setR rd (s.word rs)) :=
  exec_word rd (s.word rs, s.ctx) fun q hq => by rw [List.mem_singleton.1 hq]; exact h

theorem pair_written {a b : RIdx} {g g' : Gadget} (ha : s.r[a] ≠ .unwritten) (hb : s.r[b] ≠ .unwritten) :
    ∀ q ∈ [(a, g), (b, g')], s.r[q.1] ≠ .unwritten := by
  intro q hq
  rcases List.mem_cons.1 hq with rfl | hq
  · exact ha
  · rw [List.mem_singleton.1 hq]; exact hb

theorem exec_add {a b : RIdx} (rd : RIdx) (ha : s.r[a] ≠ .unwritten) (hb : s.r[b] ≠ .unwritten) :
    exec (.add rd a b) s = .next ((s.setCtx (add32 s.params.p (s.word a) (s.word b) s.ctx).2).setR rd
      (add32 s.params.p (s.word a) (s.word b) s.ctx).1) := exec_word rd _ (pair_written ha hb)

theorem exec_xor {a b : RIdx} (rd : RIdx) (ha : s.r[a] ≠ .unwritten) (hb : s.r[b] ≠ .unwritten) :
    exec (.xor rd a b) s = .next ((s.setCtx (xor32 s.params.p (s.word a) (s.word b) s.ctx).2).setR rd
      (xor32 s.params.p (s.word a) (s.word b) s.ctx).1) := exec_word rd _ (pair_written ha hb)

theorem exec_rotl {rs : RIdx} (rd : RIdx) (n : Fin 32) (h : s.r[rs] ≠ .unwritten) :
    exec (.rotl rd rs n) s = .next (s.setR rd (rot (s.word rs) n)) :=
  exec_word rd (rot (s.word rs) n, s.ctx) fun q hq => by rw [List.mem_singleton.1 hq]; exact h

theorem exec_qr {a b c d : RIdx} (hq : distinct4 a b c d = true) (ha : s.r[a] ≠ .unwritten) (hb : s.r[b] ≠ .unwritten)
    (hc : s.r[c] ≠ .unwritten) (hd : s.r[d] ≠ .unwritten) :
    exec (.qr a b c d) s = .next
      (let q := qrGadget s.params.p ⟨s.word a, s.word b, s.word c, s.word d⟩ s.ctx
       ((((s.setCtx q.2).setR a q.1.a).setR b q.1.b).setR c q.1.c).setR d q.1.d) := by
  have e : s.checkRs [(a, .add), (b, .add), (c, .add), (d, .xor)] = .ok () := checkRs_ok.2 fun q hq => by
    rcases List.mem_cons.1 hq with rfl | hq
    · exact ha
    rcases List.mem_cons.1 hq with rfl | hq
    · exact hb
    · exact pair_written hc hd q hq
  simp only [exec, execQr, hq, e, finish, if_true]

theorem exec_dround (h : s.Written16 0) :
    exec .dround s = .next ((s.setCtx (droundGadget s.params.p (s.words16 0) s.ctx).2).setWords 0
      (droundGadget s.params.p (s.words16 0) s.ctx).1) := by
  simp only [exec, execDround, roundChecks_iff.2 h, finish]

theorem exec_perm (h : s.Written16 0) :
    exec .perm s = .next ((s.setCtx (permGadget s.params.p (s.words16 0) s.ctx).2).setWords 0
      (permGadget s.params.p (s.words16 0) s.ctx).1) := by
  simp only [exec, execPerm, roundChecks_iff.2 h, finish]

theorem exec_snap (h : s.Written16 0) : exec .snap s = .next (s.setWords 16 (s.words16 0)) := by
  simp only [exec, execSnap, snapChecks_iff.2 h, finish]

theorem exec_combine (h0 : s.Written16 0) (h16 : s.Written16 16) :
    exec .combine s = .next ((s.setCtx (combineGadget s.params.p (s.words16 16) (s.words16 0) s.ctx).2).setWords 0
      (combineGadget s.params.p (s.words16 16) (s.words16 0) s.ctx).1) := by
  simp only [exec, execCombine, combineChecks_iff.2 ⟨h16, h0⟩, finish]

theorem exec_layout {fs : FIdx} {w : Vector Word32 16} {c : Ctx} (hf : fs.val ≤ 116)
    (e : layoutGadget s.params s.f fs s.ctx = .ok (w, c)) :
    exec (.layout fs) s = .next ((s.setCtx c).setWords 0 w) := by
  simp only [exec, execLayout, checkRun_ok (show fs.val + 12 ≤ 128 by omega), e, finish]

theorem exec_block {fs : FIdx} {b : BlockResult} (hf : fs.val ≤ 116)
    (e : blockGadget s.params s.f fs s.ctx = .ok b) :
    exec (.block fs) s = .next (((s.setCtx b.ctx).setWords 0 b.keystream).setWords 16 b.layout) := by
  simp only [exec, execBlock, checkRun_ok (show fs.val + 12 ≤ 128 by omega), e, finish]

end

/-- QR's four registers afterwards (R151). -/
theorem qr_registers (s : State) {a b c d : RIdx} (hq : distinct4 a b c d = true) (q : Quad Word32 × Ctx) :
    let t := ((((s.setCtx q.2).setR a q.1.a).setR b q.1.b).setR c q.1.c).setR d q.1.d
    t.r[a] = .written q.1.a ∧ t.r[b] = .written q.1.b ∧ t.r[c] = .written q.1.c ∧ t.r[d] = .written q.1.d ∧
      ∀ j, ¬ (j = a ∨ j = b ∨ j = c ∨ j = d) → t.r[j] = s.r[j] := by
  have hne : a ≠ b ∧ a ≠ c ∧ a ≠ d ∧ b ≠ c ∧ b ≠ d ∧ c ≠ d := by simpa [distinct4, and_assoc] using hq
  obtain ⟨n1, n2, n3, n4, n5, n6⟩ := hne
  refine ⟨?_, ?_, ?_, ?_, fun j hj => ?_⟩
  · rw [setR_get, if_neg n3.symm, setR_get, if_neg n2.symm, setR_get, if_neg n1.symm, setR_get, if_pos rfl]
  · rw [setR_get, if_neg n5.symm, setR_get, if_neg n4.symm, setR_get, if_pos rfl]
  · rw [setR_get, if_neg n6.symm, setR_get, if_pos rfl]
  · rw [setR_get, if_pos rfl]
  · rw [setR_get, if_neg fun e => hj (by simp [e]), setR_get, if_neg fun e => hj (by simp [e]), setR_get,
      if_neg fun e => hj (by simp [e]), setR_get, if_neg fun e => hj (by simp [e]), setCtx_r]

/-! ### Runs of word registers -/

section
variable {s : State}

/-- A command that writes one run of 16 words: what the run holds and the frame. -/
theorem run_result (h : s.Inv) {base : Nat} (hb : base + 16 ≤ 64) {c : Ctx} (g : Grows s.params.p s.ctx c)
    {ws : Vector Word32 16} {vs : Vector Word 16} (ho : c.HoldsV ws vs) :
    ((s.setCtx c).setWords base ws).Written16 base ∧ ((s.setCtx c).setWords base ws).vals16 base = vs ∧
      WordsOnly s ((s.setCtx c).setWords base ws) fun j => base ≤ j.val ∧ j.val < base + 16 := by
  rw [setWords_eq]
  have hr : ∀ (i : Nat) (hi : i < 16), (putWords base ws (s.setCtx c).r)[wordIdx base i] = .written ws[i] :=
    fun i hi => putWords_in hi hb
  obtain ⟨h1, h2⟩ := vals_of (t := { s with ctx := c, r := putWords base ws s.r }) hr ho
  exact ⟨h1, h2, wordsOnly_of h g.ext g.nstep fun j hj => putWords_out hj⟩

/-- The frame with the written registers named another way. -/
theorem WordsOnly.weaken {t : State} {W W' : RIdx → Prop} (h : WordsOnly s t W) (hW : ∀ j, W j → W' j) :
    WordsOnly s t W' :=
  { h with r := fun j hj => h.r j fun hw => hj (hW j hw), vals := fun j hj => h.vals j fun hw => hj (hW j hw) }

/-- BLOCK's two runs (R171). -/
theorem block_result (h : s.Inv) {b : BlockResult} (g : Grows s.params.p s.ctx b.ctx) {ks ls : Vector Word 16}
    (hk : b.ctx.HoldsV b.keystream ks) (hl : b.ctx.HoldsV b.layout ls) :
    let t := ((s.setCtx b.ctx).setWords 0 b.keystream).setWords 16 b.layout
    t.Written16 0 ∧ t.Written16 16 ∧ t.vals16 0 = ks ∧ t.vals16 16 = ls ∧ WordsOnly s t fun j => j.val < 32 := by
  intro t
  have e : t = { s with ctx := b.ctx, r := putWords 16 b.layout (putWords 0 b.keystream s.r) } := by
    show ((s.setCtx b.ctx).setWords 0 b.keystream).setWords 16 b.layout = _
    rw [setWords_eq, setWords_eq]
    rfl
  have h0 : ∀ (i : Nat) (hi : i < 16), (putWords 16 b.layout (putWords 0 b.keystream s.r))[wordIdx 0 i] =
      .written b.keystream[i] := fun i hi => by
    rw [putWords_out (by rw [wordIdx_val (by omega)]; omega), putWords_in hi (by decide)]
  have h16 : ∀ (i : Nat) (hi : i < 16), (putWords 16 b.layout (putWords 0 b.keystream s.r))[wordIdx 16 i] =
      .written b.layout[i] := fun i hi => putWords_in hi (by decide)
  rw [e]
  obtain ⟨a1, a2⟩ := vals_of (t := { s with ctx := b.ctx, r := putWords 16 b.layout (putWords 0 b.keystream s.r) }) h0 hk
  obtain ⟨b1, b2⟩ := vals_of (t := { s with ctx := b.ctx, r := putWords 16 b.layout (putWords 0 b.keystream s.r) }) h16 hl
  exact ⟨a1, b1, a2, b2, wordsOnly_of h g.ext g.nstep fun j hj => by
    rw [putWords_out (by omega), putWords_out (by omega)]⟩

end

/-! ### STEP -/

/-- A STEP whose checks pass and whose operands have values ends in its whole result. -/
theorem exec_step_some {s : State} {fs fx fd : FIdx} (hc : fs.val ≤ 100 ∧ fx.val ≤ 112 ∧ fd.val ≤ 100 ∧ s.ctx.nstep = 0)
    (hs : s.HasValues fs 12) (hx : s.HasValues fx 16) :
    ∃ b ws c, blockGadget s.params s.f fs s.ctx = .ok b ∧
      cipherWords s.params s.f (((List.range 16).map (runIdx fx)).zip b.keystream.toList) b.ctx = .ok (ws, c) ∧
      exec (.step fs fx fd) s = .next (stepResult s fs fd b (toWords 16 ws) c) := by
  obtain ⟨b, e1⟩ := blockGadget_some hs
  obtain ⟨ws, c, e2⟩ := cipher_some s.params b.keystream b.ctx hx
  exact ⟨b, ws, c, e1, e2, execStep_eq (stepChecks_ok.2 hc) e1 e2⟩

/-- A STEP that raised no error went through its whole body. -/
theorem exec_step_inv {s t : State} {fs fx fd : FIdx} (he : s.err = false) (hx : exec (.step fs fx fd) s = .next t)
    (hst : t.status = s.status) :
    (fs.val ≤ 100 ∧ fx.val ≤ 112 ∧ fd.val ≤ 100 ∧ s.ctx.nstep = 0) ∧ ∃ b ws c,
      blockGadget s.params s.f fs s.ctx = .ok b ∧
      cipherWords s.params s.f (((List.range 16).map (runIdx fx)).zip b.keystream.toList) b.ctx = .ok (ws, c) ∧
      t = stepResult s fs fd b (toWords 16 ws) c := by
  have hno : ∀ e : Err, (Host.Outcome.next (s.raise 0x0F e) : Host.Outcome State Fault Refusal) ≠ .next t := fun e h => by
    cases h
    have h1 := raise_err s 0x0F e
    unfold State.err at h1 he
    rw [hst, he] at h1
    cases h1
  simp only [exec, execStep, finish] at hx
  cases e1 : stepChecks fs fx fd s with
  | error e' => rw [e1] at hx; exact absurd hx (hno e')
  | ok _ =>
    rw [e1] at hx
    cases e : blockGadget s.params s.f fs s.ctx with
    | error e' => rw [e] at hx; exact absurd hx (hno e')
    | ok b =>
      rw [e] at hx
      cases e2 : cipherWords s.params s.f (((List.range 16).map (runIdx fx)).zip b.keystream.toList) b.ctx with
      | error e' => simp only [e2] at hx; exact absurd hx (hno e')
      | ok r =>
        simp only [e2, Host.Outcome.next.injEq] at hx
        exact ⟨stepChecks_ok.1 e1, b, r.1, r.2, rfl, e2, hx.symm⟩

/-- The word registers after a STEP. -/
theorem stepResult_runs (s : State) (fs fd : FIdx) (b : BlockResult) (w : Vector Word32 16) (c : Ctx) :
    (∀ (i : Nat) (hi : i < 16), (stepResult s fs fd b w c).r[wordIdx 0 i] = .written b.keystream[i]) ∧
      (∀ (i : Nat) (hi : i < 16), (stepResult s fs fd b w c).r[wordIdx 16 i] = .written b.layout[i]) ∧
      (∀ (i : Nat) (hi : i < 16), (stepResult s fs fd b w c).r[wordIdx 32 i] = .written w[i]) ∧
      ∀ j : RIdx, 48 ≤ j.val → (stepResult s fs fd b w c).r[j] = s.r[j] := by
  rw [stepResult_eq]
  refine ⟨fun i hi => ?_, fun i hi => ?_, fun i hi => putWords_in hi (by decide), fun j hj => ?_⟩
  · show (putWords 32 w (putWords 16 b.layout (putWords 0 b.keystream s.r)))[wordIdx 0 i] = _
    rw [putWords_out (by rw [wordIdx_val (by omega)]; omega), putWords_out (by rw [wordIdx_val (by omega)]; omega),
      putWords_in hi (by decide)]
  · show (putWords 32 w (putWords 16 b.layout (putWords 0 b.keystream s.r)))[wordIdx 16 i] = _
    rw [putWords_out (by rw [wordIdx_val (by omega)]; omega), putWords_in hi (by decide)]
  · show (putWords 32 w (putWords 16 b.layout (putWords 0 b.keystream s.r)))[j] = _
    rw [putWords_out (by omega), putWords_out (by omega), putWords_out (by omega)]

/-- The field registers after a STEP. -/
theorem stepResult_fields (s : State) (fs fd : FIdx) (b : BlockResult) (w : Vector Word32 16) (c : Ctx)
    (hd : fd.val ≤ 100) :
    (∀ (k : Nat) (hk : k < 28), (stepResult s fs fd b w c).f[runIdx fd k] = (nextState s.params s.f fs c w)[k]) ∧
      ∀ i : FIdx, i.val < fd.val ∨ fd.val + 28 ≤ i.val → (stepResult s fs fd b w c).f[i] = s.f[i] := by
  rw [stepResult_eq]
  exact ⟨fun k hk => putFields_in hk (by omega), fun i hi => putFields_out (by omega)⟩

theorem stepResult_ctx (s : State) (fs fd : FIdx) (b : BlockResult) (w : Vector Word32 16) (c : Ctx) :
    (stepResult s fs fd b w c).ctx = c.countStep := by rw [stepResult_eq]

/-! ### The operand checks, as R229 lists them -/

/-- The operand checks of a list of word registers. -/
def rOrder (qs : List (RIdx × Gadget)) : List OperandCheck := qs.map fun q => ⟨q.2, .r, q.1.val⟩
/-- The operand checks of a list of field registers. -/
def fOrder (is : List FIdx) : List OperandCheck := is.map fun i => ⟨.dec, .f, i.val⟩

theorem has_r (s : State) (q : RIdx × Gadget) : s.Has ⟨q.2, .r, q.1.val⟩ ↔ s.r[q.1] ≠ .unwritten := by
  unfold State.Has; simp

theorem has_f (s : State) (i : FIdx) (g : Gadget) : s.Has ⟨g, .f, i.val⟩ ↔ s.f[i].val ≠ none := by
  unfold State.Has State.fval; simp

/-- R229, for word registers. -/
theorem checkRs_missing {s : State} {qs : List (RIdx × Gadget)} {pre post : List OperandCheck} {q : OperandCheck}
    (h : rOrder qs = pre ++ q :: post) (hp : ∀ u ∈ pre, s.Has u) (hq : ¬ s.Has q) :
    s.checkRs qs = .error (.decomposition q.gadget q.space q.index) := by
  obtain ⟨a, b, rfl, ha, hb⟩ := List.map_eq_append_iff.1 h
  obtain ⟨c, d, rfl, hc, hd⟩ := List.map_eq_cons_iff.1 hb
  subst hc
  subst ha
  refine checkRs_first (fun u hu => ?_) ?_
  · exact (has_r s u).1 (hp _ (List.mem_map.2 ⟨u, hu, rfl⟩))
  · by_contra hh; exact hq ((has_r s c).2 hh)

theorem checkRs_has {s : State} {qs : List (RIdx × Gadget)} : (∀ q ∈ rOrder qs, s.Has q) ↔ s.checkRs qs = .ok () := by
  rw [checkRs_ok]
  simp only [rOrder, List.mem_map, forall_exists_index, and_imp, forall_apply_eq_imp_iff₂, has_r]

/-- R229, for field registers. -/
theorem fOrder_missing {s : State} {is : List FIdx} {pre post : List OperandCheck} {q : OperandCheck}
    (h : fOrder is = pre ++ q :: post) (hp : ∀ u ∈ pre, s.Has u) (hq : ¬ s.Has q) :
    ∃ a i b, is = a ++ i :: b ∧ (∀ j ∈ a, s.f[j].val ≠ none) ∧ s.f[i].val = none ∧ q = ⟨.dec, .f, i.val⟩ := by
  obtain ⟨a, b, rfl, ha, hb⟩ := List.map_eq_append_iff.1 h
  obtain ⟨c, d, rfl, hc, hd⟩ := List.map_eq_cons_iff.1 hb
  subst hc
  subst ha
  refine ⟨a, c, d, rfl, fun u hu => ?_, ?_, rfl⟩
  · exact (has_f s u _).1 (hp _ (List.mem_map.2 ⟨u, hu, rfl⟩))
  · by_contra hh; exact hq ((has_f s c _).2 hh)

theorem blockOrder_eq {fs : FIdx} (h : fs.val ≤ 116) : blockOrder fs = fOrder (layoutReads fs) := by
  simp only [blockOrder, fOrder, layoutReads, List.map_cons, List.map_nil]
  have : ∀ k, k < 12 → (runIdx fs k).val = fs.val + k := fun k hk => runIdx_val (by omega)
  simp [this]

theorem fxOrder_eq {fx : FIdx} (h : fx.val ≤ 112) :
    ((List.range 16).map fun i => (⟨.dec, .f, fx.val + i⟩ : OperandCheck)) =
      fOrder ((List.range 16).map (runIdx fx)) := by
  rw [fOrder, List.map_map]
  apply List.map_congr_left
  intro k hk
  simp only [Function.comp]
  rw [runIdx_val (by have := List.mem_range.1 hk; omega)]

end Sys2Proof.Machine
end

