-- ==== Sys2Proof/Laws/Invariant.lean ====
section
/-! SUPPORT. The pieces of the whole-machine invariants: what a fresh context, a bound register, an error taken and a
command's progress keep (R21, R28, R30, R210, R211). -/

namespace Sys2Proof.Machine

/-- A freshly opened engine is well-formed. -/
theorem fresh_inv {P : Params} (hP : P.Valid) (ops : List HostOp) (rs : List Reply) : (State.fresh P ops rs).Inv where
  params := hP
  ctx := {
    one := rfl
    below := fun x hx => by
      have hp := Params.Valid.one_lt hP
      simp only [State.fresh, Ctx.fresh, List.mem_singleton, Option.some.injEq] at hx
      exact hx ▸ hp
    within := fun q hq => by simp [State.fresh, Ctx.fresh] at hq }
  fields := fun i L v h => by simp [State.fresh] at h
  words := fun j w h => by simp [State.fresh] at h
  nstep := by simp [State.fresh, Ctx.fresh]
  status := fresh_statusOk P ops rs

theorem fresh_complete (P : Params) (ops : List HostOp) (rs : List Reply) :
    (State.fresh P ops rs).ctx.Complete P.p := fun q hq => by simp [State.fresh, Ctx.fresh] at hq

/-- R235: H_WRITE_F's binding grows the context. -/
theorem bound_grows {s : State} (h : s.Inv) (i : FIdx) (v : Option Nat) :
    Grows s.params.p s.ctx (s.bound i (v.map fun n => n % s.params.p)).ctx := by
  refine alloc_grows h.ctx fun x hx => ?_
  obtain ⟨n, _, rfl⟩ := Option.map_eq_some_iff.1 hx
  exact Nat.mod_lt _ (Nat.lt_trans Nat.zero_lt_one h.one_lt)

/-- R21: the register H_WRITE_F binds is well-formed. -/
theorem bound_fields {s : State} (h : s.Inv) (i : FIdx) (v : Option Nat) :
    (s.bound i (v.map fun n => n % s.params.p)).ctx.FieldsOk s.params.p
      (s.bound i (v.map fun n => n % s.params.p)).f := by
  intro j
  have hp := h.one_lt
  rw [bound_get]
  split
  · refine fieldOk_written.2 ⟨within_single hp (by simp), ?_⟩
    have hk : ((s.ctx.assign ++ [v.map fun n => n % s.params.p])[s.ctx.assign.length]?).join =
        v.map fun n => n % s.params.p := by simp
    simp only [bound_assign, LC.single, LC.honest, hk]
    cases v with
    | none => rfl
    | some n => simp
  · exact (bound_grows h i v).ext.field (h.fields j)

theorem bound_inv {s : State} (h : s.Inv) (i : FIdx) (v : Option Nat) :
    (s.bound i (v.map fun n => n % s.params.p)).Inv where
  params := h.params
  ctx := (bound_grows h i v).ok
  fields := bound_fields h i v
  words := fun j w hw => ((bound_grows h i v).ext.word (h.words j w hw)).1
  nstep := h.nstep
  status := statusOk_congr (s := s) rfl h.status

/-- Taking an error keeps a state well-formed. -/
theorem raise_inv {s : State} (h : s.Inv) (op : BitVec 6) (e : Err) : (s.raise op e).Inv where
  params := by rw [raise_params]; exact h.params
  ctx := by rw [raise_ctx, raise_params]; exact h.ctx
  fields := by rw [raise_ctx, raise_params, raise_f]; exact h.fields
  words := by rw [raise_ctx, raise_r]; exact h.words
  nstep := by rw [raise_ctx]; exact h.nstep
  status := raise_statusOk h.status op e

/-- A command's progress keeps a state well-formed. -/
theorem Progress.inv {s t : State} (h : s.Inv) (g : Progress s t) : t.Inv where
  params := by rw [g.params]; exact h.params
  ctx := by rw [g.params]; exact g.ok
  fields := by rw [g.params]; exact g.fields
  words := g.words
  nstep := by
    rcases g.nstep with e | ⟨_, e⟩
    · rw [e]; exact h.nstep
    · omega
  status := statusOk_congr g.status h.status

/-- What the host has yet to do, and what it has been told, are no part of the invariant. -/
theorem inv_congr {s t : State} (h : s.Inv) (h1 : t.params = s.params) (h2 : t.f = s.f) (h3 : t.r = s.r)
    (h4 : t.ctx = s.ctx) (h5 : t.status = s.status) : t.Inv where
  params := h1 ▸ h.params
  ctx := by rw [h4, h1]; exact h.ctx
  fields := by rw [h4, h1, h2]; exact h.fields
  words := by rw [h4, h3]; exact h.words
  nstep := by rw [h4]; exact h.nstep
  status := statusOk_congr h5 h.status

/-! ### Assignments of a grown context -/

theorem getD_take {z : List Nat} {n k : Nat} (hk : k < n) : (z.take n).getD k 0 = z.getD k 0 := by
  simp [List.getD_eq_getElem?_getD, hk]

theorem eval_take {p n : Nat} {z : List Nat} {L : LC} (h : ∀ t ∈ L, t.1 < n) :
    LC.eval p (z.take n) L = LC.eval p z L := by
  unfold LC.eval
  congr 2
  apply List.map_congr_left
  intro t ht
  rw [getD_take (h t ht)]

/-- R29, R30: what satisfies a grown context satisfies, cut short, the context before. -/
theorem satisfies_take {p : Nat} {c c' : Ctx} (h : c.Ok p) (he : c.Extends c') {z : List Nat} (hz : Satisfies p z c') :
    Satisfies p (z.take c.assign.length) c where
  length := by rw [List.length_take, hz.length]; exact min_eq_left he.length_le
  one := by rw [getD_take (Ctx.Ok.length_pos h)]; exact hz.one
  below := fun x hx => hz.below x (List.mem_of_mem_take hx)
  holds := fun q hq => by
    obtain ⟨h1, h2, h3⟩ := h.within q hq
    have := hz.holds q (by obtain ⟨_, qs, e⟩ := he; rw [e]; exact List.mem_append_left _ hq)
    unfold Constraint.holds at *
    rw [eval_take h1.2, eval_take h2.2, eval_take h3.2]
    exact this

theorem zbool_take {c : Ctx} {w : Word32} (hw : c.WordOk w) {z : List Nat} (h : ZBool (z.take c.assign.length) w) :
    ZBool z w := by
  intro x hx
  have h1 := h x hx
  have h2 := hw x hx
  cases x with
  | const b => exact h1
  | var k =>
    have hk : k < c.assign.length := by rcases h2.2 with e | e <;> exact lt_of_getElem? e
    simpa only [Signal.value, getD_take hk] using h1

/-- R30: the honest assignment as numbers. -/
def Ctx.honestValues (c : Ctx) : List Nat := c.assign.map fun v => v.getD 0

theorem honestValues_getD (c : Ctx) (k : Nat) : c.honestValues.getD k 0 = c.value k := by
  unfold Ctx.honestValues Ctx.value
  rw [List.getD_eq_getElem?_getD, List.getElem?_map]
  cases c.assign[k]? with
  | none => rfl
  | some v => cases v <;> rfl

theorem honest_eq_eval {p : Nat} (hp : 0 < p) {c : Ctx} {L : LC} {v : Nat} (h : LC.honest p c.assign L = some v) :
    LC.eval p c.honestValues L = v := by
  obtain ⟨h1, h2⟩ := LC.honest_cast hp h
  refine natCast_inj_of_lt (LC.eval_lt hp _ _) h1 ?_
  rw [LC.eval_cast, h2]
  congr 1
  funext k
  rw [zfun, honestValues_getD, honestFun_eq]

/-- R210: a complete context without ABSENT is satisfied by its own values. -/
theorem honest_satisfies {p : Nat} {c : Ctx} (h : c.Ok p) (hp : 0 < p) (hc : c.Complete p) (ha : c.Present) :
    Satisfies p c.honestValues c where
  length := by simp [Ctx.honestValues]
  one := by rw [honestValues_getD]; simp [Ctx.value, h.one]
  below := fun x hx => by
    obtain ⟨v, hv, rfl⟩ := List.mem_map.1 hx
    cases v with
    | none => exact absurd hv ha
    | some v => exact h.below v hv
  holds := fun q hq => by
    obtain ⟨a, b, h1, h2, h3⟩ := hc q hq
    unfold Constraint.holds
    rw [honest_eq_eval hp h1, honest_eq_eval hp h2, honest_eq_eval hp h3]
    simp

/-! ### The host-level call -/

/-- Operations one after another. -/
theorem runOps_append : ∀ (as bs : List HostOp) {s t : State}, runOps as s = .next t →
    runOps (as ++ bs) s = runOps bs t
  | [], bs, s, t, h => by cases h; rfl
  | a :: as, bs, s, t, h => by
    simp only [runOps, List.cons_append] at h ⊢
    cases e : hostOp a s with
    | next u => rw [e] at h; exact runOps_append as bs h
    | fault f => rw [e] at h; cases h
    | refused r => rw [e] at h; cases h

/-- R196: a run of writes, of values or ABSENT, with ERR = 0: every register of the run gets its value modulo p or is
ABSENT, and nothing else changes but the context's values. -/
theorem writeRun_spec : ∀ (vs : List (Option Nat)) (base : Nat) {s : State}, s.err = false → base + vs.length ≤ 128 →
    ∃ t, runOps (writeRun base vs) s = .next t ∧ (s.Inv → t.Inv) ∧ t.status = s.status ∧ t.params = s.params ∧
      t.ctx.nstep = s.ctx.nstep ∧ t.ctx.cons = s.ctx.cons ∧ t.r = s.r ∧
      (∀ (k : Nat) (hk : k < vs.length) (i : FIdx), i.val = base + k → t.fval i = vs[k].map (· % s.params.p)) ∧
      ∀ i : FIdx, i.val < base ∨ base + vs.length ≤ i.val → t.f[i] = s.f[i]
  | [], base, s, he, _ => ⟨s, rfl, id, rfl, rfl, rfl, rfl, rfl, fun k hk => absurd hk (Nat.not_lt_zero k), fun _ _ => rfl⟩
  | v :: vs, base, s, he, hb => by
    simp only [List.length_cons] at hb
    have hi : base < 128 := by omega
    have e := hostWriteF_eq s ⟨base, hi⟩ v he
    obtain ⟨t, h1, h2, h3, h4, h5, hc, hr, h6, h7⟩ :=
      writeRun_spec vs (base + 1) (s := s.bound ⟨base, hi⟩ (v.map (· % s.params.p))) he (by omega)
    refine ⟨t, ?_, fun h => h2 (bound_inv h ⟨base, hi⟩ v), h3, h4, h5, hc, hr, fun k hk i hik => ?_, fun i hi' => ?_⟩
    · rw [writeRun, runOps, show hostOp (.writeF base v) s = _ from e]
      exact h1
    · cases k with
      | zero =>
        have hieq : (⟨base, hi⟩ : FIdx) = i := Fin.ext hik.symm
        unfold State.fval
        rw [h7 i (by omega), bound_get, if_pos hieq]
        rfl
      | succ k =>
        simp only [List.length_cons] at hk
        have := h6 k (by omega) i (by omega)
        simpa using this
    · simp only [List.length_cons] at hi'
      rw [h7 i (by omega), bound_get, if_neg fun e => by subst e; simp only at hi'; omega]

end Sys2Proof.Machine
end

