-- ==== Sys2Proof/Laws/LtPForm.lean ====
section
/-! SUPPORT. A right form of `enforce_lt_p` for the spec's small test modulus 12884901893 = 2^33 + 2^32 + 5, so that
DECOMP_CANONICAL = 1 has a legal instance (R101; 93_implementation_defined.md row 6): with u = b_33·b_32 and v = u·b_2, it
asks u·(b_3 + … + b_31) = 0 and v·(b_0 + b_1) = 0. -/

namespace Sys2Proof

/-- The form. Variables 1 to 34 are the bits b_0 to b_33, 35 is u, 36 is v. -/
def ltForm : LtPForm where
  aux := [.mul (.var 34) (.var 33), .mul (.var 35) (.var 3)]
  cons := [⟨LC.single 34, LC.single 33, LC.single 35⟩,
    ⟨LC.single 35, (List.range' 4 29).map fun k => (k, 1), []⟩,
    ⟨LC.single 35, LC.single 3, LC.single 36⟩,
    ⟨LC.single 36, [(1, 1), (2, 1)], []⟩]

/-- The bits by their part in the form. -/
theorem ltForm_bits {bits : List Bool} (h : bits.length = 34) : ∃ b0 b1 b2 b32 b33 mid, mid.length = 29 ∧ bits = b0 :: b1 :: b2 :: (mid ++ [b32, b33]) := by
  obtain ⟨b0, t, rfl⟩ := List.exists_cons_of_length_eq_add_one h
  obtain ⟨b1, t, rfl⟩ := List.exists_cons_of_length_eq_add_one (n := 32) (by simpa using h)
  obtain ⟨b2, t, rfl⟩ := List.exists_cons_of_length_eq_add_one (n := 31) (by simpa using h)
  have hl : t.length = 31 := by simpa using h
  refine ⟨b0, b1, b2, t[29], t[30], t.take 29, by simp [hl], ?_⟩
  congr 3
  apply List.ext_getElem
  · simp [hl]
  · intro i h1 h2
    rw [List.getElem_append]
    split
    · simp
    · rename_i hi
      simp [hl] at hi
      have : i = 29 ∨ i = 30 := by omega
      rcases this with rfl | rfl <;> simp [hl]

theorem bitsVal_append : ∀ (a b : List Bool), bitsVal (a ++ b) = bitsVal a + 2 ^ a.length * bitsVal b
  | [], b => by simp [bitsVal]
  | x :: a, b => by simp only [List.cons_append, bitsVal, bitsVal_append a b, List.length_cons, pow_succ]; ring

theorem bitsVal_eq_zero : ∀ (a : List Bool), bitsVal a = 0 ↔ (a.map Bool.toNat).sum = 0
  | [] => by simp [bitsVal]
  | x :: a => by
    have := bitsVal_eq_zero a
    simp only [bitsVal, List.map_cons, List.sum_cons]
    cases x <;> simp [this]

theorem sum_bits_le : ∀ a : List Bool, (a.map Bool.toNat).sum ≤ a.length
  | [] => by simp
  | x :: a => by have := sum_bits_le a; cases x <;> simp <;> omega

/-- The sum of the middle bits. -/
theorem ltForm_mid (x0 x1 x2 x3 : Nat) (mid rest : List Nat) (h : mid.length = 29) :
   LC.eval 12884901893 (x0 :: x1 :: x2 :: x3 :: (mid ++ rest)) ((List.range' 4 29).map fun k => (k, 1)) = mid.sum % 12884901893 := by
  unfold LC.eval
  rw [List.map_map]
  congr 2
  apply List.ext_getElem
  · simp [h]
  · intro i h1 h2
    simp only [List.getElem_map, List.getElem_range', Function.comp, one_mul, List.getD_eq_getElem?_getD, Nat.add_comm 4 i]
    simp [List.getElem?_append_left h2, h2]

/-- What a 34-bit value below the modulus looks like. -/
theorem ltForm_lt (b0 b1 b2 b32 b33 : Bool) (mid : List Bool) (h : mid.length = 29) : bitsVal (b0 :: b1 :: b2 :: (mid ++ [b32, b33])) < 12884901893 ↔
  ¬ (b32 = true ∧ b33 = true ∧ ((mid.map Bool.toNat).sum ≠ 0 ∨ (b2 = true ∧ (b0 = true ∨ b1 = true)))) := by
  have hm := bitsVal_lt mid
  rw [h] at hm
  have hz := bitsVal_eq_zero mid
  simp only [bitsVal, bitsVal_append, h]
  cases b0 <;> cases b1 <;> cases b2 <;> cases b32 <;> cases b33 <;> simp [hz.symm] <;> omega

theorem ltForm_single (z : List Nat) (k : Nat) : LC.eval 12884901893 z (LC.single k) = z.getD k 0 % 12884901893 := by simp [LC.eval, LC.single]

/-- What the form's constraints say. -/
theorem ltForm_holds (x0 b0 b1 b2 b32 b33 u v : Nat) (mid : List Nat) (h : mid.length = 29) :
   (∀ q ∈ ltForm.cons, q.holds 12884901893 (x0 :: b0 :: b1 :: b2 :: (mid ++ [b32, b33, u, v])) = true) ↔
   ((b33 % 12884901893) * (b32 % 12884901893) % 12884901893 = u % 12884901893 ∧ (u % 12884901893) * (mid.sum % 12884901893) % 12884901893 = 0 ∧ (u % 12884901893) * (b2 % 12884901893) % 12884901893 = v % 12884901893 ∧ (v % 12884901893) * ((b0 + b1) % 12884901893) % 12884901893 = 0) := by
  have g : ∀ k, (x0 :: b0 :: b1 :: b2 :: (mid ++ [b32, b33, u, v])).getD (33 + k) 0 = [b32, b33, u, v].getD k 0 := by
    intro k
    simp only [List.getD_eq_getElem?_getD, show 33 + k = (29 + k) + 1 + 1 + 1 + 1 by omega, List.getElem?_cons_succ]
    rw [List.getElem?_append_right (by omega), h, Nat.add_sub_cancel_left]
  simp only [ltForm, List.forall_mem_cons, List.not_mem_nil, false_imp_iff, implies_true, and_true, Constraint.holds, beq_iff_eq, ltForm_mid _ _ _ _ _ _ h, ltForm_single]
  rw [g 0, g 1, g 2, g 3]
  simp [LC.eval]

/-- R101: the form is right for the small test modulus. -/
theorem ltForm_correct : ltForm.Correct 12884901893 where
  inRange := by decide
  complete := by
    intro N hN
    have hl : (natBits (fieldBits 12884901893) N).length = 34 := by rw [natBits_length]; decide
    have hv : bitsVal (natBits (fieldBits 12884901893) N) = N := by
      rw [bitsVal_natBits, Nat.mod_eq_of_lt (Nat.lt_trans hN (by decide))]
    generalize natBits (fieldBits 12884901893) N = bits at *
    subst hv
    obtain ⟨b0, b1, b2, b32, b33, mid, hm, rfl⟩ := ltForm_bits hl
    rw [ltForm_lt _ _ _ _ _ _ hm] at hN
    have hm' : (mid.map Bool.toNat).length = 29 := by simpa using hm
    have g : ∀ (u : List Nat) k, (1 :: b0.toNat :: b1.toNat :: b2.toNat :: (mid.map Bool.toNat ++ (b32.toNat :: b33.toNat :: u))).getD (33 + k) 0 = (b32.toNat :: b33.toNat :: u).getD k 0 := by
      intro u k
      simp only [List.getD_eq_getElem?_getD, show 33 + k = (29 + k) + 1 + 1 + 1 + 1 by omega, List.getElem?_cons_succ]
      rw [List.getElem?_append_right (by omega), hm', Nat.add_sub_cancel_left]
    have e : ltForm.locals 12884901893 (b0 :: b1 :: b2 :: (mid ++ [b32, b33])) = 1 :: b0.toNat :: b1.toNat :: b2.toNat :: (mid.map Bool.toNat ++ [b32.toNat, b33.toNat, (b33.toNat % 12884901893) * (b32.toNat % 12884901893) % 12884901893, ((b33.toNat % 12884901893) * (b32.toNat % 12884901893) % 12884901893 % 12884901893) * (b2.toNat % 12884901893) % 12884901893]) := by
      simp only [LtPForm.locals, ltForm, auxValues, WExpr.eval, List.map_cons, List.map_append, List.map_nil]
      have g1 := g [] 1
      have g0 := g [] 0
      have g2 := g [(b33.toNat % 12884901893) * (b32.toNat % 12884901893) % 12884901893] 2
      simp at g0 g1 g2
      simp [g0, g1, g2]
    rw [e]
    refine (ltForm_holds _ _ _ _ _ _ _ _ _ hm').2 ?_
    have hs := sum_bits_le mid
    generalize (mid.map Bool.toNat).sum = S at *
    cases b0 <;> cases b1 <;> cases b2 <;> cases b32 <;> cases b33 <;> simp at hN ⊢ <;> omega
  sound := by
    intro bits aux hb ha h
    have hb' : bits.length = 34 := by rw [hb]; decide
    obtain ⟨b0, b1, b2, b32, b33, mid, hm, rfl⟩ := ltForm_bits hb'
    have hm' : (mid.map Bool.toNat).length = 29 := by simpa using hm
    obtain ⟨u, v, rfl⟩ := List.length_eq_two.1 (show aux.length = 2 from ha)
    rw [ltForm_lt _ _ _ _ _ _ hm]
    have := (ltForm_holds 1 b0.toNat b1.toNat b2.toNat b32.toNat b33.toNat u v _ hm').1 (by simpa using h)
    obtain ⟨h1, h2, h3, h4⟩ := this
    rintro ⟨rfl, rfl, hh⟩
    have hs := sum_bits_le mid
    generalize (mid.map Bool.toNat).sum = S at *
    have hu : u % 12884901893 = 1 := by rw [← h1]; rfl
    rw [hu] at h2 h3
    cases b0 <;> cases b1 <;> cases b2 <;> simp at hh h3 h4 h2 <;> omega

/-- R10: the small test modulus with DECOMP_CANONICAL = 1. -/
def Params.smallCanonical : Params := ⟨12884901893, true, ltForm⟩

theorem Params.smallCanonical_valid : Params.smallCanonical.Valid :=
  ⟨prime_12884901893, by decide, fun _ => ltForm_correct⟩

end Sys2Proof
end

