-- ==== Sys2Proof/Laws/PerInstr.lean ====
section
/-! SUPPORT. The per-instruction family `Opcode`: where each command's opcode and operands stand in its word
(R71, R72, R76). -/

namespace Sys2Proof.Laws.Opcode

/-- R71, R72: bits 31:26 of a command's word are its OPCODE, bits 25:0 its operand fields, and the opcode is not one of
the reserved ones (R77). -/
def Statement (i : Instr) : Prop :=
  bitField (encode i) 26 6 = i.opcode.toNat ∧ (encode i).toNat % 2 ^ 26 = i.operandBits ∧
    i.opcode ∉ ([0x00, 0x07] : List (BitVec 6)) ∧ i.opcode.toNat < 0x10

theorem fields (i : Instr) : (encode i).toNat % 2 ^ 26 = i.operandBits := by
  rw [encode_toNat, Nat.mul_add_mod_self_right, Nat.mod_eq_of_lt (operandBits_lt i)]

theorem decompose (rd : RIdx) (fs : FIdx) : Statement (.decompose rd fs) :=
  ⟨bitField_encode_opcode _, fields _, by simp [Instr.opcode], by simp [Instr.opcode]⟩
theorem recompose (fd : FIdx) (rs : RIdx) : Statement (.recompose fd rs) :=
  ⟨bitField_encode_opcode _, fields _, by simp [Instr.opcode], by simp [Instr.opcode]⟩
theorem mov (rd rs : RIdx) : Statement (.mov rd rs) :=
  ⟨bitField_encode_opcode _, fields _, by simp [Instr.opcode], by simp [Instr.opcode]⟩
theorem add (rd rs1 rs2 : RIdx) : Statement (.add rd rs1 rs2) :=
  ⟨bitField_encode_opcode _, fields _, by simp [Instr.opcode], by simp [Instr.opcode]⟩
theorem xor (rd rs1 rs2 : RIdx) : Statement (.xor rd rs1 rs2) :=
  ⟨bitField_encode_opcode _, fields _, by simp [Instr.opcode], by simp [Instr.opcode]⟩
theorem rotl (rd rs : RIdx) (n : Fin 32) : Statement (.rotl rd rs n) :=
  ⟨bitField_encode_opcode _, fields _, by simp [Instr.opcode], by simp [Instr.opcode]⟩
theorem qr (a b c d : RIdx) : Statement (.qr a b c d) :=
  ⟨bitField_encode_opcode _, fields _, by simp [Instr.opcode], by simp [Instr.opcode]⟩
theorem dround : Statement .dround :=
  ⟨bitField_encode_opcode _, fields _, by simp [Instr.opcode], by simp [Instr.opcode]⟩
theorem layout (fs : FIdx) : Statement (.layout fs) :=
  ⟨bitField_encode_opcode _, fields _, by simp [Instr.opcode], by simp [Instr.opcode]⟩
theorem snap : Statement .snap :=
  ⟨bitField_encode_opcode _, fields _, by simp [Instr.opcode], by simp [Instr.opcode]⟩
theorem perm : Statement .perm :=
  ⟨bitField_encode_opcode _, fields _, by simp [Instr.opcode], by simp [Instr.opcode]⟩
theorem combine : Statement .combine :=
  ⟨bitField_encode_opcode _, fields _, by simp [Instr.opcode], by simp [Instr.opcode]⟩
theorem block (fs : FIdx) : Statement (.block fs) :=
  ⟨bitField_encode_opcode _, fields _, by simp [Instr.opcode], by simp [Instr.opcode]⟩
theorem step (fs fx fd : FIdx) : Statement (.step fs fx fd) :=
  ⟨bitField_encode_opcode _, fields _, by simp [Instr.opcode], by simp [Instr.opcode]⟩

end Sys2Proof.Laws.Opcode
end

