-- ==== Sys2Proof/Laws/Rows.lean ====
section
/-! SUPPORT. Which variables and rows the gates, ADD, XOR and decompose append, and in which order (R101, R121 to R123,
R125, R128). -/

namespace Sys2Proof.Machine

/-! ### Gates -/

theorem not_both_const {x y : Signal} (h : x.isConst = false ∨ y.isConst = false) : (x.isConst && y.isConst) = false := by
  rcases h with h | h <;> simp [h]

theorem bxor_row (p : Nat) {x y : Signal} (c : Ctx) (h : x.isConst = false ∨ y.isConst = false) :
    bxor p x y c = (.var c.nvars,
      ⟨c.assign ++ [some (c.bit x != c.bit y).toNat], c.cons ++ [xorRow p x y c.nvars], c.nstep⟩) := by
  simp only [bxor, gate, not_both_const h]
  rfl

theorem band_row {x y : Signal} (c : Ctx) (h : x.isConst = false ∨ y.isConst = false) :
    band x y c = (.var c.nvars,
      ⟨c.assign ++ [some (c.bit x && c.bit y).toNat], c.cons ++ [andRow x y c.nvars], c.nstep⟩) := by
  simp only [band, gate, not_both_const h]
  rfl

theorem bor_row (p : Nat) {x y : Signal} (c : Ctx) (h : x.isConst = false ∨ y.isConst = false) :
    bor p x y c = (.var c.nvars,
      ⟨c.assign ++ [some (c.bit x || c.bit y).toNat], c.cons ++ [orRow p x y c.nvars], c.nstep⟩) := by
  simp only [bor, gate, not_both_const h]
  rfl

/-- The context with some more variables and rows. -/
def Ctx.Rows (c c' : Ctx) (v : Nat) (qs : List Constraint) : Prop :=
  c'.nvars = c.nvars + v ∧ c'.cons = c.cons ++ qs

theorem Ctx.Rows.trans {a b c : Ctx} {v v' : Nat} {qs qs' : List Constraint} (h : a.Rows b v qs) (h' : b.Rows c v' qs') :
    a.Rows c (v + v') (qs ++ qs') := ⟨by rw [h'.1, h.1, Nat.add_assoc], by rw [h'.2, h.2, List.append_assoc]⟩

theorem bxor_rows (p : Nat) {x y : Signal} (c : Ctx) (h : x.isConst = false ∨ y.isConst = false) :
    (bxor p x y c).1 = .var c.nvars ∧ c.Rows (bxor p x y c).2 1 [xorRow p x y c.nvars] := by
  rw [bxor_row p c h]
  exact ⟨rfl, by simp [Ctx.nvars], rfl⟩

theorem band_rows {x y : Signal} (c : Ctx) (h : x.isConst = false ∨ y.isConst = false) :
    (band x y c).1 = .var c.nvars ∧ c.Rows (band x y c).2 1 [andRow x y c.nvars] := by
  rw [band_row c h]
  exact ⟨rfl, by simp [Ctx.nvars], rfl⟩

theorem bor_rows (p : Nat) {x y : Signal} (c : Ctx) (h : x.isConst = false ∨ y.isConst = false) :
    (bor p x y c).1 = .var c.nvars ∧ c.Rows (bor p x y c).2 1 [orRow p x y c.nvars] := by
  rw [bor_row p c h]
  exact ⟨rfl, by simp [Ctx.nvars], rfl⟩

theorem var_not_const {k : Nat} (h : 0 < k) : (Signal.var k).isConst = false := by simp [Signal.isConst]; omega

/-! ### ADD -/

/-- One bit of the adder on variables: t, s_k, g, h, carry. -/
theorem fullAdder_rows (p : Nat) {x y k : Signal} (c : Ctx) (hc : 0 < c.nvars) (hx : x.isConst = false) :
    (fullAdder p x y k c).1 = (.var (c.nvars + 1), .var (c.nvars + 4)) ∧
      c.Rows (fullAdder p x y k c).2 5 [xorRow p x y c.nvars, xorRow p (.var c.nvars) k (c.nvars + 1),
        andRow x y (c.nvars + 2), andRow (.var c.nvars) k (c.nvars + 3),
        orRow p (.var (c.nvars + 2)) (.var (c.nvars + 3)) (c.nvars + 4)] := by
  have ht : (Signal.var c.nvars).isConst = false := var_not_const hc
  have hg : (Signal.var (c.nvars + 2)).isConst = false := var_not_const (by omega)
  simp only [fullAdder, bxor_row p c (.inl hx), bxor_row p _ (.inl ht), band_row _ (.inl hx), band_row _ (.inl ht)]
  simp only [Ctx.nvars, List.length_append, List.length_singleton] at ht hg ⊢
  rw [bor_row p _ (.inl hg)]
  simp [Ctx.Rows, Ctx.nvars]

/-- The last bit of the adder on variables: t and s_31. -/
theorem lastAdder_rows (p : Nat) {x y k : Signal} (c : Ctx) (hc : 0 < c.nvars) (hx : x.isConst = false) :
    (lastAdder p x y k c).1 = .var (c.nvars + 1) ∧
      c.Rows (lastAdder p x y k c).2 2 [xorRow p x y c.nvars, xorRow p (.var c.nvars) k (c.nvars + 1)] := by
  have ht : (Signal.var c.nvars).isConst = false := var_not_const hc
  simp only [lastAdder, bxor_row p c (.inl hx), bxor_row p _ (.inl ht)]
  simp [Ctx.Rows, Ctx.nvars]

/-- The rows of the adder over a list of pairs of variables, with a carry in. -/
def adderListRows (p : Nat) : List (Signal × Signal) → Signal → Nat → List Constraint
  | [], _, _ => []
  | [q], k, n => [xorRow p q.1 q.2 n, xorRow p (.var n) k (n + 1)]
  | q :: q' :: qs, k, n =>
    [xorRow p q.1 q.2 n, xorRow p (.var n) k (n + 1), andRow q.1 q.2 (n + 2), andRow (.var n) k (n + 3),
      orRow p (.var (n + 2)) (.var (n + 3)) (n + 4)] ++ adderListRows p (q' :: qs) (.var (n + 4)) (n + 5)

theorem addBits_rows (p : Nat) : ∀ (qs : List (Signal × Signal)) (k : Signal) (c : Ctx), 0 < c.nvars →
    (∀ q ∈ qs, q.1.isConst = false) →
    (addBits p qs k c).1 = (List.range qs.length).map (fun i => .var (c.nvars + 5 * i + 1)) ∧
      (addBits p qs k c).2.cons = c.cons ++ adderListRows p qs k c.nvars
  | [], _, c, _, _ => by simp [addBits, adderListRows]
  | [q], k, c, hc, h => by
    obtain ⟨e, r⟩ := lastAdder_rows p (y := q.2) (k := k) c hc (h q (by simp))
    simp only [addBits, adderListRows, e, r.2]
    simp
  | q :: q' :: qs, k, c, hc, h => by
    obtain ⟨e, r⟩ := fullAdder_rows p (y := q.2) (k := k) c hc (h q (by simp))
    obtain ⟨e', r'⟩ := addBits_rows p (q' :: qs) (fullAdder p q.1 q.2 k c).1.2 (fullAdder p q.1 q.2 k c).2
      (by rw [r.1]; omega) (fun u hu => h u (List.mem_cons_of_mem _ hu))
    rw [r.1] at e' r'
    constructor
    · rw [addBits, e', e, List.length_cons (a := q), List.range_succ_eq_map]
      simp only [List.map_cons, List.map_map, Nat.mul_zero, Nat.add_zero, List.cons.injEq, true_and]
      exact List.map_congr_left fun i _ => by simp only [Function.comp, Nat.succ_eq_add_one]; congr 1; omega
    · rw [addBits, r', r.2, e, adderListRows]
      simp

/-- The rows of one pair of the adder's list: t and s_k, and below the last pair g, h and the carry. -/
def pairRows (p : Nat) (x y carry : Signal) (t : Nat) (last : Bool) : List Constraint :=
  [xorRow p x y t, xorRow p (.var t) carry (t + 1)] ++
    if last then [] else [andRow x y (t + 2), andRow (.var t) carry (t + 3), orRow p (.var (t + 2)) (.var (t + 3)) (t + 4)]

theorem adderListRows_zipIdx (p : Nat) : ∀ (qs : List (Signal × Signal)) (k : Signal) (n : Nat),
    adderListRows p qs k n = qs.zipIdx.flatMap fun q =>
      pairRows p q.1.1 q.1.2 (if q.2 = 0 then k else .var (n + 5 * q.2 - 1)) (n + 5 * q.2) (q.2 + 1 == qs.length)
  | [], _, _ => rfl
  | [q], k, n => by simp [adderListRows, pairRows]
  | q :: q' :: qs, k, n => by
    rw [adderListRows, adderListRows_zipIdx p (q' :: qs), List.zipIdx_cons (a := q), List.flatMap_cons, Nat.zero_add,
      List.zipIdx_succ, List.flatMap_map]
    refine congrArg₂ (· ++ ·) (by simp [pairRows]) ?_
    · refine List.flatMap_congr fun u _ => ?_
      have h1 : n + 5 + 5 * u.2 = n + 5 * (u.2 + 1) := by omega
      have h2 : (u.2 + 1 == (q' :: qs).length) = (u.2 + 1 + 1 == (q :: q' :: qs).length) := by simp
      rw [h1, h2]
      by_cases h : u.2 = 0
      · simp [h]
      · simp only [h, if_false, Nat.add_eq_zero_iff, Nat.one_ne_zero, and_false]

theorem adderListRows_eq (p : Nat) (a b : Word32) (n : Nat) :
    adderListRows p (a.zip b).toList (.const false) n = (List.finRange 32).flatMap (adderRows p a b n) := by
  have e : (a.zip b).toList.zipIdx = (List.finRange 32).map fun k : Fin 32 => ((a[k], b[k]), k.val) := by
    apply List.ext_getElem <;> simp
  rw [adderListRows_zipIdx, e, List.flatMap_map]
  refine List.flatMap_congr fun k _ => ?_
  have h := k.isLt
  by_cases h31 : k.val = 31
  · simp [pairRows, adderRows, h31]
  · have h' : k.val < 31 := by omega
    simp [pairRows, adderRows, h31, h']

/-- R125: everything add32 appends on variable words. -/
theorem add32_rows (p : Nat) {a b : Word32} (c : Ctx) (hc : 0 < c.nvars) (ha : AllVars a) :
    (add32 p a b c).1 = Vector.ofFn (fun k : Fin 32 => .var (c.nvars + 5 * k.val + 1)) ∧
      (add32 p a b c).2.cons = c.cons ++ (List.finRange 32).flatMap (adderRows p a b c.nvars) := by
  obtain ⟨e, r⟩ := addBits_rows p (a.zip b).toList (.const false) c hc fun q hq =>
    ha _ (mem_zip_toList hq).1
  refine ⟨Vector.toList_inj.1 ?_, by rw [← adderListRows_eq]; exact r⟩
  rw [add32_toList, e]
  apply List.ext_getElem <;> simp

/-! ### XOR -/

theorem mapCtx_xor_rows (p : Nat) : ∀ (qs : List (Signal × Signal)) (c : Ctx), 0 < c.nvars →
    (∀ q ∈ qs, q.1.isConst = false) →
    (mapCtx (fun q : Signal × Signal => bxor p q.1 q.2) qs c).1 = (List.range qs.length).map (fun i => .var (c.nvars + i)) ∧
      (mapCtx (fun q : Signal × Signal => bxor p q.1 q.2) qs c).2.cons =
        c.cons ++ qs.zipIdx.map fun q => xorRow p q.1.1 q.1.2 (c.nvars + q.2)
  | [], c, _, _ => by simp [mapCtx]
  | q :: qs, c, hc, h => by
    have e := bxor_row p (y := q.2) c (.inl (h q (by simp)))
    obtain ⟨e', r'⟩ := mapCtx_xor_rows p qs (bxor p q.1 q.2 c).2 (by rw [e]; simp [Ctx.nvars])
      (fun u hu => h u (List.mem_cons_of_mem _ hu))
    have hn : (bxor p q.1 q.2 c).2.nvars = c.nvars + 1 := by rw [e]; simp [Ctx.nvars]
    rw [hn] at e' r'
    constructor
    · rw [mapCtx, e', e, List.length_cons, List.range_succ_eq_map]
      simp only [List.map_cons, List.map_map, Nat.add_zero, List.cons.injEq, true_and]
      exact List.map_congr_left fun i _ => by simp only [Function.comp, Nat.succ_eq_add_one]; congr 1; omega
    · rw [mapCtx, r', e, List.zipIdx_cons, List.zipIdx_succ]
      simp [Function.comp_def, Nat.add_assoc, Nat.add_comm 1]

/-- R128: everything xor32 appends on variable words. -/
theorem xor32_rows (p : Nat) {a b : Word32} (c : Ctx) (hc : 0 < c.nvars) (ha : AllVars a) :
    (xor32 p a b c).1 = Vector.ofFn (fun k : Fin 32 => .var (c.nvars + k.val)) ∧
      (xor32 p a b c).2.cons = c.cons ++ (List.finRange 32).map (fun k => xorRow p a[k] b[k] (c.nvars + k.val)) := by
  obtain ⟨e, r⟩ := mapCtx_xor_rows p (a.zip b).toList c hc fun q hq => ha _ (mem_zip_toList hq).1
  refine ⟨Vector.toList_inj.1 ?_, ?_⟩
  · rw [xor32, mapVec_toList, e]
    apply List.ext_getElem <;> simp
  · rw [xor32]
    refine r.trans (congrArg _ ?_)
    apply List.ext_getElem <;> simp

/-! ### Decompose -/

/-- R101: the booleanity rows, ascending. -/
theorem allocBits_rows {p : Nat} (hp : 1 < p) : ∀ (bs : List Bool) (c : Ctx), 0 < c.nvars →
    (allocBits p bs c).2.cons = c.cons ++ (List.range bs.length).map fun k => bitRow p (c.nvars + k)
  | [], c, _ => by simp [allocBits]
  | b :: bs, c, hc => by
    have hb : booleanity p c.assign.length = bitRow p c.nvars := by
      have h0 : c.assign.length ≠ 0 := Nat.ne_of_gt hc
      have h1 : 1 % p = 1 := Nat.mod_eq_of_lt hp
      have h2 : (p - 1) % p = p - 1 := Nat.mod_eq_of_lt (by omega)
      have h3 : p - 1 ≠ 0 := by omega
      simp [booleanity, bitRow, Ctx.nvars, LC.sub, LC.add, LC.scale, LC.one, LC.single, LC.insert, LC.term, h1, h2, h3,
        Nat.pos_of_ne_zero h0]
    have ih := allocBits_rows hp bs ((c.alloc (some b.toNat)).2.enforce (booleanity p c.assign.length))
      (by simp [Ctx.nvars, Ctx.enforce, alloc_eq])
    simp only [allocBits, alloc_eq] at ih ⊢
    rw [ih, List.length_cons, List.range_succ_eq_map]
    simp [Ctx.enforce, Ctx.nvars, hb, Function.comp_def, Nat.add_assoc, Nat.add_comm 1]

/-- R101: the weighted sum of fresh variables, as long as the weights are below p. -/
theorem weighted_vars {p : Nat} (n : Nat) : ∀ (l j : Nat), (∀ k < j + l, 2 ^ k < p) →
    LC.weighted p j ((List.range' (n + j) l).map LC.single) = (List.range' j l).map fun k => (n + k, 2 ^ k)
  | 0, _, _ => rfl
  | l + 1, j, h => by
    have hj := h j (by omega)
    have ih := weighted_vars n l (j + 1) (fun k hk => h k (by omega))
    rw [List.range'_succ, List.map_cons, LC.weighted, ← Nat.add_assoc n j 1] at *
    rw [ih]
    have hs : LC.scale p (2 ^ j) (LC.single (n + j)) = [(n + j, 2 ^ j)] := by
      have h1 : 2 ^ j % p = 2 ^ j := Nat.mod_eq_of_lt hj
      simp [LC.scale, LC.single, LC.term, h1]
    rw [hs, List.range'_succ, List.map_cons]
    have ht : LC.term p (n + j) (2 ^ j) = [(n + j, 2 ^ j)] := by
      have h1 : 2 ^ j % p = 2 ^ j := Nat.mod_eq_of_lt hj
      simp [LC.term, h1]
    cases l with
    | zero => simp [LC.add, LC.insert, ht]
    | succ l => simp [LC.add, LC.insert, ht, List.range'_succ]

/-- R9: the weights of an m-bit decomposition are below p. -/
theorem two_pow_lt {P : Params} (hP : P.Valid) {k : Nat} (hk : k < P.m) : 2 ^ k < P.p := by
  have hl := hP.large
  have h1 : 2 ^ k ≤ P.p :=
    (Nat.pow_le_pow_right (by decide) (by unfold Params.m fieldBits at hk; omega)).trans (Nat.log2_self_le (by omega))
  refine Nat.lt_of_le_of_ne h1 fun e => ?_
  have h2 : 2 ∣ P.p := by
    rw [← e]
    refine dvd_pow_self 2 ?_
    rintro rfl
    simp at e
    omega
  have := (Nat.prime_dvd_prime_iff_eq Nat.prime_two hP.prime).1 h2
  omega

/-- R101: everything `decompose` appends: the bits and the booleanity rows, the sum row, then what the open
`enforce_lt_p` appends. -/
theorem decomposeBits_rows {P : Params} (hP : P.Valid) (L : LC) (N : Nat) (c : Ctx) (hc : 0 < c.nvars) :
    ∃ vs qs, (decomposeBits P L N c).2.assign =
        c.assign ++ (List.range P.m).map (fun k => some (N / 2 ^ k % 2)) ++ vs ∧
      (decomposeBits P L N c).2.cons = c.cons ++ (List.range P.m).map (fun k => bitRow P.p (c.nvars + k)) ++
        [sumRow P.m c.nvars L] ++ qs ∧ (P.canonical = false → vs = [] ∧ qs = []) := by
  obtain ⟨hi, ha⟩ := allocBits_assign P.p (natBits P.m N) c
  have hq := allocBits_rows (Params.Valid.one_lt hP) (natBits P.m N) c hc
  rw [natBits_length] at hi hq
  have hbits : (natBits P.m N).map (fun b => some b.toNat) = (List.range P.m).map fun k => some (N / 2 ^ k % 2) := by
    simp [natBits, Nat.testBit_eq_decide_div_mod_eq, Function.comp_def]
    intro k _
    rcases Nat.mod_two_eq_zero_or_one (N / 2 ^ k) with h | h <;> simp [h]
  have hw : LC.weighted P.p 0 ((List.range' c.nvars P.m).map LC.single) =
      (List.range P.m).map fun k => (c.nvars + k, 2 ^ k) := by
    rw [List.range_eq_range']
    refine weighted_vars c.nvars P.m 0 fun k hk => ?_
    exact two_pow_lt hP (by omega)
  have hs : (⟨LC.weighted P.p 0 ((allocBits P.p (natBits P.m N) c).1.map LC.single), LC.one, L⟩ : Constraint) =
      sumRow P.m c.nvars L := by
    rw [hi, show c.assign.length = c.nvars from rfl, hw]
    rfl
  rw [hbits] at ha
  cases hc : P.canonical with
  | false =>
    refine ⟨[], [], ?_, ?_, fun _ => ⟨rfl, rfl⟩⟩
    · simp only [decomposeBits, hc, Ctx.enforce, Bool.false_eq_true, if_false, ha, List.append_nil]
    · simp only [decomposeBits, hc, Ctx.enforce, Bool.false_eq_true, if_false, hq, hs, List.append_nil]
  | true =>
    have he : (decomposeBits P L N c).2 = enforceLtP P (natBits P.m N) (allocBits P.p (natBits P.m N) c).1
        ((allocBits P.p (natBits P.m N) c).2.enforce (sumRow P.m c.nvars L)) := by
      simp only [decomposeBits, hc, if_true, hs]
    rw [he, enforceLtP, allocAll_eq]
    simp only [Ctx.enforce, ha, hq]
    exact ⟨_, _, rfl, rfl, nofun⟩

end Sys2Proof.Machine
end

