-- ==== Sys2Proof/Tests/Slice0.lean ====
section
/-! SUPPORT. Tests of the model on the spec's own vectors (95_test_vectors.md; every expected value is the spec's), and for
each obligation with hypotheses a state and operands that meet them. -/

namespace Sys2Proof.Tests

open Sys2Proof Sys2Proof.Machine

-- One test at a time: many kernel evaluations at once would reserve a thread's stack each.
set_option Elab.async false

/-! ### WellFormed: the one check (R79) -/

theorem test_wf_refuses_repeated_registers : (Instr.qr 1 1 2 3).wellFormed = false ∧ (Instr.qr 1 2 1 3).wellFormed = false ∧
    (Instr.qr 1 2 3 1).wellFormed = false ∧ (Instr.qr 1 2 2 3).wellFormed = false ∧
    (Instr.qr 1 2 3 2).wellFormed = false ∧ (Instr.qr 1 2 3 3).wellFormed = false := by decide

theorem test_wf_accepts_distinct_registers : (Instr.qr 63 0 62 1).wellFormed = true := by decide

/-! ### Decoding: words of 95_test_vectors.md section 7 and 8 -/

theorem test_decode_dec : decode 0x06102000 = .ok (.decompose 33 1) := by decide
theorem test_decode_rec : decode 0x0a30e000 = .ok (.recompose 7 35) := by decide
theorem test_decode_mov : decode 0x0c204000 = .ok (.mov 2 1) := by decide
theorem test_decode_add : decode 0x10304200 = .ok (.add 3 1 2) := by decide
theorem test_decode_xor : decode 0x14304200 = .ok (.xor 3 1 2) := by decide
theorem test_decode_rotl : decode 0x18108019 = .ok (.rotl 1 2 25) := by decide
theorem test_decode_qr : decode 0x20310938 = .ok (.qr 3 4 9 14) := by decide
theorem test_decode_dround : decode 0x24000000 = .ok .dround := by decide
theorem test_decode_layout : decode 0x2ba80000 = .ok (.layout 117) := by decide
theorem test_decode_snap : decode 0x2c000000 = .ok .snap := by decide
theorem test_decode_perm : decode 0x30000000 = .ok .perm := by decide
theorem test_decode_combine : decode 0x34000000 = .ok .combine := by decide
theorem test_decode_block : decode 0x3b200000 = .ok (.block 100) := by decide
theorem test_decode_step : decode 0x3f270000 = .ok (.step 100 112 0) := by decide
theorem test_decode_zero_is_illegal : decode 0x00000000 = .error .reservedOpcode := by decide
theorem test_decode_reserved_bit_is_illegal : decode 0x10108301 = .error .reservedBits := by decide
theorem test_decode_repeated_register_is_illegal : decode 0x2010420c = .error .repeatedRegister := by decide
theorem test_encode_qr : encode (.qr 32 33 34 35) = 0x2208628c := by decide
theorem test_table_word : decodeTableWord 32 0x3c020800 = some (.step 0 32 64) := by decide

/-! ### One command on a small state -/

/-- A fresh engine over the spec's small modulus with some word registers holding constant words. -/
def regs (l : List (RIdx × Word)) : State :=
  l.foldl (fun s q => s.setR q.1 (constWord q.2)) (State.fresh Params.small [] [])

/-- The same engine after the host has written some field registers. -/
def fields (l : List (FIdx × Nat)) : State :=
  l.foldl (fun s q => s.bound q.1 (some q.2)) (State.fresh Params.small [] [])

/-- What an outcome's state says; none for a stop. -/
def peek {α : Type} (o : Host.Outcome State Fault Refusal) (f : State → α) : Option α :=
  match o with
  | .next t => some (f t)
  | .fault _ => none
  | .refused _ => none

theorem test_dec_truncates : peek (exec (.decompose 1 0) (fields [(0, 0x100000005)]))
    (fun t => (t.rval 1, t.ctx.nvars, t.ctx.ncons)) = some (some 5, 36, 35) := by decide +kernel

theorem test_dec_absent : peek (exec (.decompose 0 0) ((fields []).bound 0 none)) (·.status) = some 0x00004113 := by
  decide +kernel

theorem test_rec_value : peek (exec (.recompose 1 1) (regs [(1, 0xffffffff)])) (fun t => t.fval 1) =
    some (some 0xffffffff) := by decide +kernel

theorem test_rec_unwritten : peek (exec (.recompose 0 40) (regs [])) (·.status) = some 0x00140223 := by decide +kernel

theorem test_mov_copies : peek (exec (.mov 2 1) (regs [(1, 0x12345678)])) (fun t => (t.rval 2, t.rval 1)) =
    some (some 0x12345678, some 0x12345678) := by decide +kernel

theorem test_add_wraps : peek (exec (.add 3 1 2) (regs [(1, 0xffffffff), (2, 1)])) (fun t => (t.rval 3, t.status)) =
    some (some 0, 0) := by decide +kernel

theorem test_add_checks_rs1_first : peek (exec (.add 1 2 3) (regs [])) (·.status) = some 0x00010443 := by decide +kernel

theorem test_xor_source_is_destination : peek (exec (.xor 3 3 4) (regs [(3, 0xffffffff), (4, 0x0f0f0f0f)]))
    (fun t => t.rval 3) = some (some 0xf0f0f0f0) := by decide +kernel

theorem test_rotl_turns_left : peek (exec (.rotl 3 1 7) (regs [(1, 0x12345678)])) (fun t => t.rval 3) =
    some (some 0x1a2b3c09) := by decide +kernel

theorem test_qr_source_example :
    peek (exec (.qr 0 4 8 12) (regs [(0, 0x11111111), (4, 0x01020304), (8, 0x9b8d6f43), (12, 0x01234567)]))
      (fun t => (t.rval 0, t.rval 4, t.rval 8, t.rval 12)) =
    some (some 0xea2a92f4, some 0xcb1cf8ce, some 0x4581472e, some 0x5881c4bb) := by decide +kernel

theorem test_qr_last_operand_unwritten : peek (exec (.qr 0 1 2 4) (regs [(0, 0), (1, 0), (2, 0)])) (·.status) =
    some 0x00020853 := by decide +kernel

theorem test_layout_unwritten : peek (exec (.layout 0) (regs [])) (·.status) = some 0x00004a13 := by decide +kernel
theorem test_layout_shape : peek (exec (.layout 117) (regs [])) (·.status) = some 0x003aca05 := by decide +kernel
theorem test_snap_unwritten : peek (exec .snap (regs [])) (·.status) = some 0x00000b33 := by decide +kernel
theorem test_perm_unwritten : peek (exec .perm (regs [])) (·.status) = some 0x00000c43 := by decide +kernel
theorem test_combine_checks_r16_first : peek (exec .combine (regs [])) (·.status) = some 0x00080d43 := by decide +kernel
theorem test_block_in_range : peek (exec (.block 116) (regs [])) (·.status) = some 0x003a4e13 := by decide +kernel
theorem test_step_unwritten : peek (exec (.step 0 32 64) (regs [])) (·.status) = some 0x00004f13 := by decide +kernel
theorem test_step_shape : peek (exec (.step 0 113 64) (regs [])) (·.status) = some 0x0038cf05 := by decide +kernel

/-- DROUND with R0 to R11 written and R12 not: words 12 to 15 are first read by XOR. -/
theorem test_dround_r12_unwritten :
    peek (exec .dround (regs ((List.finRange 12).map fun i => (⟨i.val, by omega⟩, 0#32)))) (·.status) =
      some 0x00060953 := by decide +kernel

/-- R[base] on hold the words of a list, as constant words. -/
def block16 (base : Nat) (l : List Word) : List (RIdx × Word) := l.zipIdx.map fun q => (wordIdx base q.2, q.1)

/-- The layout of section 5.0. -/
def layoutWords : List Word :=
  [0x61707865, 0x3320646e, 0x79622d32, 0x6b206574, 0x03020100, 0x07060504, 0x0b0a0908, 0x0f0e0d0c, 0x13121110,
    0x17161514, 0x1b1a1918, 0x1f1e1d1c, 1, 0x09000000, 0x4a000000, 0]

theorem test_mov_unwritten : peek (exec (.mov 1 2) (regs [])) (·.status) = some 0x00010333 := by decide +kernel
theorem test_xor_second_unwritten : peek (exec (.xor 1 2 3) (regs [(2, 0)])) (·.status) = some 0x00018553 := by
  decide +kernel
theorem test_rotl_unwritten : peek (exec (.rotl 1 2 7) (regs [])) (·.status) = some 0x00010663 := by decide +kernel

/-- R121 to R123, R125: the rows of one bit of the adder on the variables 1 and 2, written out from the rules for p = 101:
t, s_k, g, h, carry. -/
theorem test_adder_rows : (fullAdder 101 (.var 1) (.var 2) (.const false) ⟨[some 1, some 1, some 1], [], 0⟩).2.cons =
    [⟨[(1, 2)], [(2, 1)], [(1, 1), (2, 1), (3, 100)]⟩, ⟨[(3, 2)], [], [(3, 1), (4, 100)]⟩,
      ⟨[(1, 1)], [(2, 1)], [(5, 1)]⟩, ⟨[(3, 1)], [], [(6, 1)]⟩,
      ⟨[(5, 1)], [(6, 1)], [(5, 1), (6, 1), (7, 100)]⟩] := by decide

theorem test_snap_copies : peek (exec .snap (regs (block16 0 layoutWords))) (fun t => (t.rval 16, t.rval 28)) =
    some (some 0x61707865, some 1) := by decide +kernel

theorem test_combine_adds_layouts : peek (exec .combine (regs (block16 0 layoutWords ++ block16 16 layoutWords)))
    (fun t => (t.rval 0, t.rval 12)) = some (some 0xc2e0f0ca, some 2) := by decide +kernel

theorem test_layout_swaps_counter_and_nonce :
    peek (exec (.layout 2) (fields ((List.finRange 16).map fun i => (⟨i.val, by omega⟩, 0x100000000 + i.val))))
      (fun t => (t.rval 3, t.rval 4, t.rval 12, t.rval 13, t.rval 15)) =
    some (some 0x6b206574, some 2, some 13, some 10, some 12) := by decide +kernel

/-! ### The value level: 95_test_vectors.md sections 1.4, 5.0 and 6.3 -/

/-- The key words of section 1.4. -/
def key : Vector Word 8 :=
  #v[0x03020100, 0x07060504, 0x0b0a0908, 0x0f0e0d0c, 0x13121110, 0x17161514, 0x1b1a1918, 0x1f1e1d1c]

theorem test_dround_vector : wordDround (wordLayout key 1 #v[0x09000000, 0x4a000000, 0]) =
    #v[0xcd52e917, 0x85ab03b4, 0xb3457395, 0xf96de7dd, 0xc4b7cd22, 0x5c2e187a, 0xc95eb461, 0x316c801a, 0x7bf7d740,
      0x7eddd644, 0xf1a1bdf5, 0x761246ca, 0x6b0d58a3, 0x6798471a, 0xd737f167, 0xf173888d] := by decide +kernel

theorem test_keystream_vector : wordBlock key 1 #v[0, 0x4a000000, 0] =
    #v[0xf3514f22, 0xe1d91b40, 0x6f27de2f, 0xed1d63b8, 0x821f138c, 0xe2062c3d, 0xecca4f7e, 0x78cff39e, 0xa30a3b8a,
      0x920a6072, 0xcd7479b5, 0x34932bed, 0x40ba4c79, 0xcd343ec6, 0x4c2c21ea, 0xb7417df0] := by decide +kernel

/-! ### Host interface and stepping -/

theorem test_step_runs_fetched_word : peek (step (State.reset.withFetchWord 32 0x10108300)) (·.status) =
    some 0x00010443 := by decide +kernel

theorem test_step_illegal_word : peek (step (State.reset.withFetchWord 32 0x1c000000)) (·.status) = some 0x00000707 := by
  decide +kernel

theorem test_second_step_is_reuse : peek (exec (.step 0 32 64) { fields [] with ctx := ⟨[some 1], [], 1⟩ }) (·.status) =
    some 0x00000f09 := by decide +kernel

theorem test_host_reduces_mod_p : peek (hostOp (.writeF 3 (some (12884901893 + 7))) (fields []))
    (fun t => (t.fval 3, t.ctx.nvars)) = some (some 7, 2) := by decide +kernel

theorem test_pack_bytes : packBytes [0x00, 0x01, 0x02, 0x03, 0x1c, 0x1d, 0x1e, 0x1f] = [0x03020100, 0x1f1e1d1c] := by
  decide

theorem test_parse_line : parseLine "  QRDIAG #0x3 ; a diagonal".toList = some (.qr 3 4 9 14) := by decide

/-! ### Witnesses: for each obligation with hypotheses, a state and operands that meet them all -/

/-- A state in which every register has a value: the word w in every word register, and the variable 1, with value 5, in
every field register; the variable 2 has value 1. Operations may be to come. -/
def demo (P : Params) (w : Word32) (ops : List HostOp := []) : State where
  params := P
  f := Vector.replicate 128 (.written (LC.single 1) (some 5))
  r := Vector.replicate 64 (.written w)
  ctx := ⟨[some 1, some 5, some 1], [], 0⟩
  status := 0
  pending := ops
  replies := []

/-- A word of 32 variables. -/
def varWord : Word32 := Vector.replicate 32 (.var 2)

theorem varWord_ok (P : Params) (w : Word32) (ops : List HostOp := []) : (demo P w ops).ctx.WordOk varWord := by
  intro x hx
  have : x = .var 2 := by simpa [varWord] using hx
  subst this
  exact ⟨by decide, .inr rfl⟩

theorem demo_inv {P : Params} (hP : P.Valid) {w : Word32} {ops : List HostOp} (hw : (demo P w ops).ctx.WordOk w) :
    (demo P w ops).Inv := by
  have hl := hP.large
  have h5 : 5 < P.p := by omega
  refine ⟨hP, ⟨rfl, fun x hx => ?_, fun q hq => by simp [demo] at hq⟩, fun i => ?_, fun j w' h => ?_, by simp [demo],
    statusOk_congr (s := State.fresh P [] []) rfl (fresh_statusOk P [] [])⟩
  · simp only [demo, List.mem_cons, Option.some.injEq, List.not_mem_nil, or_false] at hx
    show x < P.p
    omega
  · have : (demo P w ops).f[i] = .written (LC.single 1) (some 5) := by simp [demo]
    rw [this]
    refine fieldOk_written.2 ⟨within_single (by show 1 < P.p; omega) (by simp [demo]), ?_⟩
    show some 5 = LC.honest P.p [some 1, some 5, some 1] (LC.single 1)
    simp [LC.honest, LC.single, Nat.mod_eq_of_lt h5]
  · have : w' = w := by simpa [demo, eq_comm] using h
    subst this
    exact hw

/-- The state with variable words, and the one with constant words. -/
def demoV : State := demo Params.small varWord
def demoC : State := demo Params.small (constWord 7)

theorem demoV_inv : demoV.Inv := demo_inv Params.small_valid (varWord_ok _ _)
theorem demoC_inv : demoC.Inv := demo_inv Params.small_valid (constWord_spec _ 7).1.1

theorem demo_f (P : Params) (w : Word32) {ops : List HostOp} (i : FIdx) : (demo P w ops).fval i = some 5 := by simp [demo, State.fval, FReg.val]
theorem demo_r (P : Params) (w : Word32) {ops : List HostOp} (j : RIdx) : (demo P w ops).r[j] = .written w := by simp [demo]
theorem demo_written (P : Params) (w : Word32) {ops : List HostOp} (base : Nat) : (demo P w ops).Written16 base := fun i _ => by
  rw [demo_r]; nofun
theorem demo_values (P : Params) (w : Word32) {ops : List HostOp} (base : FIdx) (n : Nat) : (demo P w ops).HasValues base n := fun k _ => by
  rw [demo_f]; nofun
theorem demoV_vars (j : RIdx) : AllVars (demoV.word j) := by
  have : demoV.word j = varWord := word_of (demo_r Params.small varWord j)
  rw [this]
  intro x hx
  have : x = .var 2 := by simpa [varWord] using hx
  subst this
  rfl
theorem demo_complete (P : Params) (w : Word32) {ops : List HostOp} : (demo P w ops).ctx.Complete P.p := fun q hq => by simp [demo] at hq

/-- A state with an error latched. -/
def latched : State := (State.fresh Params.small [] []).raise 0x04 .illegal

theorem test_witness_IdentificationRegistersAreConstant : 5 < 6 ∧ ∃ t, hostOp .readCtx demoC = .next t :=
  ⟨by decide, _, rfl⟩
theorem test_witness_ReadsReturnAndChangeNothing : (State.fresh Params.small [] []).r[(63 : RIdx)] = .unwritten ∧
    demoC.r[(63 : RIdx)] = .written (constWord 7) ∧ 127 < 128 ∧ 63 < 64 ∧ 5 < 6 :=
  ⟨by simp [State.fresh], demo_r _ _ _, by decide, by decide, by decide⟩
theorem test_witness_WriteBindsFreshVariable : demoC.err = false ∧ 127 < 128 := by decide
theorem test_witness_ErrorIsSticky : latched.err = true ∧ (∃ t, hostOp .readStatus latched = .next t) ∧
    HostOp.readStatus ≠ .openCtx := ⟨by decide, ⟨_, rfl⟩, by decide⟩
theorem test_witness_StatusFormIsKept : (demoC.StatusOk ∧ ∃ t, step demoC = .next t) ∧ latched.StatusOk :=
  ⟨⟨demoC_inv.status, _, rfl⟩, raise_statusOk (fresh_statusOk _ _ _) _ _⟩
theorem test_witness_DecodeReadsOperandFields : ∃ i, decode 0x3f270000 = .ok i := ⟨.step 100 112 0, by decide⟩
theorem test_witness_DecodeOfEncodeIsIdentity : (Instr.qr 63 0 62 1).wellFormed = true := by decide
theorem test_witness_ReservedOpcodeIsIllegal : demoC.err = false ∧ ((0x00000000#32).extractLsb' 26 6).toNat = 0x00 ∧
    ((0x1c000000#32).extractLsb' 26 6).toNat = 0x07 ∧ 0x10 ≤ ((0x40000000#32).extractLsb' 26 6).toNat ∧
    0x10 ≤ ((0xffffffff#32).extractLsb' 26 6).toNat := by decide
theorem test_witness_ReservedBitsAndRepeatedRegistersAreIllegal : demoC.err = false ∧
    (0x04, 0x10000000, 0xFC0000FF) ∈ opcodeMap ∧ (0x10108301#32).extractLsb' 26 6 = 0x04 ∧
    0x10108301#32 &&& 0xFC0000FF ≠ 0x10000000#32 ∧ (0x2010420c#32).extractLsb' 26 6 = 0x08 ∧
    0x2010420c#32 &&& 0xFC000003 = 0x20000000#32 ∧ ¬ QrFieldsDistinct 0x2010420c :=
  ⟨by decide, by decide, by decide, by decide, by decide, by decide, by unfold QrFieldsDistinct; decide⟩
theorem test_witness_StepRunsTheIssuedCommand :
    ({ demoC with pending := [.issue 0x10304200] } : State).pending = [.issue 0x10304200] ∧ demoC.err = false ∧
    decode 0x10304200 = .ok (.add 3 1 2) ∧ (Instr.add 3 1 2).wellFormed = true ∧ demoC.pending = [] :=
  ⟨rfl, by decide, by decide, rfl, rfl⟩

/-- DEC, REC, MOV, ADD, XOR, ROTL, the word gadgets' soundness, the codec's round trips, the decomposition's relation. -/
theorem test_witness_word_commands : demoV.Inv ∧ demoV.fval 127 = some 5 ∧ demoV.r[(63 : RIdx)] = .written varWord ∧
    demoV.rval 0 = some 0xffffffff ∧ demoV.r[(0 : RIdx)] ≠ .unwritten ∧ demoV.fval 0 ≠ none :=
  ⟨demoV_inv, demo_f _ _ _, demo_r _ _ _, by decide +kernel, by rw [demoV, demo_r]; nofun, by rw [demoV, demo_f]; nofun⟩
/-- QR and its soundness. -/
theorem test_witness_qr : demoV.Inv ∧ distinct4 0 1 2 63 = true ∧ demoV.rval 0 = some 0xffffffff ∧
    demoV.rval 1 = some 0xffffffff ∧ demoV.rval 2 = some 0xffffffff ∧ demoV.rval 63 = some 0xffffffff :=
  ⟨demoV_inv, by decide, by decide +kernel, by decide +kernel, by decide +kernel, by decide +kernel⟩
/-- LAYOUT and BLOCK, whole and as their parts. -/
theorem test_witness_layout_block : demoV.Inv ∧ (116 : FIdx).val ≤ 116 ∧ demoV.HasValues 116 12 :=
  ⟨demoV_inv, by decide, demo_values _ _ _ _⟩
/-- SNAP, DROUND, PERM, COMBINE, their soundness and their parts. -/
theorem test_witness_rounds : demoV.Inv ∧ demoV.Written16 0 ∧ demoV.Written16 16 :=
  ⟨demoV_inv, demo_written _ _ _, demo_written _ _ _⟩
theorem test_witness_StepEqualsTheNativeOracle : demoV.Inv ∧ (100 : FIdx).val ≤ 100 ∧ (112 : FIdx).val ≤ 112 ∧
    demoV.ctx.nstep = 0 ∧ demoV.HasValues 100 12 ∧ demoV.HasValues 112 16 :=
  ⟨demoV_inv, by decide, by decide, rfl, demo_values _ _ _ _, demo_values _ _ _ _⟩

/-- A STEP of the demo state runs, leaves STATUS, and its honest assignment satisfies the context. -/
theorem demo_step {P : Params} (hP : P.Valid) (ops : List HostOp := []) : ∃ t z, exec (.step 0 32 64) (demo P varWord ops) = .next t ∧
    t.status = (demo P varWord ops).status ∧ Satisfies P.p z t.ctx := by
  have h := demo_inv hP (varWord_ok P varWord ops)
  obtain ⟨b, ws, c, _, _, e⟩ := exec_step_some (s := demo P varWord ops) (fs := 0) (fx := 32) (fd := 64)
    ⟨by decide, by decide, by decide, rfl⟩ (demo_values _ _ _ _) (demo_values _ _ _ _)
  rcases exec_cases h _ e with ⟨e', he⟩ | g
  · exfalso
    have h1 := raise_err (demo P varWord ops) (Instr.step 0 32 64).opcode e'
    rw [← he, State.err, stepResult_eq] at h1
    have h2 : (demo P varWord ops).status = 0#32 := rfl
    simp [h2] at h1
  · refine ⟨_, _, e, g.status, honest_satisfies g.ok (Nat.lt_trans Nat.zero_lt_one h.one_lt)
      (g.complete (demo_complete P varWord)) ?_⟩
    rcases exec_frame _ e with ⟨e', he⟩ | g'
    · rw [he, raise_ctx]
      simp [Ctx.Present, demo]
    · exact g'.present (by simp [Ctx.Present, demo])

theorem test_witness_StepEffectsAndFrame : demoV.Inv ∧ demoV.err = false ∧
    ∃ t, exec (.step 0 32 64) demoV = .next t ∧ t.status = demoV.status := by
  obtain ⟨t, _, h1, h2, _⟩ := demo_step Params.small_valid
  exact ⟨demoV_inv, by decide, t, h1, h2⟩
theorem test_witness_StepIsSound : (demo Params.smallCanonical varWord).Inv ∧ Params.smallCanonical.canonical = true ∧
    ∃ t z, exec (.step 0 32 64) (demo Params.smallCanonical varWord) = .next t ∧
      t.status = (demo Params.smallCanonical varWord).status ∧ Satisfies Params.smallCanonical.p z t.ctx :=
  ⟨demo_inv Params.smallCanonical_valid (varWord_ok _ _), rfl, demo_step Params.smallCanonical_valid⟩
theorem test_witness_StepIsSoundUpToCanonicity : demoV.Inv ∧ demoV.err = false ∧
    ∃ t z, exec (.step 0 32 64) demoV = .next t ∧ t.status = demoV.status ∧ Satisfies demoV.params.p z t.ctx :=
  ⟨demoV_inv, by decide, demo_step Params.small_valid⟩
theorem test_witness_GadgetCountsWithVariableOperands : demoV.Inv ∧ (∀ j : RIdx, demoV.r[j] ≠ .unwritten) ∧
    (∀ j, AllVars (demoV.word j)) ∧ distinct4 0 1 2 3 = true ∧ demoV.Written16 16 :=
  ⟨demoV_inv, fun j => by rw [demoV, demo_r]; nofun, demoV_vars, by decide, demo_written _ _ _⟩
theorem test_witness_ConstantWordsFold : demoC.r[(0 : RIdx)] = .written (constWord 7) := demo_r _ _ _

/-- The first and the second operand missing. -/
theorem test_witness_FirstMissingOperandIsReported : (regs [(0, 0)]).err = false ∧ RunsFit (.add 2 0 1) ∧
    (regs [(0, 0)]).ContextFree (.add 2 0 1) ∧ operandOrder (.add 2 0 1) = [⟨.add, .r, 0⟩] ++ ⟨.add, .r, 1⟩ :: [] ∧
    (∀ u ∈ [(⟨.add, .r, 0⟩ : OperandCheck)], (regs [(0, 0)]).Has u) ∧ ¬ (regs [(0, 0)]).Has ⟨.add, .r, 1⟩ ∧
    ¬ (regs []).Has ⟨.add, .r, 0⟩ ∧ (Gadget.rotl, 6) ∈ gadgetCodes ∧ (Gadget.dec, 1) ∈ gadgetCodes := by
  refine ⟨by decide +kernel, trivial, trivial, rfl, ?_, ?_, ?_, by decide, by decide⟩
  · simp [State.Has, regs, State.setR]
  · simp [State.Has, regs, State.setR, State.fresh]
  · simp [State.Has, regs, State.fresh]
/-- Every run's first and last base past the file. -/
theorem test_witness_RunPastTheFileIsShapeMismatch : demoC.err = false ∧ 116 < (117 : FIdx).val ∧
    100 < (101 : FIdx).val ∧ 112 < (113 : FIdx).val ∧ 100 < (127 : FIdx).val ∧ (100 : FIdx).val ≤ 100 ∧
    (112 : FIdx).val ≤ 112 := by decide
theorem test_witness_SecondStepIsContextReuse : ({ demoC with ctx := { demoC.ctx with nstep := 1 } } : State).err = false ∧
    (100 : FIdx).val ≤ 100 ∧ (112 : FIdx).val ≤ 112 ∧ 1 ≤ 1 ∧ (∀ fs fx fd, Instr.mov 0 1 ≠ .step fs fx fd) ∧
    ∃ t, exec (.mov 0 1) demoC = .next t := ⟨by decide, by decide, by decide, by decide, nofun, _, exec_mov 0 (by
      rw [demoC, demo_r]; nofun)⟩
/-- A command that fails (also for the errors' STATUS, the context and its growth). -/
theorem test_witness_FailingCommandCommitsNothing : (regs []).err = false ∧
    (∃ t, exec (.mov 0 1) (regs []) = .next t ∧ t.status ≠ (regs []).status) ∧
    ∃ t, hostOp (.issue 0x0c004000) (regs []) = .next t ∧ t.status ≠ (regs []).status :=
  ⟨by decide, ⟨_, rfl, by decide⟩, _, rfl, by decide⟩
theorem test_witness_ContextOnlyGrows : (∃ t, hostOp (.writeF 0 none) demoC = .next t) ∧
    (∃ t, hostOp .openCtx demoC = .next t) ∧
    ∃ t, hostOp (.issue 0) demoC = .next t ∧ t.status ≠ demoC.status := ⟨⟨_, rfl⟩, ⟨_, rfl⟩, _, rfl, by decide⟩
theorem test_witness_RegisterFileWriters : (∃ t, exec (.mov 0 1) demoC = .next t) ∧
    (∃ t, exec (.recompose 0 1) demoC = .next t) ∧ ∃ t, hostOp .readCtx demoC = .next t :=
  ⟨⟨_, exec_mov 0 (by rw [demoC, demo_r]; nofun)⟩, ⟨_, exec_rec 0 (by rw [demoC, demo_r]; nofun)⟩, _, rfl⟩
theorem test_witness_StepKeepsTheInvariant : demoC.Inv ∧ demoC.ctx.Complete demoC.params.p ∧ demoC.WordsBoolean ∧
    ∃ t, step { demoC with pending := [.readCtx] } = .next t := by
  refine ⟨demoC_inv, demo_complete _ _, fun z hz j w hw => ?_, _, rfl⟩
  have hw' : constWord 7 = w := by rw [demoC, demo_r] at hw; simpa using hw
  exact hw' ▸ ((constWord_spec demoC.ctx 7).2 z).1
theorem test_witness_HonestAssignmentSatisfies : Params.small.Valid ∧
    (∀ i, HostOp.writeF i none ∉ [HostOp.writeF 0 (some 5), .issue 0x04100000]) ∧
    ∃ t, runOps [.writeF 0 (some 5), .issue 0x04100000] (State.fresh Params.small [] []) = .next t :=
  ⟨Params.small_valid, by simp, _, rfl⟩
theorem test_witness_GatesForceTheirFunction : Nat.Prime 12884901893 ∧ 2 < 12884901893 ∧ demoV.ctx.SignalOk (.var 2) ∧
    Signal.value [1, 5, 1] (.var 2) = true.toNat ∧ (Signal.var 2).isConst = false :=
  ⟨prime_12884901893, by decide, ⟨by decide, .inr rfl⟩, rfl, rfl⟩
theorem test_witness_NonCanonicalWitnessExists : demoV.Inv ∧ demoV.ctx.Complete demoV.params.p ∧
    none ∉ demoV.ctx.assign ∧ demoV.params.canonical = false ∧ demoV.fval 0 = some 5 ∧
    5 < 2 ^ demoV.params.m - demoV.params.p :=
  ⟨demoV_inv, demo_complete _ _, by decide, rfl, demo_f _ _ _, by decide⟩
theorem test_witness_PriorBlockOutputIsNotRead : demoV.err = false ∧
    (∃ t, exec (.step 0 32 64) demoV = .next t ∧ t.status = demoV.status) ∧
    (∀ k < 12, demoV.f[runIdx 0 k] = demoV.f[runIdx 0 k]) := by
  obtain ⟨t, _, h1, h2, _⟩ := demo_step Params.small_valid
  exact ⟨by decide, ⟨t, h1, h2⟩, fun _ _ => rfl⟩
/-- A prior state with the first n entries present and the others ABSENT, and an input. -/
def prior (n : Nat) : List (Option Nat) := List.replicate n (some 7) ++ List.replicate (28 - n) none
def input : List (Option Nat) := List.replicate 16 (some 7)

/-- Wrong lengths; every entry that STEP reads present; and the counter ABSENT. -/
theorem test_witness_HostCallRunsOneStep :
    ¬ (([] : List (Option Nat)).length = 28 ∧ ([] : List (Option Nat)).length = 16) ∧ demoV.params.Valid ∧
    (prior 12).length = 28 ∧ (prior 11).length = 28 ∧ input.length = 16 ∧
    (∀ j ∈ callReads, callValue (prior 12) input j ≠ none) ∧
    callReads = [0, 1, 2, 3, 4, 5, 6, 7] ++ 11 :: ([8, 9, 10] ++ (List.range 16).map (32 + ·)) ∧
    (∀ j ∈ [0, 1, 2, 3, 4, 5, 6, 7], callValue (prior 11) input j ≠ none) ∧ callValue (prior 11) input 11 = none :=
  ⟨by decide, Params.small_valid, by decide, by decide, by decide, by decide, by decide, by decide, by decide⟩

/-- The STATUS the host call returns; none for another result. -/
def callStatus (r : Except CallError (List FReg)) : Option Word :=
  match r with
  | .error (.engine w) => some w
  | .error .shapeMismatch => none
  | .ok _ => none

/-- The host call with the counter ABSENT: STEP's first missing operand is F[11]. -/
theorem test_host_call_absent_counter :
    callStatus (generateStepConstraints (State.fresh Params.small [] []) 0 (prior 11) input).2 = some 0x0005cf13 := by
  decide +kernel
theorem test_witness_ThreadedStepsCount : demoV.params.Valid ∧ (List.replicate 8 0).length = 8 ∧
    (List.replicate 3 0).length = 3 ∧ (∀ x ∈ List.replicate 8 0 ++ List.replicate 3 0 ++ [1], x < demoV.params.p) ∧
    ∀ e ∈ [List.replicate 16 0, List.replicate 16 1], e.length = 16 :=
  ⟨Params.small_valid, by decide, by decide, by decide, by decide⟩

/-- A completed STEP with a read, the next step's H_OPEN and its commands to come; a command to come before any H_OPEN. -/
theorem test_witness_ContextFoldsAfterItsLastCommand :
    (demo Params.small varWord [.readCtx, .openCtx, .issue 0]).Inv ∧
    (demo Params.small varWord [.readCtx, .openCtx, .issue 0]).err = false ∧
    (∃ t, exec (.step 0 32 64) (demo Params.small varWord [.readCtx, .openCtx, .issue 0]) = .next t ∧
      t.status = (demo Params.small varWord [.readCtx, .openCtx, .issue 0]).status) ∧
    (demo Params.small varWord [.readCtx, .openCtx, .issue 0]).pending = [.readCtx] ++ .openCtx :: [.issue 0] ∧
    (∀ w, HostOp.issue w ∉ [HostOp.readCtx]) ∧
    (demo Params.small varWord [.readCtx, .issue 0, .openCtx]).pending = [.readCtx] ++ .issue 0 :: [.openCtx] ∧
    HostOp.openCtx ∉ [HostOp.readCtx] ∧ latched.err = true ∧ ∃ t, hostOp .openCtx latched = .next t := by
  obtain ⟨t, _, h1, h2, _⟩ := demo_step Params.small_valid [.readCtx, .openCtx, .issue 0]
  exact ⟨demo_inv Params.small_valid (varWord_ok _ _ _), by decide, ⟨t, h1, h2⟩, rfl, by simp, rfl, by decide, by decide,
    _, rfl⟩

/-- A context in which only H_WRITE_F has run; in it, a DEC, a LAYOUT and a BLOCK that complete as its first command. -/
theorem test_witness_ContextFoldsAfterItsFirstCommand :
    demoV.ctx.cons = [] ∧ (∃ t, hostOp (.writeF (127 : FIdx).val none) demoV = .next t) ∧ demoV.pending = [] ∧
    (∃ t, exec (.decompose 63 127) demoV = .next t ∧ t.status = demoV.status) ∧
    (∃ t, exec (.layout 116) demoV = .next t ∧ t.status = demoV.status) ∧
    ∃ t, exec (.block 116) demoV = .next t ∧ t.status = demoV.status := by
  have e : demoV.f[(127 : FIdx)] = .written (LC.single 1) (some 5) := by simp [demoV, demo]
  obtain ⟨o, c, e1⟩ := layoutGadget_some demoV.params
    (layoutReads_values (demo_values _ _ 116 12 : demoV.HasValues 116 12)) demoV.ctx
  obtain ⟨b, e2⟩ := blockGadget_some (demo_values _ _ 116 12 : demoV.HasValues 116 12)
  exact ⟨rfl, ⟨_, rfl⟩, rfl, ⟨_, exec_dec 63 (decompose_some _ e _), rfl⟩, ⟨_, exec_layout (by decide) e1, by simp⟩,
    _, exec_block (by decide) e2, by simp⟩

end Sys2Proof.Tests
end

/-! The invariant of the whole machine (R14, R21, R23, R28, R30, R34): every host operation keeps it, so every step does. -/

namespace Sys2Proof.Machine

/-- A command keeps a state well-formed: it takes its error, or makes progress. -/
theorem exec_inv {s t : State} (h : s.Inv) {i : Instr} (he : exec i s = .next t) : t.Inv := by
  rcases exec_cases h i he with ⟨e, rfl⟩ | hp
  · exact raise_inv h i.opcode e
  · exact hp.inv h

/-- A host operation keeps a state well-formed. -/
theorem OpResult.inv {s t : State} {op : HostOp} (h : s.Inv) (hr : OpResult s op t) : t.Inv := by
  cases hr with
  | opened => exact fresh_inv h.params s.pending s.replies
  | ignoredWrite => exact h
  | bound i => exact bound_inv h i _
  | ignoredIssue => exact h
  | illegal => exact raise_inv h _ .illegal
  | executed _ _ hx => exact exec_inv h hx
  | replied => exact inv_congr h rfl rfl rfl rfl rfl

/-- Taking an operation off the host's list keeps a state well-formed. -/
theorem State.Inv.withPending {s : State} (h : s.Inv) (ops : List HostOp) : State.Inv { s with pending := ops } :=
  inv_congr h rfl rfl rfl rfl rfl

/-- Settles O43: a step waits, or it is the host's next operation, which keeps the invariant. -/
theorem stepKeepsTheInvariant : Obligations.StepKeepsTheInvariant := by
  intro s t h hs
  rcases step_cases hs with ⟨_, rfl⟩ | ⟨op, ops, _, hr⟩
  · exact h
  · exact hr.inv (h.withPending ops)

end Sys2Proof.Machine

/-! Decoding takes an encoded command back (R70 to R82). -/

namespace Sys2Proof

section
variable {i : Instr} {lo : Nat}

/-- A 6-bit operand field of an encoded command names the register its operand bits hold there. -/
theorem rField_encode {j : RIdx} (h : (i.opcode.toNat * 2 ^ 26 + i.operandBits) / 2 ^ lo % 2 ^ 6 = j.val) :
    rField (encode i) lo = j := rField_eq ((bitField_encode i lo 6).trans h)

/-- A 7-bit operand field of an encoded command names the register its operand bits hold there. -/
theorem fField_encode {j : FIdx} (h : (i.opcode.toNat * 2 ^ 26 + i.operandBits) / 2 ^ lo % 2 ^ 7 = j.val) :
    fField (encode i) lo = j := fField_eq ((bitField_encode i lo 7).trans h)

/-- The amount field of an encoded command is the amount its operand bits hold there. -/
theorem nField_encode {n : Fin 32} (h : (i.opcode.toNat * 2 ^ 26 + i.operandBits) / 2 ^ 0 % 2 ^ 5 = n.val) :
    nField (encode i) = n := nField_eq ((bitField_encode i 0 5).trans h)

/-- R78: the check of reserved bits passes an encoded command whose operand bits are 0 there. -/
theorem ifZero_encode {width : Nat} {r : Except DecodeError Instr}
    (h : (i.opcode.toNat * 2 ^ 26 + i.operandBits) / 2 ^ lo % 2 ^ width = 0) : ifZero (encode i) lo width r = r :=
  if_pos ((bitField_encode i lo width).trans h)

end

/-- R82: a well-formed command is read back from its word: row by row, the opcode selects the row, the reserved bits are
0 and every operand field holds its operand. -/
theorem decode_encode (i : Instr) (hw : i.wellFormed = true) : decode (encode i) = .ok i := by
  have hop := bitField_encode_opcode i
  cases i with
  | decompose rd fs =>
    rw [decode_decompose hop, ifZero_encode, rField_encode (j := rd), fField_encode (j := fs)] <;>
      simp only [Instr.opcode, Instr.operandBits] <;> omega
  | recompose fd rs =>
    rw [decode_recompose hop, ifZero_encode, rField_encode (j := rs), fField_encode (j := fd)] <;>
      simp only [Instr.opcode, Instr.operandBits] <;> omega
  | mov rd rs =>
    rw [decode_mov hop, ifZero_encode, rField_encode (j := rd), rField_encode (j := rs)] <;>
      simp only [Instr.opcode, Instr.operandBits] <;> omega
  | add rd a b =>
    rw [decode_add hop, ifZero_encode, rField_encode (j := rd), rField_encode (j := a), rField_encode (j := b)] <;>
      simp only [Instr.opcode, Instr.operandBits] <;> omega
  | xor rd a b =>
    rw [decode_xor hop, ifZero_encode, rField_encode (j := rd), rField_encode (j := a), rField_encode (j := b)] <;>
      simp only [Instr.opcode, Instr.operandBits] <;> omega
  | rotl rd rs n =>
    rw [decode_rotl hop, ifZero_encode, rField_encode (j := rd), rField_encode (j := rs), nField_encode (n := n)] <;>
      simp only [Instr.opcode, Instr.operandBits] <;> omega
  | qr a b c d =>
    rw [decode_qr hop, ifZero_encode, rField_encode (j := a), rField_encode (j := b), rField_encode (j := c),
      rField_encode (j := d), checkRegisters, if_pos hw] <;>
      simp only [Instr.opcode, Instr.operandBits] <;> omega
  | dround => exact (decode_dround hop).trans (ifZero_encode rfl)
  | layout fs =>
    rw [decode_layout hop, ifZero_encode, fField_encode (j := fs)] <;>
      simp only [Instr.opcode, Instr.operandBits] <;> omega
  | snap => exact (decode_snap hop).trans (ifZero_encode rfl)
  | perm => exact (decode_perm hop).trans (ifZero_encode rfl)
  | combine => exact (decode_combine hop).trans (ifZero_encode rfl)
  | block fs =>
    rw [decode_block hop, ifZero_encode, fField_encode (j := fs)] <;>
      simp only [Instr.opcode, Instr.operandBits] <;> omega
  | step fs fx fd =>
    rw [decode_step hop, ifZero_encode, fField_encode (j := fs), fField_encode (j := fx), fField_encode (j := fd)] <;>
      simp only [Instr.opcode, Instr.operandBits] <;> omega

end Sys2Proof

/-! The host's operations one by one (R235, R38, R39), and what each keeps of STATUS, CTX, the register files and the
parameters (R22, R27, R29, R34 to R37). -/

namespace Sys2Proof.Machine

/-! ### The identification registers -/

/-- R38: what the six identification registers hold. -/
theorem idRegister_of_mem {P : Params} {k v : Nat}
    (h : (k, v) ∈ [(0, 28), (1, 16), (2, 128), (3, 64), (4, fieldBits P.p), (5, P.canonical.toNat)]) :
    idRegister P k = some v := by
  simp only [List.mem_cons, Prod.mk.injEq, List.not_mem_nil, or_false] at h
  rcases h with ⟨rfl, rfl⟩ | ⟨rfl, rfl⟩ | ⟨rfl, rfl⟩ | ⟨rfl, rfl⟩ | ⟨rfl, rfl⟩ | ⟨rfl, rfl⟩ <;> rfl

/-- R38: there is no seventh. -/
theorem idRegister_eq_none {P : Params} {k : Nat} (h : 5 < k) : idRegister P k = none := by
  obtain ⟨n, rfl⟩ := Nat.exists_eq_add_of_le' h
  rfl

/-! ### What each read answers -/

section
variable (s : State)

theorem hostOp_readF (i : FIdx) : hostOp (.readF i.val) s = .next (s.reply (.field s.f[i])) := dif_pos i.isLt

theorem hostOp_readR (j : RIdx) : hostOp (.readR j.val) s = .next (s.reply (.word (wordView s.ctx s.r[j]))) :=
  dif_pos j.isLt

theorem hostOp_readId {k v : Nat} (h : idRegister s.params k = some v) :
    hostOp (.readId k) s = .next (s.reply (.ident v)) := by
  simp only [hostOp, hostReadId, h]

theorem hostOp_readF_refused {i : Nat} (h : 127 < i) : hostOp (.readF i) s = .refused (.fieldIndexOutOfRange i) :=
  dif_neg (by omega)

theorem hostOp_readR_refused {j : Nat} (h : 63 < j) : hostOp (.readR j) s = .refused (.wordIndexOutOfRange j) :=
  dif_neg (by omega)

theorem hostOp_readId_refused {k : Nat} (h : 5 < k) : hostOp (.readId k) s = .refused (.idIndexOutOfRange k) := by
  simp only [hostOp, hostReadId, idRegister_eq_none h]

end

/-! ### What an issued command keeps -/

section
variable {s t : State} {i : Instr}

theorem exec_params (h : exec i s = .next t) : t.params = s.params := by
  rcases exec_frame i h with ⟨e, rfl⟩ | hf
  · exact raise_params s i.opcode e
  · exact hf.params

/-- A command takes its error, which is in form, or leaves STATUS. -/
theorem exec_statusOk (hs : s.StatusOk) (h : exec i s = .next t) : t.StatusOk := by
  rcases exec_frame i h with ⟨e, rfl⟩ | hf
  · exact raise_statusOk hs i.opcode e
  · exact statusOk_congr hf.status hs

/-- R29: a command's error leaves CTX; its effect appends, and STEP alone counts. -/
theorem exec_ctx_grows (h : exec i s = .next t) : s.ctx.Extends t.ctx ∧ s.ctx.nstep ≤ t.ctx.nstep := by
  rcases exec_frame i h with ⟨e, rfl⟩ | hf
  · rw [raise_ctx]
    exact ⟨Ctx.Extends.refl _, le_rfl⟩
  · refine ⟨hf.ext, ?_⟩
    rcases hf.nstep with hn | ⟨_, hn, _⟩
    · exact hn.ge
    · exact hn ▸ Nat.zero_le _

/-- R224: a command that changes STATUS has failed, and left CTX. -/
theorem exec_ctx_of_status_ne (h : exec i s = .next t) (hne : t.status ≠ s.status) : t.ctx = s.ctx := by
  rcases exec_frame i h with ⟨e, rfl⟩ | hf
  · exact raise_ctx s i.opcode e
  · exact absurd hf.status hne

/-- R22: of the commands, REC and STEP write F. -/
theorem exec_f (h : exec i s = .next t) (hrec : ∀ fd rs, i ≠ .recompose fd rs) (hstep : ∀ fs fx fd, i ≠ .step fs fx fd) :
    t.f = s.f := by
  rcases exec_frame i h with ⟨e, rfl⟩ | hf
  · exact raise_f s i.opcode e
  · exact hf.f hrec hstep

/-- R27: REC writes no word register. -/
theorem exec_rec_r {fd : FIdx} {rs : RIdx} (h : exec (.recompose fd rs) s = .next t) : t.r = s.r := by
  rcases exec_frame _ h with ⟨e, rfl⟩ | hf
  · exact raise_r s _ e
  · exact hf.r ⟨fd, rs, rfl⟩

end

/-! ### What a host operation keeps -/

section
variable {s t : State} {op : HostOp}

theorem OpResult.params (h : OpResult s op t) : t.params = s.params := by
  cases h with
  | opened | ignoredWrite | bound | ignoredIssue | replied => rfl
  | illegal => exact raise_params s _ _
  | executed _ _ hx => exact exec_params hx

theorem OpResult.statusOk (h : OpResult s op t) (hs : s.StatusOk) : t.StatusOk := by
  cases h with
  | opened => exact fresh_statusOk s.params s.pending s.replies
  | ignoredWrite | ignoredIssue => exact hs
  | bound | replied => exact statusOk_congr (s := s) rfl hs
  | illegal => exact raise_statusOk hs _ _
  | executed _ _ hx => exact exec_statusOk hs hx

/-- R29: every operation but H_OPEN only appends to CTX. -/
theorem OpResult.ctx_grows (h : OpResult s op t) (ho : op ≠ .openCtx) :
    s.ctx.Extends t.ctx ∧ s.ctx.nstep ≤ t.ctx.nstep := by
  cases h with
  | opened => exact absurd rfl ho
  | ignoredWrite | ignoredIssue | replied => exact ⟨Ctx.Extends.refl _, le_rfl⟩
  | bound i => exact ⟨bound_ext s i _, le_rfl⟩
  | illegal =>
    rw [raise_ctx]
    exact ⟨Ctx.Extends.refl _, le_rfl⟩
  | executed _ _ hx => exact exec_ctx_grows hx

/-- R224: an issued word that changes STATUS, an illegal one or a failing command, leaves CTX. -/
theorem OpResult.ctx_of_status_ne {w : Word} (h : OpResult s (.issue w) t) (hne : t.status ≠ s.status) :
    t.ctx = s.ctx := by
  cases h with
  | ignoredIssue => rfl
  | illegal => exact raise_ctx s _ _
  | executed _ _ hx => exact exec_ctx_of_status_ne hx hne
  | replied _ _ hi => exact absurd rfl (hi w)

/-- R27: the host writes word registers by H_OPEN and by commands only. -/
theorem OpResult.r (h : OpResult s op t) (ho : op ≠ .openCtx) (hi : ∀ w, op ≠ .issue w) : t.r = s.r := by
  cases h with
  | opened => exact absurd rfl ho
  | ignoredWrite | bound | replied => rfl
  | ignoredIssue | illegal | executed => exact absurd rfl (hi _)

/-- R22: the host writes field registers by H_OPEN, H_WRITE_F and commands only. -/
theorem OpResult.f (h : OpResult s op t) (ho : op ≠ .openCtx) (hi : ∀ w, op ≠ .issue w)
    (hw : ∀ i v, op ≠ .writeF i v) : t.f = s.f := by
  cases h with
  | opened => exact absurd rfl ho
  | ignoredWrite | bound => exact absurd rfl (hw _ _)
  | ignoredIssue | illegal | executed => exact absurd rfl (hi _)
  | replied => rfl

end

/-! ### A step -/

theorem step_of_pending {s : State} {op : HostOp} {ops : List HostOp} (h : s.pending = op :: ops) :
    step s = hostOp op { s with pending := ops } := by
  simp only [step, nextOp, h]

/-- R252: with no operation to come, the engine waits. -/
theorem step_of_pending_nil {s : State} (h : s.pending = []) : step s = .next s := by
  simp only [step, nextOp, h]

/-- R235: while ERR = 0, the issue of a word that decodes runs its command. -/
theorem hostOp_issue_of_decode {s : State} {w : Word} {i : Instr} (he : s.err = false) (hd : decode w = .ok i) :
    hostOp (.issue w) s = exec i s := by
  simp only [hostOp, hostIssue, he, hd, Bool.false_eq_true, if_false]

/-- The word placed at the front of the host's list is the one given. -/
theorem withFetchWord_pending (s : State) (w : Word) :
    (s.withFetchWord 32 w.toNat).pending = .issue w :: s.pending := by
  simp [State.withFetchWord, Nat.mod_eq_of_lt w.isLt]

/-! ### The obligations -/

/-- Settles O6: a step waits, or it is the host's next operation, which keeps the form. -/
theorem statusFormIsKept : Obligations.StatusFormIsKept := by
  intro s t hs h
  rcases step_cases h with ⟨_, rfl⟩ | ⟨op, ops, _, hr⟩
  · exact hs
  · exact hr.statusOk (statusOk_congr (s := s) rfl hs)

/-- Settles O40: growth, H_OPEN's fresh context and a failing word's frame, each read from what the operation can do. -/
theorem contextOnlyGrows : Obligations.ContextOnlyGrows := by
  refine ⟨fun s t op ho h => (hostOp_cases h).ctx_grows ho, fun s t h => ?_, fun s t w h hne => ?_⟩
  · cases h
    rfl
  · exact (hostOp_cases h).ctx_of_status_ne hne

/-- Settles O41: from the frame of every command and of every host operation. -/
theorem registerFileWriters : Obligations.RegisterFileWriters :=
  ⟨fun _ _ _ h => exec_f h, fun _ _ _ _ h => exec_rec_r h,
    fun _ _ _ h ho hi => ⟨(hostOp_cases h).r ho hi, fun hw => (hostOp_cases h).f ho hi hw⟩⟩

/-- Settles O1: reset and H_OPEN leave the same fresh engine. -/
theorem resetAndOpenLeaveEverythingFresh : Obligations.ResetAndOpenLeaveEverythingFresh := by
  refine ⟨fun i => by simp [State.reset, State.fresh], fun j => by simp [State.reset, State.fresh], rfl, rfl,
    fun k v h => idRegister_of_mem h, fun s => ⟨s.openCtx, rfl, fun i => ?_, fun j => ?_, rfl, rfl, rfl, rfl, rfl, rfl, rfl⟩⟩
  · simp
  · simp

/-- Settles O2: they are functions of the parameters, which no host operation changes. -/
theorem identificationRegistersAreConstant : Obligations.IdentificationRegistersAreConstant := by
  refine fun s => ⟨fun k v h => ⟨_, hostOp_readId s (idRegister_of_mem h), rfl⟩, fun k h => hostOp_readId_refused s h, rfl,
    fun op t h k => ?_⟩
  rw [(hostOp_cases h).params]

/-- Settles O3: each read answers its reply, and `State.reply` changes the record of replies only. -/
theorem readsReturnAndChangeNothing : Obligations.ReadsReturnAndChangeNothing := by
  refine fun s => ⟨hostOp_readF s, fun j h => ?_, fun j w h => ?_, rfl, rfl,
    fun k v h => ⟨idRegister_of_mem h, hostOp_readId s (idRegister_of_mem h)⟩, fun k h => hostOp_readId_refused s h,
    fun i h => hostOp_readF_refused s h, fun j h => hostOp_readR_refused s h⟩
  · rw [hostOp_readR, h]
    rfl
  · rw [hostOp_readR, h]
    rfl

/-- Settles O15: the step takes the front operation; an encoded command is issued, decoded to itself and run. -/
theorem stepRunsTheIssuedCommand : Obligations.StepRunsTheIssuedCommand := by
  refine ⟨fun s w ops i hp he hd => ?_, fun s i he hw => ?_, fun s => step_of_pending_nil, fun s op ops => step_of_pending⟩
  · exact (step_of_pending hp).trans (hostOp_issue_of_decode he hd)
  · exact (step_of_pending (withFetchWord_pending s (encode i))).trans (hostOp_issue_of_decode he (decode_encode i hw))

end Sys2Proof.Machine

/-! Everything decoding can answer, in terms of the word's fields, and that encoding takes it back (R70 to R82). -/

namespace Sys2Proof

/-! ### Fields of a word -/

/-- R74: a field of a word is its slice, unsigned. -/
theorem bitField_eq (w : Word) (lo width : Nat) : bitField w lo width = (w.extractLsb' lo width).toNat := by
  simp [bitField, Nat.shiftRight_eq_div_pow]

section
variable (w : Word) (lo : Nat)

theorem rField_val : (rField w lo).val = bitField w lo 6 := Nat.mod_mod _ _
theorem fField_val : (fField w lo).val = bitField w lo 7 := Nat.mod_mod _ _
theorem nField_val : (nField w).val = bitField w 0 5 := Nat.mod_mod _ _

end

/-- Two register fields name the same register exactly when their bits agree. -/
theorem rField_inj {w : Word} {lo lo' : Nat} :
    rField w lo = rField w lo' ↔ w.extractLsb' lo 6 = w.extractLsb' lo' 6 := by
  rw [Fin.ext_iff, rField_val, rField_val, bitField_eq, bitField_eq, BitVec.toNat_eq]

/-- A field of a word is 0 when its bits are. -/
theorem bitField_eq_zero_iff {w : Word} {lo width : Nat} :
    bitField w lo width = 0 ↔ ∀ k < width, w.getLsbD (lo + k) = false := by
  have hz : bitField w lo width = 0 ↔ w.extractLsb' lo width = 0#width := by
    rw [bitField_eq, BitVec.toNat_eq, BitVec.toNat_zero]
  rw [hz]
  constructor
  · intro h k hk
    simpa [hk] using congrArg (·.getLsbD k) h
  · intro h
    apply BitVec.eq_of_getLsbD_eq
    intro k hk
    simpa [hk] using h k hk

/-! ### What a word can decode to -/

/-- R78: the check of reserved bits answers what it was given, and only while they are 0. -/
theorem ifZero_eq_ok {w : Word} {lo width : Nat} {r : Except DecodeError Instr} {i : Instr} :
    ifZero w lo width r = .ok i ↔ bitField w lo width = 0 ∧ r = .ok i := by
  unfold ifZero
  split <;> simp [*]

/-- R79: the check of registers answers the command it was given, and only a well-formed one. -/
theorem checkRegisters_eq_ok {i j : Instr} : checkRegisters i = .ok j ↔ i.wellFormed = true ∧ i = j := by
  unfold checkRegisters
  split <;> simp [*]

/-- R71, R76: a word that decodes has its command's OPCODE in bits 31:26. -/
theorem bitField_opcode_of_decode {w : Word} {i : Instr} (h : decode w = .ok i) : bitField w 26 6 = i.opcode.toNat := by
  rw [decode_opcode h, opcodeField_eq, bitField_eq]

/-- R82: everything a word can decode to: the command of its OPCODE's row, read from its fields, while the format's
reserved bits are 0 and, for QR, the registers are distinct. -/
inductive DecodesTo (w : Word) : Instr → Prop where
  | decompose (hop : bitField w 26 6 = 1) (hz : bitField w 0 13 = 0) :
      DecodesTo w (.decompose (rField w 20) (fField w 13))
  | recompose (hop : bitField w 26 6 = 2) (hz : bitField w 0 13 = 0) :
      DecodesTo w (.recompose (fField w 13) (rField w 20))
  | mov (hop : bitField w 26 6 = 3) (hz : bitField w 0 14 = 0) : DecodesTo w (.mov (rField w 20) (rField w 14))
  | add (hop : bitField w 26 6 = 4) (hz : bitField w 0 8 = 0) :
      DecodesTo w (.add (rField w 20) (rField w 14) (rField w 8))
  | xor (hop : bitField w 26 6 = 5) (hz : bitField w 0 8 = 0) :
      DecodesTo w (.xor (rField w 20) (rField w 14) (rField w 8))
  | rotl (hop : bitField w 26 6 = 6) (hz : bitField w 5 9 = 0) :
      DecodesTo w (.rotl (rField w 20) (rField w 14) (nField w))
  | qr (hop : bitField w 26 6 = 8) (hz : bitField w 0 2 = 0)
      (hd : distinct4 (rField w 20) (rField w 14) (rField w 8) (rField w 2) = true) :
      DecodesTo w (.qr (rField w 20) (rField w 14) (rField w 8) (rField w 2))
  | dround (hop : bitField w 26 6 = 9) (hz : bitField w 0 26 = 0) : DecodesTo w .dround
  | layout (hop : bitField w 26 6 = 10) (hz : bitField w 0 19 = 0) : DecodesTo w (.layout (fField w 19))
  | snap (hop : bitField w 26 6 = 11) (hz : bitField w 0 26 = 0) : DecodesTo w .snap
  | perm (hop : bitField w 26 6 = 12) (hz : bitField w 0 26 = 0) : DecodesTo w .perm
  | combine (hop : bitField w 26 6 = 13) (hz : bitField w 0 26 = 0) : DecodesTo w .combine
  | block (hop : bitField w 26 6 = 14) (hz : bitField w 0 19 = 0) : DecodesTo w (.block (fField w 19))
  | step (hop : bitField w 26 6 = 15) (hz : bitField w 0 5 = 0) :
      DecodesTo w (.step (fField w 19) (fField w 12) (fField w 5))

theorem decode_cases {w : Word} {i : Instr} (h : decode w = .ok i) : DecodesTo w i := by
  have hop := bitField_opcode_of_decode h
  cases i with
  | decompose => obtain ⟨hz, ⟨⟩⟩ := ifZero_eq_ok.1 ((decode_decompose hop).symm.trans h); exact .decompose hop hz
  | recompose => obtain ⟨hz, ⟨⟩⟩ := ifZero_eq_ok.1 ((decode_recompose hop).symm.trans h); exact .recompose hop hz
  | mov => obtain ⟨hz, ⟨⟩⟩ := ifZero_eq_ok.1 ((decode_mov hop).symm.trans h); exact .mov hop hz
  | add => obtain ⟨hz, ⟨⟩⟩ := ifZero_eq_ok.1 ((decode_add hop).symm.trans h); exact .add hop hz
  | xor => obtain ⟨hz, ⟨⟩⟩ := ifZero_eq_ok.1 ((decode_xor hop).symm.trans h); exact .xor hop hz
  | rotl => obtain ⟨hz, ⟨⟩⟩ := ifZero_eq_ok.1 ((decode_rotl hop).symm.trans h); exact .rotl hop hz
  | qr =>
    obtain ⟨hz, hr⟩ := ifZero_eq_ok.1 ((decode_qr hop).symm.trans h)
    obtain ⟨hd, ⟨⟩⟩ := checkRegisters_eq_ok.1 hr
    exact .qr hop hz hd
  | dround => exact .dround hop (ifZero_eq_ok.1 ((decode_dround hop).symm.trans h)).1
  | layout => obtain ⟨hz, ⟨⟩⟩ := ifZero_eq_ok.1 ((decode_layout hop).symm.trans h); exact .layout hop hz
  | snap => exact .snap hop (ifZero_eq_ok.1 ((decode_snap hop).symm.trans h)).1
  | perm => exact .perm hop (ifZero_eq_ok.1 ((decode_perm hop).symm.trans h)).1
  | combine => exact .combine hop (ifZero_eq_ok.1 ((decode_combine hop).symm.trans h)).1
  | block => obtain ⟨hz, ⟨⟩⟩ := ifZero_eq_ok.1 ((decode_block hop).symm.trans h); exact .block hop hz
  | step => obtain ⟨hz, ⟨⟩⟩ := ifZero_eq_ok.1 ((decode_step hop).symm.trans h); exact .step hop hz

/-! ### Encoding what a word decodes to -/

theorem DecodesTo.wellFormed {w : Word} {i : Instr} (h : DecodesTo w i) : i.wellFormed = true := by
  cases h with
  | qr _ _ hd => exact hd
  | _ => rfl

/-- The reserved bits being 0, bits 25:0 of the word are the operand fields put back at their places. -/
theorem DecodesTo.operandBits {w : Word} {i : Instr} (h : DecodesTo w i) : w.toNat % 2 ^ 26 = i.operandBits := by
  cases h with
  | _ _ hz =>
    simp only [Instr.operandBits, rField_val, fField_val, nField_val, bitField] at hz ⊢
    omega

/-- R82: a word is the encoding of what it decodes to. -/
theorem encode_of_decode {w : Word} {i : Instr} (h : decode w = .ok i) : encode i = w := by
  have hop := bitField_opcode_of_decode h
  have hlow := (decode_cases h).operandBits
  have hlt := w.isLt
  apply BitVec.eq_of_toNat_eq
  rw [encode_toNat, ← hop, ← hlow, bitField]
  omega

end Sys2Proof

namespace Sys2Proof.Machine

/-- Settles O10: row by row, the fields of the encoded word hold the command's operands. -/
theorem decodeOfEncodeIsIdentity : Obligations.DecodeOfEncodeIsIdentity := decode_encode

/-- Settles O11: the OPCODE, the operand fields and the reserved bits make up the whole word. -/
theorem encodeOfDecodeIsIdentity : Obligations.EncodeOfDecodeIsIdentity :=
  fun _ _ h => ⟨(decode_cases h).wellFormed, encode_of_decode h⟩

/-- Settles O8: every operand of what a word decodes to is a field, and a field is a slice. -/
theorem decodeReadsOperandFields : Obligations.DecodeReadsOperandFields := by
  intro w i h
  cases decode_cases h with
  | decompose | recompose | mov | add | xor | rotl | qr | layout | block | step =>
    simp only [rField_val, fField_val, nField_val, bitField_eq, and_self]
  | dround | snap | perm | combine => trivial

/-- Settles O9, by running the decoder and the encoder on the words. -/
theorem exampleWordsDecode : Obligations.ExampleWordsDecode := by
  unfold Obligations.ExampleWordsDecode
  decide

end Sys2Proof.Machine

/-! The decoder and the opcode map: a row's match and mask say what the decoder's checks say (R76 to R79). -/

namespace Sys2Proof

/-! ### A row's match and mask -/

/-- R76: the mask of a row covers OPCODE and the format's reserved-zero bits, `width` of them from bit `lo` up. -/
def rowMask (lo width : Nat) : Word := 0xFC000000#32 ||| ((BitVec.allOnes width).setWidth 32 <<< lo)

/-- R76: the match of a row is its OPCODE at bits 31:26. -/
def rowMatch (op : BitVec 6) : Word := op.setWidth 32 <<< 26

theorem getLsbD_rowMask {lo width j : Nat} (hj : j < 32) :
    (rowMask lo width).getLsbD j = decide (26 ≤ j ∨ lo ≤ j ∧ j < lo + width) := by
  have hop : ∀ k < 32, (0xFC000000#32).getLsbD k = decide (26 ≤ k) := by decide
  rw [rowMask, BitVec.getLsbD_or, hop j hj, BitVec.getLsbD_shiftLeft, BitVec.getLsbD_setWidth, BitVec.getLsbD_allOnes,
    Bool.eq_iff_iff]
  simp only [Bool.or_eq_true, Bool.and_eq_true, Bool.not_eq_true', decide_eq_true_eq, decide_eq_false_iff_not]
  omega

theorem getLsbD_rowMatch {op : BitVec 6} {j : Nat} (hj : j < 32) :
    (rowMatch op).getLsbD j = (!decide (j < 26) && op.getLsbD (j - 26)) := by
  simp [rowMatch, hj]

/-- R76: a word matches a row exactly when it has the row's OPCODE and its reserved bits are 0, bit by bit. -/
theorem and_rowMask_eq_iff {w : Word} {op : BitVec 6} {lo width : Nat} (hr : lo + width ≤ 26) :
    w &&& rowMask lo width = rowMatch op ↔ w.extractLsb' 26 6 = op ∧ bitField w lo width = 0 := by
  rw [bitField_eq_zero_iff]
  constructor
  · intro h
    have hb : ∀ j < 32, (w.getLsbD j && decide (26 ≤ j ∨ lo ≤ j ∧ j < lo + width)) =
        (!decide (j < 26) && op.getLsbD (j - 26)) := fun j hj => by
      rw [← getLsbD_rowMask hj, ← getLsbD_rowMatch hj, ← h, BitVec.getLsbD_and]
    constructor
    · apply BitVec.eq_of_getLsbD_eq
      intro k hk
      simpa [hk] using hb (26 + k) (by omega)
    · intro k hk
      simpa [hk, show lo + k < 26 by omega] using hb (lo + k) (by omega)
  · rintro ⟨rfl, hz⟩
    apply BitVec.eq_of_getLsbD_eq
    intro j hj
    rw [BitVec.getLsbD_and, getLsbD_rowMask hj, getLsbD_rowMatch hj]
    by_cases h26 : 26 ≤ j
    · simp [h26, show j - 26 < 6 by omega]
    · by_cases hin : lo ≤ j ∧ j < lo + width
      · have hbit := hz (j - lo) (by omega)
        rw [Nat.add_sub_cancel' hin.1] at hbit
        simp [hbit, h26]
      · simp [h26, hin]

/-- R72, R76: every assigned OPCODE, with the reserved-zero bits of its format: the lowest one, and how many. -/
def reservedRanges : List (BitVec 6 × Nat × Nat) :=
  [(0x01, 0, 13), (0x02, 0, 13), (0x03, 0, 14), (0x04, 0, 8), (0x05, 0, 8), (0x06, 5, 9), (0x08, 0, 2), (0x09, 0, 26),
   (0x0A, 0, 19), (0x0B, 0, 26), (0x0C, 0, 26), (0x0D, 0, 26), (0x0E, 0, 19), (0x0F, 0, 5)]

theorem reservedRanges_le : ∀ f ∈ reservedRanges, f.2.1 + f.2.2 ≤ 26 := by decide

end Sys2Proof

namespace Sys2Proof.Machine

/-- Every row of the opcode map is made of its OPCODE and its format's reserved bits. -/
theorem opcodeMap_eq : opcodeMap = reservedRanges.map fun f => (f.1, rowMatch f.1, rowMask f.2.1 f.2.2) := by decide

theorem opcode_mem_opcodeMap (i : Instr) : ∃ m k, (i.opcode, m, k) ∈ opcodeMap := by
  cases i <;> simp [Instr.opcode, opcodeMap]

/-! ### Which words of a row decode -/

section
variable {w : Word} {op : BitVec 6} {lo width : Nat}

/-- R79: QR's registers are distinct exactly when its register fields are. -/
theorem distinct4_rField_iff :
    distinct4 (rField w 20) (rField w 14) (rField w 8) (rField w 2) = true ↔ QrFieldsDistinct w := by
  simp [distinct4, QrFieldsDistinct, rField_inj, and_assoc]

/-- R78: a word whose row checks reserved bits alone decodes exactly when they are 0. -/
theorem exists_ok_iff_of_plain_row {i : Instr} (hd : decode w = ifZero w lo width (.ok i)) (hq : op ≠ 0x08) :
    (∃ j, decode w = .ok j) ↔ bitField w lo width = 0 ∧ (op = 0x08 → QrFieldsDistinct w) := by
  simp only [hd, ifZero_eq_ok, Except.ok.injEq, exists_and_left, exists_eq', hq, false_imp_iff]

/-- R78, R79: a QR word decodes exactly when its reserved bits are 0 and its registers are distinct. -/
theorem exists_ok_iff_of_qr_row (hop : bitField w 26 6 = 8) :
    (∃ j, decode w = .ok j) ↔ bitField w 0 2 = 0 ∧ ((0x08 : BitVec 6) = 0x08 → QrFieldsDistinct w) := by
  simp [decode_qr hop, ifZero_eq_ok, checkRegisters_eq_ok, Instr.wellFormed, distinct4_rField_iff]

/-- R76 to R79, row by row: a word with an assigned OPCODE decodes exactly when the checks of its row pass. -/
theorem exists_ok_iff_checks (hf : (op, lo, width) ∈ reservedRanges) (hop : bitField w 26 6 = op.toNat) :
    (∃ i, decode w = .ok i) ↔ bitField w lo width = 0 ∧ (op = 0x08 → QrFieldsDistinct w) := by
  simp only [reservedRanges, List.mem_cons, List.not_mem_nil, or_false, Prod.mk.injEq] at hf
  rcases hf with ⟨rfl, rfl, rfl⟩ | ⟨rfl, rfl, rfl⟩ | ⟨rfl, rfl, rfl⟩ | ⟨rfl, rfl, rfl⟩ | ⟨rfl, rfl, rfl⟩ |
    ⟨rfl, rfl, rfl⟩ | ⟨rfl, rfl, rfl⟩ | ⟨rfl, rfl, rfl⟩ | ⟨rfl, rfl, rfl⟩ | ⟨rfl, rfl, rfl⟩ | ⟨rfl, rfl, rfl⟩ |
    ⟨rfl, rfl, rfl⟩ | ⟨rfl, rfl, rfl⟩ | ⟨rfl, rfl, rfl⟩
  · exact exists_ok_iff_of_plain_row (decode_decompose hop) (by decide)
  · exact exists_ok_iff_of_plain_row (decode_recompose hop) (by decide)
  · exact exists_ok_iff_of_plain_row (decode_mov hop) (by decide)
  · exact exists_ok_iff_of_plain_row (decode_add hop) (by decide)
  · exact exists_ok_iff_of_plain_row (decode_xor hop) (by decide)
  · exact exists_ok_iff_of_plain_row (decode_rotl hop) (by decide)
  · exact exists_ok_iff_of_qr_row hop
  · exact exists_ok_iff_of_plain_row (decode_dround hop) (by decide)
  · exact exists_ok_iff_of_plain_row (decode_layout hop) (by decide)
  · exact exists_ok_iff_of_plain_row (decode_snap hop) (by decide)
  · exact exists_ok_iff_of_plain_row (decode_perm hop) (by decide)
  · exact exists_ok_iff_of_plain_row (decode_combine hop) (by decide)
  · exact exists_ok_iff_of_plain_row (decode_block hop) (by decide)
  · exact exists_ok_iff_of_plain_row (decode_step hop) (by decide)

end

section
variable {w : Word} {row : BitVec 6 × Word × Word}

/-- A word that matches a row has its OPCODE. -/
theorem opcode_of_match (hrow : row ∈ opcodeMap) (hm : w &&& row.2.2 = row.2.1) : w.extractLsb' 26 6 = row.1 := by
  rw [opcodeMap_eq, List.mem_map] at hrow
  obtain ⟨f, hf, rfl⟩ := hrow
  exact ((and_rowMask_eq_iff (reservedRanges_le f hf)).1 hm).1

/-- R76: a word with a row's OPCODE decodes exactly when it matches the row and, for QR, its registers are distinct. -/
theorem exists_ok_iff_match (hrow : row ∈ opcodeMap) (hop : w.extractLsb' 26 6 = row.1) :
    (∃ i, decode w = .ok i) ↔ w &&& row.2.2 = row.2.1 ∧ (row.1 = 0x08 → QrFieldsDistinct w) := by
  rw [opcodeMap_eq, List.mem_map] at hrow
  obtain ⟨f, hf, rfl⟩ := hrow
  rw [and_rowMask_eq_iff (reservedRanges_le f hf), and_iff_right hop]
  exact exists_ok_iff_checks hf (by rw [bitField_eq, hop])

end

/-- R76: a word that decodes matches its command's row. -/
theorem exists_row_of_decode {w : Word} {i : Instr} (h : decode w = .ok i) :
    ∃ m k, (i.opcode, m, k) ∈ opcodeMap ∧ w &&& k = m ∧ (i.opcode = 0x08 → QrFieldsDistinct w) := by
  obtain ⟨m, k, hrow⟩ := opcode_mem_opcodeMap i
  have hop : w.extractLsb' 26 6 = i.opcode := (opcodeField_eq w).symm.trans (decode_opcode h).symm
  exact ⟨m, k, hrow, (exists_ok_iff_match hrow hop).1 ⟨i, h⟩⟩

/-- Settles O7: a word that decodes matches its command's row, and a word that matches a row has the row's OPCODE. -/
theorem decodeMatchesOpcodeMap : Obligations.DecodeMatchesOpcodeMap := by
  refine fun w => ⟨⟨?_, ?_⟩, ?_⟩
  · rintro ⟨i, h⟩
    obtain ⟨m, k, hrow, hmatch⟩ := exists_row_of_decode h
    exact ⟨_, hrow, hmatch⟩
  · rintro ⟨row, hrow, hm, hq⟩
    exact (exists_ok_iff_match hrow (opcode_of_match hrow hm)).2 ⟨hm, hq⟩
  · intro i h
    obtain ⟨m, k, hrow, hm, _⟩ := exists_row_of_decode h
    exact ⟨m, k, hrow, hm⟩

/-! ### Issuing an illegal word -/

/-- R226: STATUS of an IllegalCommand: ERR, KIND 3 and the OPCODE. -/
theorem statusWord_illegal (op : BitVec 6) : statusWord op .illegal = 7#32 ||| (op.setWidth 32 <<< 8) := by
  simp [statusWord, Err.kind, Err.gadget, Err.space, Err.index]

/-- R223: issuing a word that does not decode while ERR = 0 changes STATUS only. -/
theorem hostOp_issue_illegal {s : State} {w : Word} {e : DecodeError} (he : s.err = false) (hd : decode w = .error e) :
    hostOp (.issue w) s = .next { s with status := 7#32 ||| ((w.extractLsb' 26 6).setWidth 32 <<< 8) } := by
  simp only [hostOp, hostIssue, he, hd, Bool.false_eq_true, if_false, raise_congr he, statusWord_illegal, opcodeField_eq]

/-- Settles O12: the decoder's last arm, and the effect of an illegal word. -/
theorem reservedOpcodeIsIllegal : Obligations.ReservedOpcodeIsIllegal := by
  refine ⟨fun s w he hop => ?_, by decide⟩
  rw [← bitField_eq] at hop
  have hd := decode_reserved hop
  exact ⟨hd, hostOp_issue_illegal he hd⟩

/-- R82: decoding is total: a word that decodes to no command is rejected with a reason. -/
theorem exists_error_of_not_ok {w : Word} (h : ¬ ∃ i, decode w = .ok i) : ∃ e, decode w = .error e := by
  cases hd : decode w with
  | ok i => exact absurd ⟨i, hd⟩ h
  | error e => exact ⟨e, rfl⟩

/-- Settles O13: a word of the row that fails to match, or repeats a register, is none of those that decode. -/
theorem reservedBitsAndRepeatedRegistersAreIllegal : Obligations.ReservedBitsAndRepeatedRegistersAreIllegal := by
  intro s w he row hrow hop hbad
  have hnot : ¬ ∃ i, decode w = .ok i := by
    rw [exists_ok_iff_match hrow hop]
    rintro ⟨hm, hq⟩
    rcases hbad with hne | ⟨h8, hrep⟩
    · exact hne hm
    · exact hrep (hq h8)
  obtain ⟨e, hd⟩ := exists_error_of_not_ok hnot
  exact ⟨⟨e, hd⟩, hop ▸ hostOp_issue_illegal he hd⟩

end Sys2Proof.Machine

/-! Assembly text: the assembler reads what the disassembler prints (R83, R84). -/

namespace Sys2Proof.Machine

/-! ### Decimal numbers -/

/-- The digit of `k`, as `decimal` writes it. -/
def digitChar (k : Nat) : Char := Char.ofNat (48 + k % 10)

theorem decimal_eq (n : Nat) :
    decimal n = (if n < 10 then [n] else if n < 100 then [n / 10, n] else [n / 100, n / 10, n]).map digitChar := by
  unfold decimal
  split_ifs <;> rfl

theorem digitVal_digitChar (k : Nat) : digitVal 10 (digitChar k) = some (k % 10) := by
  have hd : ∀ d < 10, digitVal 10 (Char.ofNat (48 + d)) = some d := by decide
  exact hd _ (Nat.mod_lt k (by decide))

/-- A number below 1000 is read back from its digits. -/
theorem number_decimal {n : Nat} (h : n < 1000) : number 10 (decimal n) = some n := by
  rw [decimal_eq]
  split_ifs <;> simp only [List.map, number, digitsFrom, digitVal_digitChar, Option.some.injEq] <;> omega

/-- Text without the characters that R83 gives a meaning: space, comma and semicolon. -/
def Plain (cs : List Char) : Prop := ∀ c ∈ cs, c ≠ ' ' ∧ c ≠ ',' ∧ c ≠ ';'

/-- A digit is none of the characters R83 gives a meaning, and not the `x` of `0x`. -/
theorem digitChar_ne (k : Nat) : digitChar k ≠ ' ' ∧ digitChar k ≠ ',' ∧ digitChar k ≠ ';' ∧ digitChar k ≠ 'x' := by
  have hd : ∀ d < 10, Char.ofNat (48 + d) ≠ ' ' ∧ Char.ofNat (48 + d) ≠ ',' ∧ Char.ofNat (48 + d) ≠ ';' ∧
      Char.ofNat (48 + d) ≠ 'x' := by decide
  exact hd _ (Nat.mod_lt k (by decide))

theorem plain_cons {c : Char} {cs : List Char} : Plain (c :: cs) ↔ (c ≠ ' ' ∧ c ≠ ',' ∧ c ≠ ';') ∧ Plain cs :=
  List.forall_mem_cons

theorem exists_digitChar_of_mem_decimal {n : Nat} {c : Char} (h : c ∈ decimal n) : ∃ k, digitChar k = c := by
  rw [decimal_eq, List.mem_map] at h
  obtain ⟨k, _, hk⟩ := h
  exact ⟨k, hk⟩

theorem decimal_plain (n : Nat) : Plain (decimal n) := by
  intro c hc
  obtain ⟨k, rfl⟩ := exists_digitChar_of_mem_decimal hc
  obtain ⟨h1, h2, h3, _⟩ := digitChar_ne k
  exact ⟨h1, h2, h3⟩

/-- The amount after `#`: decimal digits are no `0x`. -/
theorem amount_of_no_x {cs : List Char} (h : 'x' ∉ cs) : amount cs = number 10 cs := by
  unfold amount
  split
  · simp at h
  · rfl

theorem amount_decimal {n : Nat} (h : n < 1000) : amount (decimal n) = some n := by
  rw [amount_of_no_x, number_decimal h]
  intro hx
  obtain ⟨k, hk⟩ := exists_digitChar_of_mem_decimal hx
  obtain ⟨_, _, _, hx'⟩ := digitChar_ne k
  exact hx' hk

/-! ### Operands -/

theorem parseOperand_print (x : Operand) : parseOperand x.print = some x := by
  cases x with
  | r j => simp [Operand.print, parseOperand, number_decimal (n := j.val) (by omega)]
  | f i => simp [Operand.print, parseOperand, number_decimal (n := i.val) (by omega)]
  | imm n => simp [Operand.print, parseOperand, amount_decimal (n := n.val) (by omega)]

theorem print_plain (x : Operand) : Plain x.print := by
  cases x <;> exact plain_cons.2 ⟨by decide, decimal_plain _⟩

theorem print_ne_nil (x : Operand) : x.print ≠ [] := by
  cases x <;> exact List.cons_ne_nil _ _

/-! ### Spaces and commas -/

theorem trim_space_cons (cs : List Char) : trim (' ' :: cs) = trim cs := by
  simp [trim]

/-- Text that is not empty and neither begins nor ends with a space. -/
structure Tight (cs : List Char) : Prop where
  ne_nil : cs ≠ []
  head : cs.head? ≠ some ' '
  last : cs.getLast? ≠ some ' '

theorem Plain.tight {cs : List Char} (h : Plain cs) (hne : cs ≠ []) : Tight cs where
  ne_nil := hne
  head hh := (h _ (List.mem_of_head? hh)).1 rfl
  last hl := (h _ (List.mem_of_getLast? hl)).1 rfl

/-- Whatever stands between. -/
theorem Tight.append {cs ds : List Char} (hc : Tight cs) (between : List Char) (hd : Tight ds) :
    Tight (cs ++ (between ++ ds)) where
  ne_nil := List.append_ne_nil_of_left_ne_nil hc.ne_nil _
  head := by rw [List.head?_append_of_ne_nil _ hc.ne_nil]; exact hc.head
  last := by
    rw [← List.append_assoc, List.getLast?_append_of_ne_nil _ hd.ne_nil]
    exact hd.last

theorem dropWhile_space {cs : List Char} (h : cs.head? ≠ some ' ') : cs.dropWhile (· == ' ') = cs := by
  cases cs with
  | nil => rfl
  | cons c cs => simpa using h

theorem Tight.trim {cs : List Char} (h : Tight cs) : trim cs = cs := by
  have hl : cs.reverse.head? ≠ some ' ' := by
    rw [List.head?_reverse]
    exact h.last
  rw [Machine.trim, dropWhile_space h.head, dropWhile_space hl, List.reverse_reverse]

theorem splitCommas_ne_nil (cs : List Char) : splitCommas cs ≠ [] := by
  cases cs with
  | nil => exact List.cons_ne_nil _ _
  | cons c cs =>
    unfold splitCommas
    split
    · exact List.cons_ne_nil _ _
    · split <;> exact List.cons_ne_nil _ _

theorem splitCommas_comma (cs : List Char) : splitCommas (',' :: cs) = [] :: splitCommas cs := by
  rw [splitCommas]
  split
  · next h => exact absurd h (splitCommas_ne_nil cs)
  · next h => rw [h]; rfl

theorem splitCommas_cons {c : Char} {cs g : List Char} {gs : List (List Char)} (hc : c ≠ ',') (h : splitCommas cs = g :: gs) :
    splitCommas (c :: cs) = (c :: g) :: gs := by
  simp [splitCommas, h, hc]

theorem splitCommas_plain_append {cs ds g : List Char} {gs : List (List Char)} (hc : Plain cs)
    (h : splitCommas ds = g :: gs) : splitCommas (cs ++ ds) = (cs ++ g) :: gs := by
  induction cs with
  | nil => exact h
  | cons c cs ih =>
    obtain ⟨⟨_, hcomma, _⟩, hcs⟩ := plain_cons.1 hc
    exact splitCommas_cons hcomma (ih hcs)

/-! ### Operand lists -/

theorem parseOperands_cons {g : List Char} {gs : List (List Char)} {x : Operand} {xs : List Operand}
    (hg : parseOperand (trim g) = some x) (hgs : parseOperands gs = some xs) :
    parseOperands (g :: gs) = some (x :: xs) := by
  simp only [parseOperands, hg, hgs]

theorem print_tight (x : Operand) : Tight x.print := (print_plain x).tight (print_ne_nil x)

theorem parseOperand_trim_print (x : Operand) : parseOperand (trim x.print) = some x := by
  rw [(print_tight x).trim, parseOperand_print]

/-- A space before the first operand of a list is left out. -/
theorem parseOperands_splitCommas_space (cs : List Char) :
    parseOperands (splitCommas (' ' :: cs)) = parseOperands (splitCommas cs) := by
  obtain ⟨g, gs, h⟩ := List.exists_cons_of_ne_nil (splitCommas_ne_nil cs)
  rw [splitCommas_cons (by decide) h, h]
  simp only [parseOperands, trim_space_cons]

/-- The operands of a line are read back. -/
theorem parseOperands_printOperands (x : Operand) (xs : List Operand) :
    parseOperands (splitCommas (printOperands (x :: xs))) = some (x :: xs) := by
  induction xs generalizing x with
  | nil =>
    have hs : splitCommas (x.print ++ []) = [x.print ++ []] := splitCommas_plain_append (print_plain x) rfl
    rw [List.append_nil] at hs
    rw [printOperands, hs]
    exact parseOperands_cons (parseOperand_trim_print x) rfl
  | cons y ys ih =>
    rw [printOperands, splitCommas_plain_append (print_plain x) (splitCommas_comma _), List.append_nil]
    exact parseOperands_cons (parseOperand_trim_print x) ((parseOperands_splitCommas_space _).trans (ih y))

theorem printOperands_tight (x : Operand) (xs : List Operand) : Tight (printOperands (x :: xs)) := by
  induction xs generalizing x with
  | nil => exact print_tight x
  | cons y ys ih => exact (print_tight x).append [',', ' '] (ih y)

theorem semicolon_notMem_printOperands (x : Operand) (xs : List Operand) : ';' ∉ printOperands (x :: xs) := by
  have hx : ∀ y : Operand, ';' ∉ y.print := fun y h => (print_plain y _ h).2.2 rfl
  induction xs generalizing x with
  | nil => exact hx x
  | cons y ys ih => simp [printOperands, hx x, ih y]

/-! ### Lines -/

/-- A line without a semicolon has no comment. -/
theorem takeWhile_semicolon {cs : List Char} (h : ';' ∉ cs) : cs.takeWhile (· != ';') = cs := by
  rw [List.takeWhile_eq_self_iff]
  intro c hc
  simpa using ne_of_mem_of_not_mem hc h

theorem Plain.semicolon_notMem {cs : List Char} (h : Plain cs) : ';' ∉ cs := fun hc => (h _ hc).2.2 rfl

theorem Plain.ne_space {cs : List Char} (h : Plain cs) : ∀ c ∈ cs, (c != ' ') = true := fun c hc => by
  simpa using (h c hc).1

/-- A line of a mnemonic alone. -/
theorem parseLine_name {name : List Char} (hp : Plain name) (hne : name ≠ []) : parseLine name = assemble name [] := by
  have ht : name.takeWhile (· != ' ') = name := List.takeWhile_eq_self_iff.2 hp.ne_space
  have hd : name.dropWhile (· != ' ') = [] := List.dropWhile_eq_nil_iff.2 hp.ne_space
  simp only [parseLine, takeWhile_semicolon hp.semicolon_notMem, (hp.tight hne).trim, ht, hd]
  exact if_pos rfl

/-- A line of a mnemonic and operands. -/
theorem parseLine_name_operands {name : List Char} (hp : Plain name) (hne : name ≠ []) (x : Operand) (xs : List Operand) :
    parseLine (name ++ ' ' :: printOperands (x :: xs)) = assemble name (x :: xs) := by
  have hops := printOperands_tight x xs
  have hsemi : ';' ∉ name ++ ' ' :: printOperands (x :: xs) := by
    simp [hp.semicolon_notMem, semicolon_notMem_printOperands]
  have htext : trim (name ++ ' ' :: printOperands (x :: xs)) = name ++ ' ' :: printOperands (x :: xs) :=
    ((hp.tight hne).append [' '] hops).trim
  have ht : (name ++ ' ' :: printOperands (x :: xs)).takeWhile (· != ' ') = name := by
    simp [List.takeWhile_append_of_pos hp.ne_space]
  have hd : (name ++ ' ' :: printOperands (x :: xs)).dropWhile (· != ' ') = ' ' :: printOperands (x :: xs) := by
    simp [List.dropWhile_append_of_pos hp.ne_space]
  simp only [parseLine, takeWhile_semicolon hsemi, htext, ht, hd, trim_space_cons, hops.trim]
  rw [if_neg (by simpa using hops.ne_nil), parseOperands_printOperands, Option.bind_some]

/-! ### Commands -/

theorem parts_name_plain (i : Instr) : Plain (Instr.parts i).1 := by
  cases i <;> simp [Instr.parts, Plain]

theorem parts_name_ne_nil (i : Instr) : (Instr.parts i).1 ≠ [] := by
  cases i <;> exact List.cons_ne_nil _ _

theorem assemble_parts (i : Instr) : assemble (Instr.parts i).1 (Instr.parts i).2 = some i := by
  cases i <;> rfl

theorem parseLine_disassemble (i : Instr) : parseLine (disassemble i) = some i := by
  have hp := parts_name_plain i
  have hne := parts_name_ne_nil i
  rw [← assemble_parts i, disassemble]
  cases (Instr.parts i).2 with
  | nil => exact parseLine_name hp hne
  | cons x xs => exact parseLine_name_operands hp hne x xs

/-- Settles O14: the assembler reads the printed mnemonic and operands, which are the command's parts; every expansion is
the assembler's own arm. -/
theorem assemblyTextIsRead : Obligations.AssemblyTextIsRead :=
  ⟨parseLine_disassemble, fun _ _ _ => rfl, by decide, rfl, rfl, rfl, rfl, fun _ => rfl, fun _ _ => rfl⟩

end Sys2Proof.Machine

/-! The commands of the word codec: what DEC and REC leave in a well-formed state, and their round trips (R101 to R106). -/

namespace Sys2Proof.Machine

/-! ### DEC -/

/-- R101: the values and rows a register's decomposition appends; `vs` and `qs` are those of the open `enforce_lt_p`. -/
theorem decompose_rows {s : State} (h : s.Inv) {fs : FIdx} {N : Nat} (hv : s.fval fs = some N) {w : Word32} {c : Ctx}
    (e : decompose s.params s.f fs s.ctx = .ok (w, c)) :
    ∃ vs qs, c.assign = s.ctx.assign ++ (List.range s.params.m).map (fun k => some (N / 2 ^ k % 2)) ++ vs ∧
      c.cons = s.ctx.cons ++ (List.range s.params.m).map (fun k => bitRow s.params.p (s.ctx.nvars + k)) ++
        [sumRow s.params.m s.ctx.nvars s.f[fs].lc] ++ qs ∧
      (s.params.canonical = false → vs = [] ∧ qs = []) := by
  obtain ⟨L, hL⟩ := fval_written hv
  have hrows := decomposeBits_rows h.params L N s.ctx (Ctx.Ok.length_pos h.ctx)
  rw [decompose_some s.params hL, Except.ok.injEq] at e
  rw [e] at hrows
  rw [hL]
  exact hrows

/-- R101: without the canonical check a decomposition is its bits, their booleanity rows and the sum row. -/
theorem dec_counts_of_not_canonical {P : Params} (h : P.canonical = false) :
    P.decVars = P.m ∧ P.decCons = P.m + 1 := by
  simp [Params.decVars, Params.decCons, h]

/-- Settles O17: DEC's result is its register's decomposition, of which value, word, counts and rows are known. -/
theorem decTakesLow32 : Obligations.DecTakesLow32 := by
  intro s rd fs N h hv
  obtain ⟨w, c, e, hgrows, hword, hsignals, hcounts, _⟩ := decompose_of_value h hv
  refine ⟨_, exec_dec rd e, rval_setR s hword, ?_, ?_, hcounts, dec_counts_of_not_canonical, decompose_rows h hv e⟩
  · exact wordsOnly_of h hgrows.ext hgrows.nstep fun _ hj => set_other hj
  · rw [setR_get, if_pos rfl, hsignals]
    rfl

/-! ### REC -/

/-- R104: the weighted sum of a word's signals has the word's value under every assignment, boolean or not. -/
theorem ev_weighted_signals {p : Nat} {z : List Nat} (h : z.getD 0 0 = 1) (w : Word32) :
    LC.ev (zfun p z) (LC.weighted p 0 (w.toList.map Signal.toLC)) = (zWord z w : ZMod p) := by
  rw [LC.ev_weighted, zWord, pow_zero, one_mul]
  induction w.toList with
  | nil => simp
  | cons x xs ih =>
    simp only [List.map_cons, List.foldr_cons, toLC_value h, ih, Nat.cast_add, Nat.cast_mul, Nat.cast_ofNat]

theorem recompose_eval {P : Params} (hp : 0 < P.p) (c : Ctx) {z : List Nat} (h : z.getD 0 0 = 1) (w : Word32) :
    LC.eval P.p z (recompose P c w).lc = zWord z w % P.p := by
  refine natCast_inj_of_lt (LC.eval_lt hp _ _) (Nat.mod_lt _ hp) ?_
  rw [LC.eval_cast, ZMod.natCast_mod]
  exact ev_weighted_signals h w

/-- Settles O18: REC writes `recompose` of the register's word, and nothing else. -/
theorem recRebuildsTheWord : Obligations.RecRebuildsTheWord := by
  intro s fd rs w h hw
  have hwritten : s.r[rs] ≠ .unwritten := by rw [hw]; nofun
  have hexec := exec_rec fd hwritten
  rw [word_of hw] at hexec
  refine ⟨_, _, hexec, ?_, fun z hz => recompose_eval (Nat.zero_lt_of_lt h.one_lt) s.ctx hz w, fun i hi => ?_,
    rfl, rfl, rfl, rfl, rfl, rfl⟩
  · rw [setF_get, if_pos rfl]
    rfl
  · rw [setF_get, if_neg hi.symm]

/-! ### DEC and REC one after another -/

section
variable {s : State}

theorem execAll_pair {i j : Instr} {t u : State} (hi : exec i s = .next t) (hj : exec j t = .next u) :
    execAll [i, j] s = .next u := by
  simp only [execAll, hi, hj]

theorem exec_dec_rval (h : s.Inv) {fs : FIdx} {N : Nat} (hv : s.fval fs = some N) (rd : RIdx) :
    ∃ t, exec (.decompose rd fs) s = .next t ∧ t.rval rd = some (low32 N) := by
  obtain ⟨t, hexec, hval, _⟩ := decTakesLow32 s rd fs N h hv
  exact ⟨t, hexec, hval⟩

theorem exec_rec_fval (h : s.Inv) {rs : RIdx} {x : Word} (hx : s.rval rs = some x) (fd : FIdx) :
    ∃ t, exec (.recompose fd rs) s = .next t ∧ t.fval fd = some x.toNat := by
  obtain ⟨hwritten, hval⟩ := written_of_rval hx
  obtain ⟨t, L, hexec, hfield, _⟩ := recRebuildsTheWord s fd rs _ h (word_mem hwritten)
  exact ⟨t, hexec, by rw [State.fval, hfield, hval]; rfl⟩

theorem execAll_dec_rec (h : s.Inv) {i : FIdx} {N : Nat} (hv : s.fval i = some N) (j : RIdx) (k : FIdx) :
    ∃ t, execAll [.decompose j i, .recompose k j] s = .next t ∧ t.fval k = some (N % 2 ^ 32) := by
  obtain ⟨t, hdec, hval⟩ := exec_dec_rval h hv j
  obtain ⟨u, hrec, hfield⟩ := exec_rec_fval (exec_inv h hdec) hval k
  exact ⟨u, execAll_pair hdec hrec, by rw [hfield, low32, BitVec.toNat_ofNat]⟩

theorem execAll_rec_dec (h : s.Inv) {j : RIdx} {x : Word} (hx : s.rval j = some x) (k : FIdx) (l : RIdx) :
    ∃ t, execAll [.recompose k j, .decompose l k] s = .next t ∧ t.rval l = some x := by
  obtain ⟨t, hrec, hfield⟩ := exec_rec_fval h hx k
  obtain ⟨u, hdec, hval⟩ := exec_dec_rval (exec_inv h hrec) hfield l
  exact ⟨u, execAll_pair hrec hdec, by rw [hval, low32, BitVec.ofNat_toNat, BitVec.setWidth_eq]⟩

end

/-- Settles O54: the second command of each pair reads what the first left; below 2^32 the reduction is the identity. -/
theorem wordCodecRoundTrips : Obligations.WordCodecRoundTrips := by
  refine fun s h => ⟨fun i k j N hv => ?_, fun j l k x hx => execAll_rec_dec h hx k l⟩
  obtain ⟨t, hexec, hval⟩ := execAll_dec_rec h hv j k
  exact ⟨t, hexec, hval, fun hlt => by rw [hval, Nat.mod_eq_of_lt hlt]⟩

end Sys2Proof.Machine

/-! The bitwise arithmetic: the gates' rows and functions (R121 to R124), the laws of rotation (R130, R133), the folding of
constant words (R126, R129), and what MOV, ADD, XOR and ROTL leave (R125 to R132). -/

namespace Sys2Proof.Machine

/-! ### Gates -/

/-- The gates fold constants. -/
theorem bxor_const (p : Nat) (a b : Bool) (c : Ctx) : bxor p (.const a) (.const b) c = (.const (a != b), c) := rfl

theorem band_const (a b : Bool) (c : Ctx) : band (.const a) (.const b) c = (.const (a && b), c) := rfl

theorem bor_const (p : Nat) (a b : Bool) (c : Ctx) : bor p (.const a) (.const b) c = (.const (a || b), c) := rfl

/-- Settles O47: a gate's row, its folding, and R124's argument that its row forces its function. -/
theorem gatesForceTheirFunction : Obligations.GatesForceTheirFunction := by
  refine ⟨fun p c x y h => ⟨bxor_row p c h, band_row c h, bor_row p c h⟩,
    fun p c a b => ⟨bxor_const p a b c, band_const a b c, bor_const p a b c⟩, fun p c x y z a b hprime _ hx hy va vb => ?_⟩
  have hp : 1 < p := hprime.one_lt
  exact ⟨fun hz => gate_sound hp (xorRel_gate hp) hx hy hz.sat va vb, fun hz => gate_sound hp andRel_gate hx hy hz.sat va vb,
    fun hz => gate_sound hp (orRel_gate hp) hx hy hz.sat va vb⟩

/-! ### Rotation -/

theorem rot_zero (w : Word32) : rot w 0 = w := by
  ext k hk
  have hidx : (k + 32 - (0 : Fin 32).val) % 32 = k := by simp; omega
  simp only [rot_get w 0 k hk, hidx]

/-- R130: one rotation after another reads the signal that their sum reads. -/
theorem rot_rot (w : Word32) (n k : Fin 32) : rot (rot w n) k = rot w (n + k) := by
  ext i hi
  have hidx : ((i + 32 - k.val) % 32 + 32 - n.val) % 32 = (i + 32 - (n + k).val) % 32 := by
    rw [Fin.val_add]
    omega
  simp only [rot_get _ _ _ hi, rot_get w n _ (Nat.mod_lt _ (by decide)), hidx]

/-- A word's rotation is the value of the gadget on its constant word. -/
theorem wordRotl_eq_wordVal (x : Word) (n : Fin 32) : wordRotl x n.val = Ctx.fresh.wordVal (rot (constWord x) n) := by
  rw [rot_val, (constWord_ok Ctx.fresh x).2]

theorem wordRotl_zero (x : Word) : wordRotl x 0 = x := by
  have h := wordRotl_eq_wordVal x 0
  rwa [rot_zero, (constWord_ok Ctx.fresh x).2] at h

theorem wordRotl_wordRotl (x : Word) (n k : Fin 32) :
    wordRotl (wordRotl x n.val) k.val = wordRotl x ((n.val + k.val) % 32) := by
  calc wordRotl (wordRotl x n.val) k.val
      = Ctx.fresh.wordVal (rot (rot (constWord x) n) k) := by
        rw [rot_val, rot_val, (constWord_ok Ctx.fresh x).2]
    _ = wordRotl x (n + k).val := by rw [rot_rot, wordRotl_eq_wordVal]
    _ = wordRotl x ((n.val + k.val) % 32) := by rw [Fin.val_add]

/-- R130: bit k of a rotation is bit (k − n) mod 32. -/
theorem wordRotl_getLsbD (x : Word) (n : Fin 32) {k : Nat} (hk : k < 32) :
    (wordRotl x n.val).getLsbD k = x.getLsbD ((k + 32 - n.val) % 32) := by
  rw [wordRotl_eq_wordVal, wordVal_getLsbD _ _ _ hk, rot_get _ _ _ hk]
  simp [constWord, Ctx.bit, BitVec.getLsbD_eq_getElem (Nat.mod_lt (k + 32 - n.val) (show 0 < 32 by decide))]

/-- R130: the bits shifted up and the bits that come round do not overlap, so they add. -/
theorem wordRotl_toNat (x : Word) (n : Fin 32) :
    (wordRotl x n.val).toNat = x.toNat * 2 ^ n.val % 2 ^ 32 + x.toNat / 2 ^ (32 - n.val) := by
  have hn := n.isLt
  have hsplit : 2 ^ 32 = 2 ^ (32 - n.val) * 2 ^ n.val := by rw [← pow_add]; congr 1; omega
  have hhigh : x.toNat * 2 ^ n.val % 2 ^ 32 = 2 ^ n.val * (x.toNat % 2 ^ (32 - n.val)) := by
    rw [hsplit, Nat.mul_mod_mul_right, Nat.mul_comm]
  have hlow : x.toNat / 2 ^ (32 - n.val) < 2 ^ n.val := Nat.div_lt_of_lt_mul (hsplit ▸ x.isLt)
  rw [wordRotl, BitVec.toNat_rotateLeft, Nat.mod_eq_of_lt hn, Nat.shiftLeft_eq, Nat.shiftRight_eq_div_pow, hhigh,
    Nat.two_pow_add_eq_or_of_lt hlow]

/-- The places a rotation reads its bits from are the places 0 to 31, in rotated order. -/
theorem rotl_places_perm (n : Fin 32) : ((List.range 32).map fun k => (k + 32 - n.val) % 32).Perm (List.range 32) := by
  have hrot : ((List.range 32).map fun k => (k + 32 - n.val) % 32) = (List.range 32).rotate (32 - n.val) := by
    refine List.ext_getElem (by simp) fun k _ _ => ?_
    simp only [List.getElem_map, List.getElem_range, List.getElem_rotate, List.length_range]
    omega
  rw [hrot]
  exact List.rotate_perm _ _

/-- R133: a rotation keeps the number of one bits. -/
theorem wordRotl_ones (x : Word) (n : Fin 32) : ((List.range 32).filter fun i => (wordRotl x n.val).getLsbD i).length =
    ((List.range 32).filter fun i => x.getLsbD i).length := by
  calc ((List.range 32).filter fun i => (wordRotl x n.val).getLsbD i).length
      = ((List.range 32).filter ((fun i => x.getLsbD i) ∘ fun k => (k + 32 - n.val) % 32)).length :=
        congrArg _ (List.filter_congr fun k hk => wordRotl_getLsbD x n (List.mem_range.1 hk))
    _ = (((List.range 32).map fun k => (k + 32 - n.val) % 32).filter fun i => x.getLsbD i).length := by
        rw [List.filter_map, List.length_map]
    _ = ((List.range 32).filter fun i => x.getLsbD i).length := ((rotl_places_perm n).filter _).length_eq

/-- Settles O55: the laws on signals are those of the places read; the laws on words follow through `rot_val`. -/
theorem rotationLaws : Obligations.RotationLaws := by
  refine ⟨wordRotl_toNat, rot_val, fun w => ⟨?_, rot_zero w, rot_rot w⟩,
    fun x => ⟨?_, wordRotl_zero x, wordRotl_wordRotl x, wordRotl_ones x⟩⟩
  · exact (rot_rot w 16 16).trans (rot_zero w)
  · exact (wordRotl_wordRotl x 16 16).trans (wordRotl_zero x)

/-! ### Constant words -/

/-- A pair of constant signals. -/
def constPair (q : Bool × Bool) : Signal × Signal := (.const q.1, .const q.2)

theorem constWord_toList (x : Word) : (constWord x).toList = (natBits 32 x.toNat).map Signal.const := by
  refine List.ext_getElem (by simp [natBits]) fun k _ _ => ?_
  simp [constWord, natBits, BitVec.getLsbD]

theorem zip_constWord (x y : Word) : ((constWord x).zip (constWord y)).toList =
    ((natBits 32 x.toNat).zip (natBits 32 y.toNat)).map constPair := by
  rw [Vector.toList_zip, constWord_toList, constWord_toList, List.zip_map]
  rfl

/-- A bit list is the bits of its value. -/
theorem natBits_bitsVal (bs : List Bool) : natBits bs.length (bitsVal bs) = bs := by
  refine List.ext_getElem (natBits_length _ _) fun k _ hk => ?_
  simp [natBits, bitsVal_testBit, hk]

/-- R125: over constants every gate of the adder folds. -/
theorem addBits_const (p : Nat) : ∀ (qs : List (Bool × Bool)) (k : Bool) (c : Ctx),
    addBits p (qs.map constPair) (.const k) c = ((addBools qs k).map Signal.const, c)
  | [], _, _ => rfl
  | [_], _, _ => rfl
  | q :: q' :: qs, k, c => by
    have hfold : fullAdder p (.const q.1) (.const q.2) (.const k) c =
      ((.const (Bool.xor (Bool.xor q.1 q.2) k), .const ((q.1 && q.2) || (Bool.xor q.1 q.2 && k))), c) := rfl
    have ih := addBits_const p (q' :: qs) ((q.1 && q.2) || (Bool.xor q.1 q.2 && k)) c
    rw [List.map_cons] at ih
    simp only [List.map_cons, addBits, constPair, hfold, addBools] at ih ⊢
    rw [ih]

/-- R126: the sum of constant words is the constant word of the sum. -/
theorem add32_const (p : Nat) (x y : Word) (c : Ctx) :
    add32 p (constWord x) (constWord y) c = (constWord (x + y), c) := by
  have hbits := addBits_const p ((natBits 32 x.toNat).zip (natBits 32 y.toNat)) false c
  rw [← zip_constWord] at hbits
  have hlen : ((natBits 32 x.toNat).zip (natBits 32 y.toNat)).length = 32 := by simp [natBits_length]
  have hsum := natBits_bitsVal (addBools ((natBits 32 x.toNat).zip (natBits 32 y.toNat)) false)
  rw [addBools_val, addBools_length, hlen, List.map_fst_zip (by simp [natBits_length]),
    List.map_snd_zip (by simp [natBits_length]), bitsVal_natBits, bitsVal_natBits] at hsum
  refine Prod.ext (Vector.toList_inj.1 ?_) (congrArg Prod.snd hbits :)
  rw [add32_toList, hbits, ← hsum, constWord_toList]
  simp

/-- R128: over constants every gate of XOR folds. -/
theorem mapCtx_bxor_const (p : Nat) (c : Ctx) : ∀ qs : List (Bool × Bool),
    mapCtx (fun q : Signal × Signal => bxor p q.1 q.2) (qs.map constPair) c =
      ((qs.map fun q => Bool.xor q.1 q.2).map Signal.const, c)
  | [] => rfl
  | q :: qs => by
    simp only [List.map_cons, mapCtx, constPair, bxor_const]
    rw [mapCtx_bxor_const p c qs]

/-- R129: the exclusive or of constant words is the constant word of the exclusive or. -/
theorem xor32_const (p : Nat) (x y : Word) (c : Ctx) :
    xor32 p (constWord x) (constWord y) c = (constWord (x ^^^ y), c) := by
  have hbits := mapCtx_bxor_const p c ((natBits 32 x.toNat).zip (natBits 32 y.toNat))
  rw [← zip_constWord] at hbits
  refine Prod.ext (Vector.toList_inj.1 ?_) (congrArg Prod.snd hbits :)
  rw [xor32, mapVec_toList, hbits, constWord_toList]
  refine List.ext_getElem (by simp [natBits_length]) fun k _ _ => ?_
  simp [natBits]

/-- A register that holds a word is written. -/
theorem ne_unwritten {s : State} {j : RIdx} {w : Word32} (h : s.r[j] = .written w) : s.r[j] ≠ .unwritten := by
  rw [h]
  nofun

/-- Settles O33: the gadgets fold, so CTX is set to itself. -/
theorem constantWordsFold : Obligations.ConstantWordsFold := by
  intro s rd a b x y ha hb
  refine ⟨⟨_, exec_add rd (ne_unwritten ha) (ne_unwritten hb), ?_⟩, _, exec_xor rd (ne_unwritten ha) (ne_unwritten hb), ?_⟩
  · rw [word_of ha, word_of hb, add32_const]
    exact ⟨set_same, rfl⟩
  · rw [word_of ha, word_of hb, xor32_const]
    exact ⟨set_same, rfl⟩

/-! ### MOV and ROTL: a word register is written, CTX is left -/

theorem wordsOnly_setR (s : State) (rd : RIdx) (w : Word32) : WordsOnly s (s.setR rd w) (· = rd) :=
  wordsOnly_same fun _ hj => set_other hj

/-- Settles O19: the word written is the source's. -/
theorem movCopiesTheSignals : Obligations.MovCopiesTheSignals := by
  intro s rd rs w h
  have hexec := exec_mov rd (ne_unwritten h)
  rw [word_of h] at hexec
  have hrd : (s.setR rd w).r[rd] = .written w := set_same
  refine ⟨_, hexec, hrd, ?_, rfl, wordsOnly_setR s rd w⟩
  simp only [State.rval, hrd, h, setR_ctx]

/-- Settles O22: the word written is the gadget's, with its value by `wordRotl_toNat`. -/
theorem rotlRewiresLeft : Obligations.RotlRewiresLeft := by
  intro s rd rs n w h
  have hexec := exec_rotl rd n (ne_unwritten h)
  rw [word_of h] at hexec
  refine ⟨_, _, hexec, set_same, fun k => rot_get w n k.val k.isLt, ?_, rfl, wordsOnly_setR s rd _⟩
  rw [rot_val, wordRotl_toNat]

/-! ### ADD and XOR: the value and the frame -/

/-- The frame of a command that emits and writes one word register, in a well-formed state. -/
theorem wordsOnly_emit {s : State} (h : s.Inv) {c : Ctx} (g : Grows s.params.p s.ctx c) (rd : RIdx) (w : Word32) :
    WordsOnly s ((s.setCtx c).setR rd w) (· = rd) :=
  wordsOnly_of h g.ext g.nstep fun _ hj => set_other hj

/-- A register with a value holds it, as the gadgets' lemmas ask. -/
theorem State.Inv.holds_rval {s : State} (h : s.Inv) {j : RIdx} {x : Word} (hx : s.rval j = some x) :
    s.r[j] ≠ .unwritten ∧ s.ctx.Holds (s.word j) x := by
  obtain ⟨hwritten, hval⟩ := written_of_rval hx
  exact ⟨hwritten, h.words j _ (word_mem hwritten), hval⟩

/-- Settles O20, by `add32_spec`. -/
theorem addAddsModulo32 : Obligations.AddAddsModulo32 := by
  intro s rd rs1 rs2 x y h hx hy
  obtain ⟨ha, hholds1⟩ := h.holds_rval hx
  obtain ⟨hb, hholds2⟩ := h.holds_rval hy
  obtain ⟨hgrows, hsum, _⟩ := add32_spec h.one_lt h.ctx hholds1 hholds2
  have hmod : BitVec.ofNat 32 ((x.toNat + y.toNat) % 2 ^ 32) = x + y := BitVec.eq_of_toNat_eq (by simp)
  exact ⟨_, exec_add rd ha hb, hmod ▸ rval_setR s hsum, wordsOnly_emit h hgrows rd _⟩

/-- Settles O21, by `xor32_spec`. -/
theorem xorIsExclusiveOr : Obligations.XorIsExclusiveOr := by
  intro s rd rs1 rs2 x y h hx hy
  obtain ⟨ha, hholds1⟩ := h.holds_rval hx
  obtain ⟨hb, hholds2⟩ := h.holds_rval hy
  obtain ⟨hgrows, hxor, _⟩ := xor32_spec h.one_lt h.ctx hholds1 hholds2
  exact ⟨_, exec_xor rd ha hb, rval_setR s hxor, wordsOnly_emit h hgrows rd _⟩

/-! ### Rows and counts on variable operands -/

section
variable {s : State}

theorem nvars_pos (h : s.Inv) : 0 < s.ctx.nvars := Ctx.Ok.length_pos h.ctx

/-- R125, R126: what ADD appends and returns. -/
theorem exec_add_rows (h : s.Inv) (rd : RIdx) {a b : RIdx} (ha : s.r[a] ≠ .unwritten) (hb : s.r[b] ≠ .unwritten)
    (va : AllVars (s.word a)) : ∃ t, exec (.add rd a b) s = .next t ∧ s.Appended t 157 157 ∧
      t.ctx.cons = s.ctx.cons ++ (List.finRange 32).flatMap (adderRows s.params.p (s.word a) (s.word b) s.ctx.nvars) ∧
      t.r[rd] = .written (Vector.ofFn fun k : Fin 32 => .var (s.ctx.nvars + 5 * k.val + 1)) := by
  obtain ⟨hword, hcons⟩ := add32_rows s.params.p (b := s.word b) s.ctx (nvars_pos h) va
  obtain ⟨_, hcount⟩ := add32_delta s.params.p (nvars_pos h) (.inl va : OneVars (s.word a) (s.word b))
  exact ⟨_, exec_add rd ha hb, hcount, hcons, hword ▸ set_same⟩

/-- R128, R129: what XOR appends and returns. -/
theorem exec_xor_rows (h : s.Inv) (rd : RIdx) {a b : RIdx} (ha : s.r[a] ≠ .unwritten) (hb : s.r[b] ≠ .unwritten)
    (va : AllVars (s.word a)) : ∃ t, exec (.xor rd a b) s = .next t ∧ s.Appended t 32 32 ∧
      t.ctx.cons = s.ctx.cons ++
        (List.finRange 32).map (fun k => xorRow s.params.p (s.word a)[k] (s.word b)[k] (s.ctx.nvars + k.val)) ∧
      t.r[rd] = .written (Vector.ofFn fun k : Fin 32 => .var (s.ctx.nvars + k.val)) := by
  obtain ⟨hword, hcons⟩ := xor32_rows s.params.p (b := s.word b) s.ctx (nvars_pos h) va
  obtain ⟨_, hcount⟩ := xor32_delta s.params.p (nvars_pos h) (.inl va : OneVars (s.word a) (s.word b))
  exact ⟨_, exec_xor rd ha hb, hcount, hcons, hword ▸ set_same⟩

/-- R150: what QR appends. -/
theorem exec_qr_counts (h : s.Inv) {a b c d : RIdx} (hq : distinct4 a b c d = true)
    (hw : ∀ j ∈ [a, b, c, d], s.r[j] ≠ .unwritten) (va : AllVars (s.word a)) :
    ∃ t, exec (.qr a b c d) s = .next t ∧ s.Appended t 756 756 := by
  obtain ⟨_, hcount⟩ := qrGadget_delta s.params.p (w := ⟨s.word a, s.word b, s.word c, s.word d⟩) (nvars_pos h) (.inl va)
  exact ⟨_, exec_qr hq (hw a (by simp)) (hw b (by simp)) (hw c (by simp)) (hw d (by simp)), hcount⟩

/-- A command that writes a run of word registers appends what its gadget does. -/
theorem appended_setWords {c : Ctx} {v q n : Nat} (h : Delta s.ctx c v q) (base : Nat) (ws : Vector Word32 n) :
    s.Appended ((s.setCtx c).setWords base ws) v q := by
  rw [State.Appended, setWords_ctx]
  exact h

theorem words16_get (s : State) (base : Nat) (i : Fin 16) : (s.words16 base)[i] = s.word (wordIdx base i.val) := by
  simp [State.words16]

end

/-- Settles O32: each command runs its gadget, whose rows and counts are known. -/
theorem gadgetCountsWithVariableOperands : Obligations.GadgetCountsWithVariableOperands := by
  refine fun s h => ⟨fun rd a b ha hb va _ => ⟨exec_add_rows h rd ha hb va, exec_xor_rows h rd ha hb va⟩,
    fun a b c d hq hw => exec_qr_counts h hq (fun j hj => (hw j hj).1) (hw a (by simp)).2, fun hw => ?_⟩
  have hwritten : s.Written16 0 := fun i hi => (hw i hi).1
  have hvars : ∀ i : Fin 16, AllVars (s.words16 0)[i] := fun i => by
    rw [words16_get]
    exact (hw i.val i.isLt).2
  obtain ⟨_, hdround⟩ := dround_delta s.params.p (nvars_pos h) fun i _ => hvars i
  obtain ⟨_, hperm⟩ := perm_delta s.params.p (nvars_pos h) fun i _ => hvars i
  obtain ⟨_, hcombine⟩ := combine_delta s.params.p (o := s.words16 16) (nvars_pos h) fun i => .inr (hvars i)
  exact ⟨⟨_, exec_dround hwritten, appended_setWords hdround _ _⟩, ⟨_, exec_perm hwritten, appended_setWords hperm _ _⟩,
    fun h16 => ⟨_, exec_combine hwritten h16, appended_setWords hcombine _ _⟩⟩

end Sys2Proof.Machine

/-! The quarter-round command: what QR leaves in its four registers and what it leaves unchanged (R150, R151). -/

namespace Sys2Proof.Machine

/-- Four registers with values are written, and their words hold the values as `qrGadget_spec` asks. -/
theorem State.Inv.holdsQ_rval {s : State} (h : s.Inv) {a b c d : RIdx} {x : Quad Word} (ha : s.rval a = some x.a)
    (hb : s.rval b = some x.b) (hc : s.rval c = some x.c) (hd : s.rval d = some x.d) :
    (s.r[a] ≠ .unwritten ∧ s.r[b] ≠ .unwritten ∧ s.r[c] ≠ .unwritten ∧ s.r[d] ≠ .unwritten) ∧
      s.ctx.HoldsQ ⟨s.word a, s.word b, s.word c, s.word d⟩ x := by
  obtain ⟨wa, va⟩ := h.holds_rval ha
  obtain ⟨wb, vb⟩ := h.holds_rval hb
  obtain ⟨wc, vc⟩ := h.holds_rval hc
  obtain ⟨wd, vd⟩ := h.holds_rval hd
  exact ⟨⟨wa, wb, wc, wd⟩, va, vb, vc, vd⟩

/-- Settles O23: QR writes its gadget's four words (`exec_qr`, `qr_registers`), which hold the quarter-round of the old
values (`qrGadget_spec`). -/
theorem qrIsTheQuarterRound : Obligations.QrIsTheQuarterRound := by
  intro s a b c d x h hq xa xb xc xd
  obtain ⟨⟨wa, wb, wc, wd⟩, hold⟩ := h.holdsQ_rval xa xb xc xd
  obtain ⟨hgrows, ⟨va, vb, vc, vd⟩, _⟩ := qrGadget_spec h.one_lt h.ctx hold
  obtain ⟨ra, rb, rc, rd, hother⟩ :=
    qr_registers s hq (qrGadget s.params.p ⟨s.word a, s.word b, s.word c, s.word d⟩ s.ctx)
  exact ⟨_, exec_qr hq wa wb wc wd, rval_of ra va, rval_of rb vb, rval_of rc vc, rval_of rd vd,
    wordsOnly_of h hgrows.ext hgrows.nstep hother⟩

end Sys2Proof.Machine

/-! The block permutation's commands: what LAYOUT, SNAP, DROUND, PERM, COMBINE and BLOCK leave in the word registers
(R160 to R172). -/

namespace Sys2Proof.Machine

/-! ### LAYOUT, and what a block comes to -/

section
variable {s : State} {fs : FIdx}

/-- R161: words 0 to 3 of a layout are the constant signals of C0 to C3. -/
theorem layoutGadget_constants {P : Params} {f : Vector FReg 128} {c c' : Ctx} {w : Vector Word32 16}
    (h : layoutGadget P f fs c = .ok (w, c')) (i : Fin 4) : w[i.val] = constWord (layoutConstants.getD i.val 0) := by
  simp only [layoutGadget] at h
  cases e : decomposeAll P f (layoutReads fs) c with
  | error e' => rw [e] at h; cases h
  | ok r =>
    rw [e] at h
    cases h
    fin_cases i <;> simp [toWords, layoutConstants]

/-- R162, R163: the layout of an image with values comes out, and holds the named words. -/
theorem layoutGadget_of_values (h : s.Inv) (hv : s.HasValues fs 12) :
    ∃ w c, layoutGadget s.params s.f fs s.ctx = .ok (w, c) ∧ Grows s.params.p s.ctx c ∧
      c.HoldsV w (wordLayout (s.keyWords fs) (s.counterWord fs) (s.nonceWords fs)) := by
  obtain ⟨w, c, e⟩ := layoutGadget_some s.params (layoutReads_values hv) s.ctx
  obtain ⟨Ns, hNs, hgrows, hholds, _⟩ := layoutGadget_spec h.params h.ctx h.fieldsOk e
  rw [forall₂_some hNs, layoutOf_values] at hholds
  exact ⟨w, c, e, hgrows, hholds⟩

/-- R171: the block of an image with values comes out, and holds the keystream and the layout. -/
theorem blockGadget_of_values (h : s.Inv) (hv : s.HasValues fs 12) :
    ∃ b, blockGadget s.params s.f fs s.ctx = .ok b ∧ Grows s.params.p s.ctx b.ctx ∧
      b.ctx.HoldsV b.keystream (wordBlock (s.keyWords fs) (s.counterWord fs) (s.nonceWords fs)) ∧
      b.ctx.HoldsV b.layout (wordLayout (s.keyWords fs) (s.counterWord fs) (s.nonceWords fs)) := by
  obtain ⟨b, e⟩ := blockGadget_some hv
  obtain ⟨Ns, hNs, hgrows, hlayout, hkeystream, _⟩ := blockGadget_spec h.params h.ctx h.fieldsOk e
  rw [forall₂_some hNs] at hlayout hkeystream
  rw [layoutOf_values] at hlayout
  rw [blockOf, layoutOf_values] at hkeystream
  exact ⟨b, e, hgrows, hkeystream, hlayout⟩

end

/-- Settles O24: LAYOUT writes its gadget's words, whose values, constants and counts are known. -/
theorem layoutLoadsTheState : Obligations.LayoutLoadsTheState := by
  intro s fs h hfit hv
  obtain ⟨w, c, e, hgrows, hholds⟩ := layoutGadget_of_values h hv
  obtain ⟨hwritten, hvals, hframe⟩ := run_result h (base := 0) (by decide) hgrows hholds
  obtain ⟨_, hcounts⟩ := layout_delta s.params (Params.Valid.m_ge h.params) (Ctx.Ok.length_pos h.ctx) e
  refine ⟨_, exec_layout hfit e, hwritten, hvals, fun i => ?_, appended_setWords hcounts _ _,
    hframe.weaken fun j hj => by omega⟩
  rw [setWords_r, putWords_in (show i.val < 16 by omega) (by decide), layoutGadget_constants e]
  rfl

/-! ### SNAP -/

/-- Settles O25: SNAP writes the words of R[0..15], and sets nothing else. -/
theorem snapCopiesTheWorkingState : Obligations.SnapCopiesTheWorkingState := by
  intro s hw
  refine ⟨_, exec_snap hw, fun i hi => ?_, setWords_ctx s 16 _, ?_⟩
  · have hword : (s.words16 0)[i] = s.word (wordIdx 0 i) := words16_get s 0 ⟨i, hi⟩
    rw [setWords_r, putWords_in hi (by decide), hword, ← word_mem (hw i hi)]
  · rw [setWords_eq]
    exact wordsOnly_same fun j hj => putWords_out hj

/-! ### DROUND and PERM -/

/-- A command that runs a gadget on the working state leaves the gadget's function of the old values in R[0..15]. -/
theorem computes_result {s : State} (h : s.Inv) (hw : s.Written16 0)
    {g : Vector Word32 16 → Ctx → Vector Word32 16 × Ctx} {f : Vector Word 16 → Vector Word 16}
    (hg : Computes s.params.p g f) :
    let t := (s.setCtx (g (s.words16 0) s.ctx).2).setWords 0 (g (s.words16 0) s.ctx).1
    t.Written16 0 ∧ t.vals16 0 = f (s.vals16 0) ∧ WordsOnly s t fun j => j.val < 16 := by
  obtain ⟨hgrows, hholds, _⟩ := hg.spec h.ctx (h.holdsV hw)
  obtain ⟨hwritten, hvals, hframe⟩ := run_result h (base := 0) (by decide) hgrows hholds
  exact ⟨hwritten, hvals, hframe.weaken fun j hj => by omega⟩

/-- R165: the groups, each as a tuple. -/
theorem groups_eq_map : groups =
    ([(0, 4, 8, 12), (1, 5, 9, 13), (2, 6, 10, 14), (3, 7, 11, 15), (0, 5, 10, 15), (1, 6, 11, 12), (2, 7, 8, 13),
      (3, 4, 9, 14)] : List (Fin 16 × Fin 16 × Fin 16 × Fin 16)).map fun g => ⟨g.1, g.2.1, g.2.2.1, g.2.2.2⟩ := rfl

/-- Settles O26: the double round is the fold over the groups, and DROUND's gadget computes it. -/
theorem droundIsTheDoubleRound : Obligations.DroundIsTheDoubleRound := by
  refine ⟨fun v => ?_, fun s h hw => ⟨_, exec_dround hw, computes_result h hw (dround_computes h.one_lt)⟩⟩
  rw [wordDround, groups_eq_map, List.foldl_map]
  rfl

theorem wordRounds_eq_iterate : ∀ (n : Nat) (w : Vector Word 16), wordRounds n w = Nat.iterate wordDround n w
  | 0, _ => rfl
  | n + 1, w => (wordRounds_succ n w).trans (wordRounds_eq_iterate n _)

/-- Settles O27: PERM's gadget computes ten double rounds. -/
theorem permIsTenDoubleRounds : Obligations.PermIsTenDoubleRounds := by
  intro s h hw
  obtain ⟨hwritten, hvals, hframe⟩ := computes_result h hw (perm_computes h.one_lt)
  exact ⟨_, exec_perm hw, hwritten, hvals.trans (wordRounds_eq_iterate 10 _), hframe⟩

/-! ### COMBINE -/

/-- Settles O28, by `combine_spec`. -/
theorem combineAddsTheOriginal : Obligations.CombineAddsTheOriginal := by
  intro s h h0 h16
  obtain ⟨hgrows, hholds, _⟩ := combine_spec h.one_lt h.ctx (h.holdsV h16) (h.holdsV h0)
  obtain ⟨hwritten, hvals, hframe⟩ := run_result h (base := 0) (by decide) hgrows hholds
  refine ⟨_, exec_combine h0 h16, hwritten, fun i => ?_, hframe.weaken fun j hj => by omega⟩
  rw [hvals]
  simp [wordCombine]

/-! ### BLOCK -/

/-- Settles O29: BLOCK writes its gadget's two runs, whose values and counts are known. -/
theorem blockComputesTheKeystream : Obligations.BlockComputesTheKeystream := by
  intro s fs h hfit hv
  obtain ⟨b, e, hgrows, hkeystream, hlayout⟩ := blockGadget_of_values h hv
  obtain ⟨hwritten0, hwritten16, hvals0, hvals16, hframe⟩ := block_result h hgrows hkeystream hlayout
  obtain ⟨_, hcounts⟩ := block_delta s.params (Params.Valid.m_ge h.params) (Ctx.Ok.length_pos h.ctx) e
  refine ⟨_, exec_block hfit e, hwritten0, hwritten16, hvals0, hvals16, ?_, hframe⟩
  rw [State.Appended, setWords_ctx]
  exact appended_setWords hcounts 0 b.keystream

end Sys2Proof.Machine

/-! Composite commands are their parts (R150, R162, R169, R173, R191): each is the list of its parts, run one after
another on the state, with the very same variables and constraints. -/

namespace Sys2Proof.Machine

/-! ### Running a list of commands -/

theorem execAll_cons {i : Instr} {is : List Instr} {s t : State} (h : exec i s = .next t) :
    execAll (i :: is) s = execAll is t := by
  simp only [execAll, h]

theorem execAll_append : ∀ {is js : List Instr} {s t : State}, execAll is s = .next t →
    execAll (is ++ js) s = execAll js t
  | [], _, _, _, h => by cases h; rfl
  | i :: is, js, s, t, h => by
    cases e : exec i s with
    | next u =>
      rw [execAll_cons e] at h
      rw [List.cons_append, execAll_cons e, execAll_append h]
    | fault r => simp only [execAll, e] at h; cases h
    | refused r => simp only [execAll, e] at h; cases h

/-! ### Writes one after another -/

/-- States are equal when every register of R and every other part is. -/
theorem eq_of_regs {t u : State} (h : t.params = u.params ∧ t.f = u.f ∧ t.ctx = u.ctx ∧ t.status = u.status ∧
    t.pending = u.pending ∧ t.replies = u.replies) (hr : ∀ j : RIdx, t.r[j] = u.r[j]) : t = u := by
  obtain ⟨hparams, hf, hctx, hstatus, hpending, hreplies⟩ := h
  have hregs : t.r = u.r := Vector.ext fun i hi => hr ⟨i, hi⟩
  cases t
  cases u
  simp_all

theorem setR_setR (s : State) (j : RIdx) (w w' : Word32) : (s.setR j w).setR j w' = s.setR j w' :=
  eq_of_regs (by simp) fun k => by
    simp only [setR_get]
    split <;> rfl

theorem setWords_setCtx {n : Nat} (s : State) (base : Nat) (ws : Vector Word32 n) (c : Ctx) :
    (s.setWords base ws).setCtx c = (s.setCtx c).setWords base ws := by
  rw [setWords_eq, setWords_eq]
  rfl

/-- R[base + i], R[base + i + 1], .. <- ws, one register after another. -/
def State.setRun (s : State) (base i : Nat) : List Word32 → State
  | [] => s
  | w :: ws => (s.setR (wordIdx base i) w).setRun base (i + 1) ws

theorem setRun_append (base : Nat) (ws' : List Word32) : ∀ (ws : List Word32) (i : Nat) (s : State),
    (s.setRun base i ws).setRun base (i + ws.length) ws' = s.setRun base i (ws ++ ws')
  | [], _, _ => rfl
  | w :: ws, i, s => by
    rw [List.length_cons, Nat.add_comm ws.length, ← Nat.add_assoc]
    exact setRun_append base ws' ws (i + 1) _

/-- A run is the same whether counted from its base or from a register further on. -/
theorem setRun_shift (base i : Nat) : ∀ (ws : List Word32) (k : Nat) (s : State),
    s.setRun (base + i) k ws = s.setRun base (i + k) ws
  | [], _, _ => rfl
  | _ :: ws, k, s => by
    have hidx : wordIdx (base + i) k = wordIdx base (i + k) := by rw [wordIdx, wordIdx, Nat.add_assoc]
    rw [State.setRun, State.setRun, hidx]
    exact setRun_shift base i ws (k + 1) _

theorem setRun_setCtx (base : Nat) (c : Ctx) : ∀ (ws : List Word32) (i : Nat) (s : State),
    (s.setRun base i ws).setCtx c = (s.setCtx c).setRun base i ws
  | [], _, _ => rfl
  | _ :: ws, i, _ => setRun_setCtx base c ws (i + 1) _

/-- Registers written one after another are a run written at once. -/
theorem setRun_eq_setWords {base : Nat} : ∀ (ws : List Word32) (i : Nat) (s : State), base + i + ws.length ≤ 64 →
    s.setRun base i ws = s.setWords (base + i) (⟨ws.toArray, rfl⟩ : Vector Word32 ws.length)
  | [], i, s, _ => eq_of_regs (by simp [State.setRun]) fun j => by
    rw [setWords_r, putWords_out (by simp)]
    rfl
  | w :: ws, i, s, h => by
    rw [List.length_cons] at h
    rw [State.setRun, setRun_eq_setWords (base := base) ws (i + 1) _ (by omega)]
    refine eq_of_regs (by simp) fun j => ?_
    have hv : (wordIdx base i).val = base + i := wordIdx_val (by omega)
    rw [setWords_r, setWords_r, putWords_get, putWords_get, setR_get]
    rcases Nat.lt_trichotomy j.val (base + i) with hj | hj | hj
    · rw [dif_neg (by omega), dif_neg (by omega), if_neg fun e => by rw [← e, hv] at hj; omega]
    · rw [dif_neg (by omega), dif_pos (by simp [hj]), if_pos (Fin.ext (hv.trans hj.symm))]
      simp [hj]
    · rw [if_neg fun e => by rw [← e, hv] at hj; omega]
      by_cases hin : j.val < base + (i + 1) + ws.length
      · rw [dif_pos (by omega), dif_pos (by simp only [List.length_cons]; omega)]
        have hk : j.val - (base + i) = j.val - (base + (i + 1)) + 1 := by omega
        simp [hk]
      · rw [dif_neg (by omega), dif_neg (by simp only [List.length_cons]; omega)]

/-- A vector of words written one after another. -/
theorem setRun_toList {n : Nat} (s : State) {base : Nat} (h : base + n ≤ 64) (v : Vector Word32 n) :
    s.setRun base 0 v.toList = s.setWords base v := by
  obtain ⟨⟨ws⟩, rfl⟩ := v
  exact setRun_eq_setWords ws 0 s h

/-! ### Commands on registers that hold given words -/

section
variable {s : State} {a b : RIdx} {x y : Word32}

theorem exec_add_words (rd : RIdx) (ha : s.r[a] = .written x) (hb : s.r[b] = .written y) :
    exec (.add rd a b) s = .next ((s.setCtx (add32 s.params.p x y s.ctx).2).setR rd (add32 s.params.p x y s.ctx).1) := by
  rw [exec_add rd (ne_unwritten ha) (ne_unwritten hb), word_of ha, word_of hb]

theorem exec_xor_words (rd : RIdx) (ha : s.r[a] = .written x) (hb : s.r[b] = .written y) :
    exec (.xor rd a b) s = .next ((s.setCtx (xor32 s.params.p x y s.ctx).2).setR rd (xor32 s.params.p x y s.ctx).1) := by
  rw [exec_xor rd (ne_unwritten ha) (ne_unwritten hb), word_of ha, word_of hb]

theorem exec_rotl_words (rd : RIdx) (n : Fin 32) (ha : s.r[a] = .written x) :
    exec (.rotl rd a n) s = .next (s.setR rd (rot x n)) := by
  rw [exec_rotl rd n (ne_unwritten ha), word_of ha]

end

/-! ### The quarter-round -/

/-- The state after one line of a quarter-round on R[x] and R[z]. -/
def State.setLine (s : State) (x z : RIdx) (l : (Word32 × Word32) × Ctx) : State :=
  ((s.setCtx l.2).setR x l.1.1).setR z l.1.2

section
variable {s : State} {x z j : RIdx} {l : (Word32 × Word32) × Ctx}

theorem setLine_left (h : x ≠ z) : (s.setLine x z l).r[x] = .written l.1.1 := by
  rw [State.setLine, setR_get, if_neg h.symm, setR_get, if_pos rfl]

theorem setLine_right : (s.setLine x z l).r[z] = .written l.1.2 := by rw [State.setLine, setR_get, if_pos rfl]

theorem setLine_other (hx : x ≠ j) (hz : z ≠ j) : (s.setLine x z l).r[j] = s.r[j] := by
  rw [State.setLine, setR_get, if_neg hz, setR_get, if_neg hx, setCtx_r]

end

/-- R150: one line is its ADD, XOR and ROTL. -/
theorem execAll_line {s : State} {x y z : RIdx} {u v w : Word32} (hxz : x ≠ z) (hx : s.r[x] = .written u)
    (hy : s.r[y] = .written v) (hz : s.r[z] = .written w) (n : Fin 32) :
    execAll [.add x x y, .xor z z x, .rotl z z n] s =
      .next (s.setLine x z (qrLine s.params.p u v w n s.ctx)) := by
  let sum := add32 s.params.p u v s.ctx
  let mixed := xor32 s.params.p w sum.1 sum.2
  have hxor : exec (.xor z z x) ((s.setCtx sum.2).setR x sum.1) =
      .next (((s.setCtx mixed.2).setR x sum.1).setR z mixed.1) :=
    exec_xor_words z (by rw [setR_get, if_neg hxz]; exact hz) (by rw [setR_get, if_pos rfl])
  have hrotl : exec (.rotl z z n) (((s.setCtx mixed.2).setR x sum.1).setR z mixed.1) =
      .next (((s.setCtx mixed.2).setR x sum.1).setR z (rot mixed.1 n)) := by
    rw [exec_rotl_words z n (by rw [setR_get, if_pos rfl]), setR_setR]
  rw [execAll_cons (exec_add_words x hx hy), execAll_cons hxor, execAll_cons hrotl]
  rfl

theorem ne_of_distinct4 {a b c d : RIdx} (h : distinct4 a b c d = true) :
    a ≠ b ∧ a ≠ c ∧ a ≠ d ∧ b ≠ c ∧ b ≠ d ∧ c ≠ d := by
  simpa [distinct4, and_assoc] using h

/-- The later two of four lines overwrite what the first two left in the registers. -/
theorem setLine_four (s : State) {a b c d : RIdx} (hq : distinct4 a b c d = true)
    (l1 l2 l3 l4 : (Word32 × Word32) × Ctx) :
    (((s.setLine a d l1).setLine c b l2).setLine a d l3).setLine c b l4 =
      ((((s.setCtx l4.2).setR a l3.1.1).setR b l4.1.2).setR c l4.1.1).setR d l3.1.2 := by
  obtain ⟨hab, hac, had, hbc, hbd, hcd⟩ := ne_of_distinct4 hq
  obtain ⟨ra, rb, rc, rd, hother⟩ := qr_registers s hq (⟨l3.1.1, l4.1.2, l4.1.1, l3.1.2⟩, l4.2)
  refine eq_of_regs (by simp [State.setLine]) fun j => ?_
  by_cases ha : a = j
  · subst ha
    exact ((setLine_other hac.symm hab.symm).trans (setLine_left had)).trans ra.symm
  by_cases hb : b = j
  · subst hb
    exact setLine_right.trans rb.symm
  by_cases hc : c = j
  · subst hc
    exact (setLine_left hbc.symm).trans rc.symm
  by_cases hd : d = j
  · subst hd
    exact ((setLine_other hcd hbd).trans setLine_right).trans rd.symm
  · exact ((setLine_other hc hb).trans ((setLine_other ha hd).trans ((setLine_other hc hb).trans
      (setLine_other ha hd)))).trans (hother j (by tauto)).symm

/-- R150, R173: QR is its four lines; each reads what the lines before left in a, b, c and d. -/
theorem execAll_qr_lines {s : State} {a b c d : RIdx} (hq : distinct4 a b c d = true)
    (hw : ∀ j ∈ [a, b, c, d], s.r[j] ≠ .unwritten) :
    execAll [.add a a b, .xor d d a, .rotl d d 16, .add c c d, .xor b b c, .rotl b b 12,
        .add a a b, .xor d d a, .rotl d d 8, .add c c d, .xor b b c, .rotl b b 7] s = exec (.qr a b c d) s := by
  obtain ⟨hab, hac, had, hbc, hbd, hcd⟩ := ne_of_distinct4 hq
  have wa := hw a (by simp)
  have wb := hw b (by simp)
  have wc := hw c (by simp)
  have wd := hw d (by simp)
  obtain ⟨l1, e1⟩ : ∃ l, l = qrLine s.params.p (s.word a) (s.word b) (s.word d) 16 s.ctx := ⟨_, rfl⟩
  obtain ⟨l2, e2⟩ : ∃ l, l = qrLine s.params.p (s.word c) l1.1.2 (s.word b) 12 l1.2 := ⟨_, rfl⟩
  obtain ⟨l3, e3⟩ : ∃ l, l = qrLine s.params.p l1.1.1 l2.1.2 l1.1.2 8 l2.2 := ⟨_, rfl⟩
  obtain ⟨l4, e4⟩ : ∃ l, l = qrLine s.params.p l2.1.1 l3.1.2 l2.1.2 7 l3.2 := ⟨_, rfl⟩
  have h1 : execAll [.add a a b, .xor d d a, .rotl d d 16] s = .next (s.setLine a d l1) :=
    e1 ▸ execAll_line had (word_mem wa) (word_mem wb) (word_mem wd) 16
  have h2 : execAll [.add c c d, .xor b b c, .rotl b b 12] (s.setLine a d l1) = .next ((s.setLine a d l1).setLine c b l2) :=
    e2 ▸ execAll_line hbc.symm ((setLine_other hac hcd.symm).trans (word_mem wc)) setLine_right
      ((setLine_other hab hbd.symm).trans (word_mem wb)) 12
  have h3 : execAll [.add a a b, .xor d d a, .rotl d d 8] ((s.setLine a d l1).setLine c b l2) =
      .next (((s.setLine a d l1).setLine c b l2).setLine a d l3) :=
    e3 ▸ execAll_line had ((setLine_other hac.symm hab.symm).trans (setLine_left had)) setLine_right
      ((setLine_other hcd hbd).trans setLine_right) 8
  have h4 : execAll [.add c c d, .xor b b c, .rotl b b 7] (((s.setLine a d l1).setLine c b l2).setLine a d l3) =
      .next ((((s.setLine a d l1).setLine c b l2).setLine a d l3).setLine c b l4) :=
    e4 ▸ execAll_line hbc.symm ((setLine_other hac hcd.symm).trans (setLine_left hbc.symm)) setLine_right
      ((setLine_other hab hbd.symm).trans setLine_right) 7
  have hgadget : qrGadget s.params.p ⟨s.word a, s.word b, s.word c, s.word d⟩ s.ctx =
      (⟨l3.1.1, l4.1.2, l4.1.1, l3.1.2⟩, l4.2) := by
    simp only [qrGadget, ← e1, ← e2, ← e3, ← e4]
  rw [exec_qr hq wa wb wc wd, hgadget, ← setLine_four s hq l1 l2 l3 l4]
  have hlines := execAll_append (js := [.add c c d, .xor b b c, .rotl b b 12, .add a a b, .xor d d a, .rotl d d 8,
    .add c c d, .xor b b c, .rotl b b 7]) h1
  exact hlines.trans ((execAll_append h2).trans ((execAll_append h3).trans h4))

/-! ### The working state -/

theorem wordIdx_inj {base base' i k : Nat} (hi : base + i < 64) (hk : base' + k < 64) :
    wordIdx base i = wordIdx base' k ↔ base + i = base' + k := by
  rw [Fin.ext_iff, wordIdx_val hi, wordIdx_val hk]

theorem wordIdx_ne {base base' i k : Nat} (hi : base + i < 64) (hk : base' + k < 64) (h : base + i ≠ base' + k) :
    wordIdx base i ≠ wordIdx base' k := fun e => h ((wordIdx_inj hi hk).1 e)

/-- A register is in the working state, or outside it. -/
theorem working_cases (j : RIdx) : (∃ i < 16, wordIdx 0 i = j) ∨ ¬ j.val < 16 := by
  by_cases hj : j.val < 16
  · exact .inl ⟨j.val, hj, Fin.ext ((wordIdx_val (by omega)).trans (Nat.zero_add _))⟩
  · exact .inr hj

/-- R[0..15] <- w, CTX <- c. -/
def State.working (s : State) (w : Vector Word32 16) (c : Ctx) : State := (s.setCtx c).setWords 0 w

section
variable (s : State) (w : Vector Word32 16) (c : Ctx)

@[simp] theorem working_params : (s.working w c).params = s.params := setWords_params ..
@[simp] theorem working_ctx : (s.working w c).ctx = c := setWords_ctx ..

theorem working_get {i : Nat} (hi : i < 16) : (s.working w c).r[wordIdx 0 i] = .written w[i] := by
  rw [State.working, setWords_r, putWords_in hi (by decide)]

theorem working_other {j : RIdx} (hj : ¬ j.val < 16) : (s.working w c).r[j] = s.r[j] := by
  rw [State.working, setWords_r, putWords_out (by omega), setCtx_r]

theorem working_run : (s.working w c).Written16 0 ∧ (s.working w c).words16 0 = w :=
  run_of fun _ hi => working_get s w c hi

theorem working_self (h : s.Written16 0) : s.working (s.words16 0) s.ctx = s := by
  refine eq_of_regs (by simp [State.working]) fun j => ?_
  rcases working_cases j with ⟨i, hi, rfl⟩ | hj
  · rw [working_get s _ _ hi, word_mem (h i hi)]
    exact congrArg _ (words16_get s 0 ⟨i, hi⟩)
  · exact working_other s _ _ hj

theorem working_working (w' : Vector Word32 16) (c' : Ctx) : (s.working w c).working w' c' = s.working w' c' := by
  refine eq_of_regs (by simp [State.working]) fun j => ?_
  rcases working_cases j with ⟨i, hi, rfl⟩ | hj
  · rw [working_get _ _ _ hi, working_get _ _ _ hi]
  · rw [working_other _ _ _ hj, working_other _ _ _ hj, working_other _ _ _ hj]

theorem working_setR (k : Fin 16) (x : Word32) :
    (s.working w c).setR (wordIdx 0 k.val) x = s.working (w.set k.val x) c := by
  refine eq_of_regs (by simp [State.working]) fun j => ?_
  rw [setR_get]
  rcases working_cases j with ⟨i, hi, rfl⟩ | hj
  · rw [working_get _ _ _ hi, working_get _ _ _ hi, Vector.getElem_set]
    simp only [wordIdx_inj (show 0 + k.val < 64 by omega) (show 0 + i < 64 by omega), Nat.add_left_cancel_iff]
    split <;> rfl
  · have hk : (wordIdx 0 k.val).val = 0 + k.val := wordIdx_val (by omega)
    rw [working_other _ _ _ hj, working_other _ _ _ hj, if_neg fun e => by rw [← e] at hj; omega]

theorem working_setCtx (c' : Ctx) : (s.working w c).setCtx c' = s.working w c' := setWords_setCtx _ _ w c'

end

/-! ### DROUND and PERM -/

/-- R166: the quarter-round on a group, as a command on R[0..15]. -/
def groupInstr (g : Quad (Fin 16)) : Instr :=
  .qr (wordIdx 0 g.a.val) (wordIdx 0 g.b.val) (wordIdx 0 g.c.val) (wordIdx 0 g.d.val)

theorem groups_wellFormed : ∀ g ∈ groups, (groupInstr g).wellFormed = true := by decide

/-- R84: QRCOL #0..#3 and QRDIAG #0..#3 are the quarter-rounds on the groups. -/
theorem expand_groups : ([.qrcol 0, .qrcol 1, .qrcol 2, .qrcol 3, .qrdiag 0, .qrdiag 1, .qrdiag 2, .qrdiag 3] :
    List Pseudo).map Pseudo.expand = groups.map groupInstr := by decide

theorem exec_group (s : State) {g : Quad (Fin 16)} (hg : (groupInstr g).wellFormed = true) (w : Vector Word32 16)
    (c : Ctx) : exec (groupInstr g) (s.working w c) =
      .next (s.working (qrAt s.params.p g w c).1 (qrAt s.params.p g w c).2) := by
  have hget : ∀ k : Fin 16, (s.working w c).r[wordIdx 0 k.val] = .written w[k] := fun k => working_get s w c k.isLt
  rw [groupInstr, exec_qr hg (ne_unwritten (hget _)) (ne_unwritten (hget _)) (ne_unwritten (hget _))
    (ne_unwritten (hget _))]
  simp only [word_of (hget _), working_params, working_ctx, working_setCtx, working_setR]
  rfl

/-- R166: quarter-rounds on a list of groups, one command each. -/
theorem execAll_groups (s : State) : ∀ (gs : List (Quad (Fin 16))) (w : Vector Word32 16) (c : Ctx),
    (∀ g ∈ gs, (groupInstr g).wellFormed = true) → execAll (gs.map groupInstr) (s.working w c) =
      .next (s.working (qrGroups s.params.p gs w c).1 (qrGroups s.params.p gs w c).2)
  | [], _, _, _ => rfl
  | g :: gs, w, c, h => by
    rw [List.map_cons, execAll_cons (exec_group s (h g (by simp)) w c)]
    exact execAll_groups s gs _ _ fun g' hg' => h g' (List.mem_cons_of_mem _ hg')

theorem exec_dround_working (s : State) (w : Vector Word32 16) (c : Ctx) :
    exec .dround (s.working w c) =
      .next (s.working (droundGadget s.params.p w c).1 (droundGadget s.params.p w c).2) := by
  obtain ⟨hwritten, hwords⟩ := working_run s w c
  rw [exec_dround hwritten, hwords, working_params, working_ctx]
  exact congrArg _ (working_working s w c _ _)

/-- R168: n double rounds, one command each. -/
theorem execAll_drounds (s : State) : ∀ (n : Nat) (w : Vector Word32 16) (c : Ctx),
    execAll (List.replicate n .dround) (s.working w c) =
      .next (s.working (rounds s.params.p n w c).1 (rounds s.params.p n w c).2)
  | 0, _, _ => by rw [rounds]; rfl
  | n + 1, w, c => by
    rw [List.replicate_succ, execAll_cons (exec_dround_working s w c), execAll_drounds s n, rounds_succ]

/-- R173: DROUND is its eight quarter-rounds. -/
theorem execAll_dround_parts {s : State} (h : s.Written16 0) : execAll (groups.map groupInstr) s = exec .dround s := by
  rw [← working_self s h, exec_dround_working]
  exact execAll_groups s groups _ _ groups_wellFormed

/-- R173: PERM is ten DROUNDs. -/
theorem execAll_perm_parts {s : State} (h : s.Written16 0) : execAll (List.replicate 10 .dround) s = exec .perm s := by
  rw [exec_perm h]
  have hrounds := execAll_drounds s 10 (s.words16 0) s.ctx
  rw [working_self s h] at hrounds
  exact hrounds

/-! ### COMBINE -/

/-- R169: the additions of R[16 + i] and R[i], from i = j on. -/
theorem execAll_adds (o w : Nat → Word32) : ∀ (n j : Nat) (s : State), j + n ≤ 16 →
    (∀ i, j ≤ i → i < j + n → s.r[wordIdx 16 i] = .written (o i) ∧ s.r[wordIdx 0 i] = .written (w i)) →
    let r := mapCtx (fun q : Word32 × Word32 => add32 s.params.p q.1 q.2) ((List.range' j n).map fun i => (o i, w i)) s.ctx
    execAll ((List.range' j n).map fun i => .add (wordIdx 0 i) (wordIdx 16 i) (wordIdx 0 i)) s =
      .next ((s.setCtx r.2).setRun 0 j r.1)
  | 0, _, _, _, _ => rfl
  | n + 1, j, s, hj, h => by
    obtain ⟨ho, hw⟩ := h j (by omega) (by omega)
    simp only [List.range'_succ, List.map_cons]
    rw [execAll_cons (exec_add_words _ ho hw)]
    refine execAll_adds o w n (j + 1) _ (by omega) fun i hi hi' => ?_
    rw [setR_get, setR_get, if_neg (wordIdx_ne (by omega) (by omega) (by omega)),
      if_neg (wordIdx_ne (by omega) (by omega) (by omega))]
    exact h i (by omega) (by omega)

/-- The words of two runs, side by side. -/
theorem words16_zip (s : State) : ((s.words16 16).zip (s.words16 0)).toList =
    (List.range' 0 16).map fun i => (s.word (wordIdx 16 i), s.word (wordIdx 0 i)) := by
  apply List.ext_getElem
  · simp
  · intro i h1 h2
    simp [State.words16]

/-- R169, R173: COMBINE is its 16 ADDs. -/
theorem execAll_combine_parts {s : State} (h0 : s.Written16 0) (h16 : s.Written16 16) :
    execAll ((List.range 16).map fun i => .add (wordIdx 0 i) (wordIdx 16 i) (wordIdx 0 i)) s = exec .combine s := by
  have hadds := execAll_adds (fun i => s.word (wordIdx 16 i)) (fun i => s.word (wordIdx 0 i)) 16 0 s (by decide)
    fun i _ hi => ⟨word_mem (h16 i (by omega)), word_mem (h0 i (by omega))⟩
  rw [← words16_zip] at hadds
  rw [exec_combine h0 h16, ← setRun_toList _ (by decide), combineGadget, mapVec_toList, List.range_eq_range']
  exact hadds

/-! ### LAYOUT -/

theorem decomposeAll_cons_ok {P : Params} {f : Vector FReg 128} {i : FIdx} {is : List FIdx} {c c' : Ctx} {ws : List Word32}
    (h : decomposeAll P f (i :: is) c = .ok (ws, c')) : ∃ w c1 ws', decompose P f i c = .ok (w, c1) ∧
      decomposeAll P f is c1 = .ok (ws', c') ∧ ws = w :: ws' := by
  simp only [decomposeAll] at h
  cases e : decompose P f i c with
  | error e' => simp only [e] at h; cases h
  | ok r =>
    obtain ⟨w, c1⟩ := r
    simp only [e] at h
    cases e' : decomposeAll P f is c1 with
    | error e'' => simp only [e'] at h; cases h
    | ok r' =>
      simp only [e'] at h
      cases h
      exact ⟨w, c1, r'.1, rfl, e', rfl⟩

/-- R162: the decompositions of a list of field registers, one DEC after another. -/
theorem execAll_decs (base : Nat) : ∀ (is : List FIdx) (j : Nat) (s : State) {ws : List Word32} {c : Ctx},
    decomposeAll s.params s.f is s.ctx = .ok (ws, c) →
    execAll ((is.zipIdx j).map fun q => .decompose (wordIdx base q.2) q.1) s = .next ((s.setCtx c).setRun base j ws)
  | [], _, _, _, _, h => by cases h; rfl
  | i :: is, j, s, ws, c, h => by
    obtain ⟨w, c1, ws', e, h', rfl⟩ := decomposeAll_cons_ok h
    rw [List.zipIdx_cons, List.map_cons, execAll_cons (exec_dec _ e)]
    exact execAll_decs base is (j + 1) ((s.setCtx c1).setR (wordIdx base j) w) h'

theorem decomposeAll_length {P : Params} {f : Vector FReg 128} : ∀ (is : List FIdx) {c c' : Ctx} {ws : List Word32},
    decomposeAll P f is c = .ok (ws, c') → ws.length = is.length
  | [], _, _, _, h => by cases h; rfl
  | _ :: is, _, _, _, h => by
    obtain ⟨_, _, _, _, h', rfl⟩ := decomposeAll_cons_ok h
    rw [List.length_cons, List.length_cons, decomposeAll_length is h']

theorem toWords_toList {n : Nat} {ws : List Word32} (h : ws.length = n) : (toWords n ws).toList = ws := by
  apply List.ext_getElem
  · simp [h]
  · intro i h1 h2
    rw [Vector.getElem_toList, toWords_get i (by omega) h2]

/-- R162, R173: LAYOUT is its 12 DECs, after the four constants. -/
theorem execAll_layout_parts {s : State} {fs : FIdx} (hfit : fs.val ≤ 116) (hv : s.HasValues fs 12) :
    execAll ((layoutReads fs).zipIdx.map fun q => .decompose (wordIdx 4 q.2) q.1)
      (s.setRun 0 0 (layoutConstants.map constWord)) = exec (.layout fs) s := by
  obtain ⟨ws, c, e⟩ := decomposeAll_some s.params (layoutReads fs) s.ctx (layoutReads_values hv)
  have hlen : (layoutConstants.map constWord ++ ws).length = 16 := by
    rw [List.length_append, decomposeAll_length _ e]
    rfl
  have hgadget : layoutGadget s.params s.f fs s.ctx = .ok (toWords 16 (layoutConstants.map constWord ++ ws), c) := by
    simp only [layoutGadget, e]
  rw [exec_layout hfit hgadget, ← setRun_toList _ (by decide), toWords_toList hlen, ← setRun_append]
  rw [execAll_decs 4 (layoutReads fs) 0 (s.setRun 0 0 (layoutConstants.map constWord)) e, setRun_setCtx]
  exact congrArg _ (setRun_shift 0 4 ws 0 _)

/-! ### BLOCK -/

theorem working_setWords (s : State) (w ws : Vector Word32 16) (c : Ctx) :
    (s.working w c).setWords 16 ws = (s.setWords 16 ws).working w c := by
  refine eq_of_regs (by simp [State.working]) fun j => ?_
  rcases working_cases j with ⟨i, hi, rfl⟩ | hj
  · have hv : (wordIdx 0 i).val = 0 + i := wordIdx_val (by omega)
    rw [setWords_r, putWords_out (by omega), working_get _ _ _ hi, working_get _ _ _ hi]
  · rw [working_other _ _ _ hj, setWords_r, setWords_r, putWords_get, putWords_get, working_other _ _ _ hj]

theorem exec_perm_working (s : State) (w : Vector Word32 16) (c : Ctx) :
    exec .perm (s.working w c) = .next (s.working (permGadget s.params.p w c).1 (permGadget s.params.p w c).2) := by
  obtain ⟨hwritten, hwords⟩ := working_run s w c
  rw [exec_perm hwritten, hwords, working_params, working_ctx]
  exact congrArg _ (working_working s w c _ _)

/-- COMBINE of the original state in R[16..31] and the working state. -/
theorem exec_combine_working (s : State) (o w : Vector Word32 16) (c : Ctx) :
    exec .combine ((s.setWords 16 o).working w c) = .next ((s.setWords 16 o).working
      (combineGadget s.params.p o w c).1 (combineGadget s.params.p o w c).2) := by
  obtain ⟨hwritten, hwords⟩ := working_run (s.setWords 16 o) w c
  obtain ⟨hwritten16, hwords16⟩ : ((s.setWords 16 o).working w c).Written16 16 ∧
      ((s.setWords 16 o).working w c).words16 16 = o := run_of fun i hi => by
    have hv : (wordIdx 16 i).val = 16 + i := wordIdx_val (by omega)
    rw [working_other _ _ _ (by omega), setWords_r, putWords_in hi (by decide)]
  rw [exec_combine hwritten hwritten16, hwords, hwords16, working_params, working_ctx, setWords_params]
  exact congrArg _ (working_working _ w c _ _)

/-- R171, R173: BLOCK is LAYOUT, SNAP, PERM and COMBINE. -/
theorem execAll_block_parts {s : State} {fs : FIdx} (hfit : fs.val ≤ 116) (hv : s.HasValues fs 12) :
    execAll [.layout fs, .snap, .perm, .combine] s = exec (.block fs) s := by
  obtain ⟨o, c, e⟩ := layoutGadget_some s.params (layoutReads_values hv) s.ctx
  obtain ⟨hwritten, hwords⟩ := working_run s o c
  have hsnap : exec .snap (s.working o c) = .next ((s.setWords 16 o).working o c) := by
    rw [exec_snap hwritten, hwords, working_setWords]
  rw [execAll_cons (exec_layout hfit e), ← State.working, execAll_cons hsnap, execAll_cons (exec_perm_working _ o c),
    execAll_cons (exec_combine_working s o _ _), exec_block hfit (by rw [blockGadget_eq, e]), ← State.working,
    working_setWords]
  rfl

/-! ### STEP -/

theorem cipherWords_cons_ok {P : Params} {f : Vector FReg 128} {q : FIdx × Word32} {qs : List (FIdx × Word32)}
    {c c' : Ctx} {ws : List Word32} (h : cipherWords P f (q :: qs) c = .ok (ws, c')) :
    ∃ w c1 ws', decompose P f q.1 c = .ok (w, c1) ∧
      cipherWords P f qs (xor32 P.p w q.2 c1).2 = .ok (ws', c') ∧ ws = (xor32 P.p w q.2 c1).1 :: ws' := by
  simp only [cipherWords] at h
  cases e : decompose P f q.1 c with
  | error e' => simp only [e] at h; cases h
  | ok r =>
    obtain ⟨w, c1⟩ := r
    simp only [e] at h
    cases e' : cipherWords P f qs (xor32 P.p w q.2 c1).2 with
    | error e'' => simp only [e'] at h; cases h
    | ok r' =>
      simp only [e'] at h
      cases h
      exact ⟨w, c1, r'.1, rfl, e', rfl⟩

/-- R191: one input word is decomposed and combined with a keystream word. -/
theorem execAll_cipher_word {s : State} {fx : FIdx} {d k : RIdx} {w x : Word32} {c : Ctx} (hdk : d ≠ k)
    (e : decompose s.params s.f fx s.ctx = .ok (w, c)) (hk : s.r[k] = .written x) (is : List Instr) :
    execAll ([.decompose d fx, .xor d d k] ++ is) s =
      execAll is ((s.setCtx (xor32 s.params.p w x c).2).setR d (xor32 s.params.p w x c).1) := by
  have hxor : exec (.xor d d k) ((s.setCtx c).setR d w) =
      .next ((s.setCtx (xor32 s.params.p w x c).2).setR d (xor32 s.params.p w x c).1) := by
    rw [exec_xor_words d (by rw [setR_get, if_pos rfl]) (by rw [setR_get, if_neg hdk]; exact hk)]
    exact congrArg _ (setR_setR (s.setCtx (xor32 s.params.p w x c).2) d w _)
  rw [List.cons_append, execAll_cons (exec_dec d e), List.cons_append, execAll_cons hxor, List.nil_append]

/-- R191, R194: the ciphertext words from i = j on, each by DEC and XOR. -/
theorem execAll_cipher (fx : FIdx) (k : Nat → Word32) : ∀ (n j : Nat) (s : State) {ws : List Word32} {c : Ctx},
    j + n ≤ 16 →
    (∀ i, j ≤ i → i < j + n → s.r[wordIdx 0 i] = .written (k i)) →
    cipherWords s.params s.f ((List.range' j n).map fun i => (runIdx fx i, k i)) s.ctx = .ok (ws, c) →
    execAll ((List.range' j n).flatMap fun i =>
      [.decompose (wordIdx 32 i) (runIdx fx i), .xor (wordIdx 32 i) (wordIdx 32 i) (wordIdx 0 i)]) s =
      .next ((s.setCtx c).setRun 32 j ws)
  | 0, _, _, _, _, _, _, e => by cases e; rfl
  | n + 1, j, s, ws, c, hj, h, e => by
    have hne : ∀ i, i < j + (n + 1) → wordIdx 32 j ≠ wordIdx 0 i := fun i hi =>
      wordIdx_ne (by omega) (by omega) (by omega)
    rw [List.range'_succ, List.map_cons] at e
    obtain ⟨w, c1, ws', hdec, hrest, rfl⟩ := cipherWords_cons_ok e
    rw [List.range'_succ, List.flatMap_cons, execAll_cipher_word (hne j (by omega)) hdec (h j (by omega) (by omega))]
    refine execAll_cipher fx k n (j + 1) _ (by omega) (fun i hi hi' => ?_) hrest
    rw [setR_get, if_neg (hne i (by omega))]
    exact h i (by omega) (by omega)

theorem cipherWords_length {P : Params} {f : Vector FReg 128} : ∀ (qs : List (FIdx × Word32)) {c c' : Ctx}
    {ws : List Word32}, cipherWords P f qs c = .ok (ws, c') → ws.length = qs.length
  | [], _, _, _, h => by cases h; rfl
  | _ :: qs, _, _, _, h => by
    obtain ⟨_, _, _, _, h', rfl⟩ := cipherWords_cons_ok h
    rw [List.length_cons, List.length_cons, cipherWords_length qs h']

/-- R191, R192: the block output's RECs write F only, each a word of R[32..47]. -/
theorem execAll_recs {s : State} {fd : FIdx} (hfd : fd.val ≤ 100) (hw : s.Written16 32) : ∀ n ≤ 16,
    ∃ f : Vector FReg 128, execAll ((List.range n).map fun i => .recompose (runIdx fd (12 + i)) (wordIdx 32 i)) s =
        .next { s with f := f } ∧
      ∀ i < n, f[runIdx fd (12 + i)] = recompose s.params s.ctx (s.word (wordIdx 32 i))
  | 0, _ => ⟨s.f, rfl, fun i hi => absurd hi (by omega)⟩
  | n + 1, hn => by
    obtain ⟨f, he, hf⟩ := execAll_recs hfd hw n (by omega)
    have hrec := exec_rec (s := { s with f := f }) (runIdx fd (12 + n)) (hw n (by omega))
    refine ⟨f.set (runIdx fd (12 + n)).val (recompose s.params s.ctx (s.word (wordIdx 32 n))) (runIdx fd (12 + n)).isLt,
      ?_, fun i hi => ?_⟩
    · rw [List.range_succ, List.map_append, execAll_append he, List.map_singleton, execAll_cons hrec]
      rfl
    · refine (setF_get { s with f := f } (runIdx fd (12 + i)) (runIdx fd (12 + n)) _).trans ?_
      split
      next heq =>
        rw [Fin.ext_iff, runIdx_val (by omega), runIdx_val (by omega)] at heq
        rw [show i = n by omega]
      next hne =>
        have hin : i ≠ n := fun e => hne (by rw [e])
        exact hf i (by omega)

theorem words16_zip_run (s : State) (fx : FIdx) : ((List.range 16).map (runIdx fx)).zip (s.words16 0).toList =
    (List.range' 0 16).map fun i => (runIdx fx i, s.word (wordIdx 0 i)) := by
  apply List.ext_getElem
  · simp
  · intro i h1 h2
    simp [State.words16]

/-- R191, R194: BLOCK, and DEC and XOR of every input word, leave STEP's words and context. -/
theorem execAll_step_words {s : State} {fs fx : FIdx} {b : BlockResult} {ws : List Word32} {c : Ctx} (hfs : fs.val ≤ 116)
    (e1 : blockGadget s.params s.f fs s.ctx = .ok b)
    (e2 : cipherWords s.params s.f (((List.range 16).map (runIdx fx)).zip b.keystream.toList) b.ctx = .ok (ws, c)) :
    execAll ([.block fs] ++ (List.range 16).flatMap fun i =>
      [.decompose (wordIdx 32 i) (runIdx fx i), .xor (wordIdx 32 i) (wordIdx 32 i) (wordIdx 0 i)]) s =
      .next ((((s.setCtx c).setWords 0 b.keystream).setWords 16 b.layout).setWords 32 (toWords 16 ws)) := by
  obtain ⟨t, ht⟩ : ∃ t, t = ((s.setCtx b.ctx).setWords 0 b.keystream).setWords 16 b.layout := ⟨_, rfl⟩
  have hblock : exec (.block fs) s = .next t := ht ▸ exec_block hfs e1
  obtain ⟨hwritten, hwords⟩ : t.Written16 0 ∧ t.words16 0 = b.keystream := by
    rw [ht, ← State.working, working_setWords]
    exact working_run ..
  have hlen : ws.length = 16 := by
    rw [cipherWords_length _ e2]
    simp
  rw [← hwords, words16_zip_run] at e2
  have hcipher := execAll_cipher fx (fun i => t.word (wordIdx 0 i)) 16 0 t (ws := ws) (c := c) (by decide)
    (fun i _ hi => word_mem (hwritten i (by omega))) (by simpa [ht] using e2)
  rw [← List.range_eq_range', ← toWords_toList hlen, setRun_toList _ (by decide)] at hcipher
  rw [List.singleton_append, execAll_cons hblock, hcipher, ht, setWords_setCtx, setWords_setCtx]
  rfl

/-- R191, R194: STEP's words, context and block output are those of BLOCK, 16 times DEC and XOR, and 16 times REC. -/
theorem execAll_step_parts {s : State} {fs fx fd : FIdx} {b : BlockResult} {ws : List Word32} {c : Ctx}
    (hfs : fs.val ≤ 116) (hfd : fd.val ≤ 100) (e1 : blockGadget s.params s.f fs s.ctx = .ok b)
    (e2 : cipherWords s.params s.f (((List.range 16).map (runIdx fx)).zip b.keystream.toList) b.ctx = .ok (ws, c)) :
    ∃ u, execAll ([.block fs] ++ (List.range 16).flatMap (fun i =>
          [.decompose (wordIdx 32 i) (runIdx fx i), .xor (wordIdx 32 i) (wordIdx 32 i) (wordIdx 0 i)]) ++
        (List.range 16).map fun i => .recompose (runIdx fd (12 + i)) (wordIdx 32 i)) s = .next u ∧
      (stepResult s fs fd b (toWords 16 ws) c).r = u.r ∧
      (stepResult s fs fd b (toWords 16 ws) c).ctx.assign = u.ctx.assign ∧
      (stepResult s fs fd b (toWords 16 ws) c).ctx.cons = u.ctx.cons ∧
      ∀ i < 16, (stepResult s fs fd b (toWords 16 ws) c).f[runIdx fd (12 + i)] = u.f[runIdx fd (12 + i)] := by
  have hwords := execAll_step_words hfs e1 e2
  obtain ⟨v, hv⟩ : ∃ v, v = (((s.setCtx c).setWords 0 b.keystream).setWords 16 b.layout).setWords 32 (toWords 16 ws) :=
    ⟨_, rfl⟩
  rw [← hv] at hwords
  have hout : ∀ (i : Nat) (hi : i < 16), v.r[wordIdx 32 i] = .written (toWords 16 ws)[i] := fun i hi => by
    rw [hv, setWords_r, putWords_in hi (by decide)]
  obtain ⟨f, hrecs, hf⟩ := execAll_recs hfd (run_of hout).1 16 le_rfl
  refine ⟨{ v with f := f }, (execAll_append hwords).trans hrecs, ?_, ?_, ?_, fun i hi => ?_⟩
  · simp [stepResult_eq, hv]
  · simp [stepResult_ctx, hv, Ctx.countStep]
  · simp [stepResult_ctx, hv, Ctx.countStep]
  · rw [(stepResult_fields s fs fd b (toWords 16 ws) c hfd).1 (12 + i) (by omega), nextState_get, if_neg (by omega),
      if_neg (by omega)]
    refine Eq.trans ?_ (hf i hi).symm
    rw [word_of (hout i hi)]
    simp [hv, Nat.mod_eq_of_lt hi]

/-! ### The obligation -/

/-- A command with the outcome of a list of commands ends where they do. -/
theorem exists_next_of_parts {i : Instr} {is : List Instr} {s t u : State} (hi : exec i s = .next t)
    (h : execAll is u = exec i s) : ∃ t, exec i s = .next t ∧ execAll is u = .next t :=
  ⟨t, hi, h.trans hi⟩

/-- Settles O56: each composite command has the outcome of its parts. -/
theorem compositeCommandsAreTheirParts : Obligations.CompositeCommandsAreTheirParts := by
  refine fun s => ⟨fun fs hfit hv => ?_, fun h0 => ⟨?_, ?_⟩, fun a b c d hq hw => ?_, fun h0 h16 => ?_,
    fun fs hfit hv => ?_, fun fs fx fd hfs hfx hfd hn hvs hvx => ?_⟩
  · obtain ⟨b, e⟩ := blockGadget_some hv
    exact exists_next_of_parts (exec_block hfit e) (execAll_block_parts hfit hv)
  · exact exists_next_of_parts (exec_perm h0) (execAll_perm_parts h0)
  · rw [expand_groups]
    exact exists_next_of_parts (exec_dround h0) (execAll_dround_parts h0)
  · exact exists_next_of_parts (exec_qr hq (hw a (by simp)) (hw b (by simp)) (hw c (by simp)) (hw d (by simp)))
      (execAll_qr_lines hq hw)
  · exact exists_next_of_parts (exec_combine h0 h16) (execAll_combine_parts h0 h16)
  · obtain ⟨w, c, e⟩ := layoutGadget_some s.params (layoutReads_values hv) s.ctx
    exact exists_next_of_parts (exec_layout hfit e) (execAll_layout_parts hfit hv)
  · obtain ⟨b, ws, c, e1, e2, hstep⟩ := exec_step_some (fd := fd) ⟨hfs, hfx, hfd, hn⟩ hvs hvx
    obtain ⟨u, hparts, hagree⟩ := execAll_step_parts (fx := fx) (by omega) hfd e1 e2
    exact ⟨_, u, hstep, hparts, hagree⟩

end Sys2Proof.Machine

/-! STEP against the native oracle, its frame, and its independence of what it does not name; the host-level call and
threading on top of it (R190 to R200, R253, R254). -/

namespace Sys2Proof.Machine

/-! ### What a completed STEP leaves -/

theorem nativeStep_get (p : Nat) (st : Vector Nat 28) (ext : Vector Nat 16) {k : Nat} (hk : k < 28) :
    (nativeStep p st ext)[k] = if k < 11 then st[k] else if k = 11 then (st[11] + 1) % p
      else (low32 (ext[(k - 12) % 16]'(Nat.mod_lt _ (by decide))) ^^^
        (oracleKeystream st)[(k - 12) % 16]'(Nat.mod_lt _ (by decide))).toNat := by
  simp [nativeStep]

/-- R160, R198: the oracle's keystream of a run of field registers is the block of the words it names. -/
theorem oracleKeystream_fvals (s : State) (fs : FIdx) :
    oracleKeystream (s.fvals fs 28) = wordBlock (s.keyWords fs) (s.counterWord fs) (s.nonceWords fs) := by
  rw [← blockOf_fvals, blockOf, layoutOf_values]
  rfl

theorem runIdx_mem_layoutReads (fs : FIdx) {k : Nat} (hk : k < 12) : runIdx fs k ∈ layoutReads fs :=
  List.mem_map_of_mem (by interval_cases k <;> decide)

/-- R12: a run's value, where the register has one, is the register's. -/
theorem val_eq_some_fvals {s : State} {base : FIdx} {n k : Nat} (hk : k < n) (hv : s.f[runIdx base k].val ≠ none) :
    s.f[runIdx base k].val = some (s.fvals base n)[k] := by
  obtain ⟨N, hN⟩ := Option.ne_none_iff_exists'.1 hv
  rw [fvals_get s base n k hk, hN, Option.getD_some]

theorem stepResult_params (s : State) (fs fd : FIdx) (b : BlockResult) (w : Vector Word32 16) (c : Ctx) :
    (stepResult s fs fd b w c).params = s.params := by rw [stepResult_eq]

theorem stepResult_status (s : State) (fs fd : FIdx) (b : BlockResult) (w : Vector Word32 16) (c : Ctx) :
    (stepResult s fs fd b w c).status = s.status := by rw [stepResult_eq]

section
variable {s : State} {fs fx fd : FIdx} {b : BlockResult} {ws : List Word32} {c : Ctx}

/-- R191 to R194, R198: each register of the next CipherState has the oracle's value: key and nonce as they were, the
counter one up, the rest recomposed from the ciphertext words. -/
theorem stepResult_fval (h : s.Inv) (hfd : fd.val ≤ 100) (hb : blockGadget s.params s.f fs s.ctx = .ok b)
    (hw : cipherWords s.params s.f (((List.range 16).map (runIdx fx)).zip b.keystream.toList) b.ctx = .ok (ws, c))
    {k : Nat} (hk : k < 28) : (stepResult s fs fd b (toWords 16 ws) c).fval (runIdx fd k) =
      some (nativeStep s.params.p (s.fvals fs 28) (s.fvals fx 16))[k] := by
  obtain ⟨hgrows, hreads, _, _, _, hcipher, _⟩ := step_spec h hb hw
  have hval : ∀ j (hj : j < 12), s.f[runIdx fs j].val = some (s.fvals fs 28)[j] := fun j hj =>
    val_eq_some_fvals (by omega) (hreads _ (runIdx_mem_layoutReads fs hj))
  rw [State.fval, (stepResult_fields s fs fd b (toWords 16 ws) c hfd).1 k hk, nextState_get _ _ _ _ _ _ hk,
    nativeStep_get _ _ _ hk]
  split
  next hlt => exact hval k (by omega)
  next =>
    split
    next => exact (nextCounter_ok h.params hgrows.ok (hgrows.ext.fieldsOk h.fieldsOk _) (hval 11 (by decide))).2.1
    next => exact (recompose_ok h.params hgrows.ok (hcipher _ (Nat.mod_lt _ (by decide)))).2.1

/-- R191: the three runs of words that STEP writes, with their values. -/
theorem stepResult_vals (h : s.Inv) (hb : blockGadget s.params s.f fs s.ctx = .ok b)
    (hw : cipherWords s.params s.f (((List.range 16).map (runIdx fx)).zip b.keystream.toList) b.ctx = .ok (ws, c)) :
    let t := stepResult s fs fd b (toWords 16 ws) c
    (t.Written16 0 ∧ t.vals16 0 = wordBlock (s.keyWords fs) (s.counterWord fs) (s.nonceWords fs)) ∧
      (t.Written16 16 ∧ t.vals16 16 = wordLayout (s.keyWords fs) (s.counterWord fs) (s.nonceWords fs)) ∧
      t.Written16 32 ∧ t.vals16 32 = Vector.ofFn fun i : Fin 16 => low32 (s.fvals fx 16)[i] ^^^
        (wordBlock (s.keyWords fs) (s.counterWord fs) (s.nonceWords fs))[i] := by
  intro t
  obtain ⟨_, _, _, hlayout, hkeystream, hcipher, _⟩ := step_spec h hb hw
  obtain ⟨hr0, hr16, hr32, _⟩ := stepResult_runs s fs fd b (toWords 16 ws) c
  have hctx : t.ctx = c.countStep := stepResult_ctx ..
  rw [layoutOf_values] at hlayout
  rw [oracleKeystream_fvals] at hkeystream hcipher
  refine ⟨vals_of hr0 (hctx ▸ hkeystream), vals_of hr16 (hctx ▸ hlayout), vals_of hr32 (hctx ▸ fun i hi => ?_)⟩
  rw [Vector.getElem_ofFn]
  exact hcipher i hi

/-- R39, R191: what STEP appends. -/
theorem stepResult_appended (h : s.Inv) (hb : blockGadget s.params s.f fs s.ctx = .ok b)
    (hw : cipherWords s.params s.f (((List.range 16).map (runIdx fx)).zip b.keystream.toList) b.ctx = .ok (ws, c)) :
    s.Appended (stepResult s fs fd b (toWords 16 ws) c)
      (12 * s.params.decVars + 60480 + 2512 + 16 * s.params.decVars + 512)
      (12 * s.params.decCons + 60480 + 2512 + 16 * s.params.decCons + 512) := by
  have hm := Params.Valid.m_ge h.params
  have hpos := Ctx.Ok.length_pos h.ctx
  have hblock := (block_delta s.params hm hpos hb).2
  have hall := hblock.trans (cipher_delta s.params hm _ (hblock.pos hpos) hw)
  have hlen : (((List.range 16).map (runIdx fx)).zip b.keystream.toList).length = 16 := by simp
  rw [hlen, Nat.mul_add, Nat.mul_add, ← Nat.add_assoc, ← Nat.add_assoc] at hall
  rw [State.Appended, stepResult_ctx]
  exact hall

/-- R27: a word register that STEP does not write keeps its word and the word its value. -/
theorem stepResult_rval (h : s.Inv) (hext : s.ctx.Extends c) (w : Vector Word32 16) {j : RIdx} (hj : 48 ≤ j.val) :
    (stepResult s fs fd b w c).r[j] = s.r[j] ∧ (stepResult s fs fd b w c).rval j = s.rval j := by
  have hr := (stepResult_runs s fs fd b w c).2.2.2 j hj
  refine ⟨hr, ?_⟩
  simp only [State.rval, hr, stepResult_ctx]
  cases hw : s.r[j] with
  | unwritten => rfl
  | written x => exact congrArg some (hext.word (h.words j x hw)).2

end

/-- Settles O30: STEP completes, and its registers are compared with the oracle's values one by one. -/
theorem stepEqualsTheNativeOracle : Obligations.StepEqualsTheNativeOracle := by
  intro s fs fx fd h hfs hfx hfd hn hvs hvx
  obtain ⟨b, ws, c, hb, hw, hstep⟩ := exec_step_some (fd := fd) ⟨hfs, hfx, hfd, hn⟩ hvs hvx
  exact ⟨_, hstep, fun k => stepResult_fval h hfd hb hw k.isLt⟩

/-- Settles O31: a STEP without an error went through its whole body, whose result is read part by part. -/
theorem stepEffectsAndFrame : Obligations.StepEffectsAndFrame := by
  intro s t fs fx fd h hx hst he
  obtain ⟨⟨_, _, hfd, hn⟩, b, ws, c, hb, hw, rfl⟩ := exec_step_inv he hx hst
  obtain ⟨hgrows, _⟩ := step_spec h hb hw
  obtain ⟨hrun, hother⟩ := stepResult_fields s fs fd b (toWords 16 ws) c hfd
  obtain ⟨⟨hw0, hv0⟩, ⟨hw16, hv16⟩, hw32, hv32⟩ := stepResult_vals (fd := fd) h hb hw
  have hctx := stepResult_ctx s fs fd b (toWords 16 ws) c
  refine ⟨fun k hk => ?_, fun L v hL => ?_, hw0, hw16, hw32, hv0, hv16, fun i => ⟨?_, ?_⟩, ?_, ?_,
    stepResult_appended h hb hw, hother, fun j hj => stepResult_rval h hgrows.ext _ hj, ?_⟩
  · rw [hrun k (by omega), nextState_get _ _ _ _ _ _ (by omega), if_pos hk]
  · rw [hrun 11 (by decide), nextState_get _ _ _ _ _ _ (by decide), if_neg (by decide), if_pos rfl, hL]
    rfl
  · rw [hv0, hv32]
    simp
  · rw [stepResult_fval h hfd hb hw (by omega), nativeStep_get _ _ _ (by omega), if_neg (by omega), if_neg (by omega), hv32,
      oracleKeystream_fvals]
    simp [Nat.mod_eq_of_lt i.isLt]
  · rw [hctx, Ctx.countStep, hgrows.nstep, hn]
  · rw [hctx]
    exact hgrows.ext
  · rw [stepResult_eq]
    exact ⟨rfl, rfl, rfl⟩

/-! ### STEP reads only its named inputs -/

section
variable {P : Params} {f f' : Vector FReg 128}

theorem decompose_congr {i : FIdx} (h : f'[i] = f[i]) (c : Ctx) : decompose P f' i c = decompose P f i c := by
  simp only [decompose, checkF, h]

theorem decomposeAll_congr : ∀ (is : List FIdx) (c : Ctx), (∀ i ∈ is, f'[i] = f[i]) →
    decomposeAll P f' is c = decomposeAll P f is c
  | [], _, _ => rfl
  | i :: is, c, h => by
    have htail : ∀ c', decomposeAll P f' is c' = decomposeAll P f is c' := fun c' =>
      decomposeAll_congr is c' fun j hj => h j (List.mem_cons_of_mem _ hj)
    simp only [decomposeAll, decompose_congr (h i (by simp)), htail]

theorem blockGadget_congr {fs : FIdx} (h : ∀ k < 12, f'[runIdx fs k] = f[runIdx fs k]) (c : Ctx) :
    blockGadget P f' fs c = blockGadget P f fs c := by
  have hreads : ∀ i ∈ layoutReads fs, f'[i] = f[i] := fun i hi => by
    obtain ⟨k, hk, rfl⟩ := layoutReads_get fs i hi
    exact h k hk
  simp only [blockGadget, layoutGadget, decomposeAll_congr _ _ hreads]

theorem cipherWords_congr : ∀ (qs : List (FIdx × Word32)) (c : Ctx), (∀ q ∈ qs, f'[q.1] = f[q.1]) →
    cipherWords P f' qs c = cipherWords P f qs c
  | [], _, _ => rfl
  | q :: qs, c, h => by
    have htail : ∀ c', cipherWords P f' qs c' = cipherWords P f qs c' := fun c' =>
      cipherWords_congr qs c' fun j hj => h j (List.mem_cons_of_mem _ hj)
    simp only [cipherWords, decompose_congr (h q (by simp)), htail]

theorem nextState_congr {fs : FIdx} (h : ∀ k < 12, f'[runIdx fs k] = f[runIdx fs k]) (c : Ctx) (w : Vector Word32 16) :
    nextState P f' fs c w = nextState P f fs c w := by
  ext1 k hk
  rw [nextState_get _ _ _ _ _ _ hk, nextState_get _ _ _ _ _ _ hk, h 11 (by decide)]
  split
  · exact h k (by omega)
  · rfl

end

/-- A register of a run paired with a word is one of the run's. -/
theorem mem_zip_run {fx : FIdx} {n : Nat} {ks : List Word32} {q : FIdx × Word32}
    (h : q ∈ ((List.range n).map (runIdx fx)).zip ks) : ∃ k < n, ∃ w, q = (runIdx fx k, w) := by
  obtain ⟨k, hk, e⟩ := List.mem_map.1 (List.of_mem_zip h).1
  exact ⟨k, List.mem_range.1 hk, q.2, Prod.ext e.symm rfl⟩

/-- Settles O57: block, ciphertext words and next state are the same functions of the named registers. -/
theorem priorBlockOutputIsNotRead : Obligations.PriorBlockOutputIsNotRead := by
  intro s t fs fx fd f' hx hst he hfs hfx
  obtain ⟨hc, b, ws, c, hb, hw, rfl⟩ := exec_step_inv he hx hst
  have hb' : blockGadget s.params f' fs s.ctx = .ok b := (blockGadget_congr hfs _).trans hb
  have hw' : cipherWords s.params f' (((List.range 16).map (runIdx fx)).zip b.keystream.toList) b.ctx = .ok (ws, c) := by
    refine (cipherWords_congr _ _ fun q hq => ?_).trans hw
    obtain ⟨k, hk, w, rfl⟩ := mem_zip_run hq
    exact hfx k hk
  refine ⟨_, execStep_eq (s := { s with f := f' }) (stepChecks_ok.2 hc) hb' hw', ?_, ?_, ?_, fun k hk => ?_⟩
  · simp only [stepResult_eq]
  · simp only [stepResult_ctx]
  · simp only [stepResult_status]
  · rw [(stepResult_fields _ _ _ _ _ _ hc.2.2.1).1 k hk, (stepResult_fields _ _ _ _ _ _ hc.2.2.1).1 k hk]
    exact congrArg (·[k]) (nextState_congr hfs c (toWords 16 ws))

/-! ### STEP with an operand missing -/

/-- R191, R229: the field registers STEP reads, in order. -/
def stepReads (fs fx : FIdx) : List FIdx := layoutReads fs ++ (List.range 16).map (runIdx fx)

/-- R196: those of the host call's STEP F0, F32, F64. -/
theorem stepReads_call : stepReads 0 32 = callReads.map (Fin.ofNat 128) := by decide

theorem stepReads_values {s : State} {fs fx : FIdx} (h : ∀ i ∈ stepReads fs fx, s.f[i].val ≠ none) :
    s.HasValues fs 12 ∧ s.HasValues fx 16 :=
  ⟨fun _ hk => h _ (List.mem_append_left _ (runIdx_mem_layoutReads fs hk)),
    fun _ hk => h _ (List.mem_append_right _ (List.mem_map_of_mem (List.mem_range.2 hk)))⟩

/-- The ciphertext words stop at the first input register without a value, whatever the keystream. -/
theorem cipherWords_run_none (P : Params) {f : Vector FReg 128} {fx i : FIdx} {pre post : List FIdx}
    (e : (List.range 16).map (runIdx fx) = pre ++ i :: post) (hp : ∀ j ∈ pre, f[j].val ≠ none) (h : f[i].val = none)
    (ks : Vector Word32 16) (c : Ctx) :
    cipherWords P f (((List.range 16).map (runIdx fx)).zip ks.toList) c = .error (.decomposition .dec .f i.val) := by
  have hlen : 16 = pre.length + (post.length + 1) := by simpa using congrArg List.length e
  obtain ⟨k, ks', hdrop⟩ : ∃ k ks', ks.toList.drop pre.length = k :: ks' :=
    List.exists_cons_of_length_pos (by rw [List.length_drop, Vector.length_toList]; omega)
  have htake : pre.length = (ks.toList.take pre.length).length := by
    rw [List.length_take, Vector.length_toList]
    omega
  rw [e, ← List.take_append_drop pre.length ks.toList, hdrop, List.zip_append htake, List.zip_cons_cons]
  exact cipherWords_none P _ (i, k) _ c (fun q hq => hp q.1 (List.of_mem_zip hq).1) h

/-- R221, R229: a STEP that passes its checks reports the first register it reads that has no value. -/
theorem exec_step_missing {s : State} {fs fx fd i : FIdx} {pre post : List FIdx}
    (hc : fs.val ≤ 100 ∧ fx.val ≤ 112 ∧ fd.val ≤ 100 ∧ s.ctx.nstep = 0) (e : stepReads fs fx = pre ++ i :: post)
    (hp : ∀ j ∈ pre, s.f[j].val ≠ none) (h : s.f[i].val = none) :
    exec (.step fs fx fd) s = .next (s.raise 0x0F (.decomposition .dec .f i.val)) := by
  have hchecks : stepChecks fs fx fd s = .ok () := stepChecks_ok.2 hc
  have hinput : ∀ as, pre = layoutReads fs ++ as → (List.range 16).map (runIdx fx) = as ++ i :: post →
      exec (.step fs fx fd) s = .next (s.raise 0x0F (.decomposition .dec .f i.val)) := by
    rintro as rfl hrun
    obtain ⟨o, c1, ho⟩ := layoutGadget_some s.params (fun j hj => hp j (List.mem_append_left _ hj)) s.ctx
    have hcipher := cipherWords_run_none s.params hrun fun j hj => hp j (List.mem_append_right _ hj)
    simp only [exec, execStep, hchecks, blockGadget_eq, ho, hcipher h, finish]
  rcases List.append_eq_append_iff.1 e with ⟨as, hpre, hrun⟩ | ⟨_ | ⟨i', bs⟩, hlayout, hpost⟩
  · exact hinput as hpre hrun
  · exact hinput [] (by simpa using hlayout.symm) (by simpa using hpost.symm)
  · obtain ⟨rfl, _⟩ := List.cons.inj hpost
    simp only [exec, execStep, hchecks, blockGadget_eq, layoutGadget_none s.params hlayout hp h, finish]

/-! ### The host-level call -/

/-- The state before the host call's STEP is issued: an empty context with the call's values bound (R196, R253). -/
structure CallReady (s : State) (prior ext : List (Option Nat)) (u : State) : Prop where
  runs : runOps (.openCtx :: writeRun 0 prior ++ writeRun 32 ext) s = .next u
  inv : s.params.Valid → u.Inv
  params : u.params = s.params
  err : u.err = false
  nstep : u.ctx.nstep = 0
  cons : u.ctx.cons = []
  values : ∀ i : FIdx, i.val < 28 ∨ 32 ≤ i.val ∧ i.val < 48 → u.fval i = (callValue prior ext i.val).map (· % s.params.p)

/-- R198: the oracle's next CipherState for the values a call is given. -/
def callOracle (p : Nat) (prior ext : List (Option Nat)) : Vector Nat 28 :=
  nativeStep p (Vector.ofFn fun k : Fin 28 => (callValue prior ext k.val).getD 0 % p)
    (Vector.ofFn fun i : Fin 16 => (callValue prior ext (32 + i.val)).getD 0 % p)

theorem decode_stepWord : decode stepWord = .ok (.step 0 32 64) := by decide

theorem callReads_range : ∀ i ∈ callReads, i < 12 ∨ 32 ≤ i ∧ i < 48 := by decide

/-- R226: STATUS after a register of the call has no value. -/
theorem statusWord_call : ∀ i ∈ callReads,
    statusWord 0x0F (.decomposition .dec .f i) = BitVec.ofNat 32 (0x00004F13 + i * 2 ^ 15) := by decide

theorem callValue_prior {prior : List (Option Nat)} (ext : List (Option Nat)) {i : Nat} (hi : i < 28)
    (hp : i < prior.length) : callValue prior ext i = prior[i] := by
  simp [callValue, hi, hp]

theorem callValue_ext (prior : List (Option Nat)) {ext : List (Option Nat)} {i : Nat} (hi : 32 ≤ i)
    (he : i - 32 < ext.length) : callValue prior ext i = ext[i - 32] := by
  simp [callValue, show ¬ i < 28 by omega, he]

section
variable {s u : State} {prior ext : List (Option Nat)}

/-- H_OPEN and the two runs of writes, none of which is ignored or refused. -/
theorem exists_callReady (s : State) (hp : prior.length = 28) (he : ext.length = 16) : ∃ u, CallReady s prior ext u := by
  obtain ⟨v, hrun1, hinv1, hst1, hpar1, hn1, hcons1, _, hval1, _⟩ :=
    writeRun_spec prior 0 (s := s.openCtx) (fresh_err _ _ _) (by omega)
  have herr1 : v.err = false := by
    rw [State.err, hst1]
    exact fresh_err s.params s.pending s.replies
  obtain ⟨u, hrun2, hinv2, hst2, hpar2, hn2, hcons2, _, hval2, hother2⟩ := writeRun_spec ext 32 herr1 (by omega)
  refine ⟨u, ?_, fun hP => hinv2 (hinv1 (fresh_inv hP _ _)), hpar2.trans hpar1, ?_, hn2.trans hn1, hcons2.trans hcons1,
    fun i hi => ?_⟩
  · have hopen : runOps (.openCtx :: writeRun 0 prior) s = .next v := hrun1
    rw [runOps_append _ _ hopen, hrun2]
  · rw [State.err, hst2]
    exact herr1
  · rcases hi with hi | ⟨hlo, hhi⟩
    · rw [State.fval, hother2 i (by omega), callValue_prior ext hi (by omega)]
      exact hval1 i.val (by omega) i (by omega)
    · rw [hval2 (i.val - 32) (by omega) i (by omega), callValue_ext prior hlo (by omega), hpar1]
      rfl

/-- R196: the call's result is read from the state its STEP leaves. -/
theorem CallReady.generate (hu : CallReady s prior ext u) (hp : prior.length = 28) (he : ext.length = 16) (n : Nat)
    {t : State} (hx : exec (.step 0 32 64) u = .next t) : generateStepConstraints s n prior ext =
      (t, if t.err then .error (.engine t.status) else .ok (readRun t 64 28)) := by
  have hissue : runOps (stepCallOps prior ext) s = .next t := by
    rw [stepCallOps, runOps_append _ _ hu.runs, runOps, hostOp_issue_of_decode hu.err decode_stepWord, hx]
    rfl
  rw [generateStepConstraints, if_pos ⟨hp, he⟩, hissue]

/-- A register STEP reads has a value when the call gives it one. -/
theorem CallReady.val_eq_none_iff (hu : CallReady s prior ext u) {i : Nat} (hi : i ∈ callReads) :
    u.f[Fin.ofNat 128 i].val = none ↔ callValue prior ext i = none := by
  have hrange := callReads_range i hi
  have hval : (Fin.ofNat 128 i).val = i := Nat.mod_eq_of_lt (by omega)
  have h := hu.values (Fin.ofNat 128 i) (by omega)
  rw [State.fval, hval] at h
  rw [h, Option.map_eq_none_iff]

/-- The values bound, as the oracle takes them. -/
theorem CallReady.fvals (hu : CallReady s prior ext u) :
    u.fvals 0 28 = Vector.ofFn (fun k : Fin 28 => (callValue prior ext k.val).getD 0 % s.params.p) ∧
      u.fvals 32 16 = Vector.ofFn (fun i : Fin 16 => (callValue prior ext (32 + i.val)).getD 0 % s.params.p) := by
  have hmod : ∀ o : Option Nat, (o.map (· % s.params.p)).getD 0 = o.getD 0 % s.params.p := fun o => by
    cases o <;> simp
  have hval : ∀ (base : FIdx) k, base.val + k < 28 ∨ 32 ≤ base.val + k ∧ base.val + k < 48 →
      (u.fval (runIdx base k)).getD 0 = (callValue prior ext (base.val + k)).getD 0 % s.params.p := fun base k hk => by
    have hidx : (runIdx base k).val = base.val + k := runIdx_val (by omega)
    rw [hu.values _ (by omega), hmod, hidx]
  constructor <;> ext k hk <;> rw [State.fvals, Vector.getElem_ofFn, Vector.getElem_ofFn, hval]
  · simp
  · exact .inl (by simpa using hk)
  · rfl
  · exact .inr ⟨Nat.le_add_right 32 k, Nat.add_lt_add_left hk 32⟩

theorem readRun_val (s : State) (base : FIdx) (n : Nat) :
    (readRun s base n).map FReg.val = (List.range n).map fun k => s.fval (runIdx base k) := List.map_map

/-- R196, R198: with every entry that STEP reads present, the call succeeds with the oracle's values. -/
theorem generateStepConstraints_ok (hP : s.params.Valid) (hp : prior.length = 28) (he : ext.length = 16)
    (hall : ∀ j ∈ callReads, callValue prior ext j ≠ none) (n : Nat) :
    ∃ t out, generateStepConstraints s n prior ext = (t, .ok out) ∧ t.err = false ∧ t.params = s.params ∧
      out.map FReg.val = (callOracle s.params.p prior ext).toList.map some := by
  obtain ⟨u, hu⟩ := exists_callReady s hp he
  obtain ⟨hvs, hvx⟩ := stepReads_values (s := u) (fs := 0) (fx := 32) fun i hi => by
    rw [stepReads_call] at hi
    obtain ⟨j, hj, rfl⟩ := List.mem_map.1 hi
    exact (hu.val_eq_none_iff hj).not.2 (hall j hj)
  obtain ⟨b, ws, c, hb, hw, hstep⟩ := exec_step_some (fd := 64) ⟨by decide, by decide, by decide, hu.nstep⟩ hvs hvx
  have herr : (stepResult u 0 64 b (toWords 16 ws) c).err = false := by
    rw [State.err, stepResult_status]
    exact hu.err
  have hcall := hu.generate hp he n hstep
  rw [if_neg (by rw [herr]; decide)] at hcall
  refine ⟨_, _, hcall, herr, ?_, ?_⟩
  · rw [stepResult_params, hu.params]
  · obtain ⟨hprior, hext⟩ := hu.fvals
    rw [callOracle, ← hprior, ← hext, ← hu.params, readRun_val]
    refine List.ext_getElem (by simp) fun k _ h2 => ?_
    have hk : k < 28 := by simpa using h2
    rw [List.getElem_map, List.getElem_map, List.getElem_range, Vector.getElem_toList]
    exact stepResult_fval (hu.inv hP) (by decide) hb hw hk

/-- R196, R221, R229: with one entry ABSENT the call ends in the error of the first one STEP reads. -/
theorem generateStepConstraints_missing (s : State) (n : Nat) (hp : prior.length = 28) (he : ext.length = 16)
    {pre post : List Nat} {i : Nat} (hreads : callReads = pre ++ i :: post)
    (hpre : ∀ j ∈ pre, callValue prior ext j ≠ none) (hi : callValue prior ext i = none) :
    ∃ t, generateStepConstraints s n prior ext = (t, .error (.engine t.status)) ∧ t.err = true ∧
      t.status = BitVec.ofNat 32 (0x00004F13 + i * 2 ^ 15) ∧ t.ctx.cons = [] ∧ t.ctx.nstep = 0 := by
  obtain ⟨u, hu⟩ := exists_callReady s hp he
  have hmem : i ∈ callReads := by simp [hreads]
  have hpre' : ∀ j ∈ pre.map (Fin.ofNat 128), u.f[j].val ≠ none := by
    intro _ hj
    obtain ⟨j, hjpre, rfl⟩ := List.mem_map.1 hj
    exact (hu.val_eq_none_iff (by simp [hreads, hjpre])).not.2 (hpre j hjpre)
  have hval : (Fin.ofNat 128 i).val = i := Nat.mod_eq_of_lt (by have := callReads_range i hmem; omega)
  have hstep := exec_step_missing (fs := 0) (fx := 32) (fd := 64) ⟨by decide, by decide, by decide, hu.nstep⟩
    (by rw [stepReads_call, hreads, List.map_append, List.map_cons]) hpre' ((hu.val_eq_none_iff hmem).2 hi)
  rw [hval] at hstep
  have herr := raise_err u 0x0F (.decomposition .dec .f i)
  have hcall := hu.generate hp he n hstep
  rw [if_pos herr] at hcall
  refine ⟨_, hcall, herr, ?_, ?_, ?_⟩
  · rw [raise_congr hu.err]
    exact statusWord_call i hmem
  · rw [raise_ctx, hu.cons]
  · rw [raise_ctx, hu.nstep]

end

/-- Settles O58: the lengths and the step index by definition, the two outcomes of the call by its STEP. -/
theorem hostCallRunsOneStep : Obligations.HostCallRunsOneStep := by
  refine ⟨fun s n prior ext h => if_neg h, fun s n n' prior ext => rfl, fun s n prior ext hP hp he hall => ?_,
    fun s n prior ext pre post i hp he hreads hpre hi => generateStepConstraints_missing s n hp he hreads hpre hi⟩
  obtain ⟨t, out, hcall, herr, _, hout⟩ := generateStepConstraints_ok hP hp he hall n
  exact ⟨t, out, hcall, herr, hout⟩

/-! ### Threading -/

/-- A CipherState image of 28 values that starts with these 12: key, nonce and counter. -/
def Carries (image : List (Option Nat)) (xs : List Nat) : Prop := image.length = 28 ∧ image.take 12 = xs.map some

section
variable {prior : List (Option Nat)} {xs : List Nat}

theorem Carries.callValue_eq (h : Carries prior xs) (ext : List (Option Nat)) {i : Nat} (hi : i < 12) :
    callValue prior ext i = xs[i]? := by
  have hget : prior[i]? = (xs.map some)[i]? := by rw [← h.2, List.getElem?_take_of_lt hi]
  rw [callValue, if_pos (by omega), hget, List.getElem?_map]
  cases xs[i]? <;> rfl

theorem Carries.length (h : Carries prior xs) : xs.length = 12 := by
  have := congrArg List.length h.2
  simp only [List.length_take, h.1, List.length_map] at this
  omega

/-- Everything STEP reads is there when the image carries its 12 values and the input is given. -/
theorem Carries.present (h : Carries prior xs) {e : List Nat} (he : e.length = 16) :
    ∀ j ∈ callReads, callValue prior (e.map some) j ≠ none := by
  intro j hj
  rcases callReads_range j hj with hj | ⟨hlo, hhi⟩
  · have := h.length
    rw [h.callValue_eq _ hj, List.getElem?_eq_getElem (by omega)]
    exact Option.some_ne_none _
  · rw [callValue_ext prior hlo (by simp; omega)]
    simp

end

/-- R192, R193: one step keeps key and nonce and counts one up. -/
theorem Carries.step {p : Nat} {prior ext : List (Option Nat)} {kn : List Nat} {c : Nat} (h : Carries prior (kn ++ [c]))
    (hkn : ∀ x ∈ kn, x < p) : Carries ((callOracle p prior ext).toList.map some) (kn ++ [(c + 1) % p]) := by
  have hlen : kn.length = 11 := by simpa using h.length
  refine ⟨by simp, List.ext_getElem (by simp [hlen]) fun i h1 _ => ?_⟩
  have hi : i < 12 := by simp at h1; omega
  simp only [List.getElem_take, List.getElem_map, Vector.getElem_toList, callOracle,
    nativeStep_get _ _ _ (show i < 28 by omega), Vector.getElem_ofFn, h.callValue_eq ext hi, h.callValue_eq ext (show 11 < 12 by decide)]
  by_cases hlt : i < 11
  · have hi' : i < kn.length := by omega
    simp [hlt, List.getElem?_append_left hi', hi', Nat.mod_eq_of_lt (hkn _ (List.getElem_mem hi'))]
  · obtain rfl : i = 11 := by omega
    simp [hlen]

/-- R200: threaded steps, from any image. -/
theorem threadSteps_carries {kn : List Nat} : ∀ (exts : List (List Nat)) (s : State) (prior : List (Option Nat)) (c : Nat),
    s.params.Valid → (∀ x ∈ kn, x < s.params.p) → c < s.params.p → (∀ e ∈ exts, e.length = 16) →
    Carries prior (kn ++ [c]) →
    ∃ t last, threadSteps s (exts.map fun e => e.map some) prior = (t, .ok last) ∧
      Carries last (kn ++ [(c + exts.length) % s.params.p])
  | [], s, prior, c, _, _, hc, _, h => ⟨s, prior, rfl, by simpa [Nat.mod_eq_of_lt hc] using h⟩
  | e :: exts, s, prior, c, hP, hkn, hc, he, h => by
    obtain ⟨t, out, hcall, _, hparams, hout⟩ := generateStepConstraints_ok hP h.1
      (by simpa using he e (by simp)) (h.present (he e (by simp))) 0
    obtain ⟨t', last, hthread, hlast⟩ := threadSteps_carries exts t (out.map FReg.val) ((c + 1) % s.params.p)
      (hparams ▸ hP) (hparams ▸ hkn) (by rw [hparams]; exact Nat.mod_lt _ (Nat.zero_lt_of_lt hc))
      (fun e' h' => he e' (List.mem_cons_of_mem _ h')) (by rw [hout]; exact h.step hkn)
    refine ⟨t', last, ?_, ?_⟩
    · rw [List.map_cons, threadSteps, hcall]
      exact hthread
    · rw [hparams, Nat.mod_add_mod, Nat.add_assoc, Nat.add_comm 1] at hlast
      exact hlast

/-- Settles O59: genesis carries key, nonce and counter, and every step keeps that form. -/
theorem threadedStepsCount : Obligations.ThreadedStepsCount := by
  intro s key nonce counter exts hP hkey hnonce hbelow hexts
  have hgenesis : Carries (genesis key nonce counter) ((key ++ nonce) ++ [counter]) := by
    refine ⟨by simp [genesis, hkey, hnonce], ?_⟩
    rw [genesis, List.map_append, List.take_left' (by simp [hkey, hnonce])]
  obtain ⟨t, last, hthread, hlen, htake⟩ := threadSteps_carries exts s _ counter hP
    (fun x hx => hbelow x (List.mem_append_left _ hx)) (hbelow counter (by simp)) hexts hgenesis
  refine ⟨t, last, hthread, hlen, ?_, ?_⟩
  · have h11 : last.take 11 = (last.take 12).take 11 := by rw [List.take_take]; rfl
    rw [h11, htake, List.map_append, List.take_left' (by simp [hkey, hnonce])]
  · have h11 : last[11]? = (last.take 12)[11]? := (List.getElem?_take_of_lt (by decide)).symm
    rw [h11, htake]
    simp [hkey, hnonce]

end Sys2Proof.Machine

/-! Completeness and the booleanity of words (R210, R211): every host operation keeps both, so every step does, and a run
from H_OPEN without ABSENT writes ends in a context that its own values satisfy. -/

namespace Sys2Proof.Machine

section
variable {s t : State} {op : HostOp} {i : Instr}

/-! ### The context is satisfied by its own values -/

theorem exec_complete (h : s.Inv) (hc : s.ctx.Complete s.params.p) (he : exec i s = .next t) :
    t.ctx.Complete t.params.p := by
  rcases exec_cases h i he with ⟨e, rfl⟩ | hp
  · rwa [raise_ctx, raise_params]
  · rw [hp.params]
    exact hp.complete hc

theorem OpResult.complete (hr : OpResult s op t) (h : s.Inv) (hc : s.ctx.Complete s.params.p) :
    t.ctx.Complete t.params.p := by
  cases hr with
  | opened => exact fresh_complete s.params s.pending s.replies
  | ignoredWrite | ignoredIssue | replied => exact hc
  | bound i => exact (bound_grows h i _).complete hc
  | illegal => rwa [raise_ctx, raise_params]
  | executed _ _ hx => exact exec_complete h hc hx

/-! ### Words are boolean under every satisfying assignment -/

/-- R211: what satisfies a grown context satisfies, cut short, the one before, so it makes the words before boolean. -/
theorem State.WordsBoolean.zBoolAll (hb : s.WordsBoolean) (h : s.Inv) {c : Ctx} (he : s.ctx.Extends c) {z : List Nat}
    (hz : Satisfies s.params.p z c) : s.ZBoolAll z :=
  fun j w hw => zbool_take (h.words j w hw) (hb _ (satisfies_take h.ctx he hz) j w hw)

/-- The registers and the context alone decide which words are boolean. -/
theorem wordsBoolean_congr (hb : s.WordsBoolean) (hparams : t.params = s.params) (hr : t.r = s.r) (hctx : t.ctx = s.ctx) :
    t.WordsBoolean := by
  unfold State.WordsBoolean
  rw [hparams, hr, hctx]
  exact hb

theorem raise_wordsBoolean (hb : s.WordsBoolean) (op : BitVec 6) (e : Err) : (s.raise op e).WordsBoolean :=
  wordsBoolean_congr hb (raise_params s op e) (raise_r s op e) (raise_ctx s op e)

theorem Progress.wordsBoolean (hp : Progress s t) (h : s.Inv) (hb : s.WordsBoolean) : t.WordsBoolean := by
  intro z hz
  rw [hp.params] at hz
  exact hp.zwords z hz.sat (hb.zBoolAll h hp.ext hz)

theorem exec_wordsBoolean (h : s.Inv) (hb : s.WordsBoolean) (he : exec i s = .next t) : t.WordsBoolean := by
  rcases exec_cases h i he with ⟨e, rfl⟩ | hp
  · exact raise_wordsBoolean hb i.opcode e
  · exact hp.wordsBoolean h hb

theorem OpResult.wordsBoolean (hr : OpResult s op t) (h : s.Inv) (hb : s.WordsBoolean) : t.WordsBoolean := by
  cases hr with
  | opened => exact fun z _ j w hw => by simp at hw
  | ignoredWrite | ignoredIssue => exact hb
  | replied => exact wordsBoolean_congr hb rfl rfl rfl
  | bound i => exact fun z hz => hb.zBoolAll h (bound_ext s i _) hz
  | illegal => exact raise_wordsBoolean hb _ _
  | executed _ _ hx => exact exec_wordsBoolean h hb hx

/-! ### A run without ABSENT writes -/

/-- R30: what a run without ABSENT writes keeps: the honest assignment is defined and satisfies the context. -/
structure State.Honest (s : State) : Prop where
  inv : s.Inv
  complete : s.ctx.Complete s.params.p
  present : s.ctx.Present

theorem fresh_honest {P : Params} (hP : P.Valid) (ops : List HostOp) (rs : List Reply) : (State.fresh P ops rs).Honest :=
  ⟨fresh_inv hP ops rs, fresh_complete P ops rs, by simp [Ctx.Present, State.fresh, Ctx.fresh]⟩

theorem exec_present (hp : s.ctx.Present) (he : exec i s = .next t) : t.ctx.Present := by
  rcases exec_frame i he with ⟨e, rfl⟩ | hf
  · rwa [raise_ctx]
  · exact hf.present hp

theorem OpResult.present (hr : OpResult s op t) (hp : s.ctx.Present) (hw : ∀ i, op ≠ .writeF i none) : t.ctx.Present := by
  cases hr with
  | opened => simp [Ctx.Present, Ctx.fresh]
  | ignoredWrite | ignoredIssue | replied => exact hp
  | @bound i v =>
    cases v with
    | none => exact absurd rfl (hw _)
    | some n => simpa [Ctx.Present] using hp
  | illegal => rwa [raise_ctx]
  | executed _ _ hx => exact exec_present hp hx

theorem OpResult.honest (hr : OpResult s op t) (h : s.Honest) (hw : ∀ i, op ≠ .writeF i none) : t.Honest :=
  ⟨hr.inv h.inv, hr.complete h.inv h.complete, hr.present h.present hw⟩

end

/-- Operations one after another keep what each of them keeps. -/
theorem runOps_keeps {I : State → Prop} : ∀ {ops : List HostOp} {s t : State},
    (∀ op ∈ ops, ∀ {u v : State}, I u → hostOp op u = .next v → I v) → I s → runOps ops s = .next t → I t
  | [], _, _, _, hs, h => by cases h; exact hs
  | op :: ops, s, t, hkeep, hs, h => by
    rw [runOps] at h
    cases e : hostOp op s with
    | next u =>
      rw [e] at h
      exact runOps_keeps (fun op' hop' => hkeep op' (List.mem_cons_of_mem _ hop')) (hkeep op List.mem_cons_self hs e) h
    | fault r => rw [e] at h; cases h
    | refused r => rw [e] at h; cases h

/-- R30: without ABSENT the honest assignment is defined, and is the context's own values. -/
theorem honestAssignment_of_present {c : Ctx} (hp : c.Present) :
    c.honestAssignment = some c.honestValues ∧ c.honestValues.map some = c.assign := by
  have hsome : ∀ v ∈ c.assign, v ≠ none := fun v hv e => hp (e ▸ hv)
  refine ⟨if_pos (List.all_eq_true.2 fun v hv => Option.isSome_iff_ne_none.2 (hsome v hv)), ?_⟩
  rw [Ctx.honestValues, List.map_map]
  exact (List.map_congr_left fun v hv => Option.getD_of_ne_none (hsome v hv) 0).trans (List.map_id _)

theorem State.Honest.satisfies {s : State} (h : s.Honest) : Satisfies s.params.p s.ctx.honestValues s.ctx :=
  honest_satisfies h.inv.ctx (Nat.zero_lt_of_lt h.inv.one_lt) h.complete h.present

/-! ### The obligations -/

/-- Settles O44: a step waits, or it is the host's next operation, which keeps completeness. -/
theorem stepKeepsCompleteness : Obligations.StepKeepsCompleteness := by
  intro s t h hc hs
  rcases step_cases hs with ⟨_, rfl⟩ | ⟨op, ops, _, hr⟩
  · exact hc
  · exact hr.complete (h.withPending ops) hc

/-- Settles O46: a step waits, or it is the host's next operation, whose new words are boolean as the old ones are. -/
theorem stepKeepsWordsBoolean : Obligations.StepKeepsWordsBoolean := by
  intro s t h hb hs
  rcases step_cases hs with ⟨_, rfl⟩ | ⟨op, ops, _, hr⟩
  · exact hb
  · exact hr.wordsBoolean (h.withPending ops) (wordsBoolean_congr hb rfl rfl rfl)

/-- Settles O45: a fresh context is honest, and every operation of the run keeps it so. -/
theorem honestAssignmentSatisfies : Obligations.HonestAssignmentSatisfies := by
  intro P ops t hP hops hrun
  have hkeep : ∀ op ∈ ops, ∀ {u v : State}, u.Honest ∧ u.params = P → hostOp op u = .next v → v.Honest ∧ v.params = P := by
    intro op hop u v hu huv
    have hr := hostOp_cases huv
    exact ⟨hr.honest hu.1 fun i e => hops i (e ▸ hop), hr.params.trans hu.2⟩
  obtain ⟨ht, rfl⟩ := runOps_keeps (I := fun u => u.Honest ∧ u.params = P) hkeep ⟨fresh_honest hP [] [], rfl⟩ hrun
  obtain ⟨hdefined, hmap⟩ := honestAssignment_of_present ht.present
  exact ⟨_, hdefined, hmap, ht.satisfies⟩

end Sys2Proof.Machine

/-! What a satisfying assignment proves of the word and round commands (R211): each gadget's soundness, read from the
registers its command writes. -/

namespace Sys2Proof.Machine

/-! ### The z-value of a boolean word -/

section
variable {z : List Nat} {w : Word32}

theorem ZBool.zWord_lt (h : ZBool z w) : zWord z w < 2 ^ 32 := by
  rw [zWord, zWord_eq h]
  simpa using bitsVal_lt (w.toList.map (zbit z))

theorem ZBool.toNat_low32 (h : ZBool z w) : (low32 (zWord z w)).toNat = zWord z w := by
  rw [low32, BitVec.toNat_ofNat, Nat.mod_eq_of_lt h.zWord_lt]

theorem ZHolds.zWord_eq {v : Word} (h : ZHolds z w v) : zWord z w = v.toNat := by
  rw [← h.2, h.1.toNat_low32]

end

theorem word_setR (s : State) (j : RIdx) (w : Word32) : (s.setR j w).word j = w := word_of set_same

/-! ### ADD, XOR and ROTL -/

/-- Settles O48: the gadgets' soundness, with the operands' own z-values. -/
theorem wordGadgetsAreSound : Obligations.WordGadgetsAreSound := by
  intro s rd a b n h ha hb
  obtain ⟨_, _, hadd⟩ := add32_spec h.one_lt h.ctx (h.holds ha).1 (h.holds hb).1
  obtain ⟨_, _, hxor⟩ := xor32_spec h.one_lt h.ctx (h.holds ha).1 (h.holds hb).1
  obtain ⟨_, hrot⟩ := rot_spec (h.holds ha).1 n
  refine ⟨⟨_, exec_add rd ha hb, fun z hz za zb => ?_⟩, ⟨_, exec_xor rd ha hb, fun z hz za zb => ?_⟩,
    _, exec_rotl rd n ha, fun z _ za => ?_⟩
  · have hsum := hadd z hz.sat _ _ (zholds_self za) (zholds_self zb)
    rw [word_setR, hsum.zWord_eq, BitVec.toNat_add, za.toNat_low32, zb.toNat_low32]
    exact ⟨hsum.1, rfl⟩
  · have hx := hxor z hz.sat _ _ (zholds_self za) (zholds_self zb)
    rw [word_setR, hx.zWord_eq, BitVec.toNat_xor, za.toNat_low32, zb.toNat_low32]
    exact ⟨hx.1, rfl⟩
  · have hr := hrot z _ (zholds_self za)
    rw [word_setR, hr.zWord_eq, wordRotl_toNat, za.toNat_low32]
    exact ⟨hr.1, rfl⟩

/-! ### QR -/

theorem forall_mem_four {α : Type} {P : α → Prop} {a b c d : α} :
    (∀ j ∈ [a, b, c, d], P j) ↔ P a ∧ P b ∧ P c ∧ P d := by simp

theorem ZHoldsQ.quad_eq {z : List Nat} {w : Quad Word32} {v : Quad Word} (h : ZHoldsQ z w v) :
    (⟨low32 (zWord z w.a), low32 (zWord z w.b), low32 (zWord z w.c), low32 (zWord z w.d)⟩ : Quad Word) = v := by
  obtain ⟨⟨_, ea⟩, ⟨_, eb⟩, ⟨_, ec⟩, ⟨_, ed⟩⟩ := h
  rw [ea, eb, ec, ed]

/-- R211: QR on four distinct written registers. -/
theorem exec_qr_sound {s : State} (h : s.Inv) {a b c d : RIdx} (hq : distinct4 a b c d = true)
    (hw : ∀ j ∈ [a, b, c, d], s.r[j] ≠ .unwritten) :
    ∃ t, exec (.qr a b c d) s = .next t ∧ ∀ z, Satisfies s.params.p z t.ctx → (∀ j ∈ [a, b, c, d], ZBool z (s.word j)) →
      ZHoldsQ z ⟨t.word a, t.word b, t.word c, t.word d⟩ (wordQr ⟨low32 (zWord z (s.word a)), low32 (zWord z (s.word b)),
        low32 (zWord z (s.word c)), low32 (zWord z (s.word d))⟩) := by
  obtain ⟨wa, wb, wc, wd⟩ := forall_mem_four.1 hw
  obtain ⟨_, _, hsound⟩ := qrGadget_spec h.one_lt (w := ⟨s.word a, s.word b, s.word c, s.word d⟩) (v := ⟨_, _, _, _⟩) h.ctx
    ⟨(h.holds wa).1, (h.holds wb).1, (h.holds wc).1, (h.holds wd).1⟩
  obtain ⟨ra, rb, rc, rd, _⟩ :=
    qr_registers s hq (qrGadget s.params.p ⟨s.word a, s.word b, s.word c, s.word d⟩ s.ctx)
  refine ⟨_, exec_qr hq wa wb wc wd, fun z hz hb => ?_⟩
  obtain ⟨za, zb, zc, zd⟩ := forall_mem_four.1 hb
  rw [word_of ra, word_of rb, word_of rc, word_of rd]
  exact hsound z hz.sat _ ⟨zholds_self za, zholds_self zb, zholds_self zc, zholds_self zd⟩

/-! ### DROUND, PERM and COMBINE -/

section
variable {s : State} {z : List Nat}

theorem zholdsV_words16 {base : Nat} (hb : ∀ i < 16, ZBool z (s.word (wordIdx base i))) :
    ZHoldsV z (s.words16 base) (zVals16 z (s.words16 base)) := by
  intro i hi
  have hword : (s.words16 base)[i] = s.word (wordIdx base i) := words16_get s base ⟨i, hi⟩
  rw [zVals16, Vector.getElem_map, hword]
  exact zholds_self (hb i hi)

/-- R211: what an assignment makes of the working state, from what it makes of the words written there. -/
theorem working_zvals {w : Vector Word32 16} {c : Ctx} {v : Vector Word 16} (hw : ZHoldsV z w v) :
    (∀ i < 16, ZBool z ((s.working w c).word (wordIdx 0 i))) ∧ zVals16 z ((s.working w c).words16 0) = v := by
  refine ⟨fun i hi => ?_, ?_⟩
  · rw [word_of (working_get s w c hi)]
    exact (hw i hi).1
  · rw [(working_run s w c).2]
    exact hw.map_eq

/-- R211: a command that runs a gadget on the working state computes the gadget's function on its z-values. -/
theorem computes_sound (h : s.Inv) (hw : s.Written16 0) {g : Vector Word32 16 → Ctx → Vector Word32 16 × Ctx}
    {f : Vector Word 16 → Vector Word 16} (hg : Computes s.params.p g f) :
    let t := s.working (g (s.words16 0) s.ctx).1 (g (s.words16 0) s.ctx).2
    ∀ z, Satisfies s.params.p z t.ctx → (∀ i < 16, ZBool z (s.word (wordIdx 0 i))) →
      (∀ i < 16, ZBool z (t.word (wordIdx 0 i))) ∧ zVals16 z (t.words16 0) = f (zVals16 z (s.words16 0)) := by
  intro t z hz hb
  obtain ⟨_, _, hsound⟩ := hg.spec h.ctx (h.holdsV hw)
  rw [working_ctx] at hz
  exact working_zvals (hsound z hz.sat _ (zholdsV_words16 hb))

/-- R211: COMBINE adds the z-values of the original and the working state. -/
theorem combine_sound (h : s.Inv) (h0 : s.Written16 0) (h16 : s.Written16 16) :
    let q := combineGadget s.params.p (s.words16 16) (s.words16 0) s.ctx
    let t := s.working q.1 q.2
    ∀ z, Satisfies s.params.p z t.ctx → (∀ i < 16, ZBool z (s.word (wordIdx 0 i)) ∧ ZBool z (s.word (wordIdx 16 i))) →
      (∀ i < 16, ZBool z (t.word (wordIdx 0 i))) ∧
        zVals16 z (t.words16 0) = wordCombine (zVals16 z (s.words16 16)) (zVals16 z (s.words16 0)) := by
  intro q t z hz hb
  obtain ⟨_, _, hsound⟩ := combine_spec h.one_lt h.ctx (h.holdsV h16) (h.holdsV h0)
  rw [working_ctx] at hz
  exact working_zvals (hsound z hz.sat _ _ (zholdsV_words16 fun i hi => (hb i hi).2) (zholdsV_words16 fun i hi => (hb i hi).1))

end

/-- Settles O49: each command writes its gadget's words, of which the gadget's soundness speaks. -/
theorem roundGadgetsAreSound : Obligations.RoundGadgetsAreSound := by
  refine fun s h => ⟨fun a b c d hq hw => ?_, fun h0 => ⟨⟨_, exec_dround h0, computes_sound h h0 (dround_computes h.one_lt)⟩,
    ⟨_, exec_perm h0, computes_sound h h0 (perm_computes h.one_lt)⟩, fun h16 => ⟨_, exec_combine h0 h16, combine_sound h h0 h16⟩⟩⟩
  obtain ⟨t, hexec, hsound⟩ := exec_qr_sound h hq hw
  refine ⟨t, hexec, fun z hz hb => ?_⟩
  have hquad := hsound z hz hb
  refine ⟨forall_mem_four.2 ?_, hquad.quad_eq⟩
  obtain ⟨za, zb, zc, zd⟩ := hquad
  exact ⟨za.1, zb.1, zc.1, zd.1⟩

end Sys2Proof.Machine

/-! What a satisfying assignment proves of a decomposition (R212 to R214) and, through the decompositions, of STEP (R215). -/

namespace Sys2Proof.Machine

/-! ### The readings of a decomposition -/

/-- R212, R213: M is an integer that the m bits of a decomposition of x can stand for: x, or x + p, where the canonical
check is off and x + p still has m bits. -/
def ReadsAs (P : Params) (x M : Nat) : Prop :=
  M = x ∨ (P.canonical = false ∧ x < 2 ^ P.m - P.p ∧ M = x + P.p)

/-- R213: with DECOMP_CANONICAL = 1 there is one reading. -/
theorem ReadsAs.eq {P : Params} {x M : Nat} (h : ReadsAs P x M) (hc : P.canonical = true) : M = x := by
  rcases h with h | ⟨hf, _⟩
  · exact h
  · rw [hc] at hf
    cases hf

/-- Without the side condition on DECOMP_CANONICAL. -/
theorem ReadsAs.weaken {P : Params} {x M : Nat} (h : ReadsAs P x M) : M = x ∨ (x < 2 ^ P.m - P.p ∧ M = x + P.p) :=
  h.imp_right fun h => h.2

/-- R9: m bits reach at most to 2p. -/
theorem two_pow_m_le {P : Params} (hP : P.Valid) : 2 ^ P.m ≤ 2 * P.p := by
  have hm := Params.Valid.m_ge hP
  have hlt := two_pow_lt hP (show P.m - 1 < P.m by omega)
  calc 2 ^ P.m = 2 * 2 ^ (P.m - 1) := by rw [← pow_succ', Nat.sub_add_cancel (by omega)]
    _ ≤ 2 * P.p := by omega

/-- R212: an m-bit integer congruent to a register reads it: it is below 2p, so at most one p is to be taken off. -/
theorem ZDec.reads {P : Params} (hP : P.Valid) {z : List Nat} {L : LC} {v : Word} (h : ZDec P z L v) :
    ∃ M, ReadsAs P (LC.eval P.p z L) M ∧ v = low32 M := by
  obtain ⟨M, hM, hcong, hv, hcanonical⟩ := h
  have hpos : 0 < P.p := hP.prime.pos
  have heval : LC.eval P.p z L = M % P.p :=
    natCast_inj_of_lt (LC.eval_lt hpos z L) (Nat.mod_lt _ hpos) (by rw [LC.eval_cast, ZMod.natCast_mod, hcong])
  refine ⟨M, ?_, hv⟩
  rcases Nat.lt_or_ge M P.p with hlt | hge
  · exact .inl (by rw [heval, Nat.mod_eq_of_lt hlt])
  · have hle := two_pow_m_le hP
    have hmod : M % P.p = M - P.p := by rw [Nat.mod_eq_sub_mod hge, Nat.mod_eq_of_lt (by omega)]
    refine .inr ⟨?_, by omega, by omega⟩
    exact Bool.eq_false_iff.2 fun hc => Nat.not_lt.2 hge (hcanonical hc)

/-- Settles O50: the word is the low 32 bits of a reading of the register. -/
theorem decompositionRelation : Obligations.DecompositionRelation := by
  intro s rd fs h hv
  obtain ⟨N, hN⟩ := Option.ne_none_iff_exists'.1 hv
  obtain ⟨w, c, e, _, _, _, _, hsound⟩ := decompose_of_value h hN
  refine ⟨_, exec_dec rd e, fun z hz => ?_⟩
  obtain ⟨v, hdec, hword⟩ := hsound z hz.sat
  obtain ⟨M, hM, rfl⟩ := hdec.reads h.params
  rw [word_setR, hword.zWord_eq, low32, BitVec.toNat_ofNat]
  refine ⟨hword.1, ?_⟩
  rcases hM with rfl | ⟨hc, hlt, rfl⟩
  · exact .inl rfl
  · exact .inr ⟨hc, hlt, rfl⟩

/-! ### The second witness -/

/-- The honest values of a context, and after them the m bits of an integer M (R213). -/
def Ctx.withBits (c : Ctx) (m M : Nat) : List Nat := c.honestValues ++ (List.range m).map fun k => M / 2 ^ k % 2

section
variable {c : Ctx} {p m M : Nat}

theorem withBits_length : (c.withBits m M).length = c.nvars + m := by
  simp [Ctx.withBits, Ctx.honestValues, Ctx.nvars]

theorem withBits_take : (c.withBits m M).take c.nvars = c.honestValues :=
  List.take_left' (by simp [Ctx.honestValues, Ctx.nvars])

theorem withBits_old {k : Nat} (hk : k < c.nvars) : (c.withBits m M).getD k 0 = c.value k := by
  rw [← honestValues_getD, ← withBits_take (m := m) (M := M), getD_take hk]

theorem withBits_new {k : Nat} (hk : k < m) : (c.withBits m M).getD (c.nvars + k) 0 = M / 2 ^ k % 2 := by
  have hn : c.nvars = c.honestValues.length := by simp [Ctx.honestValues, Ctx.nvars]
  rw [Ctx.withBits, hn, List.getD_append_right _ _ _ _ (Nat.le_add_right _ _), Nat.add_sub_cancel_left]
  simp [List.getD_eq_getElem?_getD, hk]

/-- A linear combination over the old variables has its old value. -/
theorem withBits_eval {L : LC} (hL : LC.Within p c.nvars L) :
    LC.eval p (c.withBits m M) L = LC.eval p c.honestValues L := by
  rw [← eval_take hL.2, withBits_take]

/-- R101: a booleanity row holds of a variable with value 0 or 1. -/
theorem bitRow_holds (hp : 0 < p) {z : List Nat} (h0 : z.getD 0 0 = 1) {x : Nat}
    (hx : z.getD x 0 = 0 ∨ z.getD x 0 = 1) : (bitRow p x).holds p z = true := by
  rw [Constraint.holds_iff hp]
  simp only [bitRow, LC.ev_cons, LC.ev_nil, zfun, h0, Nat.cast_pred hp, ZMod.natCast_self]
  rcases hx with h | h <;> rw [h] <;> push_cast <;> ring

/-- R101: the weighted sum of the bits of M is M, as far as they go. -/
theorem ev_sumRow {f : Nat → ZMod p} {n : Nat} (L : LC) : ∀ {m : Nat},
    (∀ k < m, f (n + k) = ((M / 2 ^ k % 2 : Nat) : ZMod p)) → LC.ev f (sumRow m n L).a = ((M % 2 ^ m : Nat) : ZMod p)
  | 0, _ => by simp [sumRow, Nat.mod_one]
  | m + 1, hf => by
    have ih := ev_sumRow L fun k hk => hf k (Nat.lt_succ_of_lt hk)
    simp only [sumRow] at ih ⊢
    rw [List.range_succ, List.map_append, LC.ev_append, ih, List.map_singleton, LC.ev_cons, LC.ev_nil,
      hf m (Nat.lt_succ_self m), Nat.mod_pow_succ]
    push_cast
    ring

end

/-- R213: in a complete context without ABSENT, the bits of any m-bit integer congruent to the register satisfy what DEC
appends, as long as the canonical check is off. -/
theorem withBits_satisfies {P : Params} (hP : P.Valid) {c c' : Ctx} (h : c.Ok P.p) (hc : c.Complete P.p)
    (hpresent : c.Present) {L : LC} (hL : LC.Within P.p c.nvars L) {M : Nat} (hnvars : c'.nvars = c.nvars + P.m)
    (hcons : c'.cons = c.cons ++ (List.range P.m).map (fun k => bitRow P.p (c.nvars + k)) ++ [sumRow P.m c.nvars L])
    (hM : M < 2 ^ P.m) (hcong : (M : ZMod P.p) = (LC.eval P.p c.honestValues L : ZMod P.p)) :
    Satisfies P.p (c.withBits P.m M) c' := by
  have hp := Params.Valid.one_lt hP
  have hold := honest_satisfies h (by omega) hc hpresent
  have hone : (c.withBits P.m M).getD 0 0 = 1 := by
    rw [withBits_old (Ctx.Ok.length_pos h), ← honestValues_getD, hold.one]
  refine ⟨withBits_length.trans hnvars.symm, hone, fun x hx => ?_, fun q hq => ?_⟩
  · rcases List.mem_append.1 hx with hx | hx
    · exact hold.below x hx
    · obtain ⟨k, _, rfl⟩ := List.mem_map.1 hx
      omega
  · rw [hcons, List.mem_append, List.mem_append] at hq
    rcases hq with (hq | hq) | hq
    · obtain ⟨ha, hb, hc'⟩ := h.within q hq
      rw [Constraint.holds, withBits_eval ha, withBits_eval hb, withBits_eval hc']
      exact hold.holds q hq
    · obtain ⟨k, hk, rfl⟩ := List.mem_map.1 hq
      refine bitRow_holds (by omega) hone ?_
      rw [withBits_new (List.mem_range.1 hk)]
      omega
    · have hrhs : LC.ev (zfun P.p (c.withBits P.m M)) (sumRow P.m c.nvars L).b = 1 := by
        rw [show (sumRow P.m c.nvars L).b = LC.one from rfl, LC.ev_one, zfun, hone, Nat.cast_one]
      rw [List.mem_singleton.1 hq, Constraint.holds_iff (by omega), hrhs, mul_one,
        ev_sumRow (M := M) L fun k hk => by rw [zfun, withBits_new hk], Nat.mod_eq_of_lt hM, hcong,
        ← withBits_eval (m := P.m) (M := M) hL, LC.eval_cast]
      rfl

/-- The word of a decomposition under the bits of M. -/
theorem withBits_zholds {c : Ctx} {m M : Nat} (hm : 32 ≤ m) :
    ZHolds (c.withBits m M) (Vector.ofFn fun k : Fin 32 => .var (c.nvars + k.val)) (low32 M) := by
  have hval : ∀ k < 32, (c.withBits m M).getD (c.nvars + k) 0 = M / 2 ^ k % 2 := fun k hk => withBits_new (by omega)
  have hbool : ZBool (c.withBits m M) (Vector.ofFn fun k : Fin 32 => .var (c.nvars + k.val)) := by
    intro x hx
    obtain ⟨k, hk, rfl⟩ := mem_word.1 hx
    rw [Vector.getElem_ofFn, Signal.value, hval k hk]
    omega
  refine ⟨hbool, BitVec.eq_of_getLsbD_eq fun k hk => ?_⟩
  rw [zval_getLsbD hbool k hk, Vector.getElem_ofFn, zbit, Signal.value, hval k hk, low32, BitVec.getLsbD_ofNat,
    Nat.testBit_eq_decide_div_mod_eq]
  simp [hk, beq_eq_decide]

/-- R214: p is odd, so adding it changes the low 32 bits. -/
theorem add_p_mod_ne {P : Params} (hP : P.Valid) (N : Nat) : (N + P.p) % 2 ^ 32 ≠ N % 2 ^ 32 := by
  have hlarge := hP.large
  have hodd := hP.prime.eq_two_or_odd
  omega

/-- Settles O51: the honest values, with the bits of N + p in place of the bits of N. -/
theorem nonCanonicalWitnessExists : Obligations.NonCanonicalWitnessExists := by
  intro s rd fs N h hcomplete hpresent hcanonical hv hN
  obtain ⟨t, hexec, _, _, hword, _, _, vs, qs, hassign, hcons, hnone⟩ := decTakesLow32 s rd fs N h hv
  obtain ⟨rfl, rfl⟩ := hnone hcanonical
  rw [List.append_nil] at hassign hcons
  have hnvars : t.ctx.nvars = s.ctx.nvars + s.params.m := by simp [Ctx.nvars, hassign]
  obtain ⟨L, hL⟩ := fval_written hv
  have hfield := h.fields fs
  rw [hL] at hfield
  obtain ⟨hwithin, hhonest⟩ := fieldOk_written.1 hfield
  have heval : LC.eval s.params.p s.ctx.honestValues L = N := honest_eq_eval h.params.prime.pos hhonest.symm
  have hlc : s.f[fs].lc = L := by rw [hL]; rfl
  rw [hlc] at hcons ⊢
  have hwit : ZHolds (s.ctx.withBits s.params.m (N + s.params.p)) (t.word rd) (low32 (N + s.params.p)) := by
    rw [word_of hword]
    exact withBits_zholds (by have := Params.Valid.m_ge h.params; omega)
  have hz : zWord (s.ctx.withBits s.params.m (N + s.params.p)) (t.word rd) = (N + s.params.p) % 2 ^ 32 := by
    rw [hwit.zWord_eq, low32, BitVec.toNat_ofNat]
  refine ⟨t, _, hexec, withBits_satisfies h.params h.ctx hcomplete hpresent hwithin hnvars hcons (by omega) ?_,
    fun k hk => ?_, ?_, hz, ?_⟩
  · rw [heval]
    simp
  · rw [withBits_old hk]
    obtain ⟨v, hk'⟩ : ∃ v, s.ctx.assign[k]? = some v := ⟨_, List.getElem?_eq_getElem hk⟩
    cases v with
    | none => exact absurd (List.mem_of_getElem? hk') hpresent
    | some x => simp [Ctx.value, hk']
  · rw [withBits_eval hwithin, heval]
  · rw [hz]
    exact add_p_mod_ne h.params N

/-! ### STEP under a satisfying assignment -/

theorem zFields_get {p : Nat} {z : List Nat} (f : Vector FReg 128) (base : FIdx) {n k : Nat} (hk : k < n) :
    (zFields p z f base n)[k] = LC.eval p z f[runIdx base k].lc := by
  simp [zFields]

/-- A relation along a list without repetitions is that of a function. -/
theorem exists_fun_of_forall₂ {α β : Type} [DecidableEq α] [Inhabited β] {R : α → β → Prop} : ∀ {as : List α} {bs : List β},
    as.Nodup → List.Forall₂ R as bs → ∃ f : α → β, bs = as.map f ∧ ∀ a ∈ as, R a (f a)
  | [], _, _, .nil => ⟨fun _ => default, rfl, nofun⟩
  | a :: as, b :: bs, hd, .cons hab h => by
    obtain ⟨hnot, hd'⟩ := List.nodup_cons.1 hd
    obtain ⟨f, hf, hR⟩ := exists_fun_of_forall₂ hd' h
    have hother : ∀ x ∈ as, Function.update f a b x = f x := fun x hx =>
      Function.update_of_ne (fun e : x = a => hnot (e ▸ hx)) b f
    refine ⟨Function.update f a b, ?_, fun x hx => ?_⟩
    · rw [List.map_cons, Function.update_self, List.map_congr_left hother, ← hf]
    · rcases List.mem_cons.1 hx with rfl | hx
      · rwa [Function.update_self]
      · rw [hother x hx]
        exact hR x hx

/-- R162, R229: the places of a CipherState that a block reads, in order. -/
def readPlaces : List (Fin 28) := [0, 1, 2, 3, 4, 5, 6, 7, 11, 8, 9, 10]

theorem layoutReads_eq (fs : FIdx) : layoutReads fs = readPlaces.map fun k => runIdx fs k.val := rfl

section
variable {P : Params} (hP : P.Valid) {z : List Nat} {f : Vector FReg 128}
include hP

/-- R215: the words a block's decompositions may give are those of a CipherState image read from the registers. -/
theorem exists_state_of_reads {fs : FIdx} {vs : List Word}
    (h : List.Forall₂ (fun (i : FIdx) v => ZDec P z f[i].lc v) (layoutReads fs) vs) :
    ∃ st : Vector Nat 28, (∀ (k : Nat) (hk : k < 28), ReadsAs P (zFields P.p z f fs 28)[k] st[k]) ∧
      blockOf vs = oracleKeystream st := by
  rw [layoutReads_eq, List.forall₂_map_left_iff] at h
  obtain ⟨g, rfl, hg⟩ := exists_fun_of_forall₂ (by decide) h
  have hread : ∀ k : Fin 28, ∃ M, ReadsAs P (zFields P.p z f fs 28)[k] M ∧ (k ∈ readPlaces → g k = low32 M) := by
    intro k
    by_cases hk : k ∈ readPlaces
    · obtain ⟨M, hM, hlow⟩ := (hg k hk).reads hP
      rw [← zFields_get f fs k.isLt] at hM
      exact ⟨M, hM, fun _ => hlow⟩
    · exact ⟨_, .inl rfl, fun h => absurd h hk⟩
  choose M hM hlow using hread
  refine ⟨Vector.ofFn M, fun k hk => ?_, ?_⟩
  · rw [Vector.getElem_ofFn]
    exact hM ⟨k, hk⟩
  · rw [← blockOf_oracle]
    refine congrArg blockOf (List.map_congr_left fun k hk => ?_)
    simpa using hlow k hk

/-- R215: the words of the input's decompositions are those of an ExternalInput image read from the registers. -/
theorem exists_input_of_reads {fx : FIdx} {us : Vector Word 16}
    (h : ∀ (i : Nat) (hi : i < 16), ZDec P z f[runIdx fx i].lc us[i]) :
    ∃ ext : Vector Nat 16, ∀ (i : Nat) (hi : i < 16),
      ReadsAs P (zFields P.p z f fx 16)[i] ext[i] ∧ us[i] = low32 ext[i] := by
  choose M hM using fun i : Fin 16 => (h i.val i.isLt).reads hP
  refine ⟨Vector.ofFn M, fun i hi => ?_⟩
  rw [zFields_get f fx hi, Vector.getElem_ofFn]
  exact hM ⟨i, hi⟩

end

/-- R215: under an assignment that satisfies the context after a STEP, the outputs are those of the native oracle for some
reading of the inputs; key, nonce and counter are the registers' own. -/
theorem exec_step_sound {s t : State} {fs fx fd : FIdx} {z : List Nat} (h : s.Inv) (he : s.err = false)
    (hx : exec (.step fs fx fd) s = .next t) (hst : t.status = s.status) (hz : Satisfies s.params.p z t.ctx) :
    ∃ (st : Vector Nat 28) (ext : Vector Nat 16),
      (∀ (k : Nat) (hk : k < 28), ReadsAs s.params (zFields s.params.p z s.f fs 28)[k] st[k]) ∧
      (∀ (i : Nat) (hi : i < 16), ReadsAs s.params (zFields s.params.p z s.f fx 16)[i] ext[i]) ∧
      ∀ (k : Nat) (hk : k < 28), (zFields s.params.p z t.f fd 28)[k] =
        if k < 11 then (zFields s.params.p z s.f fs 28)[k]
        else if k = 11 then ((zFields s.params.p z s.f fs 28)[11] + 1) % s.params.p
        else (low32 (ext[(k - 12) % 16]'(Nat.mod_lt _ (by decide))) ^^^
          (oracleKeystream st)[(k - 12) % 16]'(Nat.mod_lt _ (by decide))).toNat := by
  obtain ⟨⟨_, _, hfd, _⟩, b, ws, c, hb, hw, rfl⟩ := exec_step_inv he hx hst
  obtain ⟨hgrows, hreads, _, _, _, hcipher, hsound⟩ := step_spec h hb hw
  have hsat : Sat s.params.p z c := by
    rw [stepResult_ctx] at hz
    exact ⟨hz.one, hz.below, hz.holds⟩
  obtain ⟨vs, us, hvs, hus, _, _, hwords⟩ := hsound z hsat
  obtain ⟨st, hstate, hkeystream⟩ := exists_state_of_reads h.params hvs
  obtain ⟨ext, hinput⟩ := exists_input_of_reads h.params hus
  refine ⟨st, ext, hstate, fun i hi => (hinput i hi).1, fun k hk => ?_⟩
  rw [zFields_get _ fd hk, (stepResult_fields s fs fd b (toWords 16 ws) c hfd).1 k hk, nextState_get _ _ _ _ _ _ hk]
  split
  next => rw [zFields_get _ fs hk]
  next =>
    split
    next =>
      obtain ⟨N, hN⟩ := Option.ne_none_iff_exists'.1 (hreads _ (runIdx_mem_layoutReads fs (show 11 < 12 by decide)))
      rw [zFields_get _ fs (show 11 < 28 by decide)]
      exact (nextCounter_ok h.params hgrows.ok (hgrows.ext.fieldsOk h.fieldsOk _) hN).2.2 z hsat.one
    next =>
      have hi : (k - 12) % 16 < 16 := Nat.mod_lt _ (by decide)
      rw [(recompose_ok h.params hgrows.ok (hcipher _ hi)).2.2 z hsat.one _ (hwords _ hi), (hinput _ hi).2, hkeystream]

/-- Settles O52: with the canonical check each input has one reading, itself. -/
theorem stepIsSound : Obligations.StepIsSound := by
  intro s t fs fx fd z h hc he hx hst hz
  obtain ⟨st, ext, hstate, hinput, hout⟩ := exec_step_sound h he hx hst hz
  have hst' : st = zFields s.params.p z s.f fs 28 := Vector.ext fun k hk => (hstate k hk).eq hc
  have hext' : ext = zFields s.params.p z s.f fx 16 := Vector.ext fun i hi => (hinput i hi).eq hc
  refine Vector.ext fun k hk => ?_
  rw [hout k hk, nativeStep_get _ _ _ hk, hst', hext']

/-- Settles O53: the readings of the inputs, and the outputs part by part. -/
theorem stepIsSoundUpToCanonicity : Obligations.StepIsSoundUpToCanonicity := by
  intro s t fs fx fd z h he hx hst hz
  obtain ⟨st, ext, hstate, hinput, hout⟩ := exec_step_sound h he hx hst hz
  refine ⟨st, ext, fun k => (hstate k.val (by omega)).weaken, fun i => (hinput i.val i.isLt).weaken, fun k => ?_, ?_, fun i => ?_⟩
  · rw [hout k.val (by omega), if_pos k.isLt]
  · rw [hout 11 (by decide), if_neg (by decide), if_pos rfl]
  · rw [hout (12 + i.val) (by omega), if_neg (by omega), if_neg (by omega)]
    simp [Nat.mod_eq_of_lt i.isLt]

end Sys2Proof.Machine

/-! Errors (60_exceptions.md): what raises one, what it writes to STATUS, what it leaves, and what the engine does until H_OPEN
clears it (R220 to R231). -/

namespace Sys2Proof.Machine

/-! ### Every command answers next -/

/-- R230: every command ends as `finish` says: in its whole result, or with its error taken under its own OPCODE. -/
theorem exists_exec_eq_finish (i : Instr) (s : State) : ∃ r, exec i s = finish i.opcode s r := by
  cases i <;> exact ⟨_, rfl⟩

/-- Settles O16: both ends of a command are a next state. -/
theorem everyCommandAnswersNext : Obligations.EveryCommandAnswersNext := by
  intro i s
  obtain ⟨r, hr⟩ := exists_exec_eq_finish i s
  rcases finish_cases (op := i.opcode) (s := s) (r := r) with ⟨t, _, h⟩ | ⟨e, _, h⟩
  · exact ⟨t, hr.trans h⟩
  · exact ⟨_, hr.trans h⟩

/-! ### What an error leaves -/

/-- R224: a command that changes STATUS has taken an error, and done nothing else. -/
theorem exec_eq_raise_of_status_ne {s t : State} {i : Instr} (h : exec i s = .next t) (hne : t.status ≠ s.status) :
    ∃ e, t = s.raise i.opcode e := by
  rcases exec_frame i h with he | hf
  · exact he
  · exact absurd hf.status hne

/-- R223, R224: so has an issued word that changes STATUS, with bits 31:26 of the word. -/
theorem OpResult.eq_raise_of_status_ne {s t : State} {w : Word} (h : OpResult s (.issue w) t)
    (hne : t.status ≠ s.status) : ∃ e, t = s.raise (w.extractLsb' 26 6) e := by
  rw [← opcodeField_eq]
  cases h with
  | ignoredIssue => exact absurd rfl hne
  | illegal => exact ⟨.illegal, rfl⟩
  | executed _ hd hx =>
    rw [← decode_opcode hd]
    exact exec_eq_raise_of_status_ne hx hne
  | replied _ _ hi => exact absurd rfl (hi w)

/-- Settles O38: a change of STATUS is an error taken, which changes nothing else. -/
theorem failingCommandCommitsNothing : Obligations.FailingCommandCommitsNothing := by
  refine ⟨fun s t i h hne => ?_, fun s t w h hne => ?_⟩
  · obtain ⟨e, rfl⟩ := exec_eq_raise_of_status_ne h hne
    simp
  · obtain ⟨e, rfl⟩ := (hostOp_cases h).eq_raise_of_status_ne hne
    rw [raise_eq]

/-! ### The packed STATUS -/

/-- R226: STATUS of an error as a number: its fields are slices of the word, and make up the whole of it. -/
theorem statusWord_toNat (op : BitVec 6) (e : Err) : (statusWord op e).toNat =
    1 + e.kind.toNat * 2 + e.gadget.toNat * 2 ^ 4 + op.toNat * 2 ^ 8 + e.space.toNat * 2 ^ 14 + e.index.toNat * 2 ^ 15 := by
  obtain ⟨herr, hkind, hgadget, hop, hspace, hindex, hreserved⟩ := statusWord_fields op e
  have hslice : ∀ lo width, ((statusWord op e).extractLsb' lo width).toNat =
      (statusWord op e).toNat / 2 ^ lo % 2 ^ width := fun lo width => (bitField_eq _ lo width).symm
  have hodd : (statusWord op e).toNat % 2 = 1 := by
    simpa [BitVec.getLsbD, Nat.testBit_zero] using herr
  have hzero : (statusWord op e).toNat / 2 ^ 22 % 2 ^ 10 = 0 := by rw [← hslice, hreserved]; rfl
  have hlt := (statusWord op e).isLt
  rw [← hkind, ← hgadget, ← hspace, ← hindex, hslice, hslice, hslice, hslice]
  have hop' : op.toNat = (statusWord op e).toNat / 2 ^ 8 % 2 ^ 6 := by rw [← hslice, hop]
  omega

/-- R36: the codes of the leaf gadgets. -/
theorem code_of_mem_gadgetCodes {g : Gadget} {code : BitVec 4} (h : (g, code) ∈ gadgetCodes) : g.code = code := by
  have hall : ∀ q ∈ gadgetCodes, q.1.code = q.2 := by decide
  exact hall _ h

/-- R34: a register's number is its INDEX. -/
theorem toNat_index {i : Nat} (h : i < 128) : (BitVec.ofNat 7 i).toNat = i := by
  rw [BitVec.toNat_ofNat, Nat.mod_eq_of_lt h]

/-- Settles O39: the packed fields of an error, what they are for each of the four, and the OPCODE of an issued word. -/
theorem errorWritesPackedStatus : Obligations.ErrorWritesPackedStatus := by
  refine ⟨fun s op e he => ?_, fun g code j i hg => ?_, fun i => ⟨rfl, rfl, rfl, toNat_index i.isLt⟩,
    ⟨rfl, rfl, rfl, rfl⟩, ⟨rfl, rfl, rfl, rfl⟩, fun s t w _ h hne => (hostOp_cases h).eq_raise_of_status_ne hne⟩
  · obtain ⟨herr, hkind, hgadget, hop, hspace, hindex, hreserved⟩ := statusWord_fields op e
    rw [raise_congr he]
    exact ⟨herr, hkind, hgadget, hop, hspace, hindex, hreserved, statusWord_toNat op e⟩
  · have hcode := code_of_mem_gadgetCodes hg
    exact ⟨rfl, hcode, rfl, toNat_index (by omega), rfl, hcode, rfl, toNat_index i.isLt⟩

/-! ### The host's operations around an error -/

/-- R38: registers 0 to 5 are there. -/
theorem exists_idRegister (P : Params) {k : Nat} (h : k ≤ 5) : ∃ v, idRegister P k = some v := by
  interval_cases k <;> exact ⟨_, rfl⟩

/-- R227: while ERR = 1 only H_OPEN changes STATUS. -/
theorem OpResult.status_of_err {s t : State} {op : HostOp} (h : OpResult s op t) (he : s.err = true)
    (ho : op ≠ .openCtx) : t.status = s.status := by
  cases h with
  | opened => exact absurd rfl ho
  | ignoredWrite | bound | ignoredIssue | replied => rfl
  | illegal hf | executed hf => simp [he] at hf

/-- Settles O5: issues and writes are ignored by definition, reads answer a reply, and H_OPEN leaves a fresh engine. -/
theorem errorIsSticky : Obligations.ErrorIsSticky := by
  refine fun s he => ⟨fun w => if_pos he, fun i v => ?_, fun i => ⟨_, hostOp_readF s i⟩, fun j => ⟨_, hostOp_readR s j⟩,
    ⟨_, rfl⟩, ⟨_, rfl⟩, fun k hk => ?_, fun op t h ho => (hostOp_cases h).status_of_err he ho, _, rfl,
    fresh_err s.params s.pending s.replies⟩
  · simp [hostOp, hostWriteF, he]
  · obtain ⟨v, hv⟩ := exists_idRegister s.params hk
    exact ⟨_, hostOp_readId s hv⟩

/-- Settles O4: the write binds the register, field by field. -/
theorem writeBindsFreshVariable : Obligations.WriteBindsFreshVariable := by
  refine fun s => ⟨fun i v he => ⟨_, hostWriteF_eq s i v he, ?_, fun j hj => ?_, rfl, rfl, rfl, rfl, rfl, rfl, rfl, rfl⟩,
    fun i v hi => dif_neg (by omega)⟩
  · rw [bound_get, if_pos rfl, LC.single]
  · rw [bound_get, if_neg hj.symm]

/-! ### The checks before the operands -/

section
variable {s : State} {fs fx fd : FIdx}

/-- R222: LAYOUT and BLOCK check their run first. -/
theorem exec_layout_shape (h : 116 < fs.val) : exec (.layout fs) s = .next (s.raise 0x0A (.shape fs.val)) := by
  simp only [exec, execLayout, checkRun_error (show 128 < fs.val + 12 by omega), finish]

theorem exec_block_shape (h : 116 < fs.val) : exec (.block fs) s = .next (s.raise 0x0E (.shape fs.val)) := by
  simp only [exec, execBlock, checkRun_error (show 128 < fs.val + 12 by omega), finish]

/-- R191: what STEP's checks report is the command's error. -/
theorem exec_step_of_checks_error {e : Err} (h : stepChecks fs fx fd s = .error e) :
    exec (.step fs fx fd) s = .next (s.raise 0x0F e) := by
  simp only [exec, execStep, h, finish]

/-- R222: STEP's runs, in the order fs, fx, fd. -/
theorem stepChecks_shape_fs (h : 100 < fs.val) : stepChecks fs fx fd s = .error (.shape fs.val) := by
  simp only [stepChecks, checkRun_error (show 128 < fs.val + 28 by omega)]

theorem stepChecks_shape_fx (hs : fs.val ≤ 100) (h : 112 < fx.val) :
    stepChecks fs fx fd s = .error (.shape fx.val) := by
  simp only [stepChecks, checkRun_ok (show fs.val + 28 ≤ 128 by omega), checkRun_error (show 128 < fx.val + 16 by omega)]

theorem stepChecks_shape_fd (hs : fs.val ≤ 100) (hx : fx.val ≤ 112) (h : 100 < fd.val) :
    stepChecks fs fx fd s = .error (.shape fd.val) := by
  simp only [stepChecks, checkRun_ok (show fs.val + 28 ≤ 128 by omega), checkRun_ok (show fx.val + 16 ≤ 128 by omega),
    checkRun_error (show 128 < fd.val + 28 by omega)]

/-- R225: then the context. -/
theorem stepChecks_reuse (hs : fs.val ≤ 100) (hx : fx.val ≤ 112) (hd : fd.val ≤ 100) (h : 1 ≤ s.ctx.nstep) :
    stepChecks fs fx fd s = .error .contextReuse := by
  simp only [stepChecks, checkRun_ok (show fs.val + 28 ≤ 128 by omega), checkRun_ok (show fx.val + 16 ≤ 128 by omega),
    checkRun_ok (show fd.val + 28 ≤ 128 by omega), ge_iff_le, h, if_true]

end

/-- R79, R222, R225: a command that is ill-formed, whose runs do not fit or whose context does not allow it raises an error. -/
theorem exec_raise_of_not_allowed {s : State} {i : Instr} (h : ¬ (i.wellFormed = true ∧ RunsFit i ∧ s.ContextFree i)) :
    ∃ e, exec i s = .next (s.raise i.opcode e) := by
  cases i with
  | qr a b c d =>
    have hq : ¬ distinct4 a b c d = true := fun hq => h ⟨hq, trivial, trivial⟩
    exact ⟨.illegal, by simp only [exec, execQr, if_neg hq, finish, Instr.opcode]⟩
  | layout fs => exact ⟨_, exec_layout_shape (not_le.1 fun hf => h ⟨rfl, hf, trivial⟩)⟩
  | block fs => exact ⟨_, exec_block_shape (not_le.1 fun hf => h ⟨rfl, hf, trivial⟩)⟩
  | step fs fx fd =>
    cases hc : stepChecks fs fx fd s with
    | error e => exact ⟨e, exec_step_of_checks_error hc⟩
    | ok _ =>
      obtain ⟨hs, hx, hd, hn⟩ := stepChecks_ok.1 hc
      exact absurd ⟨rfl, ⟨hs, hx, hd⟩, hn⟩ h
  | _ => exact absurd ⟨rfl, trivial, trivial⟩ h

/-- Settles O36: the first run that does not fit is what the command's checks report. -/
theorem runPastTheFileIsShapeMismatch : Obligations.RunPastTheFileIsShapeMismatch := by
  intro s fs fx fd he
  refine ⟨fun h => ⟨?_, ?_⟩, fun h => ?_, fun hs h => ?_, fun hs hx h => ?_, fun op b => ?_, fun n prior ext h => if_neg h⟩
  · rw [exec_layout_shape h, raise_congr he]
  · rw [exec_block_shape h, raise_congr he]
  · rw [exec_step_of_checks_error (stepChecks_shape_fs h), raise_congr he]
  · rw [exec_step_of_checks_error (stepChecks_shape_fx hs h), raise_congr he]
  · rw [exec_step_of_checks_error (stepChecks_shape_fd hs hx h), raise_congr he]
  · obtain ⟨_, hkind, hgadget, _, hspace, hindex, _⟩ := statusWord_fields op (.shape b.val)
    exact ⟨hkind, hgadget, hspace, hindex⟩

/-- R225: STATUS of a ContextReuse. -/
theorem statusWord_contextReuse : statusWord 0x0F .contextReuse = 0x00000F09#32 := by decide

/-- Settles O37: STEP checks the step count before its operands, and no other command reads it. -/
theorem secondStepIsContextReuse : Obligations.SecondStepIsContextReuse := by
  refine ⟨fun s fs fx fd he hs hx hd hn => ?_, fun s t i n hi h => exec_atStep n hi h⟩
  rw [exec_step_of_checks_error (stepChecks_reuse hs hx hd hn), raise_congr he, statusWord_contextReuse]

/-! ### The operand checks -/

section
variable {s u : State} {op : BitVec 6} {qs : List (RIdx × Gadget)} {pre post : List OperandCheck} {q : OperandCheck}

/-- R229: a command that checks a list of word registers first reports the first one missing. -/
theorem checked_missing (h : rOrder qs = pre ++ q :: post) (hp : ∀ v ∈ pre, s.Has v) (hq : ¬ s.Has q) :
    finish op s (match s.checkRs qs with | .error e => .error e | .ok _ => .ok u) =
      .next (s.raise op (.decomposition q.gadget q.space q.index)) := by
  rw [checkRs_missing h hp hq]
  rfl

/-- Such a command completes when every register of the list is there. -/
theorem checked_completes (h : ∀ q ∈ rOrder qs, s.Has q) (hu : u.status = s.status) :
    ∃ t, finish op s (match s.checkRs qs with | .error e => .error e | .ok _ => .ok u) = .next t ∧
      t.status = s.status := by
  rw [checkRs_has.1 h]
  exact ⟨u, rfl, hu⟩

theorem checkRs_singleton (j : RIdx) (g : Gadget) : s.checkRs [(j, g)] = s.checkR j g := by
  rcases checkR_cases s j g with ⟨_, e⟩ | ⟨_, e⟩ <;> simp only [State.checkRs, e]

/-- The operands of a list of field registers are there when the registers have values. -/
theorem fOrder_has {is : List FIdx} : (∀ q ∈ fOrder is, s.Has q) ↔ ∀ i ∈ is, s.f[i].val ≠ none := by
  simp only [fOrder, List.mem_map, forall_exists_index, and_imp, forall_apply_eq_imp_iff₂, has_f]

/-- R229: the field registers STEP reads are its operands, in order. -/
theorem operandOrder_step {fs fx : FIdx} (fd : FIdx) (hs : fs.val ≤ 100) (hx : fx.val ≤ 112) :
    operandOrder (.step fs fx fd) = fOrder (stepReads fs fx) := by
  rw [operandOrder, blockOrder_eq (by omega), fxOrder_eq hx, stepReads, fOrder, fOrder, fOrder, List.map_append]

/-- R221, R229: a command past its shape and context checks reports the first operand missing in its order. -/
theorem exec_missing {i : Instr} (hw : i.wellFormed = true) (hf : RunsFit i) (hc : s.ContextFree i)
    (h : operandOrder i = pre ++ q :: post) (hp : ∀ v ∈ pre, s.Has v) (hq : ¬ s.Has q) :
    exec i s = .next (s.raise i.opcode (.decomposition q.gadget q.space q.index)) := by
  cases i with
  | decompose rd fs =>
    obtain ⟨a, i, b, hfs, _, hi, rfl⟩ := fOrder_missing (is := [fs]) h hp hq
    obtain rfl : i = fs := List.mem_singleton.1 (hfs ▸ List.mem_append_cons_self)
    simp only [exec, execDec, decompose_none s.params hi, finish, Instr.opcode]
  | recompose fd rs =>
    have hr := checkRs_missing (qs := [(rs, .recomp)]) h hp hq
    rw [checkRs_singleton] at hr
    simp only [exec, execRec, hr, finish, Instr.opcode]
  | mov rd rs => exact checked_missing (qs := [(rs, .mov)]) h hp hq
  | add rd a b => exact checked_missing (qs := [(a, .add), (b, .add)]) h hp hq
  | xor rd a b => exact checked_missing (qs := [(a, .xor), (b, .xor)]) h hp hq
  | rotl rd rs n => exact checked_missing (qs := [(rs, .rotl)]) h hp hq
  | qr a b c d =>
    have hr := checkRs_missing (qs := [(a, .add), (b, .add), (c, .add), (d, .xor)]) h hp hq
    simp only [exec, execQr, show distinct4 a b c d = true from hw, if_true, hr, finish, Instr.opcode]
  | dround => exact checked_missing (qs := roundChecks) h hp hq
  | snap => exact checked_missing (qs := snapChecks) h hp hq
  | perm => exact checked_missing (qs := roundChecks) h hp hq
  | combine => exact checked_missing (qs := combineChecks) h hp hq
  | layout fs =>
    obtain ⟨a, i, b, hreads, ha, hi, rfl⟩ := fOrder_missing ((blockOrder_eq hf).symm.trans h) hp hq
    simp only [exec, execLayout, checkRun_ok (show fs.val + 12 ≤ 128 from Nat.add_le_add_right hf 12),
      layoutGadget_none s.params hreads ha hi, finish, Instr.opcode]
  | block fs =>
    obtain ⟨a, i, b, hreads, ha, hi, rfl⟩ := fOrder_missing ((blockOrder_eq hf).symm.trans h) hp hq
    simp only [exec, execBlock, checkRun_ok (show fs.val + 12 ≤ 128 from Nat.add_le_add_right hf 12), blockGadget_eq,
      layoutGadget_none s.params hreads ha hi, finish, Instr.opcode]
  | step fs fx fd =>
    obtain ⟨hs, hx, hd⟩ := hf
    obtain ⟨a, i, b, hreads, ha, hi, rfl⟩ := fOrder_missing ((operandOrder_step fd hs hx).symm.trans h) hp hq
    exact exec_step_missing ⟨hs, hx, hd, hc⟩ hreads ha hi

/-- R220: a command past its shape and context checks, with every operand there, leaves STATUS. -/
theorem exec_completes {i : Instr} (hw : i.wellFormed = true) (hf : RunsFit i) (hc : s.ContextFree i)
    (h : ∀ q ∈ operandOrder i, s.Has q) : ∃ t, exec i s = .next t ∧ t.status = s.status := by
  cases i with
  | decompose rd fs =>
    obtain ⟨N, hN⟩ := Option.ne_none_iff_exists'.1 (fOrder_has (is := [fs]).1 h fs (List.mem_singleton_self fs))
    obtain ⟨L, hL⟩ := fval_written hN
    exact ⟨_, exec_dec rd (decompose_some s.params hL s.ctx), rfl⟩
  | recompose fd rs => exact ⟨_, exec_rec fd ((has_r s (rs, .recomp)).1 (h _ (List.mem_singleton_self _))), rfl⟩
  | mov rd rs => exact checked_completes (qs := [(rs, .mov)]) h rfl
  | add rd a b => exact checked_completes (qs := [(a, .add), (b, .add)]) h rfl
  | xor rd a b => exact checked_completes (qs := [(a, .xor), (b, .xor)]) h rfl
  | rotl rd rs n => exact checked_completes (qs := [(rs, .rotl)]) h rfl
  | qr a b c d =>
    have hr := checkRs_has (qs := [(a, .add), (b, .add), (c, .add), (d, .xor)]).1 h
    exact ⟨_, exec_qr hw (checkRs_written hr (j := a) (g := .add) (by simp))
      (checkRs_written hr (j := b) (g := .add) (by simp)) (checkRs_written hr (j := c) (g := .add) (by simp))
      (checkRs_written hr (j := d) (g := .xor) (by simp)), rfl⟩
  | dround => exact checked_completes (qs := roundChecks) h (setWords_status _ _ _)
  | snap => exact checked_completes (qs := snapChecks) h (setWords_status _ _ _)
  | perm => exact checked_completes (qs := roundChecks) h (setWords_status _ _ _)
  | combine => exact checked_completes (qs := combineChecks) h (setWords_status _ _ _)
  | layout fs =>
    rw [operandOrder, blockOrder_eq hf, fOrder_has] at h
    obtain ⟨w, c, hlayout⟩ := layoutGadget_some s.params h s.ctx
    exact ⟨_, exec_layout hf hlayout, setWords_status _ _ _⟩
  | block fs =>
    rw [operandOrder, blockOrder_eq hf, fOrder_has] at h
    obtain ⟨b, hblock⟩ := blockGadget_some fun _ hk => h _ (runIdx_mem_layoutReads fs hk)
    exact ⟨_, exec_block hf hblock, (setWords_status _ _ _).trans (setWords_status _ _ _)⟩
  | step fs fx fd =>
    obtain ⟨hs, hx, hd⟩ := hf
    rw [operandOrder_step fd hs hx, fOrder_has] at h
    obtain ⟨hvs, hvx⟩ := stepReads_values h
    obtain ⟨b, ws, c, _, _, hstep⟩ := exec_step_some ⟨hs, hx, hd, hc⟩ hvs hvx
    exact ⟨_, hstep, stepResult_status s fs fd b (toWords 16 ws) c⟩

/-- A list of operands that are not all there has a first one missing. -/
theorem exists_first_missing : ∀ {l : List OperandCheck}, ¬ (∀ q ∈ l, s.Has q) →
    ∃ pre q post, l = pre ++ q :: post ∧ (∀ v ∈ pre, s.Has v) ∧ ¬ s.Has q
  | [], h => absurd (List.forall_mem_nil _) h
  | q :: l, h => by
    by_cases hq : s.Has q
    · obtain ⟨pre, r, post, rfl, hpre, hr⟩ := exists_first_missing fun hl => h (List.forall_mem_cons.2 ⟨hq, hl⟩)
      exact ⟨q :: pre, r, post, rfl, List.forall_mem_cons.2 ⟨hq, hpre⟩, hr⟩
    · exact ⟨[], q, l, rfl, List.forall_mem_nil _, hq⟩

/-- Taking an error while ERR = 0 changes STATUS: it sets ERR. -/
theorem raise_status_ne (he : s.err = false) (op : BitVec 6) (e : Err) : (s.raise op e).status ≠ s.status := by
  intro h
  have herr := raise_err s op e
  rw [State.err, h, ← State.err, he] at herr
  cases herr

end

/-- Settles O34: the packed STATUS of a DecompositionFailure, and the first operand missing in the command's order. -/
theorem firstMissingOperandIsReported : Obligations.FirstMissingOperandIsReported := by
  refine ⟨fun op g code sp b i hg hsp hi => ?_, fun s i pre post q he hw hf hc h hp hq => ?_⟩
  · have hspace : (Err.decomposition g sp i).space.toNat = b := by
      simp only [List.mem_cons, Prod.mk.injEq, List.not_mem_nil, or_false] at hsp
      rcases hsp with ⟨rfl, rfl⟩ | ⟨rfl, rfl⟩ <;> rfl
    rw [statusWord_toNat, hspace]
    simp only [Err.kind, Err.gadget, Err.index, code_of_mem_gadgetCodes hg, toNat_index hi]
    rfl
  · rw [exec_missing hw hf hc h hp hq, raise_congr he]

/-- Settles O35: with a check failed the command takes an error, which changes STATUS; with all passed it completes. -/
theorem errorsHaveNoOtherCause : Obligations.ErrorsHaveNoOtherCause := by
  refine fun s i he => ⟨fun ⟨t, hx, ht⟩ => ?_, fun ⟨hw, hf, hc, h⟩ => exec_completes hw hf hc h⟩
  have hno : ∀ e, exec i s ≠ .next (s.raise i.opcode e) := fun e h => by
    cases hx.symm.trans h
    exact raise_status_ne he i.opcode e ht
  by_cases hallowed : i.wellFormed = true ∧ RunsFit i ∧ s.ContextFree i
  · obtain ⟨hw, hf, hc⟩ := hallowed
    refine ⟨hw, hf, hc, by_contra fun h => ?_⟩
    obtain ⟨pre, q, post, horder, hpre, hq⟩ := exists_first_missing h
    exact hno _ (exec_missing hw hf hc horder hpre hq)
  · obtain ⟨e, h⟩ := exec_raise_of_not_allowed hallowed
    exact absurd h (hno e)

end Sys2Proof.Machine

/-! Reset and hazards (R42, R61, R250, R255): the invariant at reset, and when the host may hand the context to folding. -/

namespace Sys2Proof.Machine

/-- Settles O42: reset is a freshly opened engine with the legal parameters that were chosen. -/
theorem resetMeetsTheInvariant : Obligations.ResetMeetsTheInvariant := fresh_inv Config.params_valid [] []

/-! ### The operations to come on the present context -/

section
variable {s : State} {pre post : List HostOp} {op : HostOp}

theorem isIssue_iff : op.isIssue = true ↔ ∃ w, op = .issue w := by
  cases op <;> simp [HostOp.isIssue]

/-- R61, R255: the predicate's three conditions, as propositions. -/
theorem foldable_iff : s.foldable = true ↔ s.ctx.cons ≠ [] ∧ (∀ w, .issue w ∉ s.toCome) ∧ s.err = false := by
  have hissues : s.toCome.any HostOp.isIssue = false ↔ ∀ w, .issue w ∉ s.toCome := by
    simp only [List.any_eq_false, isIssue_iff]
    exact ⟨fun h w hw => h _ hw ⟨w, rfl⟩, fun h _ hop ⟨w, hw⟩ => h w (hw ▸ hop)⟩
  simp only [State.foldable, State.lastCommandDone, Bool.and_eq_true, Bool.not_eq_true', hissues, List.isEmpty_eq_false_iff,
    ne_eq, and_assoc]

theorem foldable_eq_false_iff :
    s.foldable = false ↔ s.ctx.cons = [] ∨ (∃ w, .issue w ∈ s.toCome) ∨ s.err = true := by
  rw [← Bool.not_eq_true, foldable_iff, not_and_or, not_and_or, not_not, not_forall, Bool.not_eq_false]
  simp only [not_not]

/-- An operation with no H_OPEN before it acts on the present context. -/
theorem mem_toCome (h : s.pending = pre ++ op :: post) (hpre : .openCtx ∉ pre) (hop : op ≠ .openCtx) : op ∈ s.toCome := by
  have hall : ∀ o ∈ pre, (o != HostOp.openCtx) = true := fun o ho => bne_iff_ne.2 fun e => hpre (e ▸ ho)
  rw [State.toCome, h, List.takeWhile_append_of_pos hall,
    List.takeWhile_cons_of_pos (p := (· != HostOp.openCtx)) (bne_iff_ne.2 hop)]
  exact List.mem_append_cons_self

/-- Only the operations before an H_OPEN, or all where none is to come, act on the present context. -/
theorem mem_of_mem_toCome (h : s.pending = pre ∨ ∃ post, s.pending = pre ++ .openCtx :: post) (hop : op ∈ s.toCome) :
    op ∈ pre := by
  rw [State.toCome] at hop
  rcases h with h | ⟨post, h⟩ <;> rw [h] at hop
  · exact (List.takeWhile_sublist _).subset hop
  · rw [List.takeWhile_append] at hop
    split at hop
    · simpa using hop
    · exact (List.takeWhile_sublist _).subset hop

/-- R235: H_WRITE_F appends no constraint. -/
theorem hostOp_writeF_cons {t : State} {i : Nat} {v : Option Nat} (h : hostOp (.writeF i v) s = .next t) :
    t.ctx.cons = s.ctx.cons := by
  cases hostOp_cases h with
  | ignoredWrite => rfl
  | bound i => exact bound_cons s i _
  | replied _ hw => exact absurd rfl (hw i v)

end

/-! ### Commands that complete as the first of their context -/

theorem decCons_pos (P : Params) : 0 < P.decCons := by
  rw [Params.decCons]
  omega

/-- The operands of LAYOUT and BLOCK are the first 12 registers of their image. -/
theorem hasValues_of_blockOrder {s : State} {fs : FIdx} (hfit : fs.val ≤ 116) (h : ∀ q ∈ blockOrder fs, s.Has q) :
    s.HasValues fs 12 := by
  rw [blockOrder_eq hfit, fOrder_has] at h
  exact fun _ hk => h _ (runIdx_mem_layoutReads fs hk)

section
variable {s t : State} {i : Instr}

theorem State.Appended.cons_ne_nil {v q : Nat} (h : s.Appended t v q) (hq : 0 < q) : t.ctx.cons ≠ [] := by
  obtain ⟨_, hcons⟩ := h
  exact List.ne_nil_of_length_pos ((Nat.add_pos_right _ hq).trans_eq hcons.symm)

/-- R101, R163, R171, R191: a completed command that decomposes has appended constraints. -/
theorem cons_ne_nil_of_decomposing (h : s.Inv) (he : s.err = false) (hx : exec i s = .next t) (hst : t.status = s.status)
    (hi : (∃ rd fs, i = .decompose rd fs) ∨ (∃ fs, i = .layout fs) ∨ (∃ fs, i = .block fs) ∨
      ∃ fs fx fd, i = .step fs fx fd) : t.ctx.cons ≠ [] := by
  obtain ⟨_, hfit, _, hoperands⟩ := (errorsHaveNoOtherCause s i he).1 ⟨t, hx, hst⟩
  have hdec := decCons_pos s.params
  rcases hi with ⟨rd, fs, rfl⟩ | ⟨fs, rfl⟩ | ⟨fs, rfl⟩ | ⟨fs, fx, fd, rfl⟩
  · obtain ⟨N, hN⟩ := Option.ne_none_iff_exists'.1 ((fOrder_has (is := [fs])).1 hoperands fs (List.mem_singleton_self fs))
    obtain ⟨u, hu, _, _, _, happended, _⟩ := decTakesLow32 s rd fs N h hN
    cases hu.symm.trans hx
    exact happended.cons_ne_nil hdec
  · obtain ⟨u, hu, _, _, _, happended, _⟩ := layoutLoadsTheState s fs h hfit (hasValues_of_blockOrder hfit hoperands)
    cases hu.symm.trans hx
    exact happended.cons_ne_nil (by omega)
  · obtain ⟨u, hu, _, _, _, _, happended, _⟩ :=
      blockComputesTheKeystream s fs h hfit (hasValues_of_blockOrder hfit hoperands)
    cases hu.symm.trans hx
    exact happended.cons_ne_nil (by omega)
  · obtain ⟨_, _, _, _, _, _, _, _, _, _, happended, _⟩ := stepEffectsAndFrame s t fs fx fd h hx hst he
    exact happended.cons_ne_nil (by omega)

/-- R29: a command keeps the constraints that are there. -/
theorem exec_cons_ne_nil (hx : exec i s = .next t) (hc : s.ctx.cons ≠ []) : t.ctx.cons ≠ [] := by
  obtain ⟨_, qs, hqs⟩ := (exec_ctx_grows hx).1
  rw [hqs]
  exact List.append_ne_nil_of_left_ne_nil hc qs

theorem exec_pending (hx : exec i s = .next t) : t.pending = s.pending := by
  rcases exec_frame i hx with ⟨e, rfl⟩ | hf
  · exact raise_pending s i.opcode e
  · exact hf.pending

end

/-- Settles O60: each way of being false fails one of the predicate's three conditions; after a command that completes, the
constraints are there, what is to come is what was to come before it, and ERR is still 0. -/
theorem contextFoldsAfterItsLastCommand : Obligations.ContextFoldsAfterItsLastCommand := by
  refine ⟨foldable_eq_false_iff.2 (.inl rfl), fun s t h => ?_, fun s he => foldable_eq_false_iff.2 (.inr (.inr he)),
    fun s hc => foldable_eq_false_iff.2 (.inl hc), fun s t i v hc h => ?_, fun s pre post w hp hpre => ?_,
    fun s t i pre h he hx hst hi hp hpre => ?_⟩
  · cases h
    exact foldable_eq_false_iff.2 (.inl rfl)
  · exact foldable_eq_false_iff.2 (.inl ((hostOp_writeF_cons h).trans hc))
  · exact foldable_eq_false_iff.2 (.inr (.inl ⟨w, mem_toCome hp hpre nofun⟩))
  · rw [← exec_pending hx] at hp
    have hcons : t.ctx.cons ≠ [] := hi.elim (exec_cons_ne_nil hx) (cons_ne_nil_of_decomposing h he hx hst)
    have herr : t.err = false := by rw [State.err, hst, ← State.err, he]
    exact foldable_iff.2 ⟨hcons, fun w hw => hpre w (mem_of_mem_toCome hp hw), herr⟩

end Sys2Proof.Machine
